-- ==== Sys2Proof/Syntax.lean ====
section
/-!
DEFINITION. The instructions of Thirus 1 and the steps and events of the package: one constructor for each row of
spec/opcode_table.json. A register field holds the register's number; what the fields may hold is in WellFormed.lean.
-/
namespace Sys2Proof

/-- An instruction, or a step or event of the package that has no encoding (opcode_table.json, 95). -/
inductive Instr where
  -- Integer register-register forms (R113)
  /-- `add gd, ga, gb` (R113). -/
  | add (d a b : BitVec 6)
  /-- `sub gd, ga, gb` (R113). -/
  | sub (d a b : BitVec 6)
  /-- `and gd, ga, gb` (R113). -/
  | and (d a b : BitVec 6)
  /-- `or gd, ga, gb` (R113). -/
  | or (d a b : BitVec 6)
  /-- `xor gd, ga, gb` (R113). -/
  | xor (d a b : BitVec 6)
  /-- `shl gd, ga, gb` (R113). -/
  | shl (d a b : BitVec 6)
  /-- `shr gd, ga, gb` (R113). -/
  | shr (d a b : BitVec 6)
  /-- `sra gd, ga, gb` (R113). -/
  | sra (d a b : BitVec 6)
  /-- `mul gd, ga, gb` (R113). -/
  | mul (d a b : BitVec 6)
  /-- `mulh gd, ga, gb` (R113). -/
  | mulh (d a b : BitVec 6)
  /-- `mulhn gd, ga, gb` (R113). -/
  | mulhn (d a b : BitVec 6)
  /-- `div gd, ga, gb` (R113). -/
  | div (d a b : BitVec 6)
  /-- `divn gd, ga, gb` (R113). -/
  | divn (d a b : BitVec 6)
  /-- `rem gd, ga, gb` (R113). -/
  | rem (d a b : BitVec 6)
  /-- `remn gd, ga, gb` (R113). -/
  | remn (d a b : BitVec 6)
  /-- `min gd, ga, gb` (R113). -/
  | min (d a b : BitVec 6)
  /-- `max gd, ga, gb` (R113). -/
  | max (d a b : BitVec 6)
  /-- `minn gd, ga, gb` (R113). -/
  | minn (d a b : BitVec 6)
  /-- `maxn gd, ga, gb` (R113). -/
  | maxn (d a b : BitVec 6)
  /-- `slt gd, ga, gb` (R113). -/
  | slt (d a b : BitVec 6)
  /-- `sltn gd, ga, gb` (R113). -/
  | sltn (d a b : BitVec 6)
  /-- `clz gd, ga` (R113). -/
  | clz (d a : BitVec 6)
  /-- `ctz gd, ga` (R113). -/
  | ctz (d a : BitVec 6)
  /-- `popc gd, ga` (R113). -/
  | popc (d a : BitVec 6)
  /-- `sel gd, ga, gb` (R113). -/
  | sel (d a b : BitVec 6)
  -- Immediate forms (R115, R58)
  /-- `addi gd, ga, imm` (R115). -/
  | addi (d a : BitVec 6) (imm : BitVec 13)
  /-- `andi gd, ga, imm` (R115). -/
  | andi (d a : BitVec 6) (imm : BitVec 13)
  /-- `ori gd, ga, imm` (R115). -/
  | ori (d a : BitVec 6) (imm : BitVec 13)
  /-- `xori gd, ga, imm` (R115). -/
  | xori (d a : BitVec 6) (imm : BitVec 13)
  /-- `shi.shl gd, ga, n` (R115). -/
  | shiShl (d a : BitVec 6) (n : BitVec 6)
  /-- `shi.shr gd, ga, n` (R115). -/
  | shiShr (d a : BitVec 6) (n : BitVec 6)
  /-- `shi.sra gd, ga, n` (R115). -/
  | shiSra (d a : BitVec 6) (n : BitVec 6)
  /-- `slti gd, ga, imm` (R115). -/
  | slti (d a : BitVec 6) (imm : BitVec 13)
  /-- `ldhi gd, imm` (R58). -/
  | ldhi (d : BitVec 6) (imm : BitVec 19)
  /-- `adr gd, label` (R58). -/
  | adr (d : BitVec 6) (imm : BitVec 19)
  -- Scalar loads, stores and atomics (R116 to R119)
  /-- `lds.iN gd, [ga, off]`, sign-extending (R116). -/
  | ldsI (w : BitVec 2) (d a : BitVec 6) (imm : BitVec 10)
  /-- `lds.nN gd, [ga, off]`, zero-extending (R116). -/
  | ldsN (w : BitVec 2) (d a : BitVec 6) (imm : BitVec 10)
  /-- `sts.N gd, [ga, off]` (R116). -/
  | sts (w : BitVec 2) (d a : BitVec 6) (imm : BitVec 10)
  /-- `amo.swap[.32][.ord][.scope] gd, [ga]` (R118). -/
  | amoSwap (w : BitVec 1) (scope : BitVec 3) (ord : BitVec 2) (d a : BitVec 6)
  /-- `amo.cas[.32][.ord][.scope] gd, [ga]` (R118). -/
  | amoCas (w : BitVec 1) (scope : BitVec 3) (ord : BitVec 2) (d a : BitVec 6)
  /-- `amo.add[.32][.ord][.scope] gd, [ga]` (R118). -/
  | amoAdd (w : BitVec 1) (scope : BitVec 3) (ord : BitVec 2) (d a : BitVec 6)
  /-- `amo.and[.32][.ord][.scope] gd, [ga]` (R118). -/
  | amoAnd (w : BitVec 1) (scope : BitVec 3) (ord : BitVec 2) (d a : BitVec 6)
  /-- `amo.or[.32][.ord][.scope] gd, [ga]` (R118). -/
  | amoOr (w : BitVec 1) (scope : BitVec 3) (ord : BitVec 2) (d a : BitVec 6)
  /-- `amo.xor[.32][.ord][.scope] gd, [ga]` (R118). -/
  | amoXor (w : BitVec 1) (scope : BitVec 3) (ord : BitVec 2) (d a : BitVec 6)
  /-- `amo.min[.32][.ord][.scope] gd, [ga]` (R118). -/
  | amoMin (w : BitVec 1) (scope : BitVec 3) (ord : BitVec 2) (d a : BitVec 6)
  /-- `amo.max[.32][.ord][.scope] gd, [ga]` (R118). -/
  | amoMax (w : BitVec 1) (scope : BitVec 3) (ord : BitVec 2) (d a : BitVec 6)
  /-- `amo.minn[.32][.ord][.scope] gd, [ga]` (R118). -/
  | amoMinn (w : BitVec 1) (scope : BitVec 3) (ord : BitVec 2) (d a : BitVec 6)
  /-- `amo.maxn[.32][.ord][.scope] gd, [ga]` (R118). -/
  | amoMaxn (w : BitVec 1) (scope : BitVec 3) (ord : BitVec 2) (d a : BitVec 6)
  -- Branches and jumps (R120)
  /-- `bz.cond ga, label` (R120). -/
  | bz (cond : BitVec 3) (a : BitVec 6) (off : BitVec 16)
  /-- `bc.cond ga, gb, label` (R120). -/
  | bc (cond : BitVec 3) (a b : BitVec 6) (off : BitVec 10)
  /-- `jal label` (R120). -/
  | jal (off : BitVec 25)
  /-- `jr gd, [ga, imm]` (R120). -/
  | jr (d a : BitVec 6) (imm : BitVec 13)
  -- Fences and cache operations (R127 to R132)
  /-- `fence.acq.scope` (R127). -/
  | fenceAcq (scope : BitVec 3)
  /-- `fence.rel.scope` (R127). -/
  | fenceRel (scope : BitVec 3)
  /-- `fence.acqrel.scope` (R127). -/
  | fenceAcqrel (scope : BitVec 3)
  /-- `cwb.scope ga, gb` (R128). -/
  | cwb (scope : BitVec 3) (a b : BitVec 6)
  /-- `cinv.scope ga, gb` (R129). -/
  | cinv (scope : BitVec 3) (a b : BitVec 6)
  /-- `iinv.scope ga, gb` (R130). -/
  | iinv (scope : BitVec 3) (a b : BitVec 6)
  /-- `prefi ga, gb` (R131). -/
  | prefi (a b : BitVec 6)
  /-- `cresz gd, ga` (R132). -/
  | cresz (d a : BitVec 6)
  -- System instructions (R134)
  /-- `svc n` for n of 8 to 511 (R136, R382). -/
  | svcUnknown (n : BitVec 9)
  /-- `mfs gd, REG` (R135). -/
  | mfs (reg : BitVec 9) (d : BitVec 6)
  /-- `mts REG, ga` (R135). -/
  | mts (reg : BitVec 9) (a : BitVec 6)
  /-- `mon gd, [ga]` (R137). -/
  | mon (d a : BitVec 6)
  /-- `mwait gd, ga` (R138). -/
  | mwait (d a : BitVec 6)
  /-- `tlbi.page ga, gd` (R392). -/
  | tlbiPage (a d : BitVec 6)
  /-- `tlbi.asid gd` (R392). -/
  | tlbiAsid (d : BitVec 6)
  /-- `kslot gd, ga` (R400). -/
  | kslot (d a : BitVec 6)
  /-- `kslot.stat gd, ga` (R400). -/
  | kslotStat (d a : BitVec 6)
  -- Prefix (R64)
  /-- `pfx [!]mk[, copy]`: a mask loan (R64). -/
  | pfxMask (ce : BitVec 1) (copy : BitVec 6) (pred : BitVec 3) (neg : BitVec 1)
  /-- `pfx.cond gk[, copy]`: a condition loan (R64). -/
  | pfxCond (ce : BitVec 1) (copy : BitVec 6) (cond : BitVec 3) (pred : BitVec 6)
  /-- `pfx.copy r`: a copy destination only (R64). -/
  | pfxCopy (copy : BitVec 6)
  -- Scalar floating point (R123)
  /-- `fadd[.rne|.rtz|.rto].fmt gd, ga, gb` (R123). -/
  | fadd (fmt var : BitVec 2) (d a b : BitVec 6)
  /-- `fsub[.rne|.rtz|.rto].fmt gd, ga, gb` (R123). -/
  | fsub (fmt var : BitVec 2) (d a b : BitVec 6)
  /-- `fmul[.rne|.rtz|.rto].fmt gd, ga, gb` (R123). -/
  | fmul (fmt var : BitVec 2) (d a b : BitVec 6)
  /-- `fdiv[.rne|.rtz|.rto].fmt gd, ga, gb` (R123). -/
  | fdiv (fmt var : BitVec 2) (d a b : BitVec 6)
  /-- `fma.fmt gd, ga, gb` (R123). -/
  | fma (fmt : BitVec 2) (d a b : BitVec 6)
  /-- `fma.sub.fmt gd, ga, gb` (R123). -/
  | fmaSub (fmt : BitVec 2) (d a b : BitVec 6)
  /-- `fma.neg.fmt gd, ga, gb` (R123). -/
  | fmaNeg (fmt : BitVec 2) (d a b : BitVec 6)
  /-- `fminmax.min.fmt gd, ga, gb` (R123). -/
  | fminmaxMin (fmt : BitVec 2) (d a b : BitVec 6)
  /-- `fminmax.max.fmt gd, ga, gb` (R123). -/
  | fminmaxMax (fmt : BitVec 2) (d a b : BitVec 6)
  /-- `fminmax.minnum.fmt gd, ga, gb` (R123). -/
  | fminmaxMinnum (fmt : BitVec 2) (d a b : BitVec 6)
  /-- `fminmax.maxnum.fmt gd, ga, gb` (R123). -/
  | fminmaxMaxnum (fmt : BitVec 2) (d a b : BitVec 6)
  /-- `fcvt.fmt.from_src gd, ga` (R126). -/
  | fcvtFloat (fmt src : BitVec 2) (d a : BitVec 6)
  /-- `fcvt.fmt.from_i64|n64 gd, ga` (R126). -/
  | fcvtFromInt (fmt : BitVec 2) (uns : BitVec 1) (d a : BitVec 6)
  /-- `fcvt.i64|n64.from_fmt[.rtz] gd, ga` (R126). -/
  | fcvtToInt (fmt : BitVec 2) (uns rtz : BitVec 1) (d a : BitVec 6)
  /-- `fcmp.eq.fmt gd, ga, gb` (R123). -/
  | fcmpEq (fmt : BitVec 2) (d a b : BitVec 6)
  /-- `fcmp.lt.fmt gd, ga, gb` (R123). -/
  | fcmpLt (fmt : BitVec 2) (d a b : BitVec 6)
  /-- `fcmp.le.fmt gd, ga, gb` (R123). -/
  | fcmpLe (fmt : BitVec 2) (d a b : BitVec 6)
  /-- `fcmp.un.fmt gd, ga, gb` (R123). -/
  | fcmpUn (fmt : BitVec 2) (d a b : BitVec 6)
  -- Strips (R174, R175)
  /-- `setvl gd, ga, type` (R174). -/
  | setvl (blk : BitVec 3) (mpol tail : BitVec 1) (grp : BitVec 2) (fmt : BitVec 5) (d a : BitVec 6)
  /-- `advmg gd, ga, sh` (R175). -/
  | advmg (sh : BitVec 4) (d a : BitVec 6)
  -- Scheduling and synchronisation (R326)
  /-- `launch gd, ga` (R327). -/
  | launch (d a : BitVec 6)
  /-- `spawn gd, va, gb[, mask]` (R338). -/
  | spawn (m : BitVec 3) (d : BitVec 6) (a : BitVec 5) (b : BitVec 6)
  /-- `join ga` (R341). -/
  | join (a : BitVec 6)
  /-- `tend ga` (R340). -/
  | tend (a : BitVec 6)
  /-- `bar gd` (R337). -/
  | bar (d : BitVec 6)
  /-- `post ga` (R342). -/
  | post (a : BitVec 6)
  /-- `waiti ga` (R342). -/
  | waiti (a : BitVec 6)
  -- Vector arithmetic (R181)
  /-- `vadd vd, va, vb[, mask]` (R181). -/
  | vadd (m : BitVec 3) (d a b : BitVec 5)
  /-- `vsub vd, va, vb[, mask]` (R181). -/
  | vsub (m : BitVec 3) (d a b : BitVec 5)
  /-- `vmul vd, va, vb[, mask]` (R181). -/
  | vmul (m : BitVec 3) (d a b : BitVec 5)
  /-- `vdiv vd, va, vb[, mask]` (R181). -/
  | vdiv (m : BitVec 3) (d a b : BitVec 5)
  /-- `vsqrt vd, va[, mask]` (R181). -/
  | vsqrt (m : BitVec 3) (d a : BitVec 5)
  /-- `vmin vd, va, vb[, mask]` (R181). -/
  | vmin (m : BitVec 3) (d a b : BitVec 5)
  /-- `vmax vd, va, vb[, mask]` (R181). -/
  | vmax (m : BitVec 3) (d a b : BitVec 5)
  /-- `vabs vd, va[, mask]` (R181). -/
  | vabs (m : BitVec 3) (d a : BitVec 5)
  /-- `vneg vd, va[, mask]` (R181). -/
  | vneg (m : BitVec 3) (d a : BitVec 5)
  /-- `vfma vd, va, vb[, mask]` (R181). -/
  | vfma (m : BitVec 3) (d a b : BitVec 5)
  /-- `vfms vd, va, vb[, mask]` (R181). -/
  | vfms (m : BitVec 3) (d a b : BitVec 5)
  /-- `vfnma vd, va, vb[, mask]` (R181). -/
  | vfnma (m : BitVec 3) (d a b : BitVec 5)
  -- Vector logic and shifts (R182)
  /-- `vand vd, va, vb[, mask]` (R182). -/
  | vand (m : BitVec 3) (d a b : BitVec 5)
  /-- `vor vd, va, vb[, mask]` (R182). -/
  | vor (m : BitVec 3) (d a b : BitVec 5)
  /-- `vxor vd, va, vb[, mask]` (R182). -/
  | vxor (m : BitVec 3) (d a b : BitVec 5)
  /-- `vnot vd, va[, mask]` (R182). -/
  | vnot (m : BitVec 3) (d a : BitVec 5)
  /-- `vshl vd, va, vb[, mask]` (R182). -/
  | vshl (m : BitVec 3) (d a b : BitVec 5)
  /-- `vshr vd, va, vb[, mask]` (R182). -/
  | vshr (m : BitVec 3) (d a b : BitVec 5)
  /-- `vsra vd, va, vb[, mask]` (R182). -/
  | vsra (m : BitVec 3) (d a b : BitVec 5)
  -- Comparisons, selects, moves, conversions (R183 to R190)
  /-- `vcmp.eq md, va, vb[, mask]` (R183). -/
  | vcmpEq (m d : BitVec 3) (a b : BitVec 5)
  /-- `vcmp.ne md, va, vb[, mask]` (R183). -/
  | vcmpNe (m d : BitVec 3) (a b : BitVec 5)
  /-- `vcmp.lt md, va, vb[, mask]` (R183). -/
  | vcmpLt (m d : BitVec 3) (a b : BitVec 5)
  /-- `vcmp.le md, va, vb[, mask]` (R183). -/
  | vcmpLe (m d : BitVec 3) (a b : BitVec 5)
  /-- `vcmp.gt md, va, vb[, mask]` (R183). -/
  | vcmpGt (m d : BitVec 3) (a b : BitVec 5)
  /-- `vcmp.ge md, va, vb[, mask]` (R183). -/
  | vcmpGe (m d : BitVec 3) (a b : BitVec 5)
  /-- `vcmp.un md, va, vb[, mask]` (R183). -/
  | vcmpUn (m d : BitVec 3) (a b : BitVec 5)
  /-- `vsel vd, va, vb, mask` (R184). -/
  | vsel (m : BitVec 3) (d a b : BitVec 5)
  /-- `vmov vd, va[, mask]` (R185). -/
  | vmov (m : BitVec 3) (d a : BitVec 5)
  /-- `vbrd vd, ga[, mask]` (R186). -/
  | vbrd (m : BitVec 3) (d : BitVec 5) (a : BitVec 6)
  /-- `vidx vd, ga, gb[, mask]` (R187). -/
  | vidx (m : BitVec 3) (d : BitVec 5) (a b : BitVec 6)
  /-- `vcvt.fmt[.sr] vd, va[, mask]` (R188). -/
  | vcvt (m : BitVec 3) (sr : BitVec 1) (dfmt d a : BitVec 5)
  -- Mask instructions (R191, R192)
  /-- `mand md, ma, mb[, mask]` (R191). -/
  | mand (m d a b : BitVec 3)
  /-- `mor md, ma, mb[, mask]` (R191). -/
  | mor (m d a b : BitVec 3)
  /-- `mxor md, ma, mb[, mask]` (R191). -/
  | mxor (m d a b : BitVec 3)
  /-- `mnot md, ma[, mask]` (R191). -/
  | mnot (m d a : BitVec 3)
  /-- `mpop gd, ma[, mask]` (R192). -/
  | mpop (m : BitVec 3) (d : BitVec 6) (a : BitVec 3)
  /-- `mfirst gd, ma[, mask]` (R192). -/
  | mfirst (m : BitVec 3) (d : BitVec 6) (a : BitVec 3)
  /-- `mbef md, ma[, mask]` (R191). -/
  | mbef (m d a : BitVec 3)
  /-- `minc md, ma[, mask]` (R191). -/
  | minc (m d a : BitVec 3)
  /-- `mtos gd, ma, gb[, mask]` (R192). -/
  | mtos (m : BitVec 3) (d : BitVec 6) (a : BitVec 3) (b : BitVec 6)
  -- Reductions and scans (R199, R206, R207)
  /-- `vrsum vd, va, vb[, mask]` (R199). -/
  | vrsum (m : BitVec 3) (d a b : BitVec 5)
  /-- `vrsum.o vd, va, vb[, mask]` (R199). -/
  | vrsumO (m : BitVec 3) (d a b : BitVec 5)
  /-- `vrmax vd, va, vb[, mask]` (R199). -/
  | vrmax (m : BitVec 3) (d a b : BitVec 5)
  /-- `vrmin vd, va, vb[, mask]` (R199). -/
  | vrmin (m : BitVec 3) (d a b : BitVec 5)
  /-- `vrbit.and vd, va, vb[, mask]` (R199). -/
  | vrbitAnd (m : BitVec 3) (d a b : BitVec 5)
  /-- `vrbit.or vd, va, vb[, mask]` (R199). -/
  | vrbitOr (m : BitVec 3) (d a b : BitVec 5)
  /-- `vrbit.xor vd, va, vb[, mask]` (R199). -/
  | vrbitXor (m : BitVec 3) (d a b : BitVec 5)
  /-- `vscan.add vd, va, vb[, mask]` (R206). -/
  | vscanAdd (m : BitVec 3) (d a b : BitVec 5)
  /-- `vscan.max vd, va, vb[, mask]` (R206). -/
  | vscanMax (m : BitVec 3) (d a b : BitVec 5)
  /-- `vscan.min vd, va, vb[, mask]` (R206). -/
  | vscanMin (m : BitVec 3) (d a b : BitVec 5)
  /-- `vsegr vd, va, vb[, mask]` (R207). -/
  | vsegr (m : BitVec 3) (d a b : BitVec 5)
  -- Permutations and conflict detection (R208 to R211)
  /-- `vslup vd, va, gb[, mask]` (R209). -/
  | vslup (m : BitVec 3) (d a : BitVec 5) (b : BitVec 6)
  /-- `vsldn vd, va, gb[, mask]` (R209). -/
  | vsldn (m : BitVec 3) (d a : BitVec 5) (b : BitVec 6)
  /-- `vperm vd, va, vb[, mask]` (R209). -/
  | vperm (m : BitVec 3) (d a b : BitVec 5)
  /-- `vcomp vd, va[, mask]` (R210). -/
  | vcomp (m : BitVec 3) (d a : BitVec 5)
  /-- `vexpd vd, va[, mask]` (R209). -/
  | vexpd (m : BitVec 3) (d a : BitVec 5)
  /-- `vzip vd, va, vb[, mask]` (R209). -/
  | vzip (m : BitVec 3) (d a b : BitVec 5)
  /-- `vunzip.ev vd, va[, mask]` (R209). -/
  | vunzipEv (m : BitVec 3) (d a : BitVec 5)
  /-- `vunzip.od vd, va[, mask]` (R209). -/
  | vunzipOd (m : BitVec 3) (d a : BitVec 5)
  /-- `vconf md, va[, mask]` (R211). -/
  | vconf (m d : BitVec 3) (a : BitVec 5)
  -- Vector memory (R226 to R244)
  /-- `vld vd, [ga][, gc][, mask]` (R226). -/
  | vld (pol : BitVec 2) (so eo : BitVec 1) (m : BitVec 3) (c a : BitVec 6) (d : BitVec 5)
  /-- `vst vd, [ga][, gc][, mask]` (R226). -/
  | vst (pol : BitVec 2) (so eo : BitVec 1) (m : BitVec 3) (c a : BitVec 6) (d : BitVec 5)
  /-- `vldx vd, [ga], vc[, mask]` (R229). -/
  | vldx (pol : BitVec 2) (so eo : BitVec 1) (m : BitVec 3) (c : BitVec 5) (a : BitVec 6) (d : BitVec 5)
  /-- `vstx vd, [ga], vc[, mask]` (R229). -/
  | vstx (pol : BitVec 2) (so eo : BitVec 1) (m : BitVec 3) (c : BitVec 5) (a : BitVec 6) (d : BitVec 5)
  /-- `vstx.add vd, [ga], vc[, mask]` (R232). -/
  | vstxAdd (pol : BitVec 2) (so eo : BitVec 1) (m : BitVec 3) (c : BitVec 5) (a : BitVec 6) (d : BitVec 5)
  /-- `vldc vd, [ga], gc[, mask]` (R238). -/
  | vldc (pol : BitVec 2) (so : BitVec 1) (m : BitVec 3) (c a : BitVec 6) (d : BitVec 5)
  /-- `vstc vd, [ga], gc[, mask]` (R238). -/
  | vstc (pol : BitVec 2) (so : BitVec 1) (m : BitVec 3) (c a : BitVec 6) (d : BitVec 5)
  /-- `vpref.cc|.l1 [ga][, gc][, mask]` (R236). -/
  | vpref (pol : BitVec 2) (m : BitVec 3) (c a : BitVec 6) (lvl : BitVec 1)
  /-- `tld[.line][.scope] dst, [ga][, gc]`; d 32 and 33 name acc0 and acc1 (R242). -/
  | tld (pol : BitVec 2) (line : BitVec 1) (scope : BitVec 3) (c a d : BitVec 6)
  /-- `tst[.line][.scope] dst, [ga][, gc]`; d 32 and 33 name acc0 and acc1 (R242). -/
  | tst (pol : BitVec 2) (line : BitVec 1) (scope : BitVec 3) (c a d : BitVec 6)
  /-- `vamo.swap[.scope] vd, [ga], vc` (R234). -/
  | vamoSwap (scope : BitVec 3) (c : BitVec 5) (a : BitVec 6) (d : BitVec 5)
  /-- `vamo.cas[.scope] vd, [ga], vc` (R234). -/
  | vamoCas (scope : BitVec 3) (c : BitVec 5) (a : BitVec 6) (d : BitVec 5)
  /-- `vamo.add[.scope] vd, [ga], vc` (R234). -/
  | vamoAdd (scope : BitVec 3) (c : BitVec 5) (a : BitVec 6) (d : BitVec 5)
  /-- `vamo.and[.scope] vd, [ga], vc` (R234). -/
  | vamoAnd (scope : BitVec 3) (c : BitVec 5) (a : BitVec 6) (d : BitVec 5)
  /-- `vamo.or[.scope] vd, [ga], vc` (R234). -/
  | vamoOr (scope : BitVec 3) (c : BitVec 5) (a : BitVec 6) (d : BitVec 5)
  /-- `vamo.xor[.scope] vd, [ga], vc` (R234). -/
  | vamoXor (scope : BitVec 3) (c : BitVec 5) (a : BitVec 6) (d : BitVec 5)
  /-- `vamo.min[.scope] vd, [ga], vc` (R234). -/
  | vamoMin (scope : BitVec 3) (c : BitVec 5) (a : BitVec 6) (d : BitVec 5)
  /-- `vamo.max[.scope] vd, [ga], vc` (R234). -/
  | vamoMax (scope : BitVec 3) (c : BitVec 5) (a : BitVec 6) (d : BitVec 5)
  /-- `vamo.minn[.scope] vd, [ga], vc` (R234). -/
  | vamoMinn (scope : BitVec 3) (c : BitVec 5) (a : BitVec 6) (d : BitVec 5)
  /-- `vamo.maxn[.scope] vd, [ga], vc` (R234). -/
  | vamoMaxn (scope : BitVec 3) (c : BitVec 5) (a : BitVec 6) (d : BitVec 5)
  -- Tender instructions (R356)
  /-- `tcopy[.scope] gd, ga, gb` (R358). -/
  | tcopy (scope : BitVec 3) (d a b : BitVec 6)
  /-- `tcoll[.scope] gd, ga, gb` (R360). -/
  | tcoll (scope : BitVec 3) (d a b : BitVec 6)
  /-- `tsend[.scope] gd, ga, gb` (R366). -/
  | tsend (scope : BitVec 3) (d a b : BitVec 6)
  /-- `trecv[.scope] gd, ga, gb` (R367). -/
  | trecv (scope : BitVec 3) (d a b : BitVec 6)
  /-- `tprobe gd, gb` (R370). -/
  | tprobe (d b : BitVec 6)
  -- Matrix unit (R287 to R296)
  /-- `opadd accZ, va[, ma], vb[, mb][, vs]` (R287). -/
  | opadd (z : BitVec 1) (mb ma : BitVec 3) (b a s : BitVec 5)
  /-- `opsub accZ, va[, ma], vb[, mb][, vs]` (R287). -/
  | opsub (z : BitVec 1) (mb ma : BitVec 3) (b a s : BitVec 5)
  /-- `mzero accZ` (R294). -/
  | mzero (z : BitVec 1)
  /-- `mswap accZ` (R294). -/
  | mswap (z : BitVec 1)
  /-- `mext accZ, ga` (R294). -/
  | mext (z : BitVec 1) (a : BitVec 6)
  /-- `mgang gd, accZ, ga` (R295). -/
  | mgang (z : BitVec 1) (d a : BitVec 6)
  /-- `mcls gd, accZ, va` (R294). -/
  | mcls (z : BitVec 1) (d : BitVec 6) (a : BitVec 5)
  /-- `mrow vd, accZ, ga[, mask]` (R296). -/
  | mrowRead (z : BitVec 1) (m : BitVec 3) (a : BitVec 6) (d : BitVec 5)
  /-- `mrow accZ, ga, vd[, mask]` (R296). -/
  | mrowWrite (z : BitVec 1) (m : BitVec 3) (a : BitVec 6) (d : BitVec 5)
  /-- `mcol vd, accZ, ga[, mask]` (R296). -/
  | mcolRead (z : BitVec 1) (m : BitVec 3) (a : BitVec 6) (d : BitVec 5)
  /-- `mcol accZ, ga, vd[, mask]` (R296). -/
  | mcolWrite (z : BitVec 1) (m : BitVec 3) (a : BitVec 6) (d : BitVec 5)
  -- Gazetteer (R313)
  /-- `gins vd, va[, mask]` (R314). -/
  | gins (m : BitVec 3) (d a : BitVec 5)
  /-- `glkp vd, va[, mask]` (R315). -/
  | glkp (m : BitVec 3) (d a : BitVec 5)
  /-- `glkp.o vd, va[, mask]` (R315). -/
  | glkpO (m : BitVec 3) (d a : BitVec 5)
  /-- `gacc vd, va, vb[, mask]` (R314). -/
  | gacc (m : BitVec 3) (d a b : BitVec 5)
  /-- `gdrn vd, ga[, mask]` (R316). -/
  | gdrn (m : BitVec 3) (d : BitVec 5) (a : BitVec 6)
  /-- `gcnt gd` (R317). -/
  | gcnt (d : BitVec 6)
  -- Attention chain (R213 to R216) and special functions (R193 to R195)
  /-- `vdotseg vd, va, vb[, mask]` (R214). -/
  | vdotseg (m : BitVec 3) (d a b : BitVec 5)
  /-- `vexpm vd, va, vb[, mask]` (R215). -/
  | vexpm (m : BitVec 3) (d a b : BitVec 5)
  /-- `vaccw vd, va, vb[, mask]` (R216). -/
  | vaccw (m : BitVec 3) (d a b : BitVec 5)
  /-- `vrcp vd, va[, mask]` (R193). -/
  | vrcp (m : BitVec 3) (d a : BitVec 5)
  /-- `vrsq vd, va[, mask]` (R193). -/
  | vrsq (m : BitVec 3) (d a : BitVec 5)
  /-- `vexp2 vd, va[, mask]` (R193). -/
  | vexp2 (m : BitVec 3) (d a : BitVec 5)
  /-- `vdraw vd, ga, gb[, mask]` (R194). -/
  | vdraw (m : BitVec 3) (d : BitVec 5) (a b : BitVec 6)
  /-- `vclass vd, va[, mask]` (R195). -/
  | vclass (m : BitVec 3) (d a : BitVec 5)
  /-- Major 0x3F, whatever its tag holds (R77). -/
  | breakpoint (tag : BitVec 25)
  -- Compact forms (R63)
  /-- `add.c gd, gb` (R63). -/
  | addC (b d : BitVec 5)
  /-- `sub.c gd, gb` (R63). -/
  | subC (b d : BitVec 5)
  /-- `and.c gd, gb` (R63). -/
  | andC (b d : BitVec 5)
  /-- `or.c gd, gb` (R63). -/
  | orC (b d : BitVec 5)
  /-- `xor.c gd, gb` (R63). -/
  | xorC (b d : BitVec 5)
  /-- `shl.c gd, gb` (R63). -/
  | shlC (b d : BitVec 5)
  /-- `shr.c gd, gb` (R63). -/
  | shrC (b d : BitVec 5)
  /-- `sra.c gd, gb` (R63). -/
  | sraC (b d : BitVec 5)
  /-- `mul.c gd, gb` (R63). -/
  | mulC (b d : BitVec 5)
  /-- `min.c gd, gb` (R63). -/
  | minC (b d : BitVec 5)
  /-- `max.c gd, gb` (R63). -/
  | maxC (b d : BitVec 5)
  /-- `minn.c gd, gb` (R63). -/
  | minnC (b d : BitVec 5)
  /-- `maxn.c gd, gb` (R63). -/
  | maxnC (b d : BitVec 5)
  /-- `slt.c gd, gb` (R63). -/
  | sltC (b d : BitVec 5)
  /-- `sltn.c gd, gb` (R63). -/
  | sltnC (b d : BitVec 5)
  /-- `addi.c gd, imm` (R63). -/
  | addiC (imm d : BitVec 5)
  /-- `andi.c gd, imm` (R63). -/
  | andiC (imm d : BitVec 5)
  /-- `shli.c gd, imm` (R63). -/
  | shliC (imm d : BitVec 5)
  /-- `shri.c gd, imm` (R63). -/
  | shriC (imm d : BitVec 5)
  /-- `srai.c gd, imm` (R63). -/
  | sraiC (imm d : BitVec 5)
  /-- `mov.c gd, gb` (R63). -/
  | movC (b d : BitVec 5)
  /-- `li.c gd, imm` (R63). -/
  | liC (imm d : BitVec 5)
  /-- `lds.c gd, imm` (R63). -/
  | ldsC (imm d : BitVec 5)
  /-- `sts.c gd, imm` (R63). -/
  | stsC (imm d : BitVec 5)
  -- Steps and events of the table that have no encoding; their arguments are what comes from outside the step
  /-- The word or parcel about to execute is no instruction; its detail by R76. -/
  | illegalInstruction (word : BitVec 32) (detail : BitVec 8)
  /-- The parcel at `addr` cannot be fetched (R121, R145). -/
  | fetchFault (kind : BitVec 4) (addr : BitVec 64)
  /-- A pre-emption request: 0 halts before the next instruction, else the next length-bearing instruction is cut at
  that many elements, in whole granules (R46). -/
  | preemptHalt (cut : BitVec 16)
  /-- BCTX is written (R376). -/
  | bctxWrite (tag : BitVec 16)
  /-- BCMD is read into gd (R376). -/
  | bcmdRead (d : BitVec 6)
  /-- BWIN is read into gd (R377). -/
  | bwinRead (d : BitVec 6)
  /-- BWIN is written from ga (R377). -/
  | bwinWrite (a : BitVec 6)
  /-- BINT is written: 1 bits clear (R376). -/
  | bintClear (value : BitVec 64)
  /-- BMSI is written (R376, R397). -/
  | bmsi (value : BitVec 64)
  -- Forms, steps and events without operand fields; an event reads what comes from outside in State.inp
  /-- `fbar` (R130). -/
  | fbar
  /-- `nop` (R134). -/
  | nop
  /-- `svc 0`: retire the strand (R136, R382). -/
  | svcRetire
  /-- `svc 1`: abort the launch (R136, R382). -/
  | svcAbort
  /-- `svc 2`: reserve a range (R136, R382). -/
  | svcReserve
  /-- `svc 3`: release a range (R136, R382). -/
  | svcRelease
  /-- `svc 4`: fork a range (R136, R382). -/
  | svcFork
  /-- `svc 5`: code shootdown (R136, R382). -/
  | svcShootdown
  /-- `svc 6`: register the export window (R136, R382). -/
  | svcExportWindow
  /-- `svc 7`: reopen a collective group (R136, R382). -/
  | svcReopenGroup
  /-- `rtn` in a strand: return from a handler entered at TVEC (R143). -/
  | rtn
  /-- `rtn` on a Bridge core (R379). -/
  | rtnBridge
  /-- `halt` (R139). -/
  | halt
  /-- `tlbi.berth` (R392). -/
  | tlbiBerth
  /-- `yield` (R343). -/
  | yield
  /-- `gclr` (R317). -/
  | gclr
  /-- `nop.c` (R63). -/
  | nopC
  /-- A fired or lost monitor, or (input flag) a pre-emption request, ends the waiting mwait (R138, R344). -/
  | mwaitWake
  /-- The core cycles of the waiting mwait have passed (R138). -/
  | mwaitTimeout
  /-- The halted context that the input names is written to its save area (R387). -/
  | contextSave
  /-- One arbitration among the candidates of the input's berth (R332). -/
  | pilotPlace
  /-- The dependences of a queue's waiting head are read again (R329). -/
  | dependenceCheck
  /-- The head's dependences in host memory are read again (R329). -/
  | hostDependencePoll
  /-- A queue's oldest launch, drained, signals (R330). -/
  | launchSignal
  /-- Towing is applied until nothing changes (R333). -/
  | towExchange
  /-- The focused flotilla's barrier opens; the input is the grant bound that Pilot offers (R337). -/
  | barrierRelease
  /-- The waiting join reads its counter again (R341). -/
  | joinWake
  /-- The beacon mark has moved: the waiting waiti or stalled post is tried again (R342). -/
  | beaconAdvance
  /-- Pilot moves ring entries into a die's muster queue (R338). -/
  | ringRefill
  /-- A home refuses a tile's lock batch; the tile retries (R345). -/
  | lockBatchRefusal
  /-- A tender enters firmware for a collective command (R353). -/
  | tenderCommandEntry
  /-- Firmware writes TFDONE (R353). -/
  | tfdone
  /-- Firmware writes TFSEND (R353). -/
  | tfsend
  /-- Firmware writes TFRECV (R353). -/
  | tfrecv
  /-- Firmware reads TFWAIT (R353). -/
  | tfwait
  /-- A job's work ends and its token is written (R355). -/
  | tokenDelivery
  /-- A message from another member arrives (R368). -/
  | messageArrival
  /-- A refused message is tried again (R369). -/
  | messageRetry
  /-- Every member has contributed a chunk; the input holds the other members' bytes by rank (R362). -/
  | chunkComplete
  /-- TMO has passed on an incomplete chunk; the input holds the other ranks that had contributed to it (R363). -/
  | collectiveTimeout
  /-- A scale-up port fails (R371). -/
  | portFailure
  /-- BTAKE is read; with the input flag the firmware then services the trap it took (R376, R381). -/
  | btake
  /-- BCMD command 1 (R380). -/
  | sync
  /-- BCMD command 2 (R380). -/
  | retire
  /-- BCMD command 3 (R380, R384). -/
  | abort
  /-- BCMD command 4 (R380, R284). -/
  | spillAcc0
  /-- BCMD command 5 (R380, R284). -/
  | spillAcc1
  /-- BCMD command 6 (R380, R284). -/
  | loadAcc0
  /-- BCMD command 7 (R380, R284). -/
  | loadAcc1
  /-- The IOD sends or discards the oldest MSI-X message (R397). -/
  | msixDelivery
  /-- A bit of BINT ends the focused Bridge core's halt (R139, R376). -/
  | haltWake
  /-- The standby's heartbeat request, answered (input flag) or missed (R401, R402). -/
  | heartbeat
  /-- The lead core checks ENABLE (R411). -/
  | enableCheck
  /-- Function-level reset of the VF of the input's berth (R398). -/
  | functionLevelReset
  /-- The lead core takes a NOP call from the ring (R413). -/
  | callNop
  /-- The lead core takes a SPACE call from the ring (R413). -/
  | callSpace
  /-- The lead core takes a MAP call from the ring (R413). -/
  | callMap
  /-- The lead core takes a UNMAP call from the ring (R413). -/
  | callUnmap
  /-- The lead core takes a LAUNCH call from the ring (R413). -/
  | callLaunch
  /-- The lead core takes a RELEASE call from the ring (R413). -/
  | callRelease
  /-- The lead core takes a REVOKE call from the ring (R413). -/
  | callRevoke
  /-- The lead core takes a DEBUG call from the ring (R413). -/
  | callDebug
  /-- The lead core takes a RESUME call from the ring (R413). -/
  | callResume
  /-- The lead core takes a HWIN call from the ring (R413). -/
  | callHwin
  /-- A host read of FLUSH (R420). -/
  | flush
  /-- A host read of LSTAT (R411). -/
  | lstatRead
  /-- A host write to a link register of a VF, or (input flag) of the management window (R411, R434). -/
  | registerWrite
  /-- An inbound posted write at a BAR2 offset (R416, R417). -/
  | inboundPostedWrite
  /-- A home performs and acknowledges a piece of a requester's posted writes (R416). -/
  | pieceAcknowledgement
  /-- An inbound read at a BAR2 offset (R406, R417). -/
  | inboundRead
  /-- A CXL.mem request (R409, R419). -/
  | cxlMemRequest
  /-- The host's answer to an outbound read: 0 data, 1 Unsupported Request, 4 Completer Abort (R407). -/
  | outboundCompletion
  /-- No completion came within 2^24 IOD cycles (R407). -/
  | outboundReadTimeout
  /-- A CXL.cache snoop of a line; the host takes or drops its copy (R410, R423). -/
  | hostSnoop
  /-- Management command 1 (R435). -/
  | ident
  /-- Management command 2 (R433, R435). -/
  | attest
  /-- Management command 3 (R435). -/
  | berth
  /-- Management command 4 (R435). -/
  | keyset
  /-- Management command 5 (R435). -/
  | hdm
  /-- Management command 6 (R435). -/
  | stby
  /-- Management command 7 (R435). -/
  | mgmtRelease
  /-- Package reset is released (R427). -/
  | resetRelease
  /-- The next step of staged start ends; the input holds the image body it verified, or the failure code (R427 to R430). -/
  | stageAdvance
  /-- A die's DRAM training ends (R427). -/
  | dramTrainingDone
  /-- A scrub read: clean, corrected, or uncorrectable in a sector (R440). -/
  | scrub
  /-- A soft error in a unit, corrected or uncorrectable (R439). -/
  | errorDetected
  /-- A machine check of a unit; unit 9 is a Bridge core (R441). -/
  | machineCheck
  /-- Loss of a die, a die link or the controller (R441). -/
  | fatalError
  /-- Measured power and junction temperature call for throttling (R442). -/
  | throttle
  /-- Supply below 44 V for 1 ms, or junction at 115 °C (R442). -/
  | supplyFault
  /-- The lead core takes a call of an unassigned OP (R413). -/
  | callUnknownOp
  /-- Hot reset or link disable resets the package (R405). -/
  | hotReset
  /-- The focused strand's monitor fires, or (input flag) is lost, with no write (R137, R138). -/
  | spuriousMonitorFire
  /-- Measured power and junction temperature end throttling (R442). -/
  | throttleEnd
  /-- Tender firmware faults (R353). -/
  | firmwareFault
  /-- A contribution differs in format or OP (R362). -/
  | contributionMismatch
  /-- Another member fails (R363). -/
  | memberFailure
  /-- An SPDM message reaches the security controller (R405). -/
  | spdmMessage
  deriving DecidableEq, Repr

end Sys2Proof
end

