-- ==== Sys2Proof/WellFormed.lean ====
section
/-!
DEFINITION. Which instructions the encodings of R55 to R76 admit: the values that a field of the syntax may hold.
Steps and events have no encoding and are well formed whatever their arguments are.
-/
namespace Sys2Proof

/-- A scope code is 0 to 4 (R60). -/
def scopeOk (x : BitVec 3) : Bool := x.toNat ≤ 4

/-- A condition code is 0 to 5 (R59). -/
def condOk (x : BitVec 3) : Bool := x.toNat ≤ 5

/-- The width of a format code, or 0 when the code is reserved (R68). -/
def fmtWidth (f : Nat) : Nat :=
  match f with
  | 0x00 => 64 | 0x01 => 32 | 0x02 => 16 | 0x03 => 16 | 0x04 => 8 | 0x05 => 8
  | 0x08 => 8 | 0x09 => 16 | 0x0A => 32 | 0x0B => 64
  | 0x0C => 8 | 0x0D => 16 | 0x0E => 32 | 0x0F => 64
  | 0x10 => 4 | 0x11 => 4
  | 0x14 => 4 | 0x15 => 4 | 0x16 => 4 | 0x17 => 4
  | 0x18 => 4 | 0x19 => 4 | 0x1A => 4 | 0x1B => 4
  | _ => 0

/-- A type's fields hold no reserved code and no reserved combination (R68). -/
def typeOk (blk : BitVec 3) (fmt : BitVec 5) : Bool :=
  fmtWidth fmt.toNat ≠ 0 && blk.toNat ≤ 5 && (blk.toNat = 0 || fmtWidth fmt.toNat ≤ 8)

/-- A copy field is 0 unless CE is 1 (R64). -/
def copyOk (ce : BitVec 1) (copy : BitVec 6) : Bool := ce.toNat = 1 || copy.toNat = 0

/-- A scope that tcoll, tsend and trecv accept: die, pkg or sys (R356). -/
def tenderScopeOk (x : BitVec 3) : Bool := 2 ≤ x.toNat && x.toNat ≤ 4

/-- The instruction is one that an encoding of R57 admits. -/
def Instr.wf (i : Instr) : Bool :=
  match i with
  | .amoSwap _ scope _ _ _ => scopeOk scope
  | .amoCas _ scope _ d _ => scopeOk scope && d.toNat % 2 = 0
  | .amoAdd _ scope _ _ _ => scopeOk scope
  | .amoAnd _ scope _ _ _ => scopeOk scope
  | .amoOr _ scope _ _ _ => scopeOk scope
  | .amoXor _ scope _ _ _ => scopeOk scope
  | .amoMin _ scope _ _ _ => scopeOk scope
  | .amoMax _ scope _ _ _ => scopeOk scope
  | .amoMinn _ scope _ _ _ => scopeOk scope
  | .amoMaxn _ scope _ _ _ => scopeOk scope
  | .bz cond _ _ => condOk cond
  | .bc cond _ _ _ => condOk cond
  | .fenceAcq scope => scopeOk scope
  | .fenceRel scope => scopeOk scope
  | .fenceAcqrel scope => scopeOk scope
  | .cwb scope _ _ => scopeOk scope
  | .cinv scope _ _ => scopeOk scope
  | .iinv scope _ _ => scopeOk scope
  | .svcUnknown n => 8 ≤ n.toNat
  | .pfxMask ce copy _ _ => copyOk ce copy
  | .pfxCond ce copy cond _ => copyOk ce copy && condOk cond
  | .setvl blk _ _ _ fmt _ _ => typeOk blk fmt
  | .tld _ _ scope _ _ d => scopeOk scope && d.toNat ≤ 33
  | .tst _ _ scope _ _ d => scopeOk scope && d.toNat ≤ 33
  | .vpref pol _ _ _ _ => pol.toNat ≠ 3
  | .vamoSwap scope _ _ _ => scopeOk scope
  | .vamoCas scope _ _ _ => scopeOk scope
  | .vamoAdd scope _ _ _ => scopeOk scope
  | .vamoAnd scope _ _ _ => scopeOk scope
  | .vamoOr scope _ _ _ => scopeOk scope
  | .vamoXor scope _ _ _ => scopeOk scope
  | .vamoMin scope _ _ _ => scopeOk scope
  | .vamoMax scope _ _ _ => scopeOk scope
  | .vamoMinn scope _ _ _ => scopeOk scope
  | .vamoMaxn scope _ _ _ => scopeOk scope
  | .tcopy scope d a b =>
      scopeOk scope && d.toNat ≠ 0 && 1 ≤ a.toNat && a.toNat ≤ 62 && 1 ≤ b.toNat && b.toNat ≤ 62
  | .tcoll scope d _ _ => tenderScopeOk scope && d.toNat ≠ 0
  | .tsend scope d _ _ => tenderScopeOk scope && d.toNat ≠ 0
  | .trecv scope d _ _ => tenderScopeOk scope && d.toNat ≠ 0
  | _ => true

/-- The instruction has an encoding: it is no step or event of the second half of the table. -/
def Instr.encoded (i : Instr) : Bool :=
  match i with
  | .illegalInstruction .. | .fetchFault .. | .preemptHalt .. | .bctxWrite .. | .bcmdRead .. | .bwinRead ..
  | .bwinWrite .. | .bintClear .. | .bmsi .. | .mwaitWake | .mwaitTimeout | .contextSave | .pilotPlace
  | .dependenceCheck | .hostDependencePoll | .launchSignal | .towExchange | .barrierRelease | .joinWake
  | .beaconAdvance | .ringRefill | .lockBatchRefusal | .tenderCommandEntry | .tfdone | .tfsend | .tfrecv
  | .tfwait | .tokenDelivery | .messageArrival | .messageRetry | .chunkComplete | .collectiveTimeout
  | .portFailure | .btake | .sync | .retire | .abort | .spillAcc0 | .spillAcc1 | .loadAcc0 | .loadAcc1
  | .msixDelivery | .haltWake | .heartbeat | .enableCheck | .functionLevelReset | .callNop | .callSpace
  | .callMap | .callUnmap | .callLaunch | .callRelease | .callRevoke | .callDebug | .callResume | .callHwin
  | .flush | .lstatRead | .registerWrite | .inboundPostedWrite | .pieceAcknowledgement | .inboundRead
  | .cxlMemRequest | .outboundCompletion | .outboundReadTimeout | .hostSnoop | .ident | .attest | .berth
  | .keyset | .hdm | .stby | .mgmtRelease | .resetRelease | .stageAdvance | .dramTrainingDone | .scrub
  | .errorDetected | .machineCheck | .fatalError | .throttle | .supplyFault | .callUnknownOp | .hotReset
  | .spuriousMonitorFire | .throttleEnd | .firmwareFault | .contributionMismatch | .memberFailure
  | .spdmMessage => false
  | _ => true

end Sys2Proof
end

