-- ==== Sys2Proof/Word.lean ====
section
/-!
DEFINITION. The word and byte types of the machine, and vectors of fixed length read and written by a Nat index.
The vector helpers are written so that the kernel evaluates one entry without evaluating the others.
-/
namespace Sys2Proof

/-- A scalar register, an effective address, a system register (R107, R110). -/
abbrev Word := BitVec 64

/-- The smallest addressable unit of memory (R10). -/
abbrev Byte := BitVec 8

/-- The list `f i, f (i+1), …` of `n` entries. -/
def buildFrom {α : Type} (f : Nat → α) : Nat → Nat → List α
  | 0, _ => []
  | n + 1, i => f i :: buildFrom f n (i + 1)

@[simp] theorem buildFrom_length {α : Type} (f : Nat → α) (n i : Nat) :
    (buildFrom f n i).length = n := by
  induction n generalizing i with
  | zero => rfl
  | succ n ih => simp [buildFrom, ih]

/-- The vector whose entry `i` is `f i`. -/
def mkVec {α : Type} (n : Nat) (f : Nat → α) : Vector α n :=
  ⟨⟨buildFrom f n 0⟩, by simp⟩

/-- Entry `i` of a vector; `d` for an index beyond its length. -/
def vget {α : Type} {n : Nat} (v : Vector α n) (i : Nat) (d : α) : α :=
  v.toArray.toList.getD i d

/-- The vector with entry `i` replaced; unchanged for an index beyond its length. -/
def vset {α : Type} {n : Nat} (v : Vector α n) (i : Nat) (x : α) : Vector α n :=
  ⟨⟨v.toArray.toList.set i x⟩, by simp⟩

/-- Bits `lo + len - 1` down to `lo` of a natural number. -/
def bitsAt (w lo len : Nat) : Nat := w / 2 ^ lo % 2 ^ len

/-- Bit `i` of a natural number. -/
def bitAt (w i : Nat) : Bool := w / 2 ^ i % 2 = 1

/-- Sign extension of the low `n` bits of `x` to an integer. -/
def signedOf (n x : Nat) : Int :=
  if x % 2 ^ n < 2 ^ (n - 1) then ((x % 2 ^ n : Nat) : Int) else ((x % 2 ^ n : Nat) : Int) - (2 ^ n : Nat)

/-- An integer modulo `2^n`, as a natural number. -/
def wrapTo (n : Nat) (x : Int) : Nat := (x % ((2 ^ n : Nat) : Int)).toNat

/-- Little-endian bytes of a natural number. -/
def toBytes : Nat → Nat → List Byte
  | 0, _ => []
  | n + 1, x => BitVec.ofNat 8 x :: toBytes n (x / 256)

/-- The natural number that little-endian bytes hold. -/
def ofBytes : List Byte → Nat
  | [] => 0
  | b :: bs => b.toNat + 256 * ofBytes bs

/-- `a / b` rounded up. -/
def ceilDiv (a b : Nat) : Nat := (a + b - 1) / b

end Sys2Proof
end

