-- ==== Sys2Proof/Decode.lean ====
section
/-!
DEFINITION. The decoder, total on every parcel and word and refusing by name (R55 to R76), and after it the encoder,
written from the same layouts (R57, R61, R64).
-/
namespace Sys2Proof

/-- Why a parcel or word is no instruction (R76). -/
inductive DecodeError where
  /-- Detail 1: an unassigned major, function, op or dir code. -/
  | unassigned
  /-- Detail 2: a reserved field value, or a reserved or unused field that is not 0. -/
  | reserved
  /-- Detail 3: a major kept for later revisions. -/
  | futureMajor
  /-- A privileged form with a reserved field not 0: detail 6 at unprivileged level, 2 otherwise. -/
  | privilegedReserved
  /-- mfs of `reg` with a reserved field not 0: detail 6 where the register may not be read, 2 otherwise. -/
  | mfsReserved (reg : BitVec 9)
  /-- mts to `reg` with a reserved field not 0: detail 6 where the write is not allowed, 2 otherwise. -/
  | mtsReserved (reg : BitVec 9)
  /-- rtn with a reserved field not 0: detail 6 in a strand where no handler runs, 2 otherwise (R143). -/
  | rtnReserved
  deriving DecidableEq, Repr

/-- What decoding answers. -/
abbrev Decoded := Except DecodeError Instr

/-- Bits `lo + len - 1` down to `lo` of a word. -/
def fld (w lo len : Nat) : BitVec len := BitVec.ofNat len (w / 2 ^ lo)

/-- The instruction when `c` holds, detail 2 otherwise. -/
def need (c : Bool) (i : Instr) : Decoded := if c then .ok i else .error .reserved

/-- Bit 5 of a vector register field is 0 (R56). -/
def isV (x : BitVec 6) : Bool := x.toNat < 32

/-- Bits 5:3 of a mask register field are 0 (R56). -/
def isM (x : BitVec 6) : Bool := x.toNat < 8

/-- A vector register number. -/
def toV (x : BitVec 6) : BitVec 5 := BitVec.ofNat 5 x.toNat

/-- A mask register number. -/
def toM (x : BitVec 6) : BitVec 3 := BitVec.ofNat 3 x.toNat

/-- An unused field is 0 (R56). -/
def isZ {n : Nat} (x : BitVec n) : Bool := x.toNat = 0

/-- vd, va, vb. -/
def vvv (k : BitVec 5 → BitVec 5 → BitVec 5 → Instr) (d a b : BitVec 6) : Decoded :=
  need (isV d && isV a && isV b) (k (toV d) (toV a) (toV b))

/-- vd, va with b = 0. -/
def vv0 (k : BitVec 5 → BitVec 5 → Instr) (d a b : BitVec 6) : Decoded :=
  need (isV d && isV a && isZ b) (k (toV d) (toV a))

/-- vd, ga, gb. -/
def vgg (k : BitVec 5 → BitVec 6 → BitVec 6 → Instr) (d a b : BitVec 6) : Decoded :=
  need (isV d) (k (toV d) a b)

/-- vd, va, gb. -/
def vvg (k : BitVec 5 → BitVec 5 → BitVec 6 → Instr) (d a b : BitVec 6) : Decoded :=
  need (isV d && isV a) (k (toV d) (toV a) b)

/-- md, va, vb. -/
def mvv (k : BitVec 3 → BitVec 5 → BitVec 5 → Instr) (d a b : BitVec 6) : Decoded :=
  need (isM d && isV a && isV b) (k (toM d) (toV a) (toV b))

/-- md, ma, mb. -/
def mmm (k : BitVec 3 → BitVec 3 → BitVec 3 → Instr) (d a b : BitVec 6) : Decoded :=
  need (isM d && isM a && isM b) (k (toM d) (toM a) (toM b))

/-- md, ma with b = 0. -/
def mm0 (k : BitVec 3 → BitVec 3 → Instr) (d a b : BitVec 6) : Decoded :=
  need (isM d && isM a && isZ b) (k (toM d) (toM a))

/-- gd, ma with b = 0. -/
def gm0 (k : BitVec 6 → BitVec 3 → Instr) (d a b : BitVec 6) : Decoded :=
  need (isM a && isZ b) (k d (toM a))

/-- Major 0x01 (R74). -/
def dec01 (fn : BitVec 7) (b a d : BitVec 6) : Decoded :=
  match fn.toNat with
  | 0x00 => .ok (.add d a b)
  | 0x01 => .ok (.sub d a b)
  | 0x02 => .ok (.and d a b)
  | 0x03 => .ok (.or d a b)
  | 0x04 => .ok (.xor d a b)
  | 0x05 => .ok (.shl d a b)
  | 0x06 => .ok (.shr d a b)
  | 0x07 => .ok (.sra d a b)
  | 0x08 => .ok (.mul d a b)
  | 0x09 => .ok (.mulh d a b)
  | 0x0A => .ok (.mulhn d a b)
  | 0x0B => .ok (.div d a b)
  | 0x0C => .ok (.divn d a b)
  | 0x0D => .ok (.rem d a b)
  | 0x0E => .ok (.remn d a b)
  | 0x0F => .ok (.min d a b)
  | 0x10 => .ok (.max d a b)
  | 0x11 => .ok (.minn d a b)
  | 0x12 => .ok (.maxn d a b)
  | 0x13 => .ok (.slt d a b)
  | 0x14 => .ok (.sltn d a b)
  | 0x15 => need (isZ b) (.clz d a)
  | 0x16 => need (isZ b) (.ctz d a)
  | 0x17 => need (isZ b) (.popc d a)
  | 0x18 => .ok (.sel d a b)
  | _ => .error .unassigned

/-- Major 0x06: the kind and count of shi (R58). -/
def decShi (imm : BitVec 13) (a d : BitVec 6) : Decoded :=
  match imm.toNat / 64 with
  | 0 => .ok (.shiShl d a (BitVec.ofNat 6 imm.toNat))
  | 1 => .ok (.shiShr d a (BitVec.ofNat 6 imm.toNat))
  | 2 => .ok (.shiSra d a (BitVec.ofNat 6 imm.toNat))
  | _ => .error .reserved

/-- Major 0x0C (R74). -/
def dec0C (top : BitVec 3) (w : BitVec 1) (scope : BitVec 3) (ord : BitVec 2) (op : BitVec 4)
    (a d : BitVec 6) : Decoded :=
  let c := isZ top && scopeOk scope
  match op.toNat with
  | 0 => need c (.amoSwap w scope ord d a)
  | 1 => need (c && d.toNat % 2 = 0) (.amoCas w scope ord d a)
  | 2 => need c (.amoAdd w scope ord d a)
  | 3 => need c (.amoAnd w scope ord d a)
  | 4 => need c (.amoOr w scope ord d a)
  | 5 => need c (.amoXor w scope ord d a)
  | 6 => need c (.amoMin w scope ord d a)
  | 7 => need c (.amoMax w scope ord d a)
  | 8 => need c (.amoMinn w scope ord d a)
  | 9 => need c (.amoMaxn w scope ord d a)
  | _ => .error .unassigned

/-- Major 0x11: fences and cache operations (R74). -/
def dec11 (top : BitVec 1) (scope : BitVec 3) (op : BitVec 3) (b a d : BitVec 6) : Decoded :=
  let c := isZ top && scopeOk scope
  let c0 := isZ top && isZ scope
  match op.toNat with
  | 0 =>
    match d.toNat with
    | 1 => need (c && isZ a && isZ b) (.fenceAcq scope)
    | 2 => need (c && isZ a && isZ b) (.fenceRel scope)
    | 3 => need (c && isZ a && isZ b) (.fenceAcqrel scope)
    | _ => .error .reserved
  | 1 => need (c && isZ d) (.cwb scope a b)
  | 2 => need (c && isZ d) (.cinv scope a b)
  | 3 => need (c && isZ d) (.iinv scope a b)
  | 4 => need (c0 && isZ a && isZ b && isZ d) .fbar
  | 5 => need (c0 && isZ d) (.prefi a b)
  | 6 => need (c0 && isZ b) (.cresz d a)
  | _ => .error .unassigned

/-- The service numbers of svc (R382). -/
def decSvc (n : BitVec 9) : Instr :=
  match n.toNat with
  | 0 => .svcRetire
  | 1 => .svcAbort
  | 2 => .svcReserve
  | 3 => .svcRelease
  | 4 => .svcFork
  | 5 => .svcShootdown
  | 6 => .svcExportWindow
  | 7 => .svcReopenGroup
  | _ => .svcUnknown n

/-- A privileged form: a reserved field not 0 is `privilegedReserved`. -/
def needP (c : Bool) (i : Instr) : Decoded := if c then .ok i else .error .privilegedReserved

/-- Major 0x12 (R75, R134, R392, R400). -/
def dec12 (imm : BitVec 9) (a d : BitVec 6) (fn : BitVec 4) : Decoded :=
  match fn.toNat with
  | 0 => need (isZ imm && isZ a && isZ d) .nop
  | 1 => need (isZ a && isZ d) (decSvc imm)
  | 2 => if isZ imm && isZ a && isZ d then .ok .rtn else .error .rtnReserved
  | 3 => if isZ a then .ok (.mfs imm d) else .error (.mfsReserved imm)
  | 4 => if isZ d then .ok (.mts imm a) else .error (.mtsReserved imm)
  | 5 => need (isZ imm) (.mon d a)
  | 6 => need (isZ imm) (.mwait d a)
  | 7 => needP (isZ imm && isZ a && isZ d) .halt
  | 8 =>
    match imm.toNat with
    | 0 => .ok (.tlbiPage a d)
    | 1 => needP (isZ a) (.tlbiAsid d)
    | 2 => needP (isZ a && isZ d) .tlbiBerth
    | _ => .error .privilegedReserved
  | 9 =>
    match imm.toNat with
    | 0 => .ok (.kslot d a)
    | 1 => .ok (.kslotStat d a)
    | _ => .error .privilegedReserved
  | _ => .error .unassigned

/-- Major 0x13: pfx (R64). -/
def dec13 (top : BitVec 6) (ce : BitVec 1) (copy : BitVec 6) (cond : BitVec 3) (pred : BitVec 6) (n : BitVec 1)
    (kind : BitVec 2) : Decoded :=
  let c := isZ top && copyOk ce copy
  match kind.toNat with
  | 0 => need (c && isZ cond && isM pred) (.pfxMask ce copy (toM pred) n)
  | 1 => need (c && condOk cond && isZ n) (.pfxCond ce copy cond pred)
  | 2 => need (c && ce.toNat = 1 && isZ cond && isZ pred && isZ n) (.pfxCopy copy)
  | _ => .error .reserved

/-- Major 0x14: scalar floating point (R74, R123, R126). -/
def dec14 (var : BitVec 2) (fmt : BitVec 2) (op : BitVec 3) (b a d : BitVec 6) : Decoded :=
  match op.toNat with
  | 0 => .ok (.fadd fmt var d a b)
  | 1 => .ok (.fsub fmt var d a b)
  | 2 => .ok (.fmul fmt var d a b)
  | 3 => .ok (.fdiv fmt var d a b)
  | 4 =>
    match var.toNat with
    | 0 => .ok (.fma fmt d a b)
    | 1 => .ok (.fmaSub fmt d a b)
    | 2 => .ok (.fmaNeg fmt d a b)
    | _ => .error .reserved
  | 5 =>
    match var.toNat with
    | 0 => .ok (.fminmaxMin fmt d a b)
    | 1 => .ok (.fminmaxMax fmt d a b)
    | 2 => .ok (.fminmaxMinnum fmt d a b)
    | _ => .ok (.fminmaxMaxnum fmt d a b)
  | 6 =>
    match var.toNat with
    | 0 => need (b.toNat < 4) (.fcvtFloat fmt (BitVec.ofNat 2 b.toNat) d a)
    | 1 => need (b.toNat < 2) (.fcvtFromInt fmt (BitVec.ofNat 1 b.toNat) d a)
    | 2 => need (b.toNat < 4) (.fcvtToInt fmt (BitVec.ofNat 1 b.toNat) (BitVec.ofNat 1 (b.toNat / 2)) d a)
    | _ => .error .reserved
  | _ =>
    match var.toNat with
    | 0 => .ok (.fcmpEq fmt d a b)
    | 1 => .ok (.fcmpLt fmt d a b)
    | 2 => .ok (.fcmpLe fmt d a b)
    | _ => .ok (.fcmpUn fmt d a b)

/-- Major 0x16 (R326). -/
def dec16 (fn : BitVec 4) (m : BitVec 3) (b a d : BitVec 6) : Decoded :=
  match fn.toNat with
  | 0 => need (isZ m && isZ b) (.launch d a)
  | 1 => need (isV a) (.spawn m d (toV a) b)
  | 2 => need (isZ m && isZ b && isZ d) (.join a)
  | 3 => need (isZ m && isZ b && isZ d) (.tend a)
  | 4 => need (isZ m && isZ b && isZ a) (.bar d)
  | 5 => need (isZ m && isZ b && isZ d) (.post a)
  | 6 => need (isZ m && isZ b && isZ d) (.waiti a)
  | 7 => need (isZ m && isZ b && isZ a && isZ d) .yield
  | _ => .error .unassigned

/-- Major 0x18 (R181). -/
def dec18 (fn : BitVec 4) (m : BitVec 3) (b a d : BitVec 6) : Decoded :=
  match fn.toNat with
  | 0 => vvv (.vadd m) d a b
  | 1 => vvv (.vsub m) d a b
  | 2 => vvv (.vmul m) d a b
  | 3 => vvv (.vdiv m) d a b
  | 4 => vv0 (.vsqrt m) d a b
  | 5 => vvv (.vmin m) d a b
  | 6 => vvv (.vmax m) d a b
  | 7 => vv0 (.vabs m) d a b
  | 8 => vv0 (.vneg m) d a b
  | 9 => vvv (.vfma m) d a b
  | 10 => vvv (.vfms m) d a b
  | 11 => vvv (.vfnma m) d a b
  | _ => .error .unassigned

/-- Major 0x19 (R182). -/
def dec19 (fn : BitVec 4) (m : BitVec 3) (b a d : BitVec 6) : Decoded :=
  match fn.toNat with
  | 0 => vvv (.vand m) d a b
  | 1 => vvv (.vor m) d a b
  | 2 => vvv (.vxor m) d a b
  | 3 => vv0 (.vnot m) d a b
  | 4 => vvv (.vshl m) d a b
  | 5 => vvv (.vshr m) d a b
  | 6 => vvv (.vsra m) d a b
  | _ => .error .unassigned

/-- Major 0x1A (R183 to R188). -/
def dec1A (fn : BitVec 4) (m : BitVec 3) (b a d : BitVec 6) : Decoded :=
  match fn.toNat with
  | 0 => mvv (.vcmpEq m) d a b
  | 1 => mvv (.vcmpNe m) d a b
  | 2 => mvv (.vcmpLt m) d a b
  | 3 => mvv (.vcmpLe m) d a b
  | 4 => mvv (.vcmpGt m) d a b
  | 5 => mvv (.vcmpGe m) d a b
  | 6 => mvv (.vcmpUn m) d a b
  | 7 => vvv (.vsel m) d a b
  | 8 => vv0 (.vmov m) d a b
  | 9 => need (isV d && isZ b) (.vbrd m (toV d) a)
  | 10 => vgg (.vidx m) d a b
  | 11 => need (isV d && isV a) (.vcvt m (BitVec.ofNat 1 (b.toNat / 32)) (BitVec.ofNat 5 b.toNat) (toV d) (toV a))
  | _ => .error .unassigned

/-- Major 0x1B (R191, R192). -/
def dec1B (fn : BitVec 4) (m : BitVec 3) (b a d : BitVec 6) : Decoded :=
  match fn.toNat with
  | 0 => mmm (.mand m) d a b
  | 1 => mmm (.mor m) d a b
  | 2 => mmm (.mxor m) d a b
  | 3 => mm0 (.mnot m) d a b
  | 4 => gm0 (.mpop m) d a b
  | 5 => gm0 (.mfirst m) d a b
  | 6 => mm0 (.mbef m) d a b
  | 7 => mm0 (.minc m) d a b
  | 8 => need (isM a) (.mtos m d (toM a) b)
  | _ => .error .unassigned

/-- Major 0x1C (R199, R206, R207). -/
def dec1C (fn : BitVec 4) (m : BitVec 3) (b a d : BitVec 6) : Decoded :=
  match fn.toNat with
  | 0 => vvv (.vrsum m) d a b
  | 1 => vvv (.vrsumO m) d a b
  | 2 => vvv (.vrmax m) d a b
  | 3 => vvv (.vrmin m) d a b
  | 4 => vvv (.vrbitAnd m) d a b
  | 5 => vvv (.vrbitOr m) d a b
  | 6 => vvv (.vrbitXor m) d a b
  | 7 => vvv (.vscanAdd m) d a b
  | 8 => vvv (.vscanMax m) d a b
  | 9 => vvv (.vscanMin m) d a b
  | 10 => vvv (.vsegr m) d a b
  | _ => .error .unassigned

/-- Major 0x1D (R209, R210). -/
def dec1D (fn : BitVec 4) (m : BitVec 3) (b a d : BitVec 6) : Decoded :=
  match fn.toNat with
  | 0 => vvg (.vslup m) d a b
  | 1 => vvg (.vsldn m) d a b
  | 2 => vvv (.vperm m) d a b
  | 3 => vv0 (.vcomp m) d a b
  | 4 => vv0 (.vexpd m) d a b
  | 5 => vvv (.vzip m) d a b
  | 6 =>
    match b.toNat with
    | 0 => need (isV d && isV a) (.vunzipEv m (toV d) (toV a))
    | 1 => need (isV d && isV a) (.vunzipOd m (toV d) (toV a))
    | _ => .error .reserved
  | _ => .error .unassigned

/-- Major 0x1E (R211). -/
def dec1E (fn : BitVec 4) (m : BitVec 3) (b a d : BitVec 6) : Decoded :=
  match fn.toNat with
  | 0 => need (isM d && isV a && isZ b) (.vconf m (toM d) (toV a))
  | _ => .error .unassigned

/-- Majors 0x20 to 0x24 and 0x26: the VM layout (R223, R236). -/
def decVM (major : Nat) (pol : BitVec 2) (so eo : BitVec 1) (m : BitVec 3) (c a d : BitVec 6) : Decoded :=
  match major with
  | 0x20 => need (isV d) (.vld pol so eo m c a (toV d))
  | 0x21 => need (isV d) (.vst pol so eo m c a (toV d))
  | 0x22 => need (isV d && isV c) (.vldx pol so eo m (toV c) a (toV d))
  | 0x23 => need (isV d && isV c) (.vstx pol so eo m (toV c) a (toV d))
  | 0x24 => need (isV d && isV c) (.vstxAdd pol so eo m (toV c) a (toV d))
  | _ => need (isZ so && isZ eo && pol.toNat ≠ 3 && d.toNat < 2) (.vpref pol m c a (BitVec.ofNat 1 d.toNat))

/-- Major 0x25 (R238). -/
def dec25 (pol : BitVec 2) (so dir : BitVec 1) (m : BitVec 3) (c a d : BitVec 6) : Decoded :=
  if dir.toNat = 0 then need (isV d) (.vldc pol so m c a (toV d)) else need (isV d) (.vstc pol so m c a (toV d))

/-- Major 0x27 (R242). -/
def dec27 (pol : BitVec 2) (dir line : BitVec 1) (scope : BitVec 3) (c a d : BitVec 6) : Decoded :=
  if dir.toNat = 0 then need (scopeOk scope && d.toNat ≤ 33) (.tld pol line scope c a d)
  else need (scopeOk scope && d.toNat ≤ 33) (.tst pol line scope c a d)

/-- Major 0x28 (R234). -/
def dec28 (scope : BitVec 3) (op : BitVec 4) (c a d : BitVec 6) : Decoded :=
  let k := scopeOk scope && isV c && isV d
  match op.toNat with
  | 0 => need k (.vamoSwap scope (toV c) a (toV d))
  | 1 => need k (.vamoCas scope (toV c) a (toV d))
  | 2 => need k (.vamoAdd scope (toV c) a (toV d))
  | 3 => need k (.vamoAnd scope (toV c) a (toV d))
  | 4 => need k (.vamoOr scope (toV c) a (toV d))
  | 5 => need k (.vamoXor scope (toV c) a (toV d))
  | 6 => need k (.vamoMin scope (toV c) a (toV d))
  | 7 => need k (.vamoMax scope (toV c) a (toV d))
  | 8 => need k (.vamoMinn scope (toV c) a (toV d))
  | 9 => need k (.vamoMaxn scope (toV c) a (toV d))
  | _ => .error .unassigned

/-- Major 0x29 (R356). -/
def dec29 (fn : BitVec 4) (scope : BitVec 3) (b a d : BitVec 6) : Decoded :=
  match fn.toNat with
  | 0 => need (scopeOk scope && d.toNat ≠ 0 && 1 ≤ a.toNat && a.toNat ≤ 62 && 1 ≤ b.toNat && b.toNat ≤ 62)
      (.tcopy scope d a b)
  | _ => .error .unassigned

/-- Major 0x2A (R356). -/
def dec2A (fn : BitVec 4) (scope : BitVec 3) (b a d : BitVec 6) : Decoded :=
  match fn.toNat with
  | 0 => need (tenderScopeOk scope && d.toNat ≠ 0) (.tcoll scope d a b)
  | _ => .error .unassigned

/-- Major 0x2B (R356). -/
def dec2B (fn : BitVec 4) (scope : BitVec 3) (b a d : BitVec 6) : Decoded :=
  match fn.toNat with
  | 0 => need (tenderScopeOk scope && d.toNat ≠ 0) (.tsend scope d a b)
  | 1 => need (tenderScopeOk scope && d.toNat ≠ 0) (.trecv scope d a b)
  | 2 => need (isZ scope && isZ a) (.tprobe d b)
  | _ => .error .unassigned

/-- Majors 0x2C and 0x2D (R287). -/
def decMX (sub : Bool) (z : BitVec 1) (mb ma : BitVec 3) (b a s : BitVec 6) : Decoded :=
  if sub then need (isV b && isV a && isV s) (.opsub z mb ma (toV b) (toV a) (toV s))
  else need (isV b && isV a && isV s) (.opadd z mb ma (toV b) (toV a) (toV s))

/-- Major 0x2E (R294). -/
def dec2E (z : BitVec 1) (top : BitVec 2) (fn : BitVec 4) (b a d : BitVec 6) : Decoded :=
  let c := isZ top && isZ b
  match fn.toNat with
  | 0 => need (c && isZ a && isZ d) (.mzero z)
  | 1 => need (c && isZ a && isZ d) (.mswap z)
  | 2 => need (c && isZ d) (.mext z a)
  | 3 => need c (.mgang z d a)
  | 4 => need (c && isV a) (.mcls z d (toV a))
  | _ => .error .unassigned

/-- Major 0x2F (R296). -/
def dec2F (z top : BitVec 1) (dir : BitVec 2) (m : BitVec 3) (b a d : BitVec 6) : Decoded :=
  let c := isZ top && isZ b && isV d
  match dir.toNat with
  | 0 => need c (.mrowRead z m a (toV d))
  | 1 => need c (.mrowWrite z m a (toV d))
  | 2 => need c (.mcolRead z m a (toV d))
  | _ => need c (.mcolWrite z m a (toV d))

/-- Major 0x30 (R313). -/
def dec30 (fn : BitVec 4) (m : BitVec 3) (b a d : BitVec 6) : Decoded :=
  match fn.toNat with
  | 0 => vv0 (.gins m) d a b
  | 1 =>
    match b.toNat with
    | 0 => need (isV d && isV a) (.glkp m (toV d) (toV a))
    | 1 => need (isV d && isV a) (.glkpO m (toV d) (toV a))
    | _ => .error .reserved
  | 2 => vvv (.gacc m) d a b
  | 3 => need (isV d && isZ b) (.gdrn m (toV d) a)
  | 4 => need (isZ m && isZ b && isZ a && isZ d) .gclr
  | 5 => need (isZ m && isZ b && isZ a) (.gcnt d)
  | _ => .error .unassigned

/-- Major 0x31 (R213). -/
def dec31 (fn : BitVec 4) (m : BitVec 3) (b a d : BitVec 6) : Decoded :=
  match fn.toNat with
  | 0 => vvv (.vdotseg m) d a b
  | 1 => vvv (.vexpm m) d a b
  | 2 => vvv (.vaccw m) d a b
  | _ => .error .unassigned

/-- Major 0x32 (R193 to R195). -/
def dec32 (fn : BitVec 4) (m : BitVec 3) (b a d : BitVec 6) : Decoded :=
  match fn.toNat with
  | 0 => vv0 (.vrcp m) d a b
  | 1 => vv0 (.vrsq m) d a b
  | 2 => vv0 (.vexp2 m) d a b
  | 3 => vgg (.vdraw m) d a b
  | 4 => vv0 (.vclass m) d a b
  | _ => .error .unassigned

/-- Major 0x15: setvl and advmg by the F bit (R57, R174, R175). -/
def dec15 (w : Nat) : Decoded :=
  if (fld w 19 1).toNat = 0 then
    need (typeOk (fld w 29 3) (fld w 20 5))
      (.setvl (fld w 29 3) (fld w 28 1) (fld w 27 1) (fld w 25 2) (fld w 20 5) (fld w 7 6) (fld w 13 6))
  else need (isZ (fld w 24 8)) (.advmg (fld w 20 4) (fld w 7 6) (fld w 13 6))

/-- Decoding a 32-bit word by its major opcode, bits 6:1 (R57, R73). -/
def decode32 (w : Nat) : Decoded :=
  match w / 2 % 64 with
  | 0x01 => dec01 (fld w 25 7) (fld w 19 6) (fld w 13 6) (fld w 7 6)
  | 0x02 => .ok (.addi (fld w 7 6) (fld w 13 6) (fld w 19 13))
  | 0x03 => .ok (.andi (fld w 7 6) (fld w 13 6) (fld w 19 13))
  | 0x04 => .ok (.ori (fld w 7 6) (fld w 13 6) (fld w 19 13))
  | 0x05 => .ok (.xori (fld w 7 6) (fld w 13 6) (fld w 19 13))
  | 0x06 => decShi (fld w 19 13) (fld w 13 6) (fld w 7 6)
  | 0x07 => .ok (.slti (fld w 7 6) (fld w 13 6) (fld w 19 13))
  | 0x08 => .ok (.ldhi (fld w 7 6) (fld w 13 19))
  | 0x09 => .ok (.adr (fld w 7 6) (fld w 13 19))
  | 0x0A =>
    if (fld w 21 1).toNat = 1 then .ok (.ldsI (fld w 19 2) (fld w 7 6) (fld w 13 6) (fld w 22 10))
    else .ok (.ldsN (fld w 19 2) (fld w 7 6) (fld w 13 6) (fld w 22 10))
  | 0x0B => need (isZ (fld w 21 1)) (.sts (fld w 19 2) (fld w 7 6) (fld w 13 6) (fld w 22 10))
  | 0x0C => dec0C (fld w 29 3) (fld w 28 1) (fld w 25 3) (fld w 23 2) (fld w 19 4) (fld w 13 6) (fld w 7 6)
  | 0x0D => need (condOk (fld w 13 3)) (.bz (fld w 13 3) (fld w 7 6) (fld w 16 16))
  | 0x0E => need (condOk (fld w 19 3)) (.bc (fld w 19 3) (fld w 7 6) (fld w 13 6) (fld w 22 10))
  | 0x0F => .ok (.jal (fld w 7 25))
  | 0x10 => .ok (.jr (fld w 7 6) (fld w 13 6) (fld w 19 13))
  | 0x11 => dec11 (fld w 31 1) (fld w 28 3) (fld w 25 3) (fld w 19 6) (fld w 13 6) (fld w 7 6)
  | 0x12 => dec12 (fld w 23 9) (fld w 17 6) (fld w 11 6) (fld w 7 4)
  | 0x13 => dec13 (fld w 26 6) (fld w 25 1) (fld w 19 6) (fld w 16 3) (fld w 10 6) (fld w 9 1) (fld w 7 2)
  | 0x14 => dec14 (fld w 30 2) (fld w 28 2) (fld w 25 3) (fld w 19 6) (fld w 13 6) (fld w 7 6)
  | 0x15 => dec15 w
  | 0x16 => dec16 (fld w 28 4) (fld w 25 3) (fld w 19 6) (fld w 13 6) (fld w 7 6)
  | 0x18 => dec18 (fld w 28 4) (fld w 25 3) (fld w 19 6) (fld w 13 6) (fld w 7 6)
  | 0x19 => dec19 (fld w 28 4) (fld w 25 3) (fld w 19 6) (fld w 13 6) (fld w 7 6)
  | 0x1A => dec1A (fld w 28 4) (fld w 25 3) (fld w 19 6) (fld w 13 6) (fld w 7 6)
  | 0x1B => dec1B (fld w 28 4) (fld w 25 3) (fld w 19 6) (fld w 13 6) (fld w 7 6)
  | 0x1C => dec1C (fld w 28 4) (fld w 25 3) (fld w 19 6) (fld w 13 6) (fld w 7 6)
  | 0x1D => dec1D (fld w 28 4) (fld w 25 3) (fld w 19 6) (fld w 13 6) (fld w 7 6)
  | 0x1E => dec1E (fld w 28 4) (fld w 25 3) (fld w 19 6) (fld w 13 6) (fld w 7 6)
  | 0x20 => decVM 0x20 (fld w 30 2) (fld w 29 1) (fld w 28 1) (fld w 25 3) (fld w 19 6) (fld w 13 6) (fld w 7 6)
  | 0x21 => decVM 0x21 (fld w 30 2) (fld w 29 1) (fld w 28 1) (fld w 25 3) (fld w 19 6) (fld w 13 6) (fld w 7 6)
  | 0x22 => decVM 0x22 (fld w 30 2) (fld w 29 1) (fld w 28 1) (fld w 25 3) (fld w 19 6) (fld w 13 6) (fld w 7 6)
  | 0x23 => decVM 0x23 (fld w 30 2) (fld w 29 1) (fld w 28 1) (fld w 25 3) (fld w 19 6) (fld w 13 6) (fld w 7 6)
  | 0x24 => decVM 0x24 (fld w 30 2) (fld w 29 1) (fld w 28 1) (fld w 25 3) (fld w 19 6) (fld w 13 6) (fld w 7 6)
  | 0x25 => dec25 (fld w 30 2) (fld w 29 1) (fld w 28 1) (fld w 25 3) (fld w 19 6) (fld w 13 6) (fld w 7 6)
  | 0x26 => decVM 0x26 (fld w 30 2) (fld w 29 1) (fld w 28 1) (fld w 25 3) (fld w 19 6) (fld w 13 6) (fld w 7 6)
  | 0x27 => dec27 (fld w 30 2) (fld w 29 1) (fld w 28 1) (fld w 25 3) (fld w 19 6) (fld w 13 6) (fld w 7 6)
  | 0x28 => dec28 (fld w 29 3) (fld w 25 4) (fld w 19 6) (fld w 13 6) (fld w 7 6)
  | 0x29 => dec29 (fld w 28 4) (fld w 25 3) (fld w 19 6) (fld w 13 6) (fld w 7 6)
  | 0x2A => dec2A (fld w 28 4) (fld w 25 3) (fld w 19 6) (fld w 13 6) (fld w 7 6)
  | 0x2B => dec2B (fld w 28 4) (fld w 25 3) (fld w 19 6) (fld w 13 6) (fld w 7 6)
  | 0x2C => decMX false (fld w 31 1) (fld w 28 3) (fld w 25 3) (fld w 19 6) (fld w 13 6) (fld w 7 6)
  | 0x2D => decMX true (fld w 31 1) (fld w 28 3) (fld w 25 3) (fld w 19 6) (fld w 13 6) (fld w 7 6)
  | 0x2E => dec2E (fld w 31 1) (fld w 29 2) (fld w 25 4) (fld w 19 6) (fld w 13 6) (fld w 7 6)
  | 0x2F => dec2F (fld w 31 1) (fld w 30 1) (fld w 28 2) (fld w 25 3) (fld w 19 6) (fld w 13 6) (fld w 7 6)
  | 0x30 => dec30 (fld w 28 4) (fld w 25 3) (fld w 19 6) (fld w 13 6) (fld w 7 6)
  | 0x31 => dec31 (fld w 28 4) (fld w 25 3) (fld w 19 6) (fld w 13 6) (fld w 7 6)
  | 0x32 => dec32 (fld w 28 4) (fld w 25 3) (fld w 19 6) (fld w 13 6) (fld w 7 6)
  | 0x3F => .ok (.breakpoint (fld w 7 25))
  | 0x00 => .error .unassigned
  | 0x17 => .error .unassigned
  | 0x1F => .error .unassigned
  | _ => .error .futureMajor

/-- Decoding a compact parcel (R61, R63). -/
def decode16 (p : Nat) : Decoded :=
  let b : BitVec 5 := fld p 11 5
  let d : BitVec 5 := fld p 6 5
  match p / 2 % 32 with
  | 0x01 => .ok (.addC b d)
  | 0x02 => .ok (.subC b d)
  | 0x03 => .ok (.andC b d)
  | 0x04 => .ok (.orC b d)
  | 0x05 => .ok (.xorC b d)
  | 0x06 => .ok (.shlC b d)
  | 0x07 => .ok (.shrC b d)
  | 0x08 => .ok (.sraC b d)
  | 0x09 => .ok (.mulC b d)
  | 0x0A => .ok (.minC b d)
  | 0x0B => .ok (.maxC b d)
  | 0x0C => .ok (.minnC b d)
  | 0x0D => .ok (.maxnC b d)
  | 0x0E => .ok (.sltC b d)
  | 0x0F => .ok (.sltnC b d)
  | 0x10 => .ok (.addiC b d)
  | 0x11 => .ok (.andiC b d)
  | 0x12 => .ok (.shliC b d)
  | 0x13 => .ok (.shriC b d)
  | 0x14 => .ok (.sraiC b d)
  | 0x15 => .ok (.movC b d)
  | 0x16 => .ok (.liC b d)
  | 0x17 => .ok (.ldsC b d)
  | 0x18 => .ok (.stsC b d)
  | 0x19 => need (isZ b && isZ d) .nopC
  | _ => .error .unassigned

/-- Whether a first parcel opens a 32-bit word (R55). -/
def isWide (p : Nat) : Bool := p % 2 = 1

/-- Decoding from an instruction's parcels: the first, and the second when the first opens a word (R55). -/
def decode (p0 p1 : Nat) : Decoded :=
  if isWide p0 then decode32 (p0 % 65536 + 65536 * (p1 % 65536)) else decode16 (p0 % 65536)

/-- The bytes of an instruction in memory: two or four, little-endian (R10, R55). -/
def instrBytes (nbits w : Nat) : List Byte :=
  toBytes 4 (if nbits ≤ 16 then w % 65536 else w % 2 ^ 32)

/-- The instruction that the decoder reads from the bits of a row of opcode_table.json. -/
def decodeTableWord (nbits w : Nat) : Option Instr :=
  let bs := instrBytes nbits w
  match decode (ofBytes (bs.take 2)) (ofBytes ((bs.drop 2).take 2)) with
  | .ok i => if (nbits ≤ 16) = (isWide (ofBytes (bs.take 2)) = true) then none else some i
  | .error _ => none

/-! The encoder. -/

/-- RR layout (R57). -/
def packRR (major fn b a d : Nat) : Nat :=
  1 + 2 * major + 128 * d + 8192 * a + 524288 * b + 33554432 * fn

/-- V and V scoped layouts (R57). -/
def packV (major fn m b a d : Nat) : Nat :=
  1 + 2 * major + 128 * d + 8192 * a + 524288 * b + 33554432 * m + 268435456 * fn

/-- RI layout (R57). -/
def packRI (major imm a d : Nat) : Nat := 1 + 2 * major + 128 * d + 8192 * a + 524288 * imm

/-- VM layouts (R57): two bits, three one-bit or three-bit fields above the register fields. -/
def packVM (major pol x y m c a d : Nat) : Nat :=
  1 + 2 * major + 128 * d + 8192 * a + 524288 * c + 33554432 * m + 268435456 * y + 536870912 * x + 1073741824 * pol

/-- SY layout (R57). -/
def packSY (imm a d fn : Nat) : Nat := 37 + 128 * fn + 2048 * d + 131072 * a + 8388608 * imm

/-- PX layout (R57). -/
def packPX (ce copy cond pred n kind : Nat) : Nat :=
  39 + 128 * kind + 512 * n + 1024 * pred + 65536 * cond + 524288 * copy + 33554432 * ce

/-- RI memory layout (R57). -/
def packMem (major imm s w a d : Nat) : Nat :=
  1 + 2 * major + 128 * d + 8192 * a + 524288 * w + 2097152 * s + 4194304 * imm

/-- RR atomic layout (R57). -/
def packAmo (w scope ord op a d : Nat) : Nat :=
  25 + 128 * d + 8192 * a + 524288 * op + 8388608 * ord + 33554432 * scope + 268435456 * w

/-- Compact layout (R61). -/
def packC (op b d : Nat) : Nat := 2 * op + 64 * d + 2048 * b

/-- The parcel or word of an instruction, and whether it is a 32-bit word; none for a step or event (R57, R61). -/
def encode (i : Instr) : Option (Bool × Nat) :=
  match i with
  | .add d a b => some (true, packRR 0x01 0x00 b.toNat a.toNat d.toNat)
  | .sub d a b => some (true, packRR 0x01 0x01 b.toNat a.toNat d.toNat)
  | .and d a b => some (true, packRR 0x01 0x02 b.toNat a.toNat d.toNat)
  | .or d a b => some (true, packRR 0x01 0x03 b.toNat a.toNat d.toNat)
  | .xor d a b => some (true, packRR 0x01 0x04 b.toNat a.toNat d.toNat)
  | .shl d a b => some (true, packRR 0x01 0x05 b.toNat a.toNat d.toNat)
  | .shr d a b => some (true, packRR 0x01 0x06 b.toNat a.toNat d.toNat)
  | .sra d a b => some (true, packRR 0x01 0x07 b.toNat a.toNat d.toNat)
  | .mul d a b => some (true, packRR 0x01 0x08 b.toNat a.toNat d.toNat)
  | .mulh d a b => some (true, packRR 0x01 0x09 b.toNat a.toNat d.toNat)
  | .mulhn d a b => some (true, packRR 0x01 0x0A b.toNat a.toNat d.toNat)
  | .div d a b => some (true, packRR 0x01 0x0B b.toNat a.toNat d.toNat)
  | .divn d a b => some (true, packRR 0x01 0x0C b.toNat a.toNat d.toNat)
  | .rem d a b => some (true, packRR 0x01 0x0D b.toNat a.toNat d.toNat)
  | .remn d a b => some (true, packRR 0x01 0x0E b.toNat a.toNat d.toNat)
  | .min d a b => some (true, packRR 0x01 0x0F b.toNat a.toNat d.toNat)
  | .max d a b => some (true, packRR 0x01 0x10 b.toNat a.toNat d.toNat)
  | .minn d a b => some (true, packRR 0x01 0x11 b.toNat a.toNat d.toNat)
  | .maxn d a b => some (true, packRR 0x01 0x12 b.toNat a.toNat d.toNat)
  | .slt d a b => some (true, packRR 0x01 0x13 b.toNat a.toNat d.toNat)
  | .sltn d a b => some (true, packRR 0x01 0x14 b.toNat a.toNat d.toNat)
  | .clz d a => some (true, packRR 0x01 0x15 0 a.toNat d.toNat)
  | .ctz d a => some (true, packRR 0x01 0x16 0 a.toNat d.toNat)
  | .popc d a => some (true, packRR 0x01 0x17 0 a.toNat d.toNat)
  | .sel d a b => some (true, packRR 0x01 0x18 b.toNat a.toNat d.toNat)
  | .addi d a imm => some (true, packRI 0x02 imm.toNat a.toNat d.toNat)
  | .andi d a imm => some (true, packRI 0x03 imm.toNat a.toNat d.toNat)
  | .ori d a imm => some (true, packRI 0x04 imm.toNat a.toNat d.toNat)
  | .xori d a imm => some (true, packRI 0x05 imm.toNat a.toNat d.toNat)
  | .shiShl d a n => some (true, packRI 0x06 n.toNat a.toNat d.toNat)
  | .shiShr d a n => some (true, packRI 0x06 (64 + n.toNat) a.toNat d.toNat)
  | .shiSra d a n => some (true, packRI 0x06 (128 + n.toNat) a.toNat d.toNat)
  | .slti d a imm => some (true, packRI 0x07 imm.toNat a.toNat d.toNat)
  | .ldhi d imm => some (true, 17 + 128 * d.toNat + 8192 * imm.toNat)
  | .adr d imm => some (true, 19 + 128 * d.toNat + 8192 * imm.toNat)
  | .ldsI w d a imm => some (true, packMem 0x0A imm.toNat 1 w.toNat a.toNat d.toNat)
  | .ldsN w d a imm => some (true, packMem 0x0A imm.toNat 0 w.toNat a.toNat d.toNat)
  | .sts w d a imm => some (true, packMem 0x0B imm.toNat 0 w.toNat a.toNat d.toNat)
  | .amoSwap w s o d a => some (true, packAmo w.toNat s.toNat o.toNat 0 a.toNat d.toNat)
  | .amoCas w s o d a => some (true, packAmo w.toNat s.toNat o.toNat 1 a.toNat d.toNat)
  | .amoAdd w s o d a => some (true, packAmo w.toNat s.toNat o.toNat 2 a.toNat d.toNat)
  | .amoAnd w s o d a => some (true, packAmo w.toNat s.toNat o.toNat 3 a.toNat d.toNat)
  | .amoOr w s o d a => some (true, packAmo w.toNat s.toNat o.toNat 4 a.toNat d.toNat)
  | .amoXor w s o d a => some (true, packAmo w.toNat s.toNat o.toNat 5 a.toNat d.toNat)
  | .amoMin w s o d a => some (true, packAmo w.toNat s.toNat o.toNat 6 a.toNat d.toNat)
  | .amoMax w s o d a => some (true, packAmo w.toNat s.toNat o.toNat 7 a.toNat d.toNat)
  | .amoMinn w s o d a => some (true, packAmo w.toNat s.toNat o.toNat 8 a.toNat d.toNat)
  | .amoMaxn w s o d a => some (true, packAmo w.toNat s.toNat o.toNat 9 a.toNat d.toNat)
  | .bz cond a off => some (true, 27 + 128 * a.toNat + 8192 * cond.toNat + 65536 * off.toNat)
  | .bc cond a b off =>
      some (true, 29 + 128 * a.toNat + 8192 * b.toNat + 524288 * cond.toNat + 4194304 * off.toNat)
  | .jal off => some (true, 31 + 128 * off.toNat)
  | .jr d a imm => some (true, packRI 0x10 imm.toNat a.toNat d.toNat)
  | .fenceAcq s => some (true, packV 0x11 s.toNat 0 0 0 1)
  | .fenceRel s => some (true, packV 0x11 s.toNat 0 0 0 2)
  | .fenceAcqrel s => some (true, packV 0x11 s.toNat 0 0 0 3)
  | .cwb s a b => some (true, packV 0x11 s.toNat 1 b.toNat a.toNat 0)
  | .cinv s a b => some (true, packV 0x11 s.toNat 2 b.toNat a.toNat 0)
  | .iinv s a b => some (true, packV 0x11 s.toNat 3 b.toNat a.toNat 0)
  | .fbar => some (true, packV 0x11 0 4 0 0 0)
  | .prefi a b => some (true, packV 0x11 0 5 b.toNat a.toNat 0)
  | .cresz d a => some (true, packV 0x11 0 6 0 a.toNat d.toNat)
  | .nop => some (true, packSY 0 0 0 0)
  | .svcRetire => some (true, packSY 0 0 0 1)
  | .svcAbort => some (true, packSY 1 0 0 1)
  | .svcReserve => some (true, packSY 2 0 0 1)
  | .svcRelease => some (true, packSY 3 0 0 1)
  | .svcFork => some (true, packSY 4 0 0 1)
  | .svcShootdown => some (true, packSY 5 0 0 1)
  | .svcExportWindow => some (true, packSY 6 0 0 1)
  | .svcReopenGroup => some (true, packSY 7 0 0 1)
  | .svcUnknown n => some (true, packSY n.toNat 0 0 1)
  | .rtn => some (true, packSY 0 0 0 2)
  | .rtnBridge => some (true, packSY 0 0 0 2)
  | .mfs reg d => some (true, packSY reg.toNat 0 d.toNat 3)
  | .mts reg a => some (true, packSY reg.toNat a.toNat 0 4)
  | .mon d a => some (true, packSY 0 a.toNat d.toNat 5)
  | .mwait d a => some (true, packSY 0 a.toNat d.toNat 6)
  | .halt => some (true, packSY 0 0 0 7)
  | .tlbiPage a d => some (true, packSY 0 a.toNat d.toNat 8)
  | .tlbiAsid d => some (true, packSY 1 0 d.toNat 8)
  | .tlbiBerth => some (true, packSY 2 0 0 8)
  | .kslot d a => some (true, packSY 0 a.toNat d.toNat 9)
  | .kslotStat d a => some (true, packSY 1 a.toNat d.toNat 9)
  | .pfxMask ce copy pred neg => some (true, packPX ce.toNat copy.toNat 0 pred.toNat neg.toNat 0)
  | .pfxCond ce copy cond pred => some (true, packPX ce.toNat copy.toNat cond.toNat pred.toNat 0 1)
  | .pfxCopy copy => some (true, packPX 1 copy.toNat 0 0 0 2)
  | .fadd fmt var d a b => some (true, packRR 0x14 (0 + 8 * fmt.toNat + 32 * var.toNat) b.toNat a.toNat d.toNat)
  | .fsub fmt var d a b => some (true, packRR 0x14 (1 + 8 * fmt.toNat + 32 * var.toNat) b.toNat a.toNat d.toNat)
  | .fmul fmt var d a b => some (true, packRR 0x14 (2 + 8 * fmt.toNat + 32 * var.toNat) b.toNat a.toNat d.toNat)
  | .fdiv fmt var d a b => some (true, packRR 0x14 (3 + 8 * fmt.toNat + 32 * var.toNat) b.toNat a.toNat d.toNat)
  | .fma fmt d a b => some (true, packRR 0x14 (4 + 8 * fmt.toNat) b.toNat a.toNat d.toNat)
  | .fmaSub fmt d a b => some (true, packRR 0x14 (36 + 8 * fmt.toNat) b.toNat a.toNat d.toNat)
  | .fmaNeg fmt d a b => some (true, packRR 0x14 (68 + 8 * fmt.toNat) b.toNat a.toNat d.toNat)
  | .fminmaxMin fmt d a b => some (true, packRR 0x14 (5 + 8 * fmt.toNat) b.toNat a.toNat d.toNat)
  | .fminmaxMax fmt d a b => some (true, packRR 0x14 (37 + 8 * fmt.toNat) b.toNat a.toNat d.toNat)
  | .fminmaxMinnum fmt d a b => some (true, packRR 0x14 (69 + 8 * fmt.toNat) b.toNat a.toNat d.toNat)
  | .fminmaxMaxnum fmt d a b => some (true, packRR 0x14 (101 + 8 * fmt.toNat) b.toNat a.toNat d.toNat)
  | .fcvtFloat fmt src d a => some (true, packRR 0x14 (6 + 8 * fmt.toNat) src.toNat a.toNat d.toNat)
  | .fcvtFromInt fmt uns d a => some (true, packRR 0x14 (38 + 8 * fmt.toNat) uns.toNat a.toNat d.toNat)
  | .fcvtToInt fmt uns rtz d a =>
      some (true, packRR 0x14 (70 + 8 * fmt.toNat) (uns.toNat + 2 * rtz.toNat) a.toNat d.toNat)
  | .fcmpEq fmt d a b => some (true, packRR 0x14 (7 + 8 * fmt.toNat) b.toNat a.toNat d.toNat)
  | .fcmpLt fmt d a b => some (true, packRR 0x14 (39 + 8 * fmt.toNat) b.toNat a.toNat d.toNat)
  | .fcmpLe fmt d a b => some (true, packRR 0x14 (71 + 8 * fmt.toNat) b.toNat a.toNat d.toNat)
  | .fcmpUn fmt d a b => some (true, packRR 0x14 (103 + 8 * fmt.toNat) b.toNat a.toNat d.toNat)
  | .setvl blk mpol tail grp fmt d a =>
      some (true, 43 + 128 * d.toNat + 8192 * a.toNat + 1048576 * fmt.toNat + 33554432 * grp.toNat
        + 134217728 * tail.toNat + 268435456 * mpol.toNat + 536870912 * blk.toNat)
  | .advmg sh d a => some (true, 524331 + 128 * d.toNat + 8192 * a.toNat + 1048576 * sh.toNat)
  | .launch d a => some (true, packV 0x16 0 0 0 a.toNat d.toNat)
  | .spawn m d a b => some (true, packV 0x16 1 m.toNat b.toNat a.toNat d.toNat)
  | .join a => some (true, packV 0x16 2 0 0 a.toNat 0)
  | .tend a => some (true, packV 0x16 3 0 0 a.toNat 0)
  | .bar d => some (true, packV 0x16 4 0 0 0 d.toNat)
  | .post a => some (true, packV 0x16 5 0 0 a.toNat 0)
  | .waiti a => some (true, packV 0x16 6 0 0 a.toNat 0)
  | .yield => some (true, packV 0x16 7 0 0 0 0)
  | .vadd m d a b => some (true, packV 0x18 0 m.toNat b.toNat a.toNat d.toNat)
  | .vsub m d a b => some (true, packV 0x18 1 m.toNat b.toNat a.toNat d.toNat)
  | .vmul m d a b => some (true, packV 0x18 2 m.toNat b.toNat a.toNat d.toNat)
  | .vdiv m d a b => some (true, packV 0x18 3 m.toNat b.toNat a.toNat d.toNat)
  | .vsqrt m d a => some (true, packV 0x18 4 m.toNat 0 a.toNat d.toNat)
  | .vmin m d a b => some (true, packV 0x18 5 m.toNat b.toNat a.toNat d.toNat)
  | .vmax m d a b => some (true, packV 0x18 6 m.toNat b.toNat a.toNat d.toNat)
  | .vabs m d a => some (true, packV 0x18 7 m.toNat 0 a.toNat d.toNat)
  | .vneg m d a => some (true, packV 0x18 8 m.toNat 0 a.toNat d.toNat)
  | .vfma m d a b => some (true, packV 0x18 9 m.toNat b.toNat a.toNat d.toNat)
  | .vfms m d a b => some (true, packV 0x18 10 m.toNat b.toNat a.toNat d.toNat)
  | .vfnma m d a b => some (true, packV 0x18 11 m.toNat b.toNat a.toNat d.toNat)
  | .vand m d a b => some (true, packV 0x19 0 m.toNat b.toNat a.toNat d.toNat)
  | .vor m d a b => some (true, packV 0x19 1 m.toNat b.toNat a.toNat d.toNat)
  | .vxor m d a b => some (true, packV 0x19 2 m.toNat b.toNat a.toNat d.toNat)
  | .vnot m d a => some (true, packV 0x19 3 m.toNat 0 a.toNat d.toNat)
  | .vshl m d a b => some (true, packV 0x19 4 m.toNat b.toNat a.toNat d.toNat)
  | .vshr m d a b => some (true, packV 0x19 5 m.toNat b.toNat a.toNat d.toNat)
  | .vsra m d a b => some (true, packV 0x19 6 m.toNat b.toNat a.toNat d.toNat)
  | .vcmpEq m d a b => some (true, packV 0x1A 0 m.toNat b.toNat a.toNat d.toNat)
  | .vcmpNe m d a b => some (true, packV 0x1A 1 m.toNat b.toNat a.toNat d.toNat)
  | .vcmpLt m d a b => some (true, packV 0x1A 2 m.toNat b.toNat a.toNat d.toNat)
  | .vcmpLe m d a b => some (true, packV 0x1A 3 m.toNat b.toNat a.toNat d.toNat)
  | .vcmpGt m d a b => some (true, packV 0x1A 4 m.toNat b.toNat a.toNat d.toNat)
  | .vcmpGe m d a b => some (true, packV 0x1A 5 m.toNat b.toNat a.toNat d.toNat)
  | .vcmpUn m d a b => some (true, packV 0x1A 6 m.toNat b.toNat a.toNat d.toNat)
  | .vsel m d a b => some (true, packV 0x1A 7 m.toNat b.toNat a.toNat d.toNat)
  | .vmov m d a => some (true, packV 0x1A 8 m.toNat 0 a.toNat d.toNat)
  | .vbrd m d a => some (true, packV 0x1A 9 m.toNat 0 a.toNat d.toNat)
  | .vidx m d a b => some (true, packV 0x1A 10 m.toNat b.toNat a.toNat d.toNat)
  | .vcvt m sr dfmt d a => some (true, packV 0x1A 11 m.toNat (dfmt.toNat + 32 * sr.toNat) a.toNat d.toNat)
  | .mand m d a b => some (true, packV 0x1B 0 m.toNat b.toNat a.toNat d.toNat)
  | .mor m d a b => some (true, packV 0x1B 1 m.toNat b.toNat a.toNat d.toNat)
  | .mxor m d a b => some (true, packV 0x1B 2 m.toNat b.toNat a.toNat d.toNat)
  | .mnot m d a => some (true, packV 0x1B 3 m.toNat 0 a.toNat d.toNat)
  | .mpop m d a => some (true, packV 0x1B 4 m.toNat 0 a.toNat d.toNat)
  | .mfirst m d a => some (true, packV 0x1B 5 m.toNat 0 a.toNat d.toNat)
  | .mbef m d a => some (true, packV 0x1B 6 m.toNat 0 a.toNat d.toNat)
  | .minc m d a => some (true, packV 0x1B 7 m.toNat 0 a.toNat d.toNat)
  | .mtos m d a b => some (true, packV 0x1B 8 m.toNat b.toNat a.toNat d.toNat)
  | .vrsum m d a b => some (true, packV 0x1C 0 m.toNat b.toNat a.toNat d.toNat)
  | .vrsumO m d a b => some (true, packV 0x1C 1 m.toNat b.toNat a.toNat d.toNat)
  | .vrmax m d a b => some (true, packV 0x1C 2 m.toNat b.toNat a.toNat d.toNat)
  | .vrmin m d a b => some (true, packV 0x1C 3 m.toNat b.toNat a.toNat d.toNat)
  | .vrbitAnd m d a b => some (true, packV 0x1C 4 m.toNat b.toNat a.toNat d.toNat)
  | .vrbitOr m d a b => some (true, packV 0x1C 5 m.toNat b.toNat a.toNat d.toNat)
  | .vrbitXor m d a b => some (true, packV 0x1C 6 m.toNat b.toNat a.toNat d.toNat)
  | .vscanAdd m d a b => some (true, packV 0x1C 7 m.toNat b.toNat a.toNat d.toNat)
  | .vscanMax m d a b => some (true, packV 0x1C 8 m.toNat b.toNat a.toNat d.toNat)
  | .vscanMin m d a b => some (true, packV 0x1C 9 m.toNat b.toNat a.toNat d.toNat)
  | .vsegr m d a b => some (true, packV 0x1C 10 m.toNat b.toNat a.toNat d.toNat)
  | .vslup m d a b => some (true, packV 0x1D 0 m.toNat b.toNat a.toNat d.toNat)
  | .vsldn m d a b => some (true, packV 0x1D 1 m.toNat b.toNat a.toNat d.toNat)
  | .vperm m d a b => some (true, packV 0x1D 2 m.toNat b.toNat a.toNat d.toNat)
  | .vcomp m d a => some (true, packV 0x1D 3 m.toNat 0 a.toNat d.toNat)
  | .vexpd m d a => some (true, packV 0x1D 4 m.toNat 0 a.toNat d.toNat)
  | .vzip m d a b => some (true, packV 0x1D 5 m.toNat b.toNat a.toNat d.toNat)
  | .vunzipEv m d a => some (true, packV 0x1D 6 m.toNat 0 a.toNat d.toNat)
  | .vunzipOd m d a => some (true, packV 0x1D 6 m.toNat 1 a.toNat d.toNat)
  | .vconf m d a => some (true, packV 0x1E 0 m.toNat 0 a.toNat d.toNat)
  | .vld p so eo m c a d => some (true, packVM 0x20 p.toNat so.toNat eo.toNat m.toNat c.toNat a.toNat d.toNat)
  | .vst p so eo m c a d => some (true, packVM 0x21 p.toNat so.toNat eo.toNat m.toNat c.toNat a.toNat d.toNat)
  | .vldx p so eo m c a d => some (true, packVM 0x22 p.toNat so.toNat eo.toNat m.toNat c.toNat a.toNat d.toNat)
  | .vstx p so eo m c a d => some (true, packVM 0x23 p.toNat so.toNat eo.toNat m.toNat c.toNat a.toNat d.toNat)
  | .vstxAdd p so eo m c a d => some (true, packVM 0x24 p.toNat so.toNat eo.toNat m.toNat c.toNat a.toNat d.toNat)
  | .vldc p so m c a d => some (true, packVM 0x25 p.toNat so.toNat 0 m.toNat c.toNat a.toNat d.toNat)
  | .vstc p so m c a d => some (true, packVM 0x25 p.toNat so.toNat 1 m.toNat c.toNat a.toNat d.toNat)
  | .vpref p m c a lvl => some (true, packVM 0x26 p.toNat 0 0 m.toNat c.toNat a.toNat lvl.toNat)
  | .tld p l s c a d => some (true, packVM 0x27 p.toNat 0 l.toNat s.toNat c.toNat a.toNat d.toNat)
  | .tst p l s c a d => some (true, packVM 0x27 p.toNat 1 l.toNat s.toNat c.toNat a.toNat d.toNat)
  | .vamoSwap s c a d => some (true, packRR 0x28 (0 + 16 * s.toNat) c.toNat a.toNat d.toNat)
  | .vamoCas s c a d => some (true, packRR 0x28 (1 + 16 * s.toNat) c.toNat a.toNat d.toNat)
  | .vamoAdd s c a d => some (true, packRR 0x28 (2 + 16 * s.toNat) c.toNat a.toNat d.toNat)
  | .vamoAnd s c a d => some (true, packRR 0x28 (3 + 16 * s.toNat) c.toNat a.toNat d.toNat)
  | .vamoOr s c a d => some (true, packRR 0x28 (4 + 16 * s.toNat) c.toNat a.toNat d.toNat)
  | .vamoXor s c a d => some (true, packRR 0x28 (5 + 16 * s.toNat) c.toNat a.toNat d.toNat)
  | .vamoMin s c a d => some (true, packRR 0x28 (6 + 16 * s.toNat) c.toNat a.toNat d.toNat)
  | .vamoMax s c a d => some (true, packRR 0x28 (7 + 16 * s.toNat) c.toNat a.toNat d.toNat)
  | .vamoMinn s c a d => some (true, packRR 0x28 (8 + 16 * s.toNat) c.toNat a.toNat d.toNat)
  | .vamoMaxn s c a d => some (true, packRR 0x28 (9 + 16 * s.toNat) c.toNat a.toNat d.toNat)
  | .tcopy s d a b => some (true, packV 0x29 0 s.toNat b.toNat a.toNat d.toNat)
  | .tcoll s d a b => some (true, packV 0x2A 0 s.toNat b.toNat a.toNat d.toNat)
  | .tsend s d a b => some (true, packV 0x2B 0 s.toNat b.toNat a.toNat d.toNat)
  | .trecv s d a b => some (true, packV 0x2B 1 s.toNat b.toNat a.toNat d.toNat)
  | .tprobe d b => some (true, packV 0x2B 2 0 b.toNat 0 d.toNat)
  | .opadd z mb ma b a s => some (true, packV 0x2C (mb.toNat + 8 * z.toNat) ma.toNat b.toNat a.toNat s.toNat)
  | .opsub z mb ma b a s => some (true, packV 0x2D (mb.toNat + 8 * z.toNat) ma.toNat b.toNat a.toNat s.toNat)
  | .mzero z => some (true, packRR 0x2E (0 + 64 * z.toNat) 0 0 0)
  | .mswap z => some (true, packRR 0x2E (1 + 64 * z.toNat) 0 0 0)
  | .mext z a => some (true, packRR 0x2E (2 + 64 * z.toNat) 0 a.toNat 0)
  | .mgang z d a => some (true, packRR 0x2E (3 + 64 * z.toNat) 0 a.toNat d.toNat)
  | .mcls z d a => some (true, packRR 0x2E (4 + 64 * z.toNat) 0 a.toNat d.toNat)
  | .mrowRead z m a d => some (true, packV 0x2F (0 + 8 * z.toNat) m.toNat 0 a.toNat d.toNat)
  | .mrowWrite z m a d => some (true, packV 0x2F (1 + 8 * z.toNat) m.toNat 0 a.toNat d.toNat)
  | .mcolRead z m a d => some (true, packV 0x2F (2 + 8 * z.toNat) m.toNat 0 a.toNat d.toNat)
  | .mcolWrite z m a d => some (true, packV 0x2F (3 + 8 * z.toNat) m.toNat 0 a.toNat d.toNat)
  | .gins m d a => some (true, packV 0x30 0 m.toNat 0 a.toNat d.toNat)
  | .glkp m d a => some (true, packV 0x30 1 m.toNat 0 a.toNat d.toNat)
  | .glkpO m d a => some (true, packV 0x30 1 m.toNat 1 a.toNat d.toNat)
  | .gacc m d a b => some (true, packV 0x30 2 m.toNat b.toNat a.toNat d.toNat)
  | .gdrn m d a => some (true, packV 0x30 3 m.toNat 0 a.toNat d.toNat)
  | .gclr => some (true, packV 0x30 4 0 0 0 0)
  | .gcnt d => some (true, packV 0x30 5 0 0 0 d.toNat)
  | .vdotseg m d a b => some (true, packV 0x31 0 m.toNat b.toNat a.toNat d.toNat)
  | .vexpm m d a b => some (true, packV 0x31 1 m.toNat b.toNat a.toNat d.toNat)
  | .vaccw m d a b => some (true, packV 0x31 2 m.toNat b.toNat a.toNat d.toNat)
  | .vrcp m d a => some (true, packV 0x32 0 m.toNat 0 a.toNat d.toNat)
  | .vrsq m d a => some (true, packV 0x32 1 m.toNat 0 a.toNat d.toNat)
  | .vexp2 m d a => some (true, packV 0x32 2 m.toNat 0 a.toNat d.toNat)
  | .vdraw m d a b => some (true, packV 0x32 3 m.toNat b.toNat a.toNat d.toNat)
  | .vclass m d a => some (true, packV 0x32 4 m.toNat 0 a.toNat d.toNat)
  | .breakpoint tag => some (true, 127 + 128 * tag.toNat)
  | .addC b d => some (false, packC 0x01 b.toNat d.toNat)
  | .subC b d => some (false, packC 0x02 b.toNat d.toNat)
  | .andC b d => some (false, packC 0x03 b.toNat d.toNat)
  | .orC b d => some (false, packC 0x04 b.toNat d.toNat)
  | .xorC b d => some (false, packC 0x05 b.toNat d.toNat)
  | .shlC b d => some (false, packC 0x06 b.toNat d.toNat)
  | .shrC b d => some (false, packC 0x07 b.toNat d.toNat)
  | .sraC b d => some (false, packC 0x08 b.toNat d.toNat)
  | .mulC b d => some (false, packC 0x09 b.toNat d.toNat)
  | .minC b d => some (false, packC 0x0A b.toNat d.toNat)
  | .maxC b d => some (false, packC 0x0B b.toNat d.toNat)
  | .minnC b d => some (false, packC 0x0C b.toNat d.toNat)
  | .maxnC b d => some (false, packC 0x0D b.toNat d.toNat)
  | .sltC b d => some (false, packC 0x0E b.toNat d.toNat)
  | .sltnC b d => some (false, packC 0x0F b.toNat d.toNat)
  | .addiC imm d => some (false, packC 0x10 imm.toNat d.toNat)
  | .andiC imm d => some (false, packC 0x11 imm.toNat d.toNat)
  | .shliC imm d => some (false, packC 0x12 imm.toNat d.toNat)
  | .shriC imm d => some (false, packC 0x13 imm.toNat d.toNat)
  | .sraiC imm d => some (false, packC 0x14 imm.toNat d.toNat)
  | .movC b d => some (false, packC 0x15 b.toNat d.toNat)
  | .liC imm d => some (false, packC 0x16 imm.toNat d.toNat)
  | .ldsC imm d => some (false, packC 0x17 imm.toNat d.toNat)
  | .stsC imm d => some (false, packC 0x18 imm.toNat d.toNat)
  | .nopC => some (false, packC 0x19 0 0)
  | _ => none

end Sys2Proof
end

