-- ==== Sys2Proof/Config.lean ====
section
/-!
DEFINITION. What the manual leaves open or gives to an outside standard, as constants without a body: nothing in
Lean can evaluate them, so a statement about them holds for every value.
-/
namespace Sys2Proof.Config

/-- The free value of use `token` at place `index` (R16: the manual fixes a set of outcomes, not which one occurs).
The step reads a fresh `token` from State.fresh. DESIGN CHOICE, log entry 1. -/
opaque pick (token index : Nat) : Nat

/-- Core cycles that a step of the focused core takes beyond one (R110 counts them, no rule states them).
DESIGN CHOICE, log entry 1. -/
opaque stall (token : Nat) : Nat

/-- Byte `i` of the SM3 digest of a body (R429: GB/T 32905, an outside standard). UNVERIFIED, log entry 11. -/
opaque sm3Byte (body : List Byte) (i : Nat) : Byte

/-- Whether an SM2 signature over a digest verifies under a public key (R429: GB/T 32918). UNVERIFIED, log entry 11. -/
opaque sm2Verifies (key digest signature : List Byte) : Bool

/-- The SM3 digest of the image key's public key that the ROM holds (R429). UNVERIFIED, log entry 11. -/
opaque imageKeyDigest : List Byte

/-- Image or table `image` as the part's store holds it: version, digest, signature, public key and body (R429, R430).
UNVERIFIED, log entry 11. -/
opaque storedImage (image : Nat) : Nat × List Byte × List Byte × List Byte × List Byte

/-- The fused minimum version of a kind: controller firmware, Bridge firmware, tender monitor, decode table (R429, R430).
UNVERIFIED, log entry 11. -/
opaque minVersion (kind : Nat) : Nat

/-- Byte `i` of the SM2 signature with the identity key over a digest (R432, R433). UNVERIFIED, log entry 11. -/
opaque sm2Byte (digest : List Byte) (i : Nat) : Byte

/-- Byte `i` of the device identity public key (R432). UNVERIFIED, log entry 11. -/
opaque identKeyByte (i : Nat) : Byte

/-- Length and bytes of the certificate chain (R432). UNVERIFIED, log entry 11. -/
opaque certLength : Nat
/-- Byte `i` of the certificate chain (R432). UNVERIFIED, log entry 11. -/
opaque certByte (i : Nat) : Byte

/-- Byte `i` of a key pair unwrapped under an SPDM session (R435). UNVERIFIED, log entry 11. -/
opaque unwrapByte (session wrapped : List Byte) (i : Nat) : Byte

/-- Whether a wrapped key pair unwraps under an SPDM session (R435). UNVERIFIED, log entry 11. -/
opaque unwrapOk (session wrapped : List Byte) : Bool

/-- Byte `i` of plaintext that DRAM yields after a slot received a new key (R398: earlier contents cannot be read).
UNVERIFIED, log entry 11. -/
opaque scrambledByte (count : Nat) (addr : Nat) : Byte

/-- The key pair that a slot received without KEYSET: its berth and slot, and the berth's reset count (R398). UNVERIFIED,
log entry 11. -/
opaque slotPair (key count : Nat) : List Byte

/-- Byte `i` of the DRAM line at a physical line address that holds `line` under the key pair `written`, as the pair `read`
decrypts it (R399: SM4 in XTS mode, tweaked by the line address). UNVERIFIED, log entry 11. -/
opaque cipherByte (line : List Byte) (address : Nat) (written read : List Byte) (i : Nat) : Byte

/-- The firmware entry that BVEC holds at reset (R376). DESIGN CHOICE, log entry 2. -/
opaque bvecEntry : Word

/-- Whether the peer member answers for remote element `addr` at time `token`, and with which stop kind
(0 none, 1, 2, 6 or 7) (R357, R358): the peer is outside the package. DESIGN CHOICE, log entry 12. -/
opaque peerStop (token peer addr : Nat) : Nat

/-- A byte of another member's export window (R357). DESIGN CHOICE, log entry 12. -/
opaque peerByte (token peer addr : Nat) : Byte

end Sys2Proof.Config
end

