-- ==== Sys2Proof/Machine/State.lean ====
section
/-!
DEFINITION. The state of the package as plain data, and the state right after reset.
The structures follow the levels of R17: what a strand, a flotilla, a core, a launch owns; then the memory system,
Pilot, berths, tenders, the I/O die and the security controller. INVENTORY.md lists every field with its rule.
-/
namespace Sys2Proof.Machine

/-- Why a step stops with a fault. -/
inductive Fault where
  /-- Raised by `step` alone, when the package is fatal (R441) and the schedule is empty: nothing but a package reset
  moves it. Safe: the hardware does nothing either. -/
  | packageFatal
  deriving DecidableEq, Repr

/-- Why an instruction has no meaning. -/
inductive Refusal where
  /-- Raised by an arm of `exec` whose instruction has no meaning yet, by its mnemonic. Safe: the machine stops. -/
  | notModelled (mnemonic : String)
  deriving DecidableEq, Repr

/-- A byte's place after translation: DRAM, a scratchpad of a core, host memory over CXL.mem or PCI Express (R389), or
DRAM reached with a key that is not the one its line was written with (R399). -/
inductive Space where
  | dram
  | pool
  | cxl
  | pcie
  | cipher (key : Nat)
  deriving DecidableEq, Repr

/-- A located byte: its space and its address there. -/
structure Loc where
  space : Space
  addr  : Nat
  deriving DecidableEq, Repr

/-- What a blocked agent waits in (R138, R139, R337, R341, R342); its pc stays at the instruction. A timeout of mwait is CYC at
its issue and the number of cycles. -/
inductive Wait where
  | running
  | mwait (d : BitVec 6) (timeout : Option (Word × Word))
  | join (a : BitVec 6)
  | bar (d : BitVec 6)
  | waiti (a : BitVec 6)
  | post (a : BitVec 6)
  | halt
  deriving DecidableEq, Repr

/-- The scalar half of an agent: a strand (R107, R110) or a Bridge core (R373). -/
structure Hart where
  g        : Vector Word 64
  pc       : Word
  lastd    : BitVec 6
  pfxs     : BitVec 32
  insn     : Word
  sfcs     : Word
  monArmed : Bool
  monFired : Bool
  monLine  : Option Loc
  wait     : Wait
  deriving DecidableEq, Repr

/-- A vector register's image (R149). -/
abbrev VReg := Vector Byte 2048

/-- A mask register (R151). -/
abbrev MReg := Vector Bool 32768

/-- A register swatch with the length it covers (R297, R299). -/
structure Swatch where
  code : BitVec 10
  len  : Nat
  deriving DecidableEq, Repr

/-- LASTD, the made-good registers and the grant of the strip (R165) as a trap keeps them (R140, R142). -/
structure Kept where
  lastd : BitVec 6
  mg    : Word
  mgs   : Word
  mgf   : Word
  mgr   : Word
  mgc   : Word
  sreq  : Word
  grant : Nat
  deriving DecidableEq, Repr

/-- What a strand's context is doing (R46, R378, R380): `saved` by SYNC while trapped, `parked` when Pilot has saved a
halted context and its slot is free. -/
inductive Status where
  | absent
  | running
  | trapped
  | halted
  | saved
  | parked
  | retired
  deriving DecidableEq, Repr

/-- A pending tender token: its register and the job that writes it (R355). -/
structure Token where
  reg : BitVec 6
  job : Nat
  deriving DecidableEq, Repr

/-- An entry of the address-range interlock table (R263); `known` is false while an index has not been read, and `bar`
tells that a strip boundary or a resumption stands after it, so that every later access waits for it (R29, R95, R334). -/
structure Interlock where
  owner : Nat
  write : Bool
  lo    : Nat
  hi    : Nat
  known : Bool
  bar   : Bool
  deriving DecidableEq, Repr

/-- What the instructions that a pre-emption has cut leave in flight until the strand halts (R46): the effective length that
those behind them keep; the scalar registers that they would write and the ranges that they hold in the interlock table
(R147, R264); whether one accesses memory with SO 0 (R95), or at all, and whether one is a gazetteer instruction (R311, R319). -/
structure Cut where
  n    : Nat
  regs : List (BitVec 6)
  held : List Interlock
  so   : Bool
  mem  : Bool
  gaz  : Bool
  deriving DecidableEq, Repr

/-- A strand's state beside its hart (R17); `held` tells why the Bridge holds it: at a breakpoint, 1 for a code
shootdown in flight, 2 for a debugger (R381); 3 when SYNC keeps a context saved that Pilot had saved (R380). `cutReq`
is the cut that a pre-emption request asks for, and `cut` what its instructions in flight leave once one of them has been
cut (R46); `grant` is the G of the last setvl (R165). `gunk` holds the overflow entries that
a restore could not read into the summary (R321), and `late` the Bridge's writes to registers of the core or the flotilla
of a context that does not run, which act when it next runs (R377); `rfpois` is the UNIT of a register file with an
uncorrectable error, and `rfmet` that of the error that the context's trap reports (R437, R439). -/
structure Strand where
  v      : Vector VReg 32
  tide   : Vector Nat 32
  sw     : Vector Swatch 32
  m      : Vector MReg 8
  type   : BitVec 12
  vfcs   : Word
  spth   : BitVec 9
  spare  : Vector (BitVec 16) 4
  pal    : Vector Word 16
  ach    : BitVec 3
  tshp   : Word
  mg     : Word
  mgs    : Word
  mgf    : Word
  mgr    : Word
  mgc    : Word
  sreq   : Word
  pos    : Nat
  gran   : Nat
  tvec   : Word
  tscr   : Word
  tcause : Word
  tpc    : Word
  tval   : Word
  tpfx   : Word
  inh    : Bool
  kept   : Kept
  sid    : Word
  lcnt   : Word
  prio   : Word
  spnr   : Word
  tcsp   : Word
  tmid   : Word
  saved0 : Bool
  saved1 : Bool
  govb   : Word
  govl   : Word
  govc   : Word
  gflt   : Word
  gents  : List (Word × Word)
  gsum   : List (Word × Word)
  gunk   : List Nat
  gpois  : Bool
  tokens : List Token
  irt    : List Interlock
  casp   : Word
  croot  : Word
  csav   : Word
  ccause : Word
  ctval  : Word
  cpc    : Word
  tag    : BitVec 16
  status : Status
  held   : Nat
  core   : Nat
  slot   : Bool
  flot   : Nat
  launch : Nat
  placed : Word
  cutReq : Option Nat
  cut    : Option Cut
  grant  : Nat
  late   : List (Nat × Word)
  fetchd : List (Nat × BitVec 16)
  rfpois : Option Nat
  rfmet  : Option Nat
  deriving DecidableEq, Repr

/-- A flotilla (R17, R334, R337, R342); `halted` tells when its last halt was (R331). -/
structure Flotilla where
  id      : Nat
  launch  : Nat
  size    : Nat
  cluster : Nat
  fgr     : BitVec 7
  fid     : Word
  bm      : Word
  posted  : BitVec 64
  arrived : List Nat
  gone    : List Nat
  halted  : Option Nat
  task    : Bool
  deriving DecidableEq, Repr

/-- One bank of an accumulator (R279, R286, R300): 64 rows of 512 bytes. -/
structure Bank where
  rows   : Vector (Vector Byte 512) 64
  zero   : Bool
  poison : Bool
  deriving DecidableEq, Repr

/-- An accumulator with its extent register and owner (R279, R280, R282). -/
structure Acc where
  work  : Bank
  vis   : Bank
  mxe   : Word
  own   : BitVec 16
  owned : Bool
  deriving DecidableEq, Repr

/-- A cached leaf translation (R391). -/
structure TlbEntry where
  berth : BitVec 4
  asid  : Nat
  vxt   : Nat
  page  : Nat
  level : Nat
  pte   : Nat
  deriving DecidableEq, Repr

/-- A core (R3, R17); `ran` counts its cycles since reset as CYC does, but no write of CYC changes it (R110, R138). -/
structure Core where
  id     : Nat
  cyc    : Word
  ran    : Word
  pspl   : BitVec 5
  pool   : List Host.Cell
  poolP  : List Nat
  acc0   : Acc
  acc1   : Acc
  icache : List (Nat × BitVec 16)
  tlb    : List TlbEntry
  deriving DecidableEq, Repr

/-- A Bridge core's own registers (R376). -/
structure BCore where
  id      : Nat
  att     : Bool
  intr    : Bool
  lead    : Bool
  stby    : Bool
  berth   : BitVec 4
  bctx    : BitVec 16
  bcmd    : Bool
  bsel    : BitVec 10
  bvec    : Word
  bepc    : Word
  because : Word
  betval  : Word
  bscr    : Word
  bint    : BitVec 3
  basp    : Word
  broot   : Word
  cyc     : Word
  ran     : Word
  stopped : Bool
  deriving DecidableEq, Repr

/-- A strand's context out of focus. -/
structure Ctx where
  hart   : Hart
  strand : Strand
  deriving DecidableEq, Repr

/-- A Bridge core out of focus. -/
structure BPark where
  hart  : Hart
  bcore : BCore
  deriving DecidableEq, Repr

/-- A tender core (R351 to R353): its RV64 registers and pc, an offset into its 128 KiB of SRAM, whose first half holds the
image, of the code object and number in `image`; the command that it serves; the sends and receives whose handles TFSEND and
TFRECV read; the line of its load reservation; `staged`, the elements contributed as they were read at issue, by effective
address, without the bytes that the command has written since (R364). -/
structure TCore where
  id      : Nat
  x       : Vector Word 32
  pc      : Word
  sram    : List Host.Cell
  image   : Option (Word × Word × Word × Nat)
  cmd     : Option Nat
  sent    : Nat
  posted  : Nat
  rsv     : Option Loc
  staged  : List Host.Cell
  stopped : Bool
  deriving DecidableEq, Repr

/-- Everything of the population that is not in focus, and the tender cores. -/
structure Pop where
  ctxs    : List Ctx
  flots   : List Flotilla
  cores   : List Core
  bcores  : List BPark
  tenders : List TCore
  deriving DecidableEq, Repr

/-- A range of the address map (R2): striped over the four dies, or on one; `off` is its first byte's place in the
memory of each die that holds it. -/
structure MapRange where
  base    : Nat
  size    : Nat
  striped : Bool
  die     : Nat
  off     : Nat
  deriving DecidableEq, Repr

/-- A valid table entry that a walker cache holds: the entry of level `lvl` on the path of `page`, and the table that it
names (R391). -/
structure WalkEntry where
  berth : BitVec 4
  asid  : Nat
  vxt   : Nat
  lvl   : Nat
  page  : Nat
  table : Nat
  deriving DecidableEq, Repr

/-- What is cached of translations beside a core's TLB (R3, R391): a cluster's second-level TLB and walker cache, under
the cluster's number, or a Bridge core's, under 192 and its number. -/
structure XlUnit where
  id    : Nat
  tlb   : List TlbEntry
  walks : List WalkEntry
  deriving DecidableEq, Repr

/-- What accesses leave behind without writing: cached translations, and the key under which each DRAM line was first
reached (R391, R399). -/
structure Seen where
  units : List XlUnit
  keys  : List (Nat × Nat)
  deriving DecidableEq, Repr

/-- Memory beyond the cores: DRAM, host memory as the device reads it, poison, swatches (R255, R298, R407, R410).
`refused` holds the lines whose reads the host refuses, with the stop kind, and `dropped` those whose writes it
refuses (R407). -/
structure MemSys where
  dram    : List Host.Cell
  cxl     : List Host.Cell
  pcie    : List Host.Cell
  refused : List (Nat × Nat)
  dropped : List Nat
  poison  : List Nat
  swatch  : List (Nat × BitVec 10)
  hostLn  : List Nat
  seen    : Seen
  addrMap : List MapRange
  deriving DecidableEq, Repr

/-- The state of a launch in its queue (R329). -/
inductive LState where
  | queued
  | waiting
  | ready
  | draining
  | signal
  deriving DecidableEq, Repr

/-- A dependence of a launch (R324). -/
structure Dep where
  addr : Word
  val  : Word
  sat  : Bool
  deriving DecidableEq, Repr

/-- A launch (R17, R323, R329, R332); `live` counts its strands and tasks that have not retired. -/
structure Launch where
  id    : Nat
  code  : Word
  ctl   : Word
  cnt   : Word
  grant : Word
  ring  : Word
  csig  : Word
  cval  : Word
  deps  : List Dep
  args  : List Word
  entry : Word
  grec  : Word
  casp  : Word
  croot : Word
  state : LState
  next  : Nat
  live  : Nat
  lost  : Nat
  tow   : Nat
  deriving DecidableEq, Repr

/-- A task in a muster queue (R338), with its number among all pushes. -/
structure MTask where
  launch : Nat
  entry  : Word
  arg    : Word
  ctr    : Word
  die    : Nat
  seq    : Nat
  deriving DecidableEq, Repr

/-- A task in the overflow ring of a launch (R338): the die it was pushed on and its number among all pushes. -/
structure RingTask where
  launch : Nat
  die    : Nat
  seq    : Nat
  deriving DecidableEq, Repr

/-- Pilot's state (R329, R332, R338); `ringq` lists the tasks in the overflow rings, oldest first. -/
structure Pilot where
  launches : List Launch
  held     : List (Nat × Nat)
  muster   : List MTask
  ringq    : List RingTask
  nextPush : Nat
  lostTask : List (Nat × Nat)
  nextId   : Nat
  nextTag  : Nat
  deriving DecidableEq, Repr

/-- The state of a key slot (R400). -/
inductive KeyState where
  | empty
  | active
  | revoking
  | revoked
  deriving DecidableEq, Repr

/-- A posted receive (R367). -/
structure Mooring where
  job  : Nat
  ctx  : BitVec 12
  tag  : BitVec 32
  peer : BitVec 10
  deriving DecidableEq, Repr

/-- A message (R365, R366). -/
structure Msg where
  ctx  : BitVec 12
  tag  : BitVec 32
  peer : BitVec 10
  data : List Byte
  job  : Option Nat
  deriving DecidableEq, Repr

/-- An event for the host (R415). -/
structure HostEvent where
  kind : Nat
  tag  : BitVec 16
  queue : Nat
  die  : Nat
  w2   : Word
  w3   : Word
  deriving DecidableEq, Repr

/-- A record of the lead's log (R401): a call taken, an effect committed with its result, a completion posted. -/
inductive LogRec where
  | taken (seq : Nat)
  | effect (seq status : Nat) (value : Word)
  | completed (seq status : Nat) (value : Word)
  deriving DecidableEq, Repr

/-- A berth (R395) with what the Bridge firmware keeps for it. `drift` lists the slots of the drift queue in arrival
order: the messages stand in device memory from `driftAt`, in `driftCap` slots (R369). -/
structure Berth where
  used     : Bool
  started  : Bool
  clusters : Nat
  groups   : Nat
  queues   : Nat
  ports    : Nat
  qm       : BitVec 8
  qp       : BitVec 8
  bcores   : Nat
  tenders  : Nat
  lead     : Nat
  stby     : Option Nat
  keys     : Vector KeyState 64
  keyMat   : List (Nat × List Byte)
  brcnt    : BitVec 8
  trapq    : Vector (List (BitVec 16)) 4
  rp       : Vector Nat 8
  crbase   : Word
  cqbase   : Word
  evbase   : Word
  cqhead   : Word
  evhead   : Word
  enable   : Word
  ready    : Bool
  failed   : Bool
  bases    : Word × Word × Word
  chead    : Nat
  cposted  : Nat
  evcount  : Nat
  evheld   : List HostEvent
  evlost   : Bool
  wins     : List (Nat × Nat)
  spaces   : List (Nat × Nat)
  nextAsid : Nat
  nextPage : Nat
  freed    : List Nat
  sharers  : List (Nat × Nat)
  saves    : List Nat
  xwin     : Option (Word × Word × Nat × Nat)
  debugger : Bool
  log      : List LogRec
  missed   : Nat
  shoot    : List (Word × Nat × Nat)
  moor     : List Mooring
  drift    : List Nat
  refused  : List Msg
  driftAt  : Nat
  driftCap : Nat
  tmid     : Word
  deriving DecidableEq, Repr

/-- A contribution to a collective (R360 to R364): `n` elements from `o` of `total`, read from `base` on, ended by poison or
not, `done` the chunks whose results have landed, `fail` the element whose landing stopped with its kind; `code` the code
object of the issuing launch. -/
structure Coll where
  gid    : Nat
  rank   : Nat
  nmem   : Nat
  op     : Nat
  fmt    : Nat
  sz     : Nat
  total  : Nat
  o      : Nat
  n      : Nat
  mg     : Nat
  into   : Word
  stat   : Word
  poison : Bool
  done   : List Nat
  fail   : Option (Nat × Nat)
  isr    : Bool
  img    : Nat
  code   : Option Word
  base   : Word
  desc   : Word
  type   : BitVec 12
  fcmd   : Nat
  data   : List Byte
  deriving DecidableEq, Repr

/-- What a tender job does (R358, R361, R366, R367). -/
inductive JobKind where
  | copy (n sz : Nat) (da ds fa fs : Word) (tcsp : Word)
  | send (count : Nat) (poison : Bool) (msg : Msg)
  | recv (addr : Word) (cap sz : Nat)
  | coll (c : Coll)
  deriving DecidableEq, Repr

/-- A tender job of a strand, with its token once its work has ended (R354, R355); `left` is what remains of the context of a
strand that has retired before: the job goes on in its address space and has no register to report to. -/
structure Job where
  id    : Nat
  owner : BitVec 16
  reg   : BitVec 6
  kind  : JobKind
  entered : Bool
  last  : Word
  parent : Option Nat
  done  : Option Word
  left  : Option Ctx
  deriving DecidableEq, Repr

/-- Where a member of a group wants its status (R360, R363): its berth, the STAT address of its last contribution, and what the
tender needs of the context that made it. -/
structure StatArea where
  berth : Nat
  addr  : Word
  ctx   : Ctx
  deriving DecidableEq, Repr

/-- A group of the scale-up switch (R361 to R363): the format and operation of its first contribution, the berths of this
package that have contributed, and their status areas. -/
structure Group where
  gid     : Nat
  closed  : Bool
  first   : Option (Nat × Nat)
  members : List Nat
  areas   : List StatArea
  deriving DecidableEq, Repr

/-- Tenders and the fabric (R351, R371). -/
structure Fabric where
  jobs   : List Job
  next   : Nat
  groups : List Group
  failed : List Nat
  deriving DecidableEq, Repr

/-- An MSI-X message with the reset count it carries (R397); function 0 is the PF, berth + 1 a VF. -/
structure Msix where
  fn    : Nat
  vec   : Nat
  count : BitVec 8
  deriving DecidableEq, Repr

/-- A piece of an inbound posted write that its home has not performed: requester, number of the write, Relaxed Ordering,
physical address, berth and key slot (R416). -/
structure Piece where
  req  : BitVec 16
  seq  : Nat
  ro   : Bool
  addr : Nat
  berth : Nat
  slot : Nat
  data : List Byte
  deriving DecidableEq, Repr

/-- The I/O die (R397, R409, R416, R421). -/
structure Iod where
  pieces : List Piece
  seq    : Nat
  msix   : List Msix
  sent   : List Msix
  reads  : List (List Byte)
  flags  : List Nat
  hdm    : List (Nat × Nat × Nat)
  deriving DecidableEq, Repr

/-- An error report (R436). -/
structure Report where
  w0 : Word
  w1 : Word
  w2 : Word
  w3 : Word
  deriving DecidableEq, Repr

/-- The security controller and the management window (R427 to R442); `args` is MBUF as it stood when BUSY was set, and
`loaded` holds the image and table bodies copied to their destinations (R429). -/
structure Mgmt where
  started : Bool
  stage  : BitVec 4
  fail   : BitVec 4
  fatal  : Bool
  drdy   : BitVec 4
  busy   : Bool
  cmd    : BitVec 8
  status : BitVec 8
  melb   : Word
  melh   : Word
  melen  : Word
  mpwr   : Word
  mtemp  : Word
  mbuf   : Vector Byte 256
  args   : Vector Byte 256
  fm     : List Byte
  images : Nat
  loaded : List (List Byte)
  tables : Bool
  seq    : Nat
  posted : Nat
  held   : List Report
  spdm   : List Byte
  deriving DecidableEq, Repr

/-- What comes from outside with an event: the fields that the event's meaning names. -/
structure Input where
  tag    : BitVec 16
  berth  : BitVec 4
  die    : BitVec 2
  queue  : BitVec 6
  job    : Nat
  num    : Nat
  addr   : Nat
  value  : Word
  flag   : Bool
  flag2  : Bool
  data   : List Byte
  ranks  : List Nat
  others : List (Nat × List Byte)
  peer   : BitVec 10
  ctx    : BitVec 12
  mtag   : BitVec 32
  req    : BitVec 16
  deriving DecidableEq, Repr

/-- The next agent or event of the schedule, an event with its input (the model's own, log entry 4). -/
inductive Turn where
  | strand (tag : BitVec 16)
  | bridge (id : Nat)
  | tender (id : Nat)
  | event (i : Instr) (inp : Input)
  deriving DecidableEq, Repr

end Sys2Proof.Machine

namespace Sys2Proof.Machine

/-- The machine. `hart` with `strand`, `flot` and `core` is the focused strand's context, or `hart` with `bcore` the
focused Bridge core when `priv`; `pop` holds the others. -/
structure State where
  priv   : Bool
  hart   : Hart
  strand : Strand
  flot   : Flotilla
  core   : Core
  bcore  : BCore
  ms     : MemSys
  pop    : Pop
  pilot  : Pilot
  berths : Vector Berth 16
  fabric : Fabric
  iod    : Iod
  mgmt   : Mgmt
  inp    : Input
  turns  : List Turn
  fresh  : Nat
  deriving DecidableEq, Repr

/-- A hart at creation (R107, R110, R62, R67). -/
def Hart.reset : Hart :=
  { g := mkVec 64 fun _ => 0#64, pc := 0, lastd := 0, pfxs := 0, insn := 0, sfcs := 0,
    monArmed := false, monFired := false, monLine := none, wait := .running }

/-- A zero swatch covering a whole register (R299: strand creation). -/
def Swatch.creation : Swatch := { code := 0x201, len := 4096 }

/-- A strand's state at creation (R25, R39, R151, R152, R157, R160, R161, R167, R212, R243, R311). -/
def Strand.reset : Strand :=
  { v := mkVec 32 fun _ => mkVec 2048 fun _ => 0#8, tide := mkVec 32 fun _ => 0,
    sw := mkVec 32 fun _ => Swatch.creation, m := mkVec 8 fun _ => mkVec 32768 fun _ => false,
    type := 0, vfcs := 0, spth := 64, spare := mkVec 4 fun _ => 0#16, pal := mkVec 16 fun _ => 0#64,
    ach := 0, tshp := 1, mg := 0, mgs := 0, mgf := 0, mgr := 0, mgc := 0, sreq := 0, pos := 0, gran := 32,
    tvec := 0, tscr := 0, tcause := 0, tpc := 0, tval := 0, tpfx := 0, inh := false,
    kept := { lastd := 0, mg := 0, mgs := 0, mgf := 0, mgr := 0, mgc := 0, sreq := 0, grant := 0 },
    sid := 0, lcnt := 0, prio := 0, spnr := 0, tcsp := 0, tmid := 0,
    saved0 := false, saved1 := false, govb := 0, govl := 0, govc := 0, gflt := 0, gents := [], gsum := [], gunk := [],
    gpois := false, tokens := [], irt := [], casp := 0, croot := 0, csav := 0, ccause := 0, ctval := 0,
    cpc := 0, tag := 0, status := .absent, held := 0, core := 0, slot := false, flot := 0, launch := 0,
    placed := 0, cutReq := none, cut := none, grant := 0, late := [], fetchd := [], rfpois := none, rfmet := none }

/-- A flotilla before placement gives it members (R25, R336). -/
def Flotilla.reset : Flotilla :=
  { id := 0, launch := 0, size := 0, cluster := 0, fgr := 64, fid := 0, bm := 0, posted := 0, arrived := [], gone := [],
    halted := none, task := false }

/-- A bank of zeros (R283). -/
def Bank.reset : Bank :=
  { rows := mkVec 64 fun _ => mkVec 512 fun _ => 0#8, zero := true, poison := false }

/-- An accumulator without owner, at the reset extent (R280, R282). -/
def Acc.reset : Acc :=
  { work := Bank.reset, vis := Bank.reset, mxe := 0x18040, own := 0, owned := false }

/-- Core number `id` at reset (R110). -/
def Core.reset (id : Nat) : Core :=
  { id := id, cyc := 0, ran := 0, pspl := 8, pool := [], poolP := [], acc0 := Acc.reset, acc1 := Acc.reset,
    icache := [], tlb := [] }

/-- Bridge core number `id`, die `id / 16`, at reset (R376). -/
def BCore.reset (id : Nat) : BCore :=
  { id := id, att := false, intr := false, lead := false, stby := false, berth := 0, bctx := 0, bcmd := false,
    bsel := 0, bvec := Config.bvecEntry &&& ~~~(1 : Word), bepc := 0, because := 0, betval := 0, bscr := 0, bint := 0, basp := 0,
    broot := 0, cyc := 0, ran := 0, stopped := false }

/-- Tender core number `id`, die `id / 16`, at reset (R351); its registers and its SRAM hold 0 (DESIGN CHOICE, log entry 95). -/
def TCore.reset (id : Nat) : TCore :=
  { id := id, x := mkVec 32 fun _ => 0#64, pc := 0, sram := [], image := none, cmd := none, sent := 0, posted := 0,
    rsv := none, staged := [], stopped := false }

/-- A berth that no command has configured (R376, R395, R400, R411). -/
def Berth.reset : Berth :=
  { used := false, started := false, clusters := 0, groups := 0, queues := 0, ports := 0, qm := 0, qp := 0,
    bcores := 0, tenders := 0, lead := 0, stby := none, keys := mkVec 64 fun _ => .empty, keyMat := [],
    brcnt := 0, trapq := mkVec 4 fun _ => [], rp := mkVec 8 fun _ => 0, crbase := 0, cqbase := 0, evbase := 0,
    cqhead := 0, evhead := 0, enable := 0, ready := false, failed := false, bases := (0, 0, 0), chead := 0,
    cposted := 0, evcount := 0, evheld := [], evlost := false, wins := [], spaces := [], nextAsid := 1,
    nextPage := 0, freed := [], sharers := [], saves := [], xwin := none, debugger := false, log := [],
    missed := 0, shoot := [], moor := [], drift := [], refused := [], driftAt := 0, driftCap := 4096, tmid := 0 }

/-- The security controller at reset (R434). -/
def Mgmt.reset : Mgmt :=
  { started := false, stage := 0, fail := 0, fatal := false, drdy := 0, busy := false, cmd := 0, status := 0,
    melb := 0, melh := 0, melen := 0, mpwr := 0xBB8, mtemp := 0, mbuf := mkVec 256 fun _ => 0#8, args := mkVec 256 fun _ => 0#8,
    fm := List.replicate 32 0#8, images := 0, loaded := [], tables := false, seq := 0, posted := 0, held := [], spdm := [] }

/-- No input. -/
def Input.none : Input :=
  { tag := 0, berth := 0, die := 0, queue := 0, job := 0, num := 0, addr := 0, value := 0, flag := false,
    flag2 := false, data := [], ranks := [], others := [], peer := 0, ctx := 0, mtag := 0, req := 0 }

/-- The machine right after reset: no berth configured, no strand placed, staged start not begun (R427). -/
def State.reset : State :=
  { priv := false, hart := Hart.reset, strand := Strand.reset, flot := Flotilla.reset, core := Core.reset 0,
    bcore := BCore.reset 0,
    ms := { dram := [], cxl := [], pcie := [], refused := [], dropped := [], poison := [], swatch := [], hostLn := [],
            seen := { units := [], keys := [] }, addrMap := [] },
    pop := { ctxs := [], flots := [], cores := [], bcores := [], tenders := [] },
    pilot := { launches := [], held := [], muster := [], ringq := [], nextPush := 0, lostTask := [], nextId := 1, nextTag := 0 },
    berths := mkVec 16 fun _ => Berth.reset,
    fabric := { jobs := [], next := 1, groups := [], failed := [] },
    iod := { pieces := [], seq := 0, msix := [], sent := [], reads := [], flags := [], hdm := [] },
    mgmt := Mgmt.reset, inp := Input.none, turns := [], fresh := 0 }

end Sys2Proof.Machine
end

