-- ==== Sys2Proof/Machine/Mem.lean ====
section
/-!
DEFINITION. The named operations over registers and memory: bytes, lines and keys, a store and what follows it,
translation, and the checks of an access.
-/
namespace Sys2Proof.Machine

/-- What a step or an instruction answers. -/
abbrev Out := Host.Outcome State Fault Refusal

/-! Replacing one part of the state. -/

def State.setHart (s : State) (x : Hart) : State := { s with hart := x }
def State.setStrand (s : State) (x : Strand) : State := { s with strand := x }
def State.setFlot (s : State) (x : Flotilla) : State := { s with flot := x }
def State.setCore (s : State) (x : Core) : State := { s with core := x }
def State.setBcore (s : State) (x : BCore) : State := { s with bcore := x }
def State.setMs (s : State) (x : MemSys) : State := { s with ms := x }
def State.setPop (s : State) (x : Pop) : State := { s with pop := x }
def State.setPilot (s : State) (x : Pilot) : State := { s with pilot := x }
def State.setBerths (s : State) (x : Vector Berth 16) : State := { s with berths := x }
def State.setFabric (s : State) (x : Fabric) : State := { s with fabric := x }
def State.setIod (s : State) (x : Iod) : State := { s with iod := x }
def State.setMgmt (s : State) (x : Mgmt) : State := { s with mgmt := x }
def State.setFresh (s : State) (x : Nat) : State := { s with fresh := x }

/-- Berth number `b`. -/
def State.berthAt (s : State) (b : Nat) : Berth := vget s.berths b Berth.reset

/-- The state with berth `b` replaced. -/
def State.putBerth (s : State) (b : Nat) (x : Berth) : State := s.setBerths (vset s.berths b x)

/-! Free values (log entry 1). -/

/-- Free value number `idx` of use `use` in this step. -/
def State.free (s : State) (use idx : Nat) : Nat := Config.pick s.fresh (use * 2 ^ 40 + idx)

/-- A free choice between two outcomes. -/
def State.choose (s : State) (use idx : Nat) : Bool := s.free use idx % 2 = 1

/-! Scalar registers (R62, R107). -/

/-- Register `r` of a hart; g0 reads as 0. -/
def Hart.get (h : Hart) (r : Nat) : Word := if r = 0 then 0 else vget h.g r 0

/-- Writing register `r` without LASTD (a token, a copy destination); a write to g0 is discarded. -/
def Hart.put (h : Hart) (r : Nat) (x : Word) : Hart := if r = 0 then h else { h with g := vset h.g r x }

/-- Writing register `r` as an instruction's destination: LASTD takes its number (R62). -/
def Hart.set (h : Hart) (r : Nat) (x : Word) : Hart :=
  if r = 0 then h else { h with g := vset h.g r x, lastd := BitVec.ofNat 6 r }

/-- Register `r` of the focused agent. -/
def State.g (s : State) (r : BitVec 6) : Word := s.hart.get r.toNat

/-- Writing register `r` of the focused agent as a destination. -/
def State.wr (s : State) (r : BitVec 6) (x : Word) : State := s.setHart (s.hart.set r.toNat x)

/-! Memory in its canonical form: addresses rising, no entry that holds the default byte. -/

/-- What an unlisted address reads as (log entry 3). -/
def unlisted : Byte := 0#8

/-- One byte of a memory. -/
def memGet (m : List Host.Cell) (a : Nat) : Byte :=
  match m with
  | [] => unlisted
  | (k, v) :: t => if k = a then v else memGet t a

/-- A memory with one byte written; writing the default removes the entry. -/
def memSet (m : List Host.Cell) (a : Nat) (b : Byte) : List Host.Cell :=
  match m with
  | [] => if b = unlisted then [] else [(a, b)]
  | (k, v) :: t =>
    if a = k then (if b = unlisted then t else (a, b) :: t)
    else if a < k then (if b = unlisted then (k, v) :: t else (a, b) :: (k, v) :: t)
    else (k, v) :: memSet t a b

/-- Every address of the memory lies above `lo` and rises, and no entry holds the default byte. -/
def memWfFrom (lo : Nat) (m : List Host.Cell) : Bool :=
  match m with
  | [] => true
  | (k, v) :: t => lo ≤ k && v ≠ unlisted && memWfFrom (k + 1) t

/-- The canonical form of a memory. -/
def Memory.wf (m : List Host.Cell) : Bool := memWfFrom 0 m

/-- Consecutive bytes from `a`. -/
def memRead (m : List Host.Cell) (a : Nat) : Nat → List Byte
  | 0 => []
  | n + 1 => memGet m a :: memRead m (a + 1) n

/-- A memory with consecutive bytes written from `a`. -/
def memWrite (m : List Host.Cell) (a : Nat) : List Byte → List Host.Cell
  | [] => m
  | b :: bs => memWrite (memSet m a b) (a + 1) bs

/-- A 64-bit little-endian word of a memory (R10). -/
def memWord (m : List Host.Cell) (a : Nat) : Word := BitVec.ofNat 64 (ofBytes (memRead m a 8))

/-- The key of a slot of a berth (R399). -/
def slotKey (berth slot : Nat) : Nat := 64 * berth + slot

/-- The key that a DRAM line stands under; none when no access has reached it (log entry 71). -/
def Seen.keyOf (x : Seen) (line : Nat) : Option Nat := (x.keys.find? fun e => e.1 = line).map (·.2)

/-- A line that no access has reached stands from now on under the key of the first. -/
def Seen.see (x : Seen) (line key : Nat) : Seen :=
  if (x.keyOf line).isSome then x else { x with keys := (line, key) :: x.keys }

/-- A line that now stands under another key. -/
def Seen.setKey (x : Seen) (line key : Nat) : Seen :=
  { x with keys := (line, key) :: x.keys.filter fun e => e.1 ≠ line }

/-- A DRAM byte as an access with a key reaches it (R399). -/
def Seen.view (x : Seen) (key : Nat) (l : Loc) : Loc :=
  match l.space, x.keyOf (l.addr / 128) with
  | .dram, some k => if k = key then l else { l with space := .cipher key }
  | _, _ => l

/-- The byte's place, whatever key it was reached with. -/
def Loc.plain (l : Loc) : Loc :=
  match l.space with
  | .cipher _ => { l with space := .dram }
  | _ => l

/-- The key pair of a slot (R399): the one that KEYSET installed, or that the slot received otherwise. -/
def State.keyPair (s : State) (key : Nat) : List Byte :=
  let b := s.berthAt (key / 64)
  ((b.keyMat.find? fun e => e.1 = key % 64).map (·.2)).getD (Config.slotPair key b.brcnt.toNat)

/-- One located byte: DRAM, the focused core's pool, or host memory; under a key other than its line's, what that key
makes of the line (R399). -/
def State.byte (s : State) (l : Loc) : Byte :=
  match l.space with
  | .dram => memGet s.ms.dram l.addr
  | .pool => memGet s.core.pool l.addr
  | .cxl => memGet s.ms.cxl l.addr
  | .pcie => memGet s.ms.pcie l.addr
  | .cipher key =>
    match s.ms.seen.keyOf (l.addr / 128) with
    | some k =>
      let written := s.keyPair k
      let read := s.keyPair key
      if k = key || written = read then memGet s.ms.dram l.addr
      else Config.cipherByte (memRead s.ms.dram (l.addr / 128 * 128) 128) (l.addr / 128) written read (l.addr % 128)
    | none => memGet s.ms.dram l.addr

/-- Writing one located byte, and nothing else; one that the host refuses is dropped (R407). -/
def State.putByte (s : State) (l : Loc) (b : Byte) : State :=
  match l.space with
  | .dram => s.setMs { s.ms with dram := memSet s.ms.dram l.addr b }
  | .pool => s.setCore { s.core with pool := memSet s.core.pool l.addr b }
  | .cxl => s.setMs { s.ms with cxl := memSet s.ms.cxl l.addr b }
  | .pcie =>
    if s.ms.dropped.contains (l.addr / 128) then s else s.setMs { s.ms with pcie := memSet s.ms.pcie l.addr b }
  | .cipher _ => s.setMs { s.ms with dram := memSet s.ms.dram l.addr b }

/-- Writing located bytes in order. -/
def State.putBytes (s : State) (ws : List (Loc × Byte)) : State :=
  match ws with
  | [] => s
  | (l, b) :: t => (s.putByte l b).putBytes t

/-! Lines, sectors, swatches (R255, R297, R298). -/

/-- The 128-byte line of a located byte. -/
def Loc.line (l : Loc) : Loc := { l.plain with addr := l.addr / 128 }

/-- A list without repeats, keeping the first of each. -/
def dedup {α : Type} [DecidableEq α] (l : List α) : List α :=
  match l with
  | [] => []
  | x :: t => x :: (dedup t).filter (· ≠ x)

/-- Consecutive located bytes of one space. -/
def locRange (sp : Space) (a : Nat) (n : Nat) : List Loc := buildFrom (fun i => { space := sp, addr := i }) n a

/-- U(w) of a unit swatch (R297). -/
def unitCode (w : Nat) : Nat :=
  if w = 16 then 0x3F80 else if w = 32 then 0x3F800000 else 0x3FF0000000000000

/-- Whether a w-bit code is finite for FIN: f64, f32, or both 16-bit readings (R186, R297). -/
def finCode (w c : Nat) : Bool :=
  if w = 64 then bitsAt c 52 11 ≠ 2047
  else if w = 32 then bitsAt c 23 8 ≠ 255
  else if w = 16 then bitsAt c 10 5 ≠ 31 && bitsAt c 7 8 ≠ 255
  else false

/-- The KIND code of a constant or unit swatch at width w (R297). -/
def swatchKind (unit : Bool) (w : Nat) : Nat :=
  (if w = 16 then 2 else if w = 32 then 3 else 4) + (if unit then 3 else 0)

/-- The 10-bit swatch (R297). -/
def mkSwatch (fin : Bool) (pos kind : Nat) : BitVec 10 :=
  BitVec.ofNat 10 ((if fin then 512 else 0) + 8 * pos + kind)

/-- The zero swatch, 0x201. -/
def swatchZero : BitVec 10 := 0x201#10

/-- A width that constant and unit swatches record. -/
def swWidth (w : Nat) : Bool := w = 16 || w = 32 || w = 64

/-- Codes of `w` bits that a list of bytes holds. -/
def codesOf (w : Nat) (bs : List Byte) : List Nat :=
  buildFrom (fun i => ofBytes ((bs.drop (i * (w / 8))).take (w / 8))) (bs.length / (w / 8)) 0

/-- The swatch of a whole line's bytes under a known element width, by the rules of R298 in their order. -/
def lineSwatch (w : Nat) (bs : List Byte) : BitVec 10 :=
  if bs.all (· = 0#8) then swatchZero
  else if swWidth w then
    let cs := codesOf w bs
    let c := cs.headD 0
    if cs.all (· = c) then mkSwatch (finCode w c) 0 (swatchKind false w)
    else
      let p := cs.findIdx (· ≠ 0)
      if cs.getD p 0 = unitCode w && (cs.drop (p + 1)).all (· = 0) then mkSwatch true p (swatchKind true w)
      else 0
  else 0

/-- The swatch of a DRAM line; general unless recorded. -/
def MemSys.lineSw (m : MemSys) (line : Nat) : BitVec 10 :=
  match m.swatch.find? (fun e => e.1 = line) with
  | some e => e.2
  | none => 0

/-- Insertion into a strictly rising list. -/
def insertNat (x : Nat) : List Nat → List Nat
  | [] => [x]
  | y :: t => if x = y then y :: t else if x < y then x :: y :: t else y :: insertNat x t

/-- Insertion of a swatch by line number; a general one removes the entry. -/
def putSw (line : Nat) (c : BitVec 10) : List (Nat × BitVec 10) → List (Nat × BitVec 10)
  | [] => if c = 0 then [] else [(line, c)]
  | (k, v) :: t =>
    if line = k then (if c = 0 then t else (line, c) :: t)
    else if line < k then (if c = 0 then (k, v) :: t else (line, c) :: (k, v) :: t)
    else (k, v) :: putSw line c t

/-- Poison marks without the sectors that the written bytes cover whole (R228). -/
def clearPoison (space : Space) (locs : List Loc) (marks : List Nat) : List Nat :=
  marks.filter fun sec => !((locRange space (16 * sec) 16).all fun l => locs.contains l)

/-- Swatches of the DRAM lines that a write of known or unknown width leaves (R251, R298). -/
def newSwatches (m : MemSys) (width : Option Nat) (locs : List Loc) (lines : List Nat) : List (Nat × BitVec 10) :=
  lines.foldl (fun acc ln =>
    let whole := match width with
      | some _ => (locRange .dram (128 * ln) 128).all fun l => locs.contains l
      | none => false
    putSw ln (if whole then lineSwatch (width.getD 8) (memRead m.dram (128 * ln) 128) else 0) acc) m.swatch

/-- A hart's monitor after writes to lines: it fires when its line is among them (R137). -/
def Hart.snoop (h : Hart) (lines : List Loc) : Hart :=
  match h.monLine with
  | some l => if h.monArmed && lines.contains l then { h with monFired := true } else h
  | none => h

/-- Every agent's monitor, and every tender's load reservation, after writes to lines; a pool line concerns the
strands of the focused core only. -/
def State.snoop (s : State) (lines : List Loc) : State :=
  let s := s.setHart (s.hart.snoop lines)
  s.setPop { s.pop with
    ctxs := s.pop.ctxs.map fun c =>
      { c with hart := c.hart.snoop (if c.strand.core = s.core.id && !s.priv then lines
                                      else lines.filter (·.space ≠ .pool)) }
    bcores := s.pop.bcores.map fun b => { b with hart := b.hart.snoop (lines.filter (·.space ≠ .pool)) }
    tenders := s.pop.tenders.map fun c => if lines.any fun l => c.rsv = some l then { c with rsv := none } else c }

/-! Parcels that may still be fetched as they were (R83, R84, R144; log entry 15). -/

/-- The number of the aligned parcel of a located byte; the three spaces that code is fetched from are kept apart. -/
def Loc.parcel (l : Loc) : Nat :=
  match l.space with
  | .dram => l.addr / 2
  | .cipher _ => l.addr / 2
  | .cxl => 2 ^ 64 + l.addr / 2
  | .pool => 2 ^ 65 + l.addr / 2
  | .pcie => 2 ^ 66 + l.addr / 2

/-- The parcel that holds a located byte. At an odd pc, which a Bridge core's rtn can reach from an odd BEPC (R376 gives BEPC no bit
that reads 0), the model fetches the parcel at the even address below and keeps the pc odd: R10 starts instructions at even
addresses and says nothing of another (DESIGN CHOICE, log entry 10). -/
def State.parcelAt (s : State) (l : Loc) : BitVec 16 :=
  let a := l.addr / 2 * 2
  BitVec.ofNat 16 ((s.byte { l with addr := a }).toNat + 256 * (s.byte { l with addr := a + 1 }).toNat)

/-- The parcels that writes are about to change, as they stand. -/
def State.parcels (s : State) (locs : List Loc) : List (Nat × BitVec 16) :=
  ((locs.filter fun l => l.space ≠ .pool)).map fun l => (l.parcel, s.parcelAt l)

/-- Entries added to a list that lacks them. -/
def addNew (xs acc : List (Nat × BitVec 16)) : List (Nat × BitVec 16) :=
  match xs with
  | [] => acc
  | x :: t => addNew t (if acc.contains x then acc else x :: acc)

/-- Every core's instruction cache and every strand's fetched parcels may hold the old parcels from now on. -/
def State.mayFetch (s : State) (old : List (Nat × BitVec 16)) : State :=
  let s := s.setCore { s.core with icache := addNew old s.core.icache }
  let s := s.setStrand { s.strand with fetchd := addNew old s.strand.fetchd }
  s.setPop { s.pop with
    cores := s.pop.cores.map fun c => { c with icache := addNew old c.icache }
    ctxs := s.pop.ctxs.map fun c => { c with strand := { c.strand with fetchd := addNew old c.strand.fetchd } } }

/-- The line of a byte about to be written under another key stands under that key from now on: its other bytes are what
the key makes of them (R399). -/
def State.rekey (s : State) (l : Loc) : State :=
  match l.space with
  | .cipher key =>
    let line := l.addr / 128
    if s.ms.seen.keyOf line = some key then s
    else
      let old := locRange .dram (128 * line) 128
      let bs := buildFrom (fun i => s.byte { space := .cipher key, addr := i }) 128 (128 * line)
      let s := (s.mayFetch (s.parcels old)).putBytes (old.zip bs)
      s.setMs { s.ms with seen := s.ms.seen.setKey line key }
  | _ => s

/-- The lines of writes under the keys that the writes have. -/
def State.rekeys (s : State) (locs : List Loc) : State := locs.foldl State.rekey s

/-- Writes at their places. -/
def plainWrites (ws : List (Loc × Byte)) : List (Loc × Byte) := ws.map fun w => (w.1.plain, w.2)

/-- The writes of a store at their places: bytes, poison of sectors written whole (`whole` holds the bytes that are), line
swatches, host copies, monitors, and the parcels that may still be fetched as they were (R83, R89, R137, R228, R251, R298,
R410). -/
def State.storeAt (s : State) (width : Option Nat) (whole : List Loc) (ws : List (Loc × Byte)) : State :=
  let locs := ws.map (·.1)
  let lines := dedup (locs.map Loc.line)
  let dl := (lines.filter (·.space = .dram)).map (·.addr)
  let s := s.mayFetch (s.parcels locs)
  let s := s.putBytes ws
  let s := s.setMs { s.ms with
    poison := clearPoison .dram whole s.ms.poison
    swatch := newSwatches s.ms width whole dl
    hostLn := s.ms.hostLn.filter fun l => !dl.contains l }
  let s := s.setCore { s.core with poolP := clearPoison .pool whole s.core.poolP }
  s.snoop lines

/-- A store's writes, of which only the bytes `part` is false of are written whole (a nibble is half a byte). -/
def State.storePart (s : State) (width : Option Nat) (part : Loc → Bool) (ws : List (Loc × Byte)) : State :=
  if ws.isEmpty then s
  else
    (s.rekeys (ws.map (·.1))).storeAt width ((ws.map (·.1.plain)).filter fun l => !part l) (plainWrites ws)

/-- A store's writes of whole bytes. -/
def State.store (s : State) (width : Option Nat) (ws : List (Loc × Byte)) : State := s.storePart width (fun _ => false) ws

/-! Translation (R388 to R391). -/

/-- Why an access stops: its KIND, the first failing byte, and what CCAUSE reports of the walk (R252, R377). -/
structure Stop where
  kind : Nat
  addr : Word
  lvl  : Nat
  mal  : Bool
  rsv  : Bool
  deriving DecidableEq, Repr

/-- A stop without walk information. -/
def Stop.plain (kind : Nat) (addr : Word) : Stop := { kind := kind, addr := addr, lvl := 0, mal := false, rsv := false }

/-- An address space: berth, ASID, VXT and top table (R377). -/
structure ASpace where
  berth : Nat
  asid  : Nat
  vxt   : Nat
  root  : Nat
  deriving DecidableEq, Repr

/-- The 72-bit virtual address of an effective address: VXT above it (R388). -/
def ASpace.va (sp : ASpace) (ea : Nat) : Nat := sp.vxt * 2 ^ 64 + ea

/-- The address space that CASP and CROOT, or BASP and BROOT, give. -/
def aspaceOf (berth : Nat) (asp root : Word) : ASpace :=
  { berth := berth, asid := bitsAt asp.toNat 0 16, vxt := bitsAt asp.toNat 16 8, root := bitsAt root.toNat 7 49 * 128 }

/-- The berth of a context tag (R377). -/
def tagBerth (t : BitVec 16) : Nat := t.toNat / 4096

/-- The focused agent's berth. -/
def State.berthNo (s : State) : Nat := if s.priv then s.bcore.berth.toNat else tagBerth s.strand.tag

/-- The focused agent's address space. -/
def State.aspace (s : State) : ASpace :=
  if s.priv then aspaceOf s.bcore.berth.toNat s.bcore.basp s.bcore.broot
  else aspaceOf (tagBerth s.strand.tag) s.strand.casp s.strand.croot

/-- Bytes of one DRAM channel group: 6 GiB (R395). -/
def groupSize : Nat := 6 * 2 ^ 30

/-- The die that homes a physical address, and its place in that die's memory: as the range of the address map that
holds it gives, striped in granules of 2 KiB in die order or on one die; else per die (R2; log entry 8). -/
def homeOf (m : List MapRange) (pa : Nat) : Nat × Nat :=
  match m.find? (fun r => r.base ≤ pa && pa < r.base + r.size) with
  | some r =>
    let o := pa - r.base
    if r.striped then (o / 2048 % 4, r.off + o / 8192 * 2048 + o % 2048) else (r.die, r.off + o)
  | none => (pa / (16 * groupSize), pa % (16 * groupSize))

/-- The channel group that holds a physical address (R395). -/
def groupOf (m : List MapRange) (pa : Nat) : Nat := 16 * (homeOf m pa).1 + (homeOf m pa).2 / groupSize

/-- The physical address lies in the berth's channel groups (R390; log entry 8). -/
def Berth.ownsDram (b : Berth) (m : List MapRange) (pa : Nat) : Bool :=
  (homeOf m pa).2 < 16 * groupSize && groupOf m pa < 64 && bitAt b.groups (groupOf m pa)

/-- The physical address lies in one of the berth's host windows (R407). -/
def Berth.inWindow (b : Berth) (pa : Nat) : Bool := b.wins.any fun w => w.1 ≤ pa && pa < w.1 + w.2

/-- Bits of the virtual address that index a level (R388). -/
def levelIndex (va lvl : Nat) : Nat := if lvl = 4 then bitsAt va 68 4 else bitsAt va (16 + 13 * lvl) 13

/-- Bytes that a leaf at a level maps (R388). -/
def leafSize (lvl : Nat) : Nat := 2 ^ (16 + 13 * lvl)

/-- A malformed entry (R390). -/
def malformed (e lvl : Nat) : Bool :=
  let leaf := bitAt e 1
  bitAt e 7 || bitsAt e 56 7 ≠ 0 || bitAt e 63
    || (leaf && 3 ≤ lvl) || (!leaf && lvl = 0)
    || (!leaf && bitsAt e 2 14 ≠ 0)
    || (leaf && bitsAt e 14 2 = 3)
    || (leaf && (bitsAt e 16 40 * 2 ^ 16) % leafSize lvl ≠ 0)

/-- What a walk finds. -/
inductive Walk where
  | leaf (pte lvl : Nat)
  | stop (kind lvl : Nat) (mal rsv : Bool)
  deriving DecidableEq, Repr

/-- The walk of R390 over the levels still to read. -/
def walkFrom (m : MemSys) (b : Berth) (va : Nat) : List Nat → Nat → Walk
  | [], _ => .stop 1 0 false false
  | lvl :: rest, t =>
    let at_ := t + 8 * levelIndex va lvl
    if !b.ownsDram m.addrMap at_ then .stop 2 lvl false false
    else
      let e := ofBytes (memRead m.dram at_ 8)
      if !bitAt e 0 then .stop 1 lvl false (bitAt e 63)
      else if malformed e lvl then .stop 1 lvl true false
      else if bitAt e 1 then .leaf e lvl
      else walkFrom m b va rest (bitsAt e 16 40 * 2 ^ 16)

/-- The levels below one, from the highest. -/
def levelsBelow : Nat → List Nat
  | 0 => []
  | n + 1 => n :: levelsBelow n

/-- The walk of an address space (R390). -/
def State.walk (s : State) (sp : ASpace) (va : Nat) : Walk :=
  walkFrom s.ms (s.berthAt sp.berth) va (levelsBelow 5) sp.root

/-- The valid table entries that a walk reads, each with its level and the table it names. -/
def walkPath (m : MemSys) (b : Berth) (va : Nat) : List Nat → Nat → List (Nat × Nat)
  | [], _ => []
  | lvl :: rest, t =>
    let at_ := t + 8 * levelIndex va lvl
    let e := ofBytes (memRead m.dram at_ 8)
    if !b.ownsDram m.addrMap at_ || !bitAt e 0 || malformed e lvl || bitAt e 1 then []
    else (lvl, bitsAt e 16 40 * 2 ^ 16) :: walkPath m b va rest (bitsAt e 16 40 * 2 ^ 16)

/-- The number of the unit that keeps the focused agent's translations beside its core's TLB: its cluster, or 192 and the
number of a Bridge core (R3, R391; log entry 51). -/
def State.unitNo (s : State) : Nat := if s.priv then 192 + s.bcore.id else s.core.id / 8

/-- A unit's caches; empty when no access has filled them. -/
def Seen.unitAt (x : Seen) (id : Nat) : XlUnit := (x.units.find? fun u => u.id = id).getD { id := id, tlb := [], walks := [] }

/-- A cached leaf maps an address of a space (R391). -/
def TlbEntry.maps (e : TlbEntry) (sp : ASpace) (va : Nat) : Bool :=
  e.berth.toNat = sp.berth && e.asid = sp.asid && e.vxt = sp.vxt && e.page = va / leafSize e.level

/-- A cached table entry lies on an address's path (R391). -/
def WalkEntry.covers (e : WalkEntry) (sp : ASpace) (va : Nat) : Bool :=
  e.berth.toNat = sp.berth && e.asid = sp.asid && e.vxt = sp.vxt && e.page = va / leafSize e.lvl

/-- What caches hold for an address: the leaves of the core's and the cluster's TLB, and what walks from cached table
entries find (R391). -/
def State.cachedWalks (s : State) (sp : ASpace) (va : Nat) : List Walk :=
  let u := s.ms.seen.unitAt s.unitNo
  let leaves := ((if s.priv then [] else s.core.tlb) ++ u.tlb).filter fun e => e.maps sp va
  leaves.map (fun e => Walk.leaf e.pte e.level)
    ++ (u.walks.filter fun e => e.covers sp va).map fun e =>
        walkFrom s.ms (s.berthAt sp.berth) va (levelsBelow e.lvl) e.table

/-- The translation that an access uses: the walk's, or freely a stale cached one until a tlbi (R391). -/
def State.xlat (s : State) (sp : ASpace) (ea : Word) : Walk :=
  let va := sp.va ea.toNat
  let w := s.walk sp va
  match (s.cachedWalks sp va).filter (· ≠ w) with
  | [] => w
  | old => (w :: old).getD (s.free 1 (ea.toNat / 65536) % (old.length + 1)) w

/-- The physical address of a byte under a leaf. -/
def leafPa (pte lvl : Nat) (ea : Word) : Nat := bitsAt pte 16 40 * 2 ^ 16 + ea.toNat % leafSize lvl

/-- The space that a leaf's ATTR names (R389). -/
def leafSpace (pte : Nat) : Space :=
  match bitsAt pte 14 2 with
  | 0 => .dram
  | 1 => .cxl
  | _ => .pcie

/-- What an access needs: read, write, execute, and whether poison stops it (R252). -/
structure Need where
  r : Bool
  w : Bool
  x : Bool
  p : Bool
  deriving DecidableEq, Repr

def Need.load : Need := { r := true, w := false, x := false, p := true }
def Need.store : Need := { r := false, w := true, x := false, p := false }
def Need.rmw : Need := { r := true, w := true, x := false, p := true }
def Need.fetch : Need := { r := false, w := false, x := true, p := true }
/-- A read that meets checks 1 to 4 only (R358, R361, R366). -/
def Need.read4 : Need := { r := true, w := false, x := false, p := false }

/-- First byte of the scratchpad window (R221). -/
def windowBase : Nat := 0xFFFFFFFFFFFC0000

/-- The effective address lies in the scratchpad window. -/
def inPool (ea : Word) : Bool := windowBase ≤ ea.toNat

/-- The addresses of an access of `n` bytes, wrapping modulo 2^64 (R220). -/
def eaRange (ea : Word) (n : Nat) : List Word := buildFrom (fun i => ea + BitVec.ofNat 64 i) n 0

/-- Check 1 (R252, R221): the first failing byte, for an access that touches the window. -/
def State.windowStop (s : State) (eas : List Word) : Option Word :=
  if eas.any inPool then
    if !(eas.all inPool) then eas.head?
    else if s.priv then eas.head?
    else eas.find? fun a => s.core.pspl.toNat * 16384 ≤ a.toNat - windowBase
  else none

/-- The first address of each page that an access touches. -/
def pagesOf (eas : List Word) : List Word :=
  match eas with
  | [] => []
  | a :: t => a :: (t.filter fun x => x.toNat / 65536 ≠ a.toNat / 65536).take 1

/-- The translations of an access's pages. -/
def State.xlats (s : State) (sp : ASpace) (eas : List Word) : List (Word × Walk) :=
  (pagesOf eas).map fun a => (a, s.xlat sp a)

/-- Check 2 (R252): a page without a valid translation. -/
def transStop (xs : List (Word × Walk)) : Option Stop :=
  xs.findSome? fun (a, w) =>
    match w with
    | .stop 1 lvl mal rsv => some { kind := 1, addr := a, lvl := lvl, mal := mal, rsv := rsv }
    | _ => none

/-- A leaf denies the access, or lies outside the berth's memory (R390). -/
def leafDenies (m : List MapRange) (b : Berth) (n : Need) (pte lvl : Nat) (a : Word) : Bool :=
  (n.r && !bitAt pte 2) || (n.w && !bitAt pte 3) || (n.x && !bitAt pte 4)
    || (match leafSpace pte with
        | .dram => !b.ownsDram m (leafPa pte lvl a)
        | _ => !b.inWindow (leafPa pte lvl a))

/-- Check 3 (R252, R390): a page that denies the access. -/
def protStop (m : List MapRange) (b : Berth) (n : Need) (xs : List (Word × Walk)) : Option Stop :=
  xs.findSome? fun (a, w) =>
    match w with
    | .stop 2 lvl _ _ => some { kind := 2, addr := a, lvl := lvl, mal := false, rsv := false }
    | .leaf pte lvl => if leafDenies m b n pte lvl a then some (Stop.plain 2 a) else none
    | _ => none

/-- Check 4 (R252, R399): a DRAM page whose key slot is not active. -/
def keyStop (b : Berth) (xs : List (Word × Walk)) : Option Stop :=
  xs.findSome? fun (a, w) =>
    match w with
    | .leaf pte _ =>
      if leafSpace pte = .dram && vget b.keys (bitsAt pte 8 6) .empty ≠ .active then some (Stop.plain 7 a) else none
    | _ => none

/-- Checks 2 to 4 in their order over the pages of an access. -/
def pageStop (m : List MapRange) (b : Berth) (n : Need) (xs : List (Word × Walk)) : Option Stop :=
  transStop xs <|> protStop m b n xs <|> keyStop b xs

/-- The lowest address of an access whose page fails a check (R117). -/
def lowestBad (m : List MapRange) (b : Berth) (n : Need) (xs : List (Word × Walk)) (a : Word) : Word :=
  (xs.filter fun x => (pageStop m b n [x]).isSome).foldl (fun low x => if x.1.toNat < low.toNat then x.1 else low) a

/-- A host address over PCI Express as a function sees it: function 0 is the PF, berth + 1 a VF (R407). -/
def fnAddr (fn pa : Nat) : Nat := fn * 2 ^ 64 + pa

/-- The located byte of an effective address under the access's translations: DRAM as the leaf's key reaches it, host
memory over PCI Express as the berth's function sees it (R399, R407). -/
def locOf (x : Seen) (berth : Nat) (xs : List (Word × Walk)) (a : Word) : Loc :=
  if inPool a then { space := .pool, addr := a.toNat - windowBase }
  else
    match xs.find? (fun x => x.1.toNat / 65536 = a.toNat / 65536) with
    | some (_, .leaf pte lvl) =>
      let pa := leafPa pte lvl a
      match leafSpace pte with
      | .dram => x.view (slotKey berth (bitsAt pte 8 6)) { space := .dram, addr := pa }
      | .pcie => { space := .pcie, addr := fnAddr (berth + 1) pa }
      | sp => { space := sp, addr := pa }
    | _ => { space := .dram, addr := 0 }

/-- A sector's poison mark. -/
def State.poisoned (s : State) (l : Loc) : Bool :=
  match l.space with
  | .dram | .cipher _ => s.ms.poison.contains (l.addr / 16)
  | .pool => s.core.poolP.contains (l.addr / 16)
  | _ => false

/-- The host's refusal of an outbound read, by line (R407). -/
def State.refusal (s : State) (l : Loc) : Option Nat :=
  if l.space = .pcie then (s.ms.refused.find? fun e => e.1 = l.addr / 128).map (·.2) else none

/-- Check 5 (R252): the first poisoned byte; before it, an outbound read that the host refused (R407). -/
def State.poisonStop (s : State) (n : Need) (als : List (Word × Loc)) : Option Stop :=
  match (if n.r || n.x then als.findSome? fun (a, l) => (s.refusal l).map fun k => Stop.plain k a else none) with
  | some st => some st
  | none => if n.p then (als.find? fun x => s.poisoned x.2).map fun x => Stop.plain 3 x.1 else none

/-- The checks of R252 in their order over every byte of an access, and its located bytes when all pass. A stop of checks
2 to 4 has the KIND of the first check that fails, and the lowest address that fails one (R117). -/
def State.check (s : State) (sp : ASpace) (n : Need) (ea : Word) (size : Nat) : Except Stop (List Loc) :=
  let eas := eaRange ea size
  match s.windowStop eas with
  | some a => .error (Stop.plain 2 a)
  | none =>
    let xs := if eas.any inPool then [] else s.xlats sp eas
    let b := s.berthAt sp.berth
    match pageStop s.ms.addrMap b n xs with
    | some st => .error { st with addr := lowestBad s.ms.addrMap b n xs st.addr }
    | none =>
      let als := eas.map fun a => (a, locOf s.ms.seen sp.berth xs a)
      match s.poisonStop n als with
      | some st => .error st
      | none => .ok (als.map (·.2))

/-- A list that keeps a new entry at its head, and at most `cap` (R3; log entry 51). -/
def keepNew {α : Type} [DecidableEq α] (cap : Nat) (x : α) (l : List α) : List α :=
  if l.contains x then l else (x :: l).take cap

/-- The leaf that a walk of an address finds, as a TLB keeps it (R391). -/
def State.leafEntry (s : State) (sp : ASpace) (va : Nat) : Option TlbEntry :=
  match s.walk sp va with
  | .leaf pte lvl =>
    some { berth := BitVec.ofNat 4 sp.berth, asid := sp.asid, vxt := sp.vxt, page := va / leafSize lvl, level := lvl, pte := pte }
  | .stop .. => none

/-- The table entries on an address's path, as a walker cache keeps them (R391). -/
def State.pathEntries (s : State) (sp : ASpace) (va : Nat) : List WalkEntry :=
  (walkPath s.ms (s.berthAt sp.berth) va (levelsBelow 5) sp.root).map fun e =>
    { berth := BitVec.ofNat 4 sp.berth, asid := sp.asid, vxt := sp.vxt, lvl := e.1, page := va / leafSize e.1, table := e.2 }

/-- The TLB of the focused core, of 512 entries, after it has kept the leaf that an access used (R3, R391). -/
def State.tlbAfter (s : State) (sp : ASpace) (ea : Word) : List TlbEntry :=
  if s.priv || inPool ea then s.core.tlb
  else
    match s.leafEntry sp (sp.va ea.toNat) with
    | some e => keepNew 512 e s.core.tlb
    | none => s.core.tlb

/-- A unit's caches after an access: a TLB of 16,384 entries and the walker cache. -/
def XlUnit.after (u : XlUnit) (leaf : Option TlbEntry) (path : List WalkEntry) : XlUnit :=
  { u with
    tlb := (match leaf with | some e => keepNew 16384 e u.tlb | none => u.tlb)
    walks := path.foldl (fun l e => keepNew 512 e l) u.walks }

/-- What an access leaves behind: the translation in the cluster's or Bridge core's caches, and the key of its line. -/
def State.seenAfter (s : State) (sp : ASpace) (ea : Word) : Seen :=
  let x := s.ms.seen
  if inPool ea then x
  else
    let va := sp.va ea.toNat
    let u := (x.unitAt s.unitNo).after (s.leafEntry sp va) (s.pathEntries sp va)
    let x := { x with units := u :: x.units.filter fun v => v.id ≠ u.id }
    match s.xlat sp ea with
    | .leaf pte lvl =>
      if leafSpace pte = .dram then x.see (leafPa pte lvl ea / 128) (slotKey sp.berth (bitsAt pte 8 6)) else x
    | .stop .. => x

/-- What an access leaves behind in the caches of translations and as the key of its line. -/
def State.fillTlb (s : State) (sp : ASpace) (ea : Word) : State :=
  (s.setCore { s.core with tlb := s.tlbAfter sp ea }).setMs { s.ms with seen := s.seenAfter sp ea }

/-- The bytes at located places. -/
def State.bytes (s : State) (ls : List Loc) : List Byte := ls.map s.byte

/-- A store's writes, pairing located bytes with the bytes of a value. -/
def writesOf (ls : List Loc) (bs : List Byte) : List (Loc × Byte) := ls.zip bs

/-- An aligned 8-byte word at an effective address, after the checks of a load. -/
def State.load8 (s : State) (sp : ASpace) (ea : Word) : Except Stop Word :=
  match s.check sp Need.load ea 8 with
  | .error st => .error st
  | .ok ls => .ok (BitVec.ofNat 64 (ofBytes (s.bytes ls)))

/-! Physical accesses of Pilot, walkers, Bridge firmware and the I/O die. -/

/-- Writing bytes at a physical DRAM address. -/
def State.writePhys (s : State) (a : Nat) (bs : List Byte) : State :=
  s.store none (writesOf (locRange .dram a bs.length) bs)

/-- Writing bytes of one DRAM line as an access with a key does; a line that no access has reached stands under it from then
on (R399). -/
def State.writeKeyed (s : State) (key a : Nat) (bs : List Byte) : State :=
  let s := s.store none (writesOf ((locRange .dram a bs.length).map (s.ms.seen.view key)) bs)
  s.setMs { s.ms with seen := s.ms.seen.see (a / 128) key }

/-- A physical 64-bit word. -/
def State.phys8 (s : State) (a : Nat) : Word := memWord s.ms.dram a

/-- The die that homes a physical address (R2). -/
def MemSys.homeDie (m : MemSys) (pa : Nat) : Nat := (homeOf m.addrMap pa).1 % 4

/-- The die of a core number (R1: 48 clusters of 8 cores). -/
def coreDie (id : Nat) : Nat := id / 384

end Sys2Proof.Machine
end

