-- ==== Sys2Proof/Machine/Rings.lean ====
section
/-!
DEFINITION. What goes to the host: posted writes, MSI-X messages, the completion and event rings of a berth and the PF
error log (R397, R414, R415, R421, R438).
-/
namespace Sys2Proof.Machine

/-- A posted write to host memory over PCI Express, on a function (R407). -/
def State.hostWrite (s : State) (fn a : Nat) (bs : List Byte) : State :=
  s.store none ((locRange .pcie (fnAddr fn a) bs.length).zip bs)

/-- A 64-bit word written to host memory. -/
def State.hostWord (s : State) (fn a : Nat) (x : Word) : State := s.hostWrite fn a (toBytes 8 x.toNat)

/-- An MSI-X message raised on a function: 0 the PF, b + 1 the VF of berth b; it carries BRCNT (R397). -/
def State.raiseMsix (s : State) (fn vec : Nat) : State :=
  let count := if fn = 0 then 0#8 else (s.berthAt (fn - 1)).brcnt
  s.setIod { s.iod with msix := s.iod.msix ++ [{ fn := fn, vec := vec, count := count }] }

/-- PHASE of entry c of a ring of 2^n entries: 1 on the first pass, alternating (R414). -/
def phaseBit (c n : Nat) : Nat := if c / 2 ^ n % 2 = 0 then 2 ^ 63 else 0

/-- A completion posted: word 1, word 0, then MSI-X vector 0 (R414). -/
def State.complete (s : State) (b seq status : Nat) (value : Word) : State :=
  let bb := s.berthAt b
  let n := bitsAt bb.bases.2.1.toNat 0 4
  let at_ := bitsAt bb.bases.2.1.toNat 12 52 * 4096 + 16 * (bb.cposted % 2 ^ n)
  let s := s.putBerth b { bb with cposted := bb.cposted + 1, log := bb.log ++ [.completed seq status value] }
  let s := s.hostWord (b + 1) (at_ + 8) value
  let s := s.hostWord (b + 1) at_ (BitVec.ofNat 64 (seq + 2 ^ 32 * status + phaseBit bb.cposted n))
  s.raiseMsix (b + 1) 0

/-- One event posted: words 3 to 1, word 0, then MSI-X vector 1 (R415). -/
def State.postEvent (s : State) (b : Nat) (e : HostEvent) : State :=
  let bb := s.berthAt b
  let n := bitsAt bb.bases.2.2.toNat 0 4
  let at_ := bitsAt bb.bases.2.2.toNat 12 52 * 4096 + 32 * (bb.evcount % 2 ^ n)
  let s := s.putBerth b { bb with evcount := bb.evcount + 1, evlost := false }
  let s := (s.hostWord (b + 1) (at_ + 24) e.w3).hostWord (b + 1) (at_ + 16) e.w2
  let s := s.hostWord (b + 1) (at_ + 8) (BitVec.ofNat 64 (e.tag.toNat + 2 ^ 16 * (e.queue % 64) + 2 ^ 22 * (e.die % 4)))
  let s := s.hostWord (b + 1) at_ (BitVec.ofNat 64 (e.kind + (if bb.evlost then 256 else 0) + phaseBit bb.evcount n))
  s.raiseMsix (b + 1) 1

/-- Events posted while the ring has room, oldest first. -/
def State.postFrom (s : State) (b : Nat) : List HostEvent → State
  | [] => s.putBerth b { s.berthAt b with evheld := [] }
  | e :: t =>
    let bb := s.berthAt b
    if bb.ready && bb.evcount < bb.evhead.toNat + 2 ^ bitsAt bb.bases.2.2.toNat 0 4 then (s.postEvent b e).postFrom b t
    else s.putBerth b { bb with evheld := e :: t }

/-- The events that berth b holds are posted as far as its ring takes them (R415). -/
def State.postEvents (s : State) (b : Nat) : State := s.postFrom b (s.berthAt b).evheld

/-- Every ring field of a berth is in its range (R411). -/
def Berth.ringsOk (b : Berth) : Bool :=
  let ok := fun (x : Word) (hi : Nat) => 4 ≤ bitsAt x.toNat 0 4 && bitsAt x.toNat 0 4 ≤ hi
  ok b.crbase 12 && ok b.cqbase 15 && ok b.evbase 15

/-- What the check of ENABLE by the lead core of berth `b` does (R411): with ENABLE 1 and every field in range it takes the bases,
anew if ENABLE went to 0 in between, READY is 1, and the events that it holds are posted; else READY is 0. -/
def State.checkEnable (s : State) (b : Nat) : State :=
  let bb := s.berthAt b
  if bb.enable = 0 || !bb.ringsOk then s.putBerth b { bb with ready := false }
  else (s.putBerth b { bb with ready := true, bases := (bb.crbase, bb.cqbase, bb.evbase) }).postEvents b

/-- One report written to the PF error log, then PF MSI-X vector 0 (R438). -/
def State.postReport (s : State) (r : Report) : State :=
  let m := s.mgmt
  let n := bitsAt m.melb.toNat 0 4
  let at_ := bitsAt m.melb.toNat 12 52 * 4096 + 32 * (m.posted % 2 ^ n)
  let s := s.setMgmt { m with posted := m.posted + 1 }
  let s := ((s.hostWord 0 (at_ + 24) r.w3).hostWord 0 (at_ + 16) r.w2).hostWord 0 (at_ + 8) r.w1
  let s := s.hostWord 0 at_ (BitVec.ofNat 64 (r.w0.toNat % 2 ^ 63 + phaseBit m.posted n))
  s.raiseMsix 0 0

/-- Reports posted while the log has room, oldest first. -/
def State.reportFrom (s : State) : List Report → State
  | [] => s.setMgmt { s.mgmt with held := [] }
  | r :: t =>
    let n := bitsAt s.mgmt.melb.toNat 0 4
    if bitAt s.mgmt.melen.toNat 0 && 4 ≤ n && s.mgmt.posted < s.mgmt.melh.toNat + 2 ^ n then (s.postReport r).reportFrom t
    else s.setMgmt { s.mgmt with held := r :: t }

/-- The reports that wait are posted as far as the PF error log takes them (R438). -/
def State.postReports (s : State) : State := s.reportFrom s.mgmt.held

/-- The rings of berth b and the error log take what they can. -/
def State.postAll (s : State) (b : Nat) : State := (s.postReports).postEvents b

end Sys2Proof.Machine
end

