-- ==== Sys2Proof/Machine/Ops.lean ====
section
/-!
DEFINITION. The named operations over agents: error reports, failover and machine checks, taking an exception with the
return from one, and retirement.
-/
namespace Sys2Proof.Machine

/-! Error reports (R436 to R438). -/

/-- A report appended to those waiting for the PF error log; sequence numbers are package-wide; when more than 1,024
wait, the oldest is dropped (R438). -/
def Mgmt.report (m : Mgmt) (w0 w1 w2 : Word) : Mgmt :=
  let held := m.held ++ [{ w0 := w0, w1 := w1, w2 := w2, w3 := BitVec.ofNat 64 m.seq }]
  { m with held := held.drop (held.length - 1024), seq := m.seq + 1 }

/-- Word 0 of a report without PHASE (R436). -/
def reportWord (unit inst die : Nat) (iod : Bool) (cls synd berth : Nat) (bvalid pvalid : Bool) : Word :=
  BitVec.ofNat 64 (unit + 2 ^ 8 * inst + 2 ^ 16 * die + (if iod then 2 ^ 18 else 0) + 2 ^ 20 * cls + 2 ^ 24 * synd
    + 2 ^ 28 * berth + (if bvalid then 2 ^ 32 else 0) + (if pvalid then 2 ^ 33 else 0))

/-- An event appended to those a berth holds for its ring; beyond 4096 the oldest is dropped (R415). -/
def Berth.event (b : Berth) (e : HostEvent) : Berth :=
  let held := b.evheld ++ [e]
  { b with evheld := held.drop (held.length - 4096), evlost := b.evlost || 4096 < held.length }

/-- The number over all dies of the queue of a context's launch (R415). -/
def State.queueOfCtx (s : State) (tag : BitVec 16) : Nat :=
  let st := if !s.priv && s.strand.tag = tag then some s.strand else (s.pop.ctxs.find? fun c => c.strand.tag = tag).map (·.strand)
  ((st.bind fun x => s.pilot.launches.find? fun l => l.id = x.launch).map fun l => bitsAt l.ctl.toNat 24 8).getD 0

/-- PHASE of the report made last: its place in the error log, after those that wait before it (R438; DEDUCED, log entry 83). -/
def Mgmt.lastPhase (m : Mgmt) : Nat := phaseBit (m.posted + m.held.length - 1) (bitsAt m.melb.toNat 0 4)

/-- A report to the PF log and, with a valid berth, to its event ring as KIND 5, with the context tag, its queue and die, and
words 0 and 1 of the report (R415, R438): both are posted at once where there is room. -/
def State.report (s : State) (w0 w1 w2 : Word) (ctx : Option (BitVec 16)) (berth : Option Nat) : State :=
  let q := (ctx.map s.queueOfCtx).getD 0
  let s := (s.setMgmt (s.mgmt.report w0 w1 w2)).postReports
  match berth with
  | some b =>
    (s.putBerth b ((s.berthAt b).event
      { kind := 5, tag := ctx.getD 0, queue := q % 64, die := q / 64
        w2 := BitVec.ofNat 64 (w0.toNat % 2 ^ 63 + s.mgmt.lastPhase), w3 := w1 })).postEvents b
  | none => s

/-! Failover and machine checks of Bridge cores (R402, R441). -/

/-- A change of every Bridge core, the focused one included. -/
def State.mapBcores (s : State) (f : BCore → BCore) : State :=
  (s.setBcore (f s.bcore)).setPop { s.pop with bcores := s.pop.bcores.map fun b => { b with bcore := f b.bcore } }

/-- The standby takes the lead of berth `b` (R402): BINT bit 2, the lead fenced off, the event for the host, FAILED. -/
def State.failover (s : State) (b : Nat) : State :=
  let bb := s.berthAt b
  match bb.stby with
  | none => s
  | some n =>
    let s := s.mapBcores fun c =>
      if c.id = n then { c with lead := true, stby := false, bint := c.bint ||| 4#3 }
      else if c.berth.toNat = b && c.lead then { c with lead := false, stopped := true } else c
    (s.putBerth b ({ bb with lead := n, stby := none, failed := true, missed := 0 }.event
      { kind := 2, tag := 0, queue := 0, die := 0, w2 := 0, w3 := 0 })).postEvents b

/-- A machine check of Bridge core `id`: the core stops, the report has CLASS 2, with the berth that holds the core, and a
lead's starts failover (R436, R441). -/
def State.machineCheckBridge (s : State) (id : Nat) (b : Nat) (lead : Bool) : State :=
  let s := s.mapBcores fun c => if c.id = id then { c with stopped := true } else c
  let own := (s.berthAt b).used && bitAt (s.berthAt b).bcores id
  let s := s.report (reportWord 9 (id % 16) (id / 16) false 2 0 (if own then b else 0) own false) 0 0 none
    (if own then some b else none)
  if lead then s.failover b else s

/-! Taking an exception (R112, R140, R375, R378). -/

/-- What a trap records. `next` is the distance from pc to the restart PC (4 for svc); `bridge` sends it to the Bridge
whatever TVEC holds. -/
structure Trap where
  cause  : Nat
  detail : Nat
  flg    : Nat
  tval   : Word
  lvl    : Nat
  mal    : Bool
  rsv    : Bool
  next   : Word
  bridge : Bool
  deriving DecidableEq, Repr

/-- A trap without FLG or walk information. -/
def Trap.mk0 (cause detail : Nat) (tval : Word) (bridge : Bool) : Trap :=
  { cause := cause, detail := detail, flg := 0, tval := tval, lvl := 0, mal := false, rsv := false, next := 0,
    bridge := bridge }

/-- TCAUSE: CAUSE, DETAIL and FLG (R112). -/
def causeWord (cause detail flg : Nat) : Word := BitVec.ofNat 64 (cause + 256 * detail + 65536 * flg)

/-- The made-good record of the strand as a trap keeps it (R140). -/
def State.keptNow (s : State) : Kept :=
  { lastd := s.hart.lastd, mg := s.strand.mg, mgs := s.strand.mgs, mgf := s.strand.mgf, mgr := s.strand.mgr,
    mgc := s.strand.mgc, sreq := s.strand.sreq, grant := s.strand.grant }

/-- The next step's free values differ from this one's. -/
def State.tick (s : State) : State := s.setFresh (s.fresh + 1)

/-- A trap on a Bridge core (R375). -/
def State.trapBridgeCore (s : State) (t : Trap) : State :=
  let b := { s.bcore with bepc := s.hart.pc + t.next, because := causeWord t.cause t.detail t.flg, betval := t.tval }
  let h := { s.hart with pfxs := 0, wait := .running, monArmed := false }
  if s.bcore.intr then ((s.setBcore b).setHart h).machineCheckBridge b.id b.berth.toNat b.lead
  else (s.setBcore { b with intr := true }).setHart { h with pc := s.bcore.bvec }

/-- Entry at TVEC (R140). -/
def State.trapHandler (s : State) (t : Trap) : State :=
  let k := s.keptNow
  let st := { s.strand with
    tpc := s.hart.pc + t.next
    tpfx := s.hart.pfxs.setWidth 64
    tcause := causeWord t.cause t.detail t.flg
    tval := t.tval
    kept := k
    inh := true
    cut := none
    fetchd := [] }
  (s.setStrand st).setHart
    { s.hart with pfxs := 0, monArmed := false, wait := .running, pc := s.strand.tvec }

/-- The dies whose trap queue a Bridge core serves: its own, and C0's when it leads (R374, R402). -/
def BCore.queueDies (c : BCore) : List Nat := if c.lead && c.id / 16 ≠ 0 then [c.id / 16, 0] else [c.id / 16]

/-- BINT bit 0 at the berth's Bridge cores that serve the trap queue of a die (R378, R402). -/
def State.ringTrap (s : State) (b die : Nat) : State :=
  s.mapBcores fun c => if c.berth.toNat = b && c.queueDies.contains die then { c with bint := c.bint ||| 1#3 } else c

/-- A trap routed to the Bridge (R378): the strand halts, CCAUSE, CTVAL and CPC are written, its tag is queued. -/
def State.trapBridge (s : State) (cause detail flg : Nat) (t : Trap) : State :=
  let b := tagBerth s.strand.tag
  let die := coreDie s.core.id
  let st := { s.strand with
    status := .trapped
    ccause := causeWord cause detail flg + BitVec.ofNat 64 (2 ^ 24 * (t.lvl % 8)
      + (if t.mal then 2 ^ 27 else 0) + (if t.rsv then 2 ^ 28 else 0))
    ctval := t.tval
    cpc := s.hart.pc + t.next
    cut := none
    fetchd := [] }
  let s := (s.setStrand st).setHart { s.hart with monArmed := false, wait := .running }
  let bb := s.berthAt b
  let s := s.putBerth b { bb with trapq := vset bb.trapq die (vget bb.trapq die [] ++ [s.strand.tag]) }
  s.ringTrap b die

/-- Taking an exception: a Bridge core's own vector, the strand's handler at TVEC, or the Bridge; within a handler the
Bridge gets cause 0x09 (R50, R77, R112, R140, R375, R378). R112 gives that cause DETAIL and TVAL and says nothing of FLG: the
model writes FLG 0, whatever FLG the inner trap has (DESIGN CHOICE, log entry 72). -/
def State.takeTrap (s : State) (t : Trap) : State :=
  (if s.priv then s.trapBridgeCore t
   else if t.bridge || s.strand.tvec = 0 then s.trapBridge t.cause t.detail t.flg t
   else if s.strand.inh then s.trapBridge 0x09 t.cause 0 t
   else s.trapHandler t).tick

/-- The state of a context's granule when a strip opens under a TYPE and an ACH (R43). -/
def openGranule (type : BitVec 12) (ach : BitVec 3) : Nat :=
  let b := bitsAt type.toNat 9 3
  max 32 (max (if b = 0 then 1 else 2 ^ (b + 2)) (2 ^ ach.toNat))

/-- The copies in flight stand before a strip boundary from now on: every later access waits for them (R29, R95). -/
def Strand.orderCopies (st : Strand) : Strand := { st with irt := st.irt.map fun e => { e with bar := true } }

/-- A strip opens in a strand: POS counts from 0, the granule is taken (R28, R43), and every access before it precedes
those after it (R29). -/
def Strand.openStrip (st : Strand) : Strand := { st.orderCopies with pos := 0, gran := openGranule st.type st.ach }

/-- Return from a handler entered at TVEC (R143): the kept record stands again and a strip opens (R28). -/
def State.returnHandler (s : State) : State :=
  let k := s.strand.kept
  let st := { s.strand with
    inh := false
    mg := k.mg, mgs := k.mgs, mgf := k.mgf, mgr := k.mgr, mgc := k.mgc, sreq := k.sreq, grant := k.grant }
  (s.setStrand st.openStrip).setHart
    { s.hart with pc := s.strand.tpc, pfxs := s.strand.tpfx.setWidth 32, lastd := k.lastd, monArmed := false }

/-- The illegal-instruction trap (R76, R77): detail 4 goes to the Bridge. -/
def Trap.illegal (word : Nat) (detail : Nat) : Trap := Trap.mk0 0x01 detail (BitVec.ofNat 64 word) (detail = 4)

/-- The scalar access fault (R112, R117). -/
def Trap.access (st : Stop) : Trap :=
  { Trap.mk0 0x05 st.kind st.addr true with lvl := st.lvl, mal := st.mal, rsv := st.rsv }

/-- The leading-element stop of a length-bearing instruction (R30, R50, R112). -/
def Trap.leading (kind : Nat) (flg : Nat) (tval : Word) (st : Option Stop) : Trap :=
  { Trap.mk0 0x04 kind tval (kind = 1 || kind = 2 || kind = 3 || kind = 7) with
    flg := flg, lvl := (st.map (·.lvl)).getD 0, mal := (st.map (·.mal)).getD false, rsv := (st.map (·.rsv)).getD false }

/-- Cycles of the focused agent's core pass (R110). -/
def State.pass (s : State) (d : Word) : State :=
  if s.priv then s.setBcore { s.bcore with cyc := s.bcore.cyc + d, ran := s.bcore.ran + d }
  else s.setCore { s.core with cyc := s.core.cyc + d, ran := s.core.ran + d }

/-- An instruction retires: the pc moves past it, the loan is spent, INSN and CYC count it (R67, R110). -/
def State.retire (s : State) (len : Word) : State :=
  let s := s.setHart { s.hart with pc := s.hart.pc + len, pfxs := 0, insn := s.hart.insn + 1, wait := .running }
  (s.pass (BitVec.ofNat 64 (1 + Config.stall s.fresh))).tick

/-- A cycle in which the focused agent does not retire: CYC counts on. -/
def State.idle (s : State) : State := (s.pass (BitVec.ofNat 64 (1 + Config.stall s.fresh))).tick

end Sys2Proof.Machine
end

