-- ==== Sys2Proof/Machine/Agents.lean ====
section
/-!
DEFINITION. Finding, changing and focusing agents: contexts, flotillas, cores and Bridge cores in and out of focus;
halting a strand.
-/
namespace Sys2Proof.Machine

/-- A list with the entry of the same key replaced, or the entry appended. -/
def putBy {α : Type} (key : α → Nat) (x : α) : List α → List α
  | [] => [x]
  | y :: t => if key x = key y then x :: t else y :: putBy key x t

/-- A flotilla whose strands have all retired. -/
def Flotilla.over (f : Flotilla) : Bool := f.size ≤ f.gone.length

/-- Putting the focused agent into the population; what has retired is dropped. -/
def State.park (s : State) : State :=
  if s.priv then
    s.setPop { s.pop with bcores := putBy (fun b => b.bcore.id) { hart := s.hart, bcore := s.bcore } s.pop.bcores }
  else if s.strand.status = .absent then s
  else
    s.setPop { s.pop with
      ctxs := if s.strand.status = .retired then s.pop.ctxs
              else putBy (fun c => c.strand.tag.toNat) { hart := s.hart, strand := s.strand } s.pop.ctxs
      flots := if s.flot.over then s.pop.flots else putBy Flotilla.id s.flot s.pop.flots
      cores := putBy Core.id s.core s.pop.cores }

/-- A core of the population; one never used is at reset. -/
def Pop.coreAt (p : Pop) (id : Nat) : Core := (p.cores.find? fun c => c.id = id).getD (Core.reset id)

/-- A flotilla of the population. -/
def Pop.flotAt (p : Pop) (id : Nat) : Flotilla := (p.flots.find? fun f => f.id = id).getD Flotilla.reset

/-- A context of the population. -/
def Pop.ctxAt (p : Pop) (tag : BitVec 16) : Option Ctx := p.ctxs.find? fun c => c.strand.tag = tag

/-- A Bridge core of the population; one never used is at reset. -/
def Pop.bcoreAt (p : Pop) (id : Nat) : BPark :=
  (p.bcores.find? fun b => b.bcore.id = id).getD { hart := Hart.reset, bcore := BCore.reset id }

/-- Focusing a context of the population, its core and its flotilla. -/
def State.loadCtx (s : State) (c : Ctx) : State :=
  { s with
    priv := false, hart := c.hart, strand := c.strand
    core := s.pop.coreAt c.strand.core, flot := s.pop.flotAt c.strand.flot
    pop := { s.pop with
      ctxs := s.pop.ctxs.filter fun x => x.strand.tag ≠ c.strand.tag
      cores := s.pop.cores.filter fun x => x.id ≠ c.strand.core
      flots := s.pop.flots.filter fun x => x.id ≠ c.strand.flot } }

/-- Focusing the context of a tag, where it lives. -/
def State.focus (s : State) (tag : BitVec 16) : State :=
  if !s.priv && s.strand.status ≠ .absent && s.strand.tag = tag then s
  else
    let s' := s.park
    match s'.pop.ctxAt tag with
    | some c => s'.loadCtx c
    | none => s

/-- Focusing Bridge core `id`. -/
def State.focusBridge (s : State) (id : Nat) : State :=
  if s.priv && s.bcore.id = id then s
  else
    let s := s.park
    let b := s.pop.bcoreAt id
    { s with
      priv := true, hart := b.hart, bcore := b.bcore, strand := Strand.reset, flot := Flotilla.reset
      core := Core.reset 0
      pop := { s.pop with bcores := s.pop.bcores.filter fun x => x.bcore.id ≠ id } }

/-- The state with no agent in focus: all of them stand in the population. -/
def State.unfocus (s : State) : State :=
  { s.park with priv := false, hart := Hart.reset, strand := Strand.reset, flot := Flotilla.reset, core := Core.reset 0 }

/-- A change performed with every agent in the population; then the agent that was in focus, if it still lives, is in
focus again. -/
def State.over (s : State) (f : State → State) : State :=
  let t := f s.unfocus
  if s.priv then t.focusBridge s.bcore.id
  else if s.strand.status = .absent || s.strand.status = .retired then t
  else t.focus s.strand.tag

/-- A change of every context, the focused one included. -/
def State.mapCtxs (s : State) (f : Ctx → Ctx) : State :=
  let s := if s.priv then s else
    let c := f { hart := s.hart, strand := s.strand }
    (s.setHart c.hart).setStrand c.strand
  s.setPop { s.pop with ctxs := s.pop.ctxs.map f }

/-- A change of every core, the focused one included. -/
def State.mapCores (s : State) (f : Core → Core) : State :=
  (s.setCore (f s.core)).setPop { s.pop with cores := s.pop.cores.map f }

/-- A change of every flotilla, the focused one included. -/
def State.mapFlots (s : State) (f : Flotilla → Flotilla) : State :=
  (s.setFlot (f s.flot)).setPop { s.pop with flots := s.pop.flots.map f }

/-- Every context, the focused one included. -/
def State.allCtxs (s : State) : List Ctx :=
  if s.priv || s.strand.status = .absent then s.pop.ctxs
  else { hart := s.hart, strand := s.strand } :: s.pop.ctxs

/-- Every flotilla, the focused one included. -/
def State.allFlots (s : State) : List Flotilla :=
  if s.priv || s.flot.id = 0 then s.pop.flots else s.flot :: s.pop.flots

/-- A launch by its number. -/
def Pilot.launchAt (p : Pilot) (id : Nat) : Option Launch := p.launches.find? fun l => l.id = id

/-- A change of one launch. -/
def State.mapLaunch (s : State) (id : Nat) (f : Launch → Launch) : State :=
  s.setPilot { s.pilot with launches := s.pilot.launches.map fun l => if l.id = id then f l else l }

/-- A strand's place within its flotilla (R19). -/
def Strand.index (st : Strand) : Nat := bitsAt st.sid.toNat 0 4

/-- The focused strand halts before its next instruction (R46, R51, R344): the monitor is disarmed and its flotilla
counts as halted; CPC takes the restart PC. -/
def State.haltStrand (s : State) : State :=
  let s := s.setStrand { s.strand with status := .halted, cutReq := none, cut := none, cpc := s.hart.pc }
  let s := s.setHart { s.hart with wait := .running, monArmed := false }
  s.setFlot { s.flot with halted := some s.fresh }

end Sys2Proof.Machine
end

