-- ==== Sys2Proof/Machine/Flags.lean ====
section
/-!
DEFINITION. Numbers and flags: the element formats (R158 to R163), rounding with its exceptions (R122 to R126, R167 to
R171), and the exact arithmetic that scalar, vector and matrix instructions round once.
-/
namespace Sys2Proof.Machine

/-- Exceptions in the order of SFCS.FLAGS: bit 4 invalid, 3 divide-by-zero, 2 overflow, 1 underflow, 0 inexact (R111). -/
abbrev Flags := BitVec 5

def fInvalid : Flags := 0x10#5
def fDivZero : Flags := 0x08#5
def fOverflow : Flags := 0x04#5
def fUnderflow : Flags := 0x02#5
def fInexact : Flags := 0x01#5

/-- A floating format: exponent and fraction bits, bias, and whether it has infinities (R158, R159). -/
structure FF where
  ebits : Nat
  fbits : Nat
  bias  : Nat
  hasInf : Bool
  deriving DecidableEq, Repr

def ffF64 : FF := { ebits := 11, fbits := 52, bias := 1023, hasInf := true }
def ffF32 : FF := { ebits := 8, fbits := 23, bias := 127, hasInf := true }
def ffF16 : FF := { ebits := 5, fbits := 10, bias := 15, hasInf := true }
def ffBf16 : FF := { ebits := 8, fbits := 7, bias := 127, hasInf := true }
def ffE5m2 : FF := { ebits := 5, fbits := 2, bias := 15, hasInf := true }
def ffE4m3 : FF := { ebits := 4, fbits := 3, bias := 7, hasInf := false }
def ffE2m1 : FF := { ebits := 2, fbits := 1, bias := 1, hasInf := false }

/-- Bits of a code of the format. -/
def FF.width (f : FF) : Nat := 1 + f.ebits + f.fbits

/-- The format of a fmt code that is floating and not p4 (R68). -/
def ffOf (fmt : Nat) : FF :=
  match fmt with
  | 0 => ffF64
  | 1 => ffF32
  | 2 => ffF16
  | 3 => ffBf16
  | 4 => ffE5m2
  | 5 => ffE4m3
  | _ => ffE2m1

/-- A value: a NaN with its sign, quietness and fraction left-aligned on 52 bits; an infinity; or ±m × 2^e. -/
inductive Num where
  | nan (neg quiet : Bool) (frac : Nat)
  | inf (neg : Bool)
  | fin (neg : Bool) (m : Nat) (e : Int)
  deriving DecidableEq, Repr

def Num.isNan : Num → Bool
  | .nan .. => true
  | _ => false

/-- A signalling NaN. -/
def Num.isSnan : Num → Bool
  | .nan _ q _ => !q
  | _ => false

def Num.isZero : Num → Bool
  | .fin _ m _ => m = 0
  | _ => false

def Num.isInf : Num → Bool
  | .inf _ => true
  | _ => false

def Num.sign : Num → Bool
  | .nan n _ _ => n
  | .inf n => n
  | .fin n _ _ => n

def Num.negate : Num → Num
  | .nan n q f => .nan n q f
  | .inf n => .inf (!n)
  | .fin n m e => .fin (!n) m e

/-- The value of a code (R158, R159). e2m1's code 0x8 is read through its spare by the caller (R160). -/
def decodeNum (f : FF) (c : Nat) : Num :=
  let neg := bitAt c (f.ebits + f.fbits)
  let e := bitsAt c f.fbits f.ebits
  let fr := bitsAt c 0 f.fbits
  if f.hasInf && e = 2 ^ f.ebits - 1 then
    if fr = 0 then .inf neg else .nan neg (bitAt fr (f.fbits - 1)) (fr * 2 ^ (52 - f.fbits))
  else if f = ffE4m3 && e = 15 && fr = 7 then .nan neg true (fr * 2 ^ 49)
  else if e = 0 then .fin neg fr (1 - (f.bias : Int) - f.fbits)
  else .fin neg (2 ^ f.fbits + fr) ((e : Int) - f.bias - f.fbits)

/-- Largest finite magnitude code (R159). -/
def FF.maxMag (f : FF) : Nat :=
  if f.hasInf then (2 ^ f.ebits - 1) * 2 ^ f.fbits - 1 else if f = ffE4m3 then 0x7E else 7

/-- The code with a sign bit. -/
def FF.signed (f : FF) (neg : Bool) (mag : Nat) : Nat := (if neg then 2 ^ (f.ebits + f.fbits) else 0) + mag

/-- The infinity code. -/
def FF.infMag (f : FF) : Nat := (2 ^ f.ebits - 1) * 2 ^ f.fbits

/-- The default NaN (R164): positive and quiet. -/
def FF.defaultNan (f : FF) : Nat :=
  if f = ffE4m3 then 0x7F else if f = ffE2m1 then 0 else f.infMag + 2 ^ (f.fbits - 1)

/-- A NaN in the format, made quiet: the sign and the top fraction bits that fit (R164). -/
def FF.quietNan (f : FF) (neg : Bool) (frac : Nat) : Nat :=
  if f = ffE4m3 then f.signed neg 0x7F
  else if f = ffE2m1 then 0
  else
    let fr := frac / 2 ^ (52 - f.fbits)
    f.signed neg (f.infMag + (if bitAt fr (f.fbits - 1) then fr else fr + 2 ^ (f.fbits - 1)))

/-- The rounding modes of R111, and stochastic rounding with its random word (R169). -/
inductive Rnd where
  | rne
  | rtz
  | up
  | down
  | odd
  | stoch (rnd : Nat)
  deriving DecidableEq, Repr

/-- RM codes 0 to 4 (R111). -/
def rndOf (rm : Nat) : Rnd :=
  match rm with
  | 0 => .rne
  | 1 => .rtz
  | 2 => .up
  | 3 => .down
  | _ => .odd

/-- `m / 2^sh` rounded by a mode; the second result tells whether anything was discarded. -/
def roundShift (mode : Rnd) (neg : Bool) (m sh : Nat) : Nat × Bool :=
  let t := m / 2 ^ sh
  let rem := m % 2 ^ sh
  let half := 2 ^ sh / 2
  if rem = 0 then (t, false)
  else
    (match mode with
     | .rne => if half < rem || (rem = half && t % 2 = 1) then t + 1 else t
     | .rtz => t
     | .up => if neg then t else t + 1
     | .down => if neg then t + 1 else t
     | .odd => if t % 2 = 1 then t else t + 1
     | .stoch rnd =>
       let d16 := if 16 ≤ sh then rem / 2 ^ (sh - 16) else rem * 2 ^ (16 - sh)
       if rnd < d16 then t + 1 else t, true)

/-- Bits of a positive number. -/
def bitLen (m : Nat) : Nat := if m = 0 then 0 else Nat.log2 m + 1

/-- A code with the exceptions raised in forming it. -/
structure FRes where
  code : Nat
  fl   : Flags
  deriving DecidableEq, Repr

/-- What an overflow delivers (R163, R169). -/
def overflowCode (f : FF) (mode : Rnd) (neg : Bool) : Nat :=
  if !f.hasInf then f.signed neg f.maxMag
  else
    match mode with
    | .rne => f.signed neg f.infMag
    | .rtz => f.signed neg f.maxMag
    | .up => f.signed neg (if neg then f.maxMag else f.infMag)
    | .down => f.signed neg (if neg then f.infMag else f.maxMag)
    | .odd => f.signed neg f.maxMag
    | .stoch _ => f.signed neg f.infMag

/-- ±m × 2^e rounded once to a format, with tininess detected after rounding (R125, R163, R171). -/
def roundFin (f : FF) (mode : Rnd) (neg : Bool) (m : Nat) (e : Int) : FRes :=
  let sgn := fun (mag : Nat) => if f = ffE2m1 && mag = 0 then 0 else f.signed neg mag
  if m = 0 then { code := sgn 0, fl := 0 }
  else
    let top : Int := e + (bitLen m : Int) - 1
    let emin : Int := 1 - (f.bias : Int)
    let ex := max top emin
    let q := ex - f.fbits
    let r := if q ≤ e then (m * 2 ^ (e - q).toNat, false) else roundShift mode neg m (q - e).toNat
    let mag := (ex - emin).toNat * 2 ^ f.fbits + r.1
    if f.maxMag < mag then { code := overflowCode f mode neg, fl := fOverflow ||| fInexact }
    else
      let tiny :=
        if emin ≤ top then false
        else if top < emin - 1 then true
        else
          let q2 := top - f.fbits
          let t2 := if q2 ≤ e then m * 2 ^ (e - q2).toNat else (roundShift mode neg m (q2 - e).toNat).1
          t2 < 2 ^ (f.fbits + 1)
      { code := sgn mag
        fl := (if r.2 then fInexact else 0) ||| (if r.2 && tiny then fUnderflow else 0) }

/-- A value rounded once to a format; infinities and NaNs by R163 and R164. A signalling NaN raises invalid. -/
def roundNum (f : FF) (mode : Rnd) (x : Num) : FRes :=
  match x with
  | .fin neg m e => roundFin f mode neg m e
  | .inf neg => if f.hasInf then { code := f.signed neg f.infMag, fl := 0 }
                else { code := f.signed neg f.maxMag, fl := fInvalid }
  | .nan neg q fr => { code := f.quietNan neg fr, fl := if q && f ≠ ffE2m1 then 0 else fInvalid }

/-- The first NaN of a list, made quiet in a format. -/
def firstNan (f : FF) : List Num → Option Nat
  | [] => none
  | .nan n _ fr :: _ => some (f.quietNan n fr)
  | _ :: t => firstNan f t

/-- Invalid when an operand is a signalling NaN (R124). -/
def snanFlag (l : List Num) : Flags := if l.any Num.isSnan then fInvalid else 0

/-- The first NaN of the operands if there is one, else the default NaN with invalid. -/
def nanOr (f : FF) (l : List Num) (fl : Flags) : FRes :=
  match firstNan f l with
  | some c => { code := c, fl := fl ||| snanFlag l }
  | none => { code := f.defaultNan, fl := fl ||| snanFlag l }

/-- Signed magnitude of a finite value at exponent `e0`, which is at most its own. -/
def alignTo (neg : Bool) (m : Nat) (e e0 : Int) : Int :=
  let x : Int := (m * 2 ^ (e - e0).toNat : Nat)
  if neg then -x else x

/-- The exact sum of two finite values; an exact zero takes its sign by IEEE 754 under the mode. -/
def sumFin (mode : Rnd) (n1 : Bool) (m1 : Nat) (e1 : Int) (n2 : Bool) (m2 : Nat) (e2 : Int) : Num :=
  let e0 := min e1 e2
  let x := alignTo n1 m1 e1 e0 + alignTo n2 m2 e2 e0
  if x = 0 then
    let neg := if m1 = 0 && m2 = 0 && n1 = n2 then n1 else decide (mode = .down)
    .fin neg 0 e0
  else .fin (x < 0) x.natAbs e0

/-- a + b, rounded once (R123, R180). -/
def fpAdd (f : FF) (mode : Rnd) (a b : Num) : FRes :=
  if a.isNan || b.isNan then nanOr f [a, b] 0
  else
    match a, b with
    | .inf n1, .inf n2 => if n1 = n2 then roundNum f mode a else { code := f.defaultNan, fl := fInvalid }
    | .inf _, _ => roundNum f mode a
    | _, .inf _ => roundNum f mode b
    | .fin n1 m1 e1, .fin n2 m2 e2 => roundNum f mode (sumFin mode n1 m1 e1 n2 m2 e2)
    | _, _ => { code := f.defaultNan, fl := 0 }

/-- a − b, rounded once. -/
def fpSub (f : FF) (mode : Rnd) (a b : Num) : FRes := fpAdd f mode a b.negate

/-- The exact product of two values that are no NaN and not infinity by zero. -/
def mulNum (a b : Num) : Num :=
  let neg := xor a.sign b.sign
  match a, b with
  | .fin _ m1 e1, .fin _ m2 e2 => .fin neg (m1 * m2) (e1 + e2)
  | _, _ => .inf neg

/-- Infinity times zero. -/
def infZero (a b : Num) : Bool := (a.isInf && b.isZero) || (a.isZero && b.isInf)

/-- a × b, rounded once. -/
def fpMul (f : FF) (mode : Rnd) (a b : Num) : FRes :=
  if a.isNan || b.isNan then nanOr f [a, b] 0
  else if infZero a b then { code := f.defaultNan, fl := fInvalid }
  else roundNum f mode (mulNum a b)

/-- Precision of a format. -/
def FF.prec (f : FF) : Nat := f.fbits + 1

/-- a / b, rounded once; a finite non-zero value over zero raises divide-by-zero. -/
def fpDiv (f : FF) (mode : Rnd) (a b : Num) : FRes :=
  if a.isNan || b.isNan then nanOr f [a, b] 0
  else
    let neg := xor a.sign b.sign
    match a, b with
    | .inf _, .inf _ => { code := f.defaultNan, fl := fInvalid }
    | .inf _, _ => roundNum f mode (.inf neg)
    | _, .inf _ => roundNum f mode (.fin neg 0 0)
    | .fin _ m1 e1, .fin _ m2 e2 =>
      if m2 = 0 then
        if m1 = 0 then { code := f.defaultNan, fl := fInvalid }
        else { code := (roundNum f mode (.inf neg)).code, fl := fDivZero }
      else if m1 = 0 then roundNum f mode (.fin neg 0 0)
      else
        let k := f.prec + 3 + bitLen m2 - bitLen m1
        let q := m1 * 2 ^ k / m2
        let sticky := if m1 * 2 ^ k % m2 = 0 then 0 else 1
        roundFin f mode neg (2 * q + sticky) (e1 - e2 - k - 1)
    | _, _ => { code := f.defaultNan, fl := 0 }

/-- Integer square root: the bits of the root from the highest down. -/
def isqrtFrom : Nat → Nat → Nat → Nat
  | 0, _, acc => acc
  | i + 1, n, acc => if (acc + 2 ^ i) * (acc + 2 ^ i) ≤ n then isqrtFrom i n (acc + 2 ^ i) else isqrtFrom i n acc

/-- The largest `r` with `r * r ≤ n`. -/
def isqrt (n : Nat) : Nat := isqrtFrom (bitLen n / 2 + 1) n 0

/-- √a, rounded once (R181). -/
def fpSqrt (f : FF) (mode : Rnd) (a : Num) : FRes :=
  match a with
  | .nan .. => nanOr f [a] 0
  | .inf neg => if neg then { code := f.defaultNan, fl := fInvalid } else roundNum f mode a
  | .fin neg m e =>
    if m = 0 then roundNum f mode a
    else if neg then { code := f.defaultNan, fl := fInvalid }
    else
      let k0 := 2 * (f.prec + 3)
      let k := if (e - k0) % 2 = 0 then k0 else k0 + 1
      let n := m * 2 ^ k
      let r := isqrt n
      roundFin f mode false (2 * r + (if r * r = n then 0 else 1)) ((e - k) / 2 - 1)

/-- ±(a × b) ± c, rounded once; infinity times zero raises invalid even beside a quiet NaN (R124, R164). -/
def fpFma (f : FF) (mode : Rnd) (negP negC : Bool) (a b c : Num) : FRes :=
  let bad := if infZero a b then fInvalid else 0
  if a.isNan || b.isNan || c.isNan then nanOr f [a, b, c] bad
  else if infZero a b then { code := f.defaultNan, fl := fInvalid }
  else
    let p := if negP then (mulNum a b).negate else mulNum a b
    fpAdd f mode p (if negC then c.negate else c)

/-- Order of two values that are no NaN: −1, 0 or 1; zeros are equal. -/
def cmpNum (a b : Num) : Int :=
  match a, b with
  | .inf n1, .inf n2 => if n1 = n2 then 0 else if n1 then -1 else 1
  | .inf n1, _ => if n1 then -1 else 1
  | _, .inf n2 => if n2 then 1 else -1
  | .fin n1 m1 e1, .fin n2 m2 e2 =>
    let e0 := min e1 e2
    let x := alignTo n1 m1 e1 e0
    let y := alignTo n2 m2 e2 e0
    if x < y then -1 else if x = y then 0 else 1
  | _, _ => 0

/-- Whether a orders below b, −0 below +0 (R123). -/
def belowNum (a b : Num) : Bool :=
  cmpNum a b < 0 || (cmpNum a b = 0 && a.sign && !b.sign)

/-- `.min` and `.max`: a NaN when either operand is one (R123). -/
def fpMinMax (f : FF) (mx : Bool) (a b : Num) : FRes :=
  if a.isNan || b.isNan then nanOr f [a, b] 0
  else if (if mx then belowNum a b else belowNum b a) then roundNum f .rne b else roundNum f .rne a

/-- `.minnum` and `.maxnum`: the other operand when exactly one is a NaN (R123). −0 is below +0 as in `.min` and `.max`, of which
alone R123 says so (DESIGN CHOICE, log entry 96). -/
def fpMinMaxNum (f : FF) (mx : Bool) (a b : Num) : FRes :=
  if a.isNan && b.isNan then nanOr f [a, b] 0
  else if a.isNan then { code := (roundNum f .rne b).code, fl := snanFlag [a] }
  else if b.isNan then { code := (roundNum f .rne a).code, fl := snanFlag [b] }
  else fpMinMax f mx a b

/-- The comparisons of fcmp and vcmp. -/
inductive Cmp where
  | eq
  | ne
  | lt
  | le
  | gt
  | ge
  | un
  deriving DecidableEq, Repr

/-- A comparison with its flags: eq, ne and un are quiet, the others signal for any NaN (R123, R183). -/
def fpCmp (c : Cmp) (a b : Num) : Bool × Flags :=
  let un := a.isNan || b.isNan
  let fl := match c with
    | .eq | .ne | .un => snanFlag [a, b]
    | _ => if un then fInvalid else 0
  let o := cmpNum a b
  (match c with
   | .eq => !un && o = 0
   | .ne => un || o ≠ 0
   | .lt => !un && o < 0
   | .le => !un && o ≤ 0
   | .gt => !un && 0 < o
   | .ge => !un && 0 ≤ o
   | .un => un, fl)

/-- A finite value rounded to an integer by a mode; whether it was inexact. -/
def roundInt (mode : Rnd) (neg : Bool) (m : Nat) (e : Int) : Int × Bool :=
  let r := if 0 ≤ e then (m * 2 ^ e.toNat, false) else roundShift mode neg m (-e).toNat
  (if neg then -(r.1 : Int) else (r.1 : Int), r.2)

/-- Ends of an integer format's range (R162). -/
def intLo (sgn : Bool) (w : Nat) : Int := if sgn then -((2 ^ (w - 1) : Nat) : Int) else 0
def intHi (sgn : Bool) (w : Nat) : Int := if sgn then ((2 ^ (w - 1) : Nat) : Int) - 1 else ((2 ^ w : Nat) : Int) - 1

/-- An integer saturated to a format: invalid when it does not fit (R163). -/
def satInt (sgn : Bool) (w : Nat) (x : Int) (fl : Flags) : FRes :=
  if x < intLo sgn w then { code := wrapTo w (intLo sgn w), fl := fInvalid }
  else if intHi sgn w < x then { code := wrapTo w (intHi sgn w), fl := fInvalid }
  else { code := wrapTo w x, fl := fl }

/-- A value converted to an integer format (R126, R163). -/
def numToInt (sgn : Bool) (w : Nat) (mode : Rnd) (x : Num) : FRes :=
  match x with
  | .nan .. => { code := 0, fl := fInvalid }
  | .inf neg => { code := wrapTo w (if neg then intLo sgn w else intHi sgn w), fl := fInvalid }
  | .fin neg m e =>
    let r := roundInt mode neg m e
    satInt sgn w r.1 (if r.2 then fInexact else 0)

/-- An integer as a value. -/
def numOfInt (x : Int) : Num := .fin (x < 0) x.natAbs 0

/-- A value multiplied by 2^k exactly. -/
def Num.scale (x : Num) (k : Int) : Num :=
  match x with
  | .fin n m e => .fin n m (e + k)
  | y => y

/-! Special functions (R193). -/

/-- Significant bits that vrcp, vrsq and vexp2 keep. -/
def FF.special (f : FF) : Nat := min f.prec 14

/-- ±m × 2^e truncated to q significant bits and delivered in the format: an infinity above the largest finite value,
a signed zero below the smallest normal one (R193). -/
def deliverSpecial (f : FF) (neg : Bool) (m : Nat) (e : Int) : FRes :=
  let q := f.special
  let sh := bitLen m - q
  let t := m / 2 ^ sh
  let e' := e + sh
  let top : Int := e' + (bitLen t : Int) - 1
  if top < 1 - (f.bias : Int) then { code := f.signed neg 0, fl := fUnderflow ||| fInexact }
  else if (f.bias : Int) < top then { code := f.signed neg f.infMag, fl := fOverflow ||| fInexact }
  else { code := (roundFin f .rtz neg t e').code, fl := 0 }

/-- vrcp (R193). -/
def fpRcp (f : FF) (a : Num) : FRes :=
  match a with
  | .nan n _ fr => { code := f.quietNan n fr, fl := 0 }
  | .inf neg => { code := f.signed neg 0, fl := 0 }
  | .fin neg m e =>
    if m = 0 then { code := f.signed neg f.infMag, fl := fDivZero }
    else
      let k := bitLen m + f.special
      deliverSpecial f neg (2 ^ k / m) (-e - k)

/-- vrsq (R193). -/
def fpRsq (f : FF) (a : Num) : FRes :=
  match a with
  | .nan n _ fr => { code := f.quietNan n fr, fl := 0 }
  | .inf neg => if neg then { code := f.defaultNan, fl := fInvalid } else { code := 0, fl := 0 }
  | .fin neg m e =>
    if m = 0 then { code := f.signed neg f.infMag, fl := fDivZero }
    else if neg then { code := f.defaultNan, fl := fInvalid }
    else
      let m' := if e % 2 = 0 then m else 2 * m
      let e' := if e % 2 = 0 then e else e - 1
      let k := bitLen m' / 2 + 1 + f.special
      deliverSpecial f false (isqrt (2 ^ (2 * k) / m')) (-(e' / 2) - k)

/-- Fraction bits of the fixed-point value of 2^f. -/
def expScale : Nat := 112

/-- 2^(0.b1 b2 …) over the binary digits given from the last to the first, from below: each square root is rounded down. -/
def expLow : List Bool → Nat → Nat
  | [], y => y
  | b :: bs, y => expLow bs (isqrt ((if b then 2 else 1) * y * 2 ^ expScale))

/-- The 96 leading binary digits of `fr / 2^sh`, last first. -/
def fracDigits (fr sh : Nat) : List Bool :=
  (buildFrom (fun i => decide (fr * 2 ^ (i + 1) / 2 ^ sh % 2 = 1)) 96 0).reverse

/-- vexp2 (R193): 2^x for x = n + f, 0 ≤ f < 1, truncated. The fixed-point value lies below 2^f by less than 2^−90, and
between an operand's 2^f and the next 14-bit value at or below it lie at least 2^−81 unless f is 0, so both truncate alike
(DEDUCED, log entry 13). -/
def fpExp2 (f : FF) (a : Num) : FRes :=
  match a with
  | .nan n _ fr => { code := f.quietNan n fr, fl := 0 }
  | .inf neg => if neg then { code := 0, fl := 0 } else { code := f.signed false f.infMag, fl := 0 }
  | .fin neg m e =>
    if m = 0 then { code := (roundFin f .rne false 1 0).code, fl := 0 }
    else if (2048 : Int) < e + bitLen m then
      if neg then { code := 0, fl := fUnderflow ||| fInexact }
      else { code := f.signed false f.infMag, fl := fOverflow ||| fInexact }
    else
      let sh := if 0 ≤ e then 0 else (-e).toNat
      let x : Int := (m * 2 ^ (if 0 ≤ e then e.toNat else 0) : Nat)
      let x := if neg then -x else x
      let n := x / ((2 ^ sh : Nat) : Int)
      let fr := (x % ((2 ^ sh : Nat) : Int)).toNat
      if fr = 0 then deliverSpecial f false 1 n
      else
        let q := f.special
        let y := expLow (fracDigits fr sh) (2 ^ expScale)
        deliverSpecial f false (max (y / 2 ^ (expScale - (q - 1))) (2 ^ (q - 1))) (n - (q - 1))

/-- The number of the bit that vclass sets (R195). -/
def classBit (f : FF) (c : Nat) : Nat :=
  match decodeNum f c with
  | .inf true => 0
  | .inf false => 7
  | .nan _ q _ => if q then 9 else 8
  | .fin neg m _ =>
    if m = 0 then (if neg then 3 else 4)
    else if bitsAt c f.fbits f.ebits = 0 then (if neg then 2 else 5)
    else (if neg then 1 else 6)

/-! Control words (R111, R167). -/

/-- The rounding mode of a control word. -/
def fcsRm (x : Word) : Rnd := rndOf (x.toNat % 8)

/-- The enables of a control word. -/
def fcsEn (x : Word) : Flags := BitVec.ofNat 5 (x.toNat / 2 ^ 16)

/-- A control word with flags ORed in. -/
def fcsOr (x : Word) (fl : Flags) : Word := x ||| (fl.setWidth 64 <<< 8)

/-- A write of a control word: an RM of 5 to 7 leaves RM unchanged, bits that are 0 stay 0 (R111). -/
def fcsWrite (old x : Word) : Word :=
  let rm := if x.toNat % 8 ≤ 4 then x &&& 7#64 else old &&& 7#64
  (x &&& 0x1F1F00#64) ||| rm

end Sys2Proof.Machine
end

