-- ==== Sys2Proof/Machine/Operands.lean ====
section
/-!
DEFINITION. The operand forms of vector instructions: TYPE, groups and their elements, masks and their governing
forms, destinations with the tail and mask policies, element values, block scales, and the pfx loan.
-/
namespace Sys2Proof.Machine

/-! TYPE (R68, R153). -/

/-- TYPE read into its parts: format code, width, grouping, policies, block length (0 for none). -/
structure VType where
  fmt  : Nat
  w    : Nat
  g    : Nat
  keep : Bool
  free : Bool
  blk  : Nat
  deriving DecidableEq, Repr

/-- The parts of a TYPE (R153). -/
def vtypeOf (t : BitVec 12) : VType :=
  let n := t.toNat
  let b := bitsAt n 9 3
  { fmt := bitsAt n 0 5, w := fmtWidth (bitsAt n 0 5), g := 2 ^ bitsAt n 5 2, keep := bitAt n 7, free := bitAt n 8,
    blk := if b = 0 then 0 else 2 ^ (b + 2) }

/-- The strand's current TYPE. -/
def State.ty (s : State) : VType := vtypeOf s.strand.type

/-- vmax of a type (R21). -/
def VType.vmax (t : VType) : Nat := 16384 * t.g / t.w

/-- Elements of one register at width w. -/
def perReg (w : Nat) : Nat := 16384 / w

/-- Elements of one 256-byte element group (R20). -/
def perGroup (w : Nat) : Nat := 2048 / w

/-- Bytes of an element of 8 bits or more. -/
def VType.sz (t : VType) : Nat := t.w / 8

/-- The format is f64, f32, f16 or bf16. -/
def VType.isFloat (t : VType) : Bool := t.fmt ≤ 3
/-- The format is e5m2 or e4m3. -/
def VType.isFp8 (t : VType) : Bool := t.fmt = 4 || t.fmt = 5
/-- The format is a signed integer one. -/
def VType.isI (t : VType) : Bool := (8 ≤ t.fmt && t.fmt ≤ 11) || t.fmt = 16
/-- The format is an unsigned integer one. -/
def VType.isN (t : VType) : Bool := (12 ≤ t.fmt && t.fmt ≤ 15) || t.fmt = 17
/-- i8 to i64 or n8 to n64. -/
def VType.isInt8 (t : VType) : Bool := 8 ≤ t.fmt && t.fmt ≤ 15
def VType.isInt (t : VType) : Bool := t.isI || t.isN
def VType.isE2m1 (t : VType) : Bool := 0x14 ≤ t.fmt && t.fmt ≤ 0x17
def VType.isP4 (t : VType) : Bool := 0x18 ≤ t.fmt && t.fmt ≤ 0x1B

/-! Groups (R149, R150, R177). -/

/-- A run of registers: its first and how many, taken modulo 32. -/
structure Grp where
  start : Nat
  size  : Nat
  deriving DecidableEq, Repr

/-- The registers of a group. -/
def Grp.regs (x : Grp) : List Nat := buildFrom (fun j => (x.start + j) % 32) x.size 0

/-- Two groups share no register. -/
def Grp.disjoint (x y : Grp) : Bool := x.regs.all fun r => !y.regs.contains r

/-- Identical or disjoint (R177). -/
def Grp.sameOr (x y : Grp) : Bool := (x.start % 32 = y.start % 32 && x.size = y.size) || x.disjoint y

/-- Element `e` of one register's image at width w (R149). -/
def regElem (r : VReg) (w e : Nat) : Nat :=
  if w = 4 then
    let b := (vget r (e / 2) 0#8).toNat
    if e % 2 = 0 then b % 16 else b / 16
  else if w = 8 then (vget r e 0#8).toNat
  else if w = 16 then (vget r (2 * e) 0#8).toNat + 256 * (vget r (2 * e + 1) 0#8).toNat
  else if w = 32 then
    (vget r (4 * e) 0#8).toNat + 256 * (vget r (4 * e + 1) 0#8).toNat + 65536 * (vget r (4 * e + 2) 0#8).toNat
      + 16777216 * (vget r (4 * e + 3) 0#8).toNat
  else ofBytes (buildFrom (fun i => vget r i 0#8) 8 (8 * e))

/-- Register v of a strand. -/
def Strand.vreg (st : Strand) (v : Nat) : VReg := vget st.v (v % 32) (mkVec 2048 fun _ => 0#8)

/-- Element `i` of the group that starts at register v, at width w (R30, R150). -/
def Strand.elem (st : Strand) (v w i : Nat) : Nat := regElem (st.vreg (v + i / perReg w)) w (i % perReg w)

/-- The number of elements that a group holds. -/
def Grp.cap (x : Grp) (w : Nat) : Nat := x.size * perReg w

/-- The group that a vector field names under the current type (R177). -/
def State.grp (s : State) (v : BitVec 5) : Grp := { start := v.toNat, size := s.ty.g }

/-- Element `i` of an operand group. No rule gives an element beyond the group, which only a TYPE that a handler left
behind can reach: a free value (log entry 17). -/
def State.rd (s : State) (x : Grp) (w i : Nat) : Nat :=
  if i < x.cap w then s.strand.elem x.start w i else s.free 4 (x.start * 2 ^ 16 + i) % 2 ^ w

/-- Byte `b` of a register image whose elements of width w are `f` (R149). -/
def imageByte (w : Nat) (f : Nat → Nat) (b : Nat) : Byte :=
  if w = 4 then BitVec.ofNat 8 (f (2 * b) % 16 + 16 * (f (2 * b + 1) % 16))
  else BitVec.ofNat 8 (f (b / (w / 8)) / 256 ^ (b % (w / 8)))

/-- A register image from its elements. -/
def imageOf (w : Nat) (f : Nat → Nat) : VReg := mkVec 2048 (imageByte w f)

/-- Bit `i` of mask register m. -/
def Strand.mbit (st : Strand) (m i : Nat) : Bool := vget (vget st.m m (mkVec 32768 fun _ => false)) i false

/-! Destinations (R35, R39, R154, R155, R299). -/

/-- What a group's elements become: the effective length, what was made good, the policies, the governing mask, the
elements that the instruction leaves unwritten whatever the policies, and the element results. -/
structure Dest where
  d    : Nat
  w    : Nat
  size : Nat
  n    : Nat
  k    : Nat
  keep : Bool
  free : Bool
  act  : Nat → Bool
  skip : Nat → Bool
  res  : Nat → Nat

/-- All 1 bits at a width. -/
def ones (w : Nat) : Nat := 2 ^ w - 1

/-- Element `i` of a destination after the instruction; `old` is its value before, `fv` its free value. -/
def Dest.elem (x : Dest) (old : Nat) (fv : Nat) (i : Nat) : Nat :=
  if x.skip i && i < x.n then old
  else if i < x.k then
    if x.act i then x.res i
    else if x.free && fv % 2 = 1 then ones x.w else old
  else if i < x.n then
    if fv % 2 = 0 then old
    else if x.act i then x.res i
    else if x.free && fv / 2 % 2 = 1 then ones x.w else old
  else if x.keep then old
  else match fv % 3 with
    | 0 => old
    | 1 => ones x.w
    | _ => 0

/-- The tide mark of member j when the writer completes (R39, R154). R39 gives none to a writer that a pre-emption cuts: the mark
then covers every group that holds an element below n, as when it completes (DESIGN CHOICE, log entry 93). -/
def Dest.tide (x : Dest) (j : Nat) : Nat :=
  if x.keep then 8 else min 8 (ceilDiv (x.n - j * perReg x.w) (perGroup x.w))

/-- A destination group written: elements, tide marks, and general swatches (R299). -/
def State.writeGroup (s : State) (use : Nat) (x : Dest) : State :=
  let st := s.strand
  let one := fun (acc : Strand) (j : Nat) =>
    let r := (x.d + j) % 32
    let img := imageOf x.w fun e =>
      let i := j * perReg x.w + e
      x.elem (regElem (st.vreg r) x.w e) (s.free use (r * 4096 + e)) i
    { acc with v := vset acc.v r img, tide := vset acc.tide r (x.tide j), sw := vset acc.sw r { code := 0, len := 0 } }
  s.setStrand ((buildFrom id x.size 0).foldl one st)

/-- A destination and its pfx copy, each with free values of its own (R66). -/
def State.writeDest (s : State) (use : Nat) (copy : Option Nat) (x : Dest) : State :=
  match copy with
  | some c => if c = x.d then s.writeGroup use x else
      let s2 := s.writeGroup use x
      s2.writeGroup (use + 1) { x with d := c }
  | none => s.writeGroup use x

/-- A mask destination (R151): bits below k by the result or the mask policy, [k, n) by R35, the rest by the tail. -/
def State.writeMask (s : State) (use : Nat) (x : Dest) : State :=
  let st := s.strand
  let m := mkVec 32768 fun i =>
    let old := st.mbit x.d i
    bitAt (x.elem (if old then 1 else 0) (s.free use i) i) 0
  s.setStrand { st with m := vset st.m x.d m }

/-- Single elements of one register written, the others kept; its tide covers at least their groups, and all eight under
tail policy keep (R39). -/
def State.writeElems (s : State) (d w : Nat) (f : Nat → Option Nat) (cover : Nat) : State :=
  let st := s.strand
  let r := d % 32
  let old := st.vreg r
  let img := imageOf w fun e => (f e).getD (regElem old w e)
  s.setStrand { st with
    v := vset st.v r img
    tide := vset st.tide r (if s.ty.keep then 8 else max (vget st.tide r 0) (min 8 (ceilDiv cover (perGroup w))))
    sw := vset st.sw r { code := 0, len := 0 } }

/-- Single elements written in a destination register and in its copy, which keeps its own others (R66, R200). -/
def State.writeSingles (s : State) (copy : Option Nat) (d w : Nat) (f : Nat → Option Nat) (cover : Nat) : State :=
  let s' := s.writeElems d w f cover
  match copy with
  | some c => if c % 32 = d % 32 then s' else s'.writeElems c w f cover
  | none => s'

/-- The swatch of one register set (R186, R249). -/
def State.setSw (s : State) (r : Nat) (c : BitVec 10) (len : Nat) : State :=
  s.setStrand { s.strand with sw := vset s.strand.sw (r % 32) { code := c, len := len } }

/-! Element values (R160 to R162, R165). -/

/-- The value of a code in a format: spare and palette entries read as bf16 values (R160, R161). -/
def Strand.value (st : Strand) (fmt c : Nat) : Num :=
  let t : VType := { fmt := fmt, w := fmtWidth fmt, g := 1, keep := false, free := false, blk := 0 }
  if t.isI then numOfInt (signedOf t.w c)
  else if t.isN then numOfInt ((c : Nat) : Int)
  else if t.isE2m1 then
    if c = 8 then decodeNum ffBf16 (vget st.spare (fmt % 4) 0).toNat else decodeNum ffE2m1 c
  else if t.isP4 then
    let e := if c = 0 then 0 else bitsAt (vget st.pal (4 * (fmt % 4) + c / 4) 0).toNat (16 * (c % 4)) 16
    decodeNum ffBf16 e
  else decodeNum (ffOf fmt) c

/-- A value times the factor of a scale code; code 255 reads as the default NaN (R165). -/
def scaleBy (code : Nat) (x : Num) : Num :=
  if code = 255 then .nan false true (2 ^ 51) else x.scale ((code : Int) - 127)

/-- The scale code of element i of a block-scaled strip, from the scale group (R165). -/
def Strand.scaleCode (st : Strand) (start blk i : Nat) : Nat := st.elem start 8 (i / blk)

/-! The pfx loan (R64 to R67). -/

/-- A pending loan: nothing, a mask with its sense, a condition, or a word that lends nothing acceptable; with a copy
destination. -/
inductive Loan where
  | none
  | mask (m : Nat) (neg : Bool) (copy : Option Nat)
  | cond (c g : Nat) (copy : Option Nat)
  | copy (c : Nat)
  | bad
  deriving DecidableEq, Repr

/-- The copy field when CE is 1. -/
def copyOf (ce : BitVec 1) (c : BitVec 6) : Option Nat := if ce.toNat = 1 then some c.toNat else none

/-- The loan that PFXS holds (R67). -/
def loanOf (p : BitVec 32) : Loan :=
  if p = 0 then .none
  else if p.toNat / 2 % 64 ≠ 0x13 || p.toNat % 2 = 0 then .bad
  else
    match decode32 p.toNat with
    | .ok (.pfxMask ce copy pred neg) => .mask pred.toNat (neg.toNat = 1) (copyOf ce copy)
    | .ok (.pfxCond ce copy cond pred) => .cond cond.toNat pred.toNat (copyOf ce copy)
    | .ok (.pfxCopy copy) => .copy copy.toNat
    | _ => .bad

/-- A condition on one register (R59). -/
def condHolds (c : Nat) (x : Word) : Bool :=
  match c with
  | 0 => x = 0
  | 1 => x ≠ 0
  | 2 => x.toInt < 0
  | 3 => 0 ≤ x.toInt
  | 4 => 0 < x.toInt
  | _ => x.toInt ≤ 0

/-- A condition on two registers (R59). -/
def condHolds2 (c : Nat) (x y : Word) : Bool :=
  match c with
  | 0 => x = y
  | 1 => x ≠ y
  | 2 => x.toInt < y.toInt
  | 3 => y.toInt ≤ x.toInt
  | 4 => x.toNat < y.toNat
  | _ => y.toNat ≤ x.toNat

/-- The governing mask of a vector instruction: its field, 0 for none, or the lent mask (R66, R151). -/
def Strand.active (st : Strand) (field : Nat) (loan : Loan) (i : Nat) : Bool :=
  match loan with
  | .mask m neg _ => xor (st.mbit m i) neg
  | _ => if field = 0 then true else st.mbit field i

/-- The instruction is unmasked: mask field 0 and no mask loan. -/
def unmasked (field : Nat) (loan : Loan) : Bool :=
  match loan with
  | .mask .. => false
  | _ => field = 0

/-- The copy destination of a loan. -/
def Loan.copyDest : Loan → Option Nat
  | .mask _ _ c => c
  | .cond _ _ c => c
  | .copy c => some c
  | _ => Option.none

/-- Padding: a block-scaled strip's element at or beyond the request (R23, R222). -/
def State.pad (s : State) (i : Nat) : Bool := s.ty.blk ≠ 0 && s.strand.sreq.toNat ≤ i

/-- The value of element i's code in the TYPE format; padding of a block-scaled source reads as +0 (R166, R190, R203). -/
def State.paddedValue (s : State) (i c : Nat) : Num := if s.pad i then .fin false 0 0 else s.strand.value s.ty.fmt c

end Sys2Proof.Machine
end

