-- ==== Sys2Proof/Machine/Jobs.lean ====
section
/-!
DEFINITION. Tender jobs of a strand: the elements of a tcopy, the delivery of a token, the interlock table, and
retirement, which waits for the copies of the strand (R263, R264, R335, R354, R355, R358).
-/
namespace Sys2Proof.Machine

/-- A token (R354). -/
def tokenWord (count kind cause : Nat) (side : Bool) : Word :=
  BitVec.ofNat 64 (count % 2 ^ 32 + 2 ^ 32 * kind + 2 ^ 36 * cause + (if side then 2 ^ 40 else 0))

/-- How a copy ended: elements copied, stop kind, cause, side (R358). -/
structure CopyEnd where
  count : Nat
  kind  : Nat
  cause : Nat
  side  : Bool
  deriving DecidableEq, Repr

/-- One side of a copy: its space code and peer (R357). -/
structure CopySide where
  space : Nat
  peer  : Nat
  deriving DecidableEq, Repr

/-- The destination and source sides that TCSP selects (R357). -/
def copySides (tcsp : Word) : CopySide × CopySide :=
  ({ space := bitsAt tcsp.toNat 0 2, peer := bitsAt tcsp.toNat 16 10 },
   { space := bitsAt tcsp.toNat 2 2, peer := bitsAt tcsp.toNat 32 10 })

/-- The berth of this package that is a member of the fabric (R357). -/
def State.memberBerth (s : State) (peer : Nat) : Option Nat :=
  (buildFrom id 16 0).find? fun b =>
    (s.berthAt b).used && bitAt (s.berthAt b).tmid.toNat 15 && bitsAt (s.berthAt b).tmid.toNat 0 10 = peer

/-- A berth holds a scale-up port that has not failed (R371). -/
def State.linked (s : State) (b : Nat) : Bool :=
  (buildFrom id 12 0).any fun p => bitAt (s.berthAt b).ports p && !s.fabric.failed.contains p

/-- Every scale-up port of a berth that holds any has failed (R371). -/
def State.cutOff (s : State) (b : Nat) : Bool := (s.berthAt b).ports ≠ 0 && !s.linked b

/-- A transfer of berth `b` reaches a member: itself, another of this package while both hold a working port, or one outside
while `b` does (R371). -/
def State.reaching (s : State) (b peer : Nat) : Bool :=
  match s.memberBerth peer with
  | some c => c = b || (s.linked c && s.linked b)
  | none => s.linked b

/-- The space and effective address that an offset of a berth's export window reaches (R357, R382). -/
def State.exportAt (s : State) (berth off size : Nat) : Option (ASpace × Word) :=
  match (s.berthAt berth).xwin with
  | none => none
  | some (base, len, asp, root) =>
    if off + size ≤ len.toNat then
      some ({ berth := berth, asid := asp % 65536, vxt := asp / 65536, root := root }, base + BitVec.ofNat 64 off)
    else none

/-- What one side of a copied element reaches: local bytes, host bytes, a peer outside the package, or a stop. -/
inductive SideAt where
  | here (ls : List Loc)
  | away (peer addr : Nat)
  | stop (st : Stop)
  | silent
  deriving DecidableEq, Repr

/-- Checking one side of a copied element (R357, R358). A member of this package answers through its berth's export window,
with the kind of the stop alone: the walk is not one of this context's tables; any other peer answers from outside; host
addresses are those of the berth's own function. -/
def State.sideAt (s : State) (sd : CopySide) (n : Need) (ea : Word) (sz : Nat) : SideAt :=
  if sd.space = 0 then
    match s.check s.aspace n ea sz with
    | .ok ls => .here ls
    | .error st => .stop st
  else if sd.space = 1 then
    if !s.reaching s.berthNo sd.peer then .silent
    else
    match s.memberBerth sd.peer with
    | some b =>
      match s.exportAt b ea.toNat sz with
      | none => .stop (Stop.plain 2 ea)
      | some (sp, a) =>
        if inPool a then .stop (Stop.plain 2 ea)
        else
          match s.check sp { n with p := false } a sz with
          | .ok ls => .here ls
          | .error st => .stop (Stop.plain st.kind ea)
    | none =>
      match Config.peerStop s.fresh sd.peer ea.toNat with
      | 0 => .away sd.peer ea.toNat
      | 1 => .stop (Stop.plain 1 ea)
      | 2 => .stop (Stop.plain 2 ea)
      | 7 => .stop (Stop.plain 7 ea)
      | _ => .silent
  else
    let ls := locRange .pcie (fnAddr (s.berthNo + 1) ea.toNat) sz
    match ls.findSome? s.refusal with
    | some k => .stop (Stop.plain k ea)
    | none => .here ls

/-- The bytes that a copied element reads. -/
def State.sideBytes (s : State) (x : SideAt) (sz : Nat) : List Byte :=
  match x with
  | .here ls => s.bytes ls
  | .away p a => buildFrom (fun i => Config.peerByte s.fresh p i) sz a
  | _ => []

/-- A copy's elements in index order; the read of each follows the write of every one below it. The source's checks come
first, then the destination's, then a peer that has stopped answering (R358). -/
def State.copyLoop (s : State) (sides : CopySide × CopySide) (sz : Nat) (ds fs : Word) :
    Nat → Nat → Word → Word → State × CopyEnd
  | 0, i, _, _ => (s, { count := i, kind := 0, cause := 0, side := false })
  | m + 1, i, da, fa =>
    let src := s.sideAt sides.2 Need.load fa sz
    match src, s.sideAt sides.1 Need.store da sz with
    | .stop st, _ => (s, { count := i, kind := st.kind, cause := 0, side := false })
    | _, .stop st => (s, { count := i, kind := st.kind, cause := 0, side := true })
    | .silent, _ => (s, { count := i, kind := 6, cause := 4, side := false })
    | _, .silent => (s, { count := i, kind := 6, cause := 4, side := true })
    | _, .here ls => (s.store none (writesOf ls (s.sideBytes src sz))).copyLoop sides sz ds fs m (i + 1) (da + ds) (fa + fs)
    | _, .away _ _ => s.copyLoop sides sz ds fs m (i + 1) (da + ds) (fa + fs)

/-- A job by its number. -/
def Fabric.jobAt (f : Fabric) (id : Nat) : Option Job := f.jobs.find? fun j => j.id = id

/-- A fabric without a job. -/
def Fabric.drop (f : Fabric) (id : Nat) : Fabric := { f with jobs := f.jobs.filter fun j => j.id ≠ id }

/-- A token written to its register: LASTD stays (R62, R355); the register is no longer pending, its interlock
entries are released (R264). -/
def State.writeToken (s : State) (id : Nat) (reg : BitVec 6) (x : Word) : State :=
  let s := s.setHart (s.hart.put reg.toNat x)
  let s := s.setStrand { s.strand with
    tokens := s.strand.tokens.filter fun t => t.job ≠ id
    irt := s.strand.irt.filter fun e => e.owner ≠ id }
  s.setFabric (s.fabric.drop id)

/-- A job of the focused strand brought to its end where the package alone can end it: a copy is performed, a job
whose outcome is known delivers its token; any other waits (R355, R358). -/
def State.finishJob (s : State) (id : Nat) : State :=
  match s.fabric.jobAt id with
  | none => s.setStrand { s.strand with tokens := s.strand.tokens.filter fun t => t.job ≠ id
                                        irt := s.strand.irt.filter fun e => e.owner ≠ id }
  | some j =>
    match j.done with
    | some x => s.writeToken id j.reg x
    | none =>
      match j.kind with
      | .copy n sz da ds fa fs tcsp =>
        let r := s.copyLoop (copySides tcsp) sz ds fs n 0 da fa
        r.1.writeToken id j.reg (tokenWord r.2.count r.2.kind r.2.cause r.2.side)
      | _ => s

/-- The job that makes one of the registers pending (R355). -/
def State.pendingOn (s : State) (rs : List (BitVec 6)) : Option Nat :=
  if s.priv then none
  else (s.strand.tokens.find? fun t => t.reg ≠ 0 && rs.contains t.reg).map (·.job)

/-- An access of [lo, hi] waits for an entry (R264): their bytes overlap and one of the two writes, an entry without a known
range covering every address; or a strip boundary stands between them (R29). -/
def Interlock.stops (e : Interlock) (write : Bool) (lo hi : Nat) : Bool :=
  e.bar || ((!e.known || (e.lo ≤ hi && lo ≤ e.hi)) && (write || e.write))

/-- The interlock entry that an access of [lo, hi] conflicts with (R264). -/
def State.conflict (s : State) (write : Bool) (lo hi : Nat) : Option Nat :=
  if s.priv then none else (s.strand.irt.find? fun e => e.stops write lo hi).map (·.owner)

/-- The owner that an instruction which takes `k` entries waits for: the oldest, when the 16 do not hold them (R264). -/
def State.tableFull (s : State) (k : Nat) : Option Nat :=
  if s.priv || s.strand.irt.length + k ≤ 16 then none else s.strand.irt.head?.map (·.owner)

/-- Every copy of the focused strand performed. -/
def State.endCopies (s : State) : State := (dedup (s.strand.irt.map (·.owner))).foldl State.finishJob s

/-- A strand that waits for a job: the job goes on, the instruction is issued again (R147, R264). -/
def State.stall (s : State) (id : Nat) : State := (s.finishJob id).idle

/-! Retirement (R136, R329, R335, R355). -/

/-- What remains of a retired strand's context for the jobs that it leaves: the address space, the core and the member number
that they act with. -/
def Ctx.remains (c : Ctx) : Ctx :=
  { hart := Hart.reset
    strand := { Strand.reset with
      tag := c.strand.tag, casp := c.strand.casp, croot := c.strand.croot, tmid := c.strand.tmid, core := c.strand.core
      status := .retired } }

/-- What goes on of a retired strand's job (R355 drops its tokens and withdraws its receives): a message already sent, a
collective already handed to the switch or to a tender, and the sends and receives of that tender's firmware. -/
def Job.orphan (c : Ctx) (j : Job) : Option Job :=
  match j.kind with
  | .send .. | .coll _ => some { j with reg := 0, left := some c }
  | .recv .. => if j.parent.isSome then some { j with left := some c } else none
  | .copy .. => none

/-- The job is one of a live context of a tag. -/
def Job.of (j : Job) (tag : BitVec 16) : Bool := j.owner = tag && j.left.isNone

/-- Releasing what names a retired context: accumulator ownership (R285), tokens and moorings (R355), its save area. -/
def State.forget (s : State) (c : Ctx) : State :=
  let tag := c.strand.tag
  let csav := c.strand.csav
  let free := fun (a : Acc) => if a.owned && a.own = tag then { a with owned := false } else a
  let s := s.mapCores fun c => { c with acc0 := free c.acc0, acc1 := free c.acc1 }
  let gone := (s.fabric.jobs.filter fun j => j.of tag && (j.orphan c).isNone).map Job.id
  let s := s.setFabric { s.fabric with
    jobs := s.fabric.jobs.filterMap fun j => if j.of tag then j.orphan c.remains else some j }
  let b := tagBerth tag
  let bb := s.berthAt b
  s.putBerth b { bb with
    trapq := mkVec 4 fun d => (vget bb.trapq d []).filter (· ≠ tag)
    moor := bb.moor.filter fun m => !gone.contains m.job
    saves := if csav = 0 then bb.saves else csav.toNat :: bb.saves }

/-- The focused strand retires (R136, R329, R335): its slot frees, its flotilla counts it gone, its launch one fewer. -/
def State.retireStrand (s : State) : State :=
  let lid := s.strand.launch
  let s := s.setFlot { s.flot with gone := s.flot.gone ++ [s.strand.index] }
  let s := s.setStrand { s.strand with status := .retired, tokens := [], irt := [], fetchd := [] }
  let s := s.setHart { s.hart with wait := .running, monArmed := false, pfxs := 0 }
  let s := s.mapLaunch lid fun l => { l with live := l.live - 1 }
  s.forget { hart := s.hart, strand := s.strand }

/-- The contexts of the population that a predicate holds of end the copies in flight. -/
def State.endAllCopies (s : State) (p : Ctx → Bool) : State :=
  (s.pop.ctxs.filter fun c => p c && !c.strand.irt.isEmpty).foldl (fun s c => (s.focus c.strand.tag).endCopies.unfocus) s

/-- Retiring contexts of the population (R384, R398), whose copies have ended or are dropped: each as a strand retires. -/
def State.dropAll (s : State) (p : Ctx → Bool) : State :=
  let gone := s.pop.ctxs.filter p
  let s := s.setPop { s.pop with ctxs := s.pop.ctxs.filter fun c => !p c }
  gone.foldl (fun s c =>
    let s := s.setPop { s.pop with
      flots := (s.pop.flots.map fun f =>
        if f.id = c.strand.flot then { f with gone := f.gone ++ [c.strand.index] } else f).filter fun f => !f.over }
    (s.mapLaunch c.strand.launch fun l => { l with live := l.live - 1 }).forget c) s

/-- Retiring contexts of the population: the events of their copies perform before they count as retired (R335, R355). -/
def State.retireAll (s : State) (p : Ctx → Bool) : State := (s.endAllCopies p).dropAll p

end Sys2Proof.Machine
end

