-- ==== Sys2Proof/Machine/Issue.lean ====
section
/-!
DEFINITION. Issue: what comes before and after the effect of an instruction. The Bridge core's subset (R373), the
pairing of a loan (R64 to R67), the scoreboard (R147, R264), the made-good rule with its cut and its stops
(R30 to R36, R46), and the writing of scalar results (R62, R66).
-/
namespace Sys2Proof.Machine

/-- The parcel or word of an instruction, which TVAL reports (R112). -/
def wordOf (i : Instr) : Nat :=
  match encode i with
  | some (_, w) => w
  | none => 0

/-- A trap taken. -/
def State.trap (s : State) (t : Trap) : Out := .next (s.takeTrap t)

/-- The illegal-instruction trap of an instruction (R76). -/
def State.illegal (s : State) (i : Instr) (detail : Nat) : Out := s.trap (Trap.illegal (wordOf i) detail)

/-- Waiting for the jobs that make registers pending (R147, R355). -/
def State.await (s : State) (rs : List (BitVec 6)) (go : Out) : Out :=
  match s.pendingOn rs with
  | some j => .next (s.stall j)
  | none => go

/-- The bounding range of `n` bytes from `ea`; one that wraps covers every address (R263). -/
def eaBounds (ea : Word) (n : Nat) : Nat × Nat :=
  if ea.toNat + n ≤ 2 ^ 64 then (ea.toNat, ea.toNat + n - 1) else (0, 2 ^ 64 - 1)

/-- Waiting for the interlock entry that an access conflicts with (R264). -/
def State.clear (s : State) (write : Bool) (lo hi : Nat) (go : Out) : Out :=
  match s.conflict write lo hi with
  | some j => .next (s.stall j)
  | none => go

/-- Waiting for room in the interlock table, for an instruction that takes an entry (R263, R264). An entry that a tile or
an SO instruction takes is released within the instruction's own step. -/
def State.entryRoom (s : State) (takes : Bool) (go : Out) : Out :=
  match (if takes then s.tableFull 1 else none) with
  | some j => .next (s.stall j)
  | none => go

/-- Waiting for every copy of the strand (R127, R266, R372). -/
def State.drain (s : State) (go : Out) : Out :=
  match (if s.priv then none else s.strand.irt.head?) with
  | some e => .next (s.stall e.owner)
  | none => go

/-- An access that is a release waits for every copy of the strand (R95, R235). -/
def State.releasing (s : State) (rel : Bool) (go : Out) : Out := if rel then s.drain go else go

/-! Scalar instructions. -/

/-- What the loan does to a scalar successor (R65, R66). -/
inductive Pairing where
  | go (copy : Option (BitVec 6))
  | skip
  | bad
  deriving DecidableEq, Repr

/-- The pairing of a scalar successor: `loanable` by its major, `writes` when it writes one register. -/
def scalarPairing (h : Hart) (loanable writes : Bool) : Pairing :=
  match loanOf h.pfxs with
  | .none => .go none
  | .cond c g cp =>
    if loanable && (cp.isNone || writes) then
      if condHolds c (h.get g) then .go (cp.map (BitVec.ofNat 6)) else .skip
    else .bad
  | .copy c => if loanable && writes then .go (some (BitVec.ofNat 6 c)) else .bad
  | _ => .bad

/-- The register that a condition loan reads. -/
def condRegs (h : Hart) : List (BitVec 6) :=
  match loanOf h.pfxs with
  | .cond _ g _ => [BitVec.ofNat 6 g]
  | _ => []

/-- Issue of a scalar instruction: the pairing, then the scoreboard, then its effect, given the copy register. -/
def State.scalar (s : State) (i : Instr) (len : Word) (loanable writes : Bool) (regs : List (BitVec 6))
    (body : Option (BitVec 6) → Out) : Out :=
  match scalarPairing s.hart loanable writes with
  | .bad => s.illegal i 5
  | .skip => s.await (condRegs s.hart) (.next (s.retire len))
  | .go cp => s.await (condRegs s.hart ++ regs ++ cp.toList) (body cp)

/-- Issue of a scalar instruction of majors 0x01 to 0x0A and 0x14, which accept every scalar loan (R65). -/
def State.plain (s : State) (i : Instr) (regs : List (BitVec 6)) (body : Option (BitVec 6) → Out) : Out :=
  s.scalar i 4 true true regs body

/-- Issue of a scalar instruction that no loan may precede (R65). -/
def State.alone (s : State) (i : Instr) (regs : List (BitVec 6)) (body : Out) : Out :=
  s.scalar i 4 false false regs fun _ => body

/-- Issue of a compact instruction: no loan may precede it (R65), and a Bridge core does not run it (R373). -/
def State.compact (s : State) (i : Instr) (regs : List (BitVec 6)) (body : Out) : Out :=
  if s.priv then s.illegal i 1 else s.scalar i 2 false false regs fun _ => body

/-- A result written to its register and to the loan's copy register (R62, R66). -/
def State.result (s : State) (d : BitVec 6) (cp : Option (BitVec 6)) (x : Word) : State :=
  let s := s.wr d x
  match cp with
  | some c => s.setHart (s.hart.put c.toNat x)
  | none => s

/-- An instruction whose whole effect is one scalar result. -/
def State.alu (s : State) (i : Instr) (d : BitVec 6) (regs : List (BitVec 6)) (x : Word) : Out :=
  s.plain i (d :: regs) fun cp => .next ((s.result d cp x).retire 4)

/-- A compact instruction whose whole effect is one scalar result. -/
def State.aluC (s : State) (i : Instr) (d : BitVec 6) (regs : List (BitVec 6)) (x : Word) : Out :=
  s.compact i (d :: regs) (.next ((s.wr d x).retire 2))

/-! Scalar accesses (R117). -/

/-- Filling the TLB with the pages that an access used (R391). -/
def State.touch (s : State) (ea : Word) (n : Nat) : State :=
  let s' := s.fillTlb s.aspace ea
  s'.fillTlb s'.aspace (ea + BitVec.ofNat 64 (n - 1))

/-- A load of `n` bytes: the interlock table, the checks, then the value. -/
def State.loadN (s : State) (ea : Word) (n : Nat) (go : State → Nat → Out) : Out :=
  let r := eaBounds ea n
  s.clear false r.1 r.2
    (match s.check s.aspace Need.load ea n with
     | .error st => s.trap (Trap.access st)
     | .ok ls => go (s.touch ea n) (ofBytes (s.bytes ls)))

/-- The width that a scalar store gives the home: none (R251). -/
def State.storeN (s : State) (ea : Word) (n : Nat) (x : Word) (len : Word) : Out :=
  let r := eaBounds ea n
  s.clear true r.1 r.2
    (match s.check s.aspace Need.store ea n with
     | .error st => s.trap (Trap.access st)
     | .ok ls => .next (((s.touch ea n).store none (writesOf ls (toBytes n x.toNat))).retire len))

/-! Length-bearing instructions (R27 to R36). -/

/-- A stop of a length-bearing instruction: its element, kind, flags, TVAL, and walk information. -/
structure VStop where
  elem : Nat
  kind : Nat
  flg  : Nat
  tval : Word
  st   : Option Stop
  deriving DecidableEq, Repr

/-- A stop without a memory address. -/
def VStop.plain (e kind flg : Nat) : VStop := { elem := e, kind := kind, flg := flg, tval := 0, st := none }

/-- A stop of an access at an effective address, which TVAL reports (R112, R252). -/
def VStop.mem (e : Nat) (ea : Word) (st : Stop) : VStop := { elem := e, kind := st.kind, flg := 0, tval := ea, st := some st }

/-- MGF (R26). -/
def mgfWord (kind pos flg : Nat) : Word := BitVec.ofNat 64 (kind + 256 * flg + 65536 * min pos 0xFFFF)

/-- What a length-bearing instruction made good, against MGS and MGF (R30, R31); it counts in the strip's position. -/
def State.madeGood (s : State) (k kind flg : Nat) : State :=
  let st := { s.strand with mg := BitVec.ofNat 64 k, pos := min (s.strand.pos + 1) 0xFFFF }
  if k < s.strand.mgs.toNat then
    s.setStrand { st with mgs := BitVec.ofNat 64 k, mgf := mgfWord kind s.strand.pos flg }
  else s.setStrand st

/-- A count rounded down to whole blocks (R30). -/
def wholeBlocks (blk k : Nat) : Nat := if blk = 0 then k else blk * (k / blk)

/-- How a pre-emption may cut an instruction (R43, R46, R52): not at all, in its elements, or as an accumulating one. All
that is cut in a strip is cut at one index (R47), so the last two are cut alike. -/
inductive Cuts where
  | never
  | elems
  | accum
  deriving DecidableEq, Repr

/-- A pre-emption is pending and an instruction in flight has been cut: whatever issues now stood behind it (R46). -/
def State.behindCut (s : State) : Bool := s.strand.cutReq.isSome && s.strand.cut.isSome

/-- A pending pre-emption's cut of an instruction that would make good `k`: whole granules, above 0 (R46). The instructions
behind one that was cut are cut at the same index, since none commits an element that an earlier one has not made good
(R37, R47). -/
def State.cutAt (s : State) (cuts : Cuts) (k : Nat) : Option Nat :=
  match s.strand.cutReq with
  | some c =>
    let c' := s.strand.gran * (c / s.strand.gran)
    if cuts ≠ .never && 0 < c' && c' < k then some c' else none
  | none => none

/-- After a length-bearing instruction a pending pre-emption halts the strand, or freely leaves a further instruction in
flight before the halt point (R46). -/
def State.haltIfAsked (s : State) : State :=
  if s.strand.cutReq.isSome && !s.choose 14 1 then s.haltStrand else s

/-- The effective length (R31); instructions in flight at a pre-emption keep the one they issued with (R46, R49). -/
def State.n (s : State) : Nat :=
  match s.strand.cutReq, s.strand.cut with
  | some _, some x => x.n
  | _, _ => s.strand.mgs.toNat

/-- An instruction of effective length `n` was cut at `c`: those after it, up to the halt point, keep the effective length of
before, and `c` is the index of every cut of the strip (R46, R47); `hold` adds what the instruction leaves in flight. -/
def State.noteCut (s : State) (n c : Nat) (hold : Cut → Cut) : State :=
  let x := s.strand.cut.getD { n := n, regs := [], held := [], so := false, mem := false, gaz := false }
  s.setStrand { s.strand with cutReq := some c, cut := some (hold { x with n := n }) }

/-- An instruction behind a cut one fell short by its own stop at `k`, at strip position `pos`: the effective length of those
after it falls (R31). A cut no lower than the MGS that the stop sets leaves MGF the stop's (R254). -/
def State.noteShort (s : State) (kind k pos flg : Nat) : State :=
  if s.behindCut && kind ≠ 0 then
    s.setStrand { s.strand with
      mgf := if s.strand.mgs.toNat = k then mgfWord kind pos flg else s.strand.mgf
      cut := s.strand.cut.map fun x => { x with n := min k x.n } }
  else s

/-- An instruction that ends after `k` elements with a kind and flags, or at a pending cut (R30, R31, R46); one that is cut
leaves in flight what `hold` adds. All cuts of a strip are at one index (DESIGN CHOICE, log entry 80). -/
def State.endAt (s : State) (cuts : Cuts) (k kind flg : Nat) (commit : Nat → State) (hold : Cut → Cut := id) : Out :=
  match s.cutAt cuts k with
  | some c => .next (((((commit c).madeGood c 5 0).noteCut s.n c hold).retire 4).haltIfAsked)
  | none => .next (((((commit k).madeGood k kind flg).noteShort kind k s.strand.pos flg).retire 4).haltIfAsked)

/-- The common end of a length-bearing instruction (R30, R31, R46): the trap on a leading stop, or the commitment of
what was made good, the counts, and retirement. `commit k` performs elements [0, k). Under a pending pre-emption an
instruction that would trap is at the halt point, and the strand halts before it (R46). -/
def State.finish (s : State) (n : Nat) (cuts : Cuts) (stop : Option VStop) (commit : Nat → State) (hold : Cut → Cut := id) : Out :=
  match stop with
  | some v =>
    let k := wholeBlocks s.ty.blk v.elem
    if k = 0 then
      if s.strand.cutReq.isSome then .next s.idle.haltStrand else s.trap (Trap.leading v.kind v.flg v.tval v.st)
    else s.endAt cuts k v.kind v.flg commit hold
  | none => s.endAt cuts n 0 0 commit hold

/-- An instruction with effective length 0: MG becomes 0 and nothing is written (R32). -/
def State.empty (s : State) : Out := .next (((s.madeGood 0 0 0).retire 4).haltIfAsked)

/-- LASTD takes d at issue (R32, R62). -/
def State.takeLastd (s : State) (d : BitVec 6) : State :=
  if d = 0 then s else s.setHart { s.hart with lastd := d }

/-- The loan of a vector successor and its copy register, when R65 allows them: `loanable` by its major, `field` its
mask field, `dest` whether it writes exactly one vector destination. R64 gives bit 5 of copy as 0 before a vector successor and
neither it nor R65 says what another value raises: the model lets the pfx retire and gives the successor detail 5 (DESIGN CHOICE,
log entry 86). -/
def vectorPairing (h : Hart) (loanable : Bool) (field : Nat) (dest : Bool) : Option (Loan × Option Nat) :=
  let copyOkay := fun (c : Nat) => dest && c < 32
  match loanOf h.pfxs with
  | .none => some (.none, none)
  | .mask m neg cp =>
    if loanable && field = 0 && (match cp with | some c => copyOkay c | none => true) then some (.mask m neg cp, cp)
    else none
  | .copy c => if loanable && field = 0 && copyOkay c then some (.none, some c) else none
  | _ => none

/-- The copy group is the destination or shares no register with what the successor reads and writes (R66). -/
def copyGroupOk (copy : Option Nat) (dest : Grp) (others : List Grp) : Bool :=
  match copy with
  | none => true
  | some c =>
    let g : Grp := { start := c, size := dest.size }
    c % 32 = dest.start % 32 || (g.disjoint dest && others.all g.disjoint)

/-- How a length-bearing instruction issues: its major accepts a loan, its mask field, its destination group if it
writes exactly one, the other groups it reads or writes, the scalar registers it reads or writes. -/
structure VForm where
  loanable : Bool
  field    : Nat
  dest     : Option Grp
  others   : List Grp
  regs     : List (BitVec 6)

/-- Issue of a length-bearing instruction: a Bridge core refuses it (detail 1, R373), then the checks of its own type
and operands (detail 2), the pairing (detail 5), the scoreboard; then its effect, given the governing loan and copy. -/
def State.vector (s : State) (i : Instr) (legal : Bool) (f : VForm) (body : Loan → Option Nat → Out) : Out :=
  if s.priv then s.illegal i 1
  else if !legal then s.illegal i 2
  else
    match vectorPairing s.hart f.loanable f.field f.dest.isSome with
    | none => s.illegal i 5
    | some (loan, copy) =>
      if !(copyGroupOk copy (f.dest.getD { start := 0, size := 0 }) f.others) then s.illegal i 5
      else s.await f.regs (body loan copy)

/-- VFCS with the flags of the elements made good (R34). -/
def State.orFlags (s : State) (fl : Flags) : State := s.setStrand { s.strand with vfcs := fcsOr s.strand.vfcs fl }

/-- The union of element flags over [0, k). -/
def flagsUpTo (f : Nat → Flags) : Nat → Nat → Flags
  | 0, _ => 0
  | k + 1, i => f i ||| flagsUpTo f k (i + 1)

/-- The first index of [i, i + m) that a predicate holds of. -/
def firstIdx (p : Nat → Bool) : Nat → Nat → Option Nat
  | 0, _ => none
  | m + 1, i => if p i then some i else firstIdx p m (i + 1)

/-- The first element that raises an enabled exception (R34), with all enabled exceptions it raises (R26). -/
def State.arithStop (s : State) (n : Nat) (act : Nat → Bool) (fl : Nat → Flags) : Option VStop :=
  let en := fcsEn s.strand.vfcs
  if en = 0 then none
  else
    match firstIdx (fun i => act i && (fl i &&& en) ≠ 0) n 0 with
    | some i => some (VStop.plain i 4 (fl i &&& en).toNat)
    | none => none

end Sys2Proof.Machine
end

