-- ==== Sys2Proof/Machine/Regs.lean ====
section
/-!
DEFINITION. System registers by their offsets: a strand's own (R19, R25, R62, R67, R110, R152 to R167, R212, R243,
R280, R282, R311, R336, R357) in the unprivileged and the privileged view, and a Bridge core's (R376).
-/
namespace Sys2Proof.Machine

/-- TSTAT (R110). -/
def Strand.tstat (st : Strand) : Word := if st.inh then 1 else 0

/-- MONS (R110). -/
def Hart.mons (h : Hart) : Word := (if h.monArmed then 1 else 0) + (if h.monFired then 2 else 0)

/-- This strand owns the accumulator (R282). -/
def Acc.mine (a : Acc) (tag : BitVec 16) : Bool := a.owned && a.own = tag

/-- AOWN in the unprivileged view (R282). -/
def State.aownUser (s : State) : Word :=
  BitVec.ofNat 64 ((if s.core.acc0.mine s.strand.tag then 1 else 0) + (if s.core.acc1.mine s.strand.tag then 2 else 0)
    + (if s.strand.saved0 then 4 else 0) + (if s.strand.saved1 then 8 else 0))

/-- AOWN in the privileged view (R282). -/
def State.aownPriv (s : State) : Word :=
  BitVec.ofNat 64 (s.core.acc0.own.toNat + (if s.core.acc0.owned then 2 ^ 16 else 0)
    + 2 ^ 32 * s.core.acc1.own.toNat + (if s.core.acc1.owned then 2 ^ 48 else 0)
    + (if s.strand.saved0 then 2 ^ 49 else 0) + (if s.strand.saved1 then 2 ^ 50 else 0))

/-- The register at an offset from 0x0000 to 0x00FF in the privileged view, for the focused strand; none where no
chapter maps the offset (R109). -/
def State.readReg (s : State) (r : Nat) : Option Word :=
  match r with
  | 0x00 => some s.core.cyc
  | 0x01 => some s.hart.insn
  | 0x08 => some s.hart.sfcs
  | 0x10 => some s.strand.tvec
  | 0x11 => some s.strand.tscr
  | 0x12 => some s.strand.tcause
  | 0x13 => some s.strand.tpc
  | 0x14 => some s.strand.tval
  | 0x15 => some s.strand.tpfx
  | 0x16 => some s.strand.tstat
  | 0x18 => some (s.core.pspl.setWidth 64)
  | 0x19 => some s.hart.mons
  | 0x40 => some s.strand.mg
  | 0x41 => some s.strand.mgs
  | 0x42 => some s.strand.mgf
  | 0x43 => some s.strand.mgr
  | 0x44 => some s.strand.mgc
  | 0x45 => some s.strand.sreq
  | 0x46 => some (s.flot.fgr.setWidth 64)
  | 0x47 => some (s.hart.lastd.setWidth 64)
  | 0x48 => some s.flot.fid
  | 0x49 => some s.strand.sid
  | 0x4A => some s.strand.lcnt
  | 0x4B => some (s.hart.pfxs.setWidth 64)
  | 0x50 => some (s.strand.type.setWidth 64)
  | 0x51 => some s.strand.vfcs
  | 0x52 => some (s.strand.spth.setWidth 64)
  | 0x68 => some (s.strand.ach.setWidth 64)
  | 0x69 => some s.strand.tshp
  | 0x6A => some s.aownPriv
  | 0x6B => some s.core.acc0.mxe
  | 0x6C => some s.core.acc1.mxe
  | 0x70 => some (BitVec.ofNat 64 s.strand.gents.length)
  | 0x71 => some s.strand.govb
  | 0x72 => some s.strand.govl
  | 0x73 => some s.strand.govc
  | 0x74 => some s.strand.gflt
  | 0x78 => some s.strand.prio
  | 0x79 => some s.flot.bm
  | 0x7A => some s.strand.spnr
  | 0x80 => some s.strand.tcsp
  | 0x81 => some s.strand.tmid
  | n =>
    if 0x54 ≤ n && n ≤ 0x57 then some ((vget s.strand.spare (n - 0x54) 0).setWidth 64)
    else if 0x58 ≤ n && n ≤ 0x67 then some (vget s.strand.pal (n - 0x58) 0)
    else none

/-- A register in the unprivileged view: every register of a strand reads, AOWN in a form of its own (R282). -/
def State.readUser (s : State) (r : Nat) : Option Word := if r = 0x6A then some s.aownUser else s.readReg r

/-- Scratchpad ways set (R132): bytes and poison beyond the ways that were and remain scratchpad are discarded, so
they read as 0 when their ways join again; a monitor on a line that leaves fires (R137). -/
def State.setWays (s : State) (n : Nat) : State :=
  let keep := min n s.core.pspl.toNat * 16384
  let fire := fun (h : Hart) =>
    match h.monLine with
    | some l => if h.monArmed && l.space = .pool && n * 16384 ≤ l.addr * 128 then { h with monFired := true } else h
    | none => h
  let s' := s.setCore { s.core with
    pspl := BitVec.ofNat 5 n
    pool := s.core.pool.filter fun c => c.1 < keep
    poolP := s.core.poolP.filter fun p => p * 16 < keep }
  (s'.setHart (fire s'.hart)).setPop { s'.pop with
    ctxs := s'.pop.ctxs.map fun c => if c.strand.core = s.core.id then { c with hart := fire c.hart } else c }

/-- TSHP with ROWS written (R243). -/
def tshpRows (old x : Word) : Word :=
  let r := bitsAt x.toNat 0 9
  if r = 0 || 256 < r then old else BitVec.ofNat 64 (r + 65536 * bitsAt old.toNat 16 4)

/-- A palette word written: entry 0 stays 0 (R161). -/
def palWord (j : Nat) (x : Word) : Word := if j % 4 = 0 then x >>> 16 <<< 16 else x

/-- Bits of a word that a map shows as present. -/
def keepBits (x : Word) (lo len : Nat) : Word := BitVec.ofNat 64 (bitsAt x.toNat lo len * 2 ^ lo)

/-- TCSP written: a reserved space or peer leaves it (R357). -/
def tcspWrite (old x : Word) : Word :=
  let n := x.toNat
  if bitsAt n 0 2 = 3 || bitsAt n 2 2 = 3 || bitsAt n 16 10 = 0x3FF || bitsAt n 32 10 = 0x3FF then old
  else keepBits x 0 4 + keepBits x 16 10 + keepBits x 32 10

/-- The registers that an unprivileged mts may write (R110, R157 to R167, R212, R243, R311, R357). -/
def State.mtsAllowed (s : State) (r : Nat) : Bool :=
  r = 0x08 || r = 0x10 || r = 0x11 || ((r = 0x13 || r = 0x15) && s.strand.inh) || r = 0x51 || r = 0x52
    || (0x54 ≤ r && r ≤ 0x69) || r = 0x71 || r = 0x72 || r = 0x80

/-- A write that both views perform alike; the state unchanged for any other register. An SPTH write is judged by its bits 8:0
alone: R157 sets 256 for a write above 256, and R109 ignores the bits that read 0 (DESIGN CHOICE, log entry 87). -/
def State.writeUser (s : State) (r : Nat) (x : Word) : State :=
  let st := s.strand
  match r with
  | 0x08 => s.setHart { s.hart with sfcs := fcsWrite s.hart.sfcs x }
  | 0x10 => s.setStrand { st with tvec := x &&& ~~~(1 : Word) }
  | 0x11 => s.setStrand { st with tscr := x }
  | 0x13 => s.setStrand { st with tpc := x &&& ~~~(1 : Word) }
  | 0x15 => s.setStrand { st with tpfx := keepBits x 0 32 }
  | 0x51 => s.setStrand { st with vfcs := fcsWrite st.vfcs x }
  | 0x52 => s.setStrand { st with spth := if 256 < x.toNat % 512 then 256 else BitVec.ofNat 9 x.toNat }
  | 0x68 => s.setStrand { st with ach := BitVec.ofNat 3 x.toNat }
  | 0x69 => s.setStrand { st with tshp := tshpRows st.tshp x }
  | 0x71 => s.setStrand { st with govb := x >>> 4 <<< 4 }
  | 0x72 => s.setStrand { st with govl := keepBits x 0 32 }
  | 0x80 => s.setStrand { st with tcsp := tcspWrite st.tcsp x }
  | n =>
    if 0x54 ≤ n && n ≤ 0x57 then s.setStrand { st with spare := vset st.spare (n - 0x54) (BitVec.ofNat 16 x.toNat) }
    else if 0x58 ≤ n && n ≤ 0x67 then s.setStrand { st with pal := vset st.pal (n - 0x58) (palWord (n - 0x58) x) }
    else s

/-- The fields of an extent word, stored as written: no rule gives what a privileged write of ER 0 or above 64, of EC 0 or above
the columns that AF allows, or of AF 3 does (R280; DESIGN CHOICE, log entry 88). -/
def mxeBits (x : Word) : Word := keepBits x 0 7 + keepBits x 8 8 + keepBits x 16 2 + keepBits x 24 17

/-- The core entries when GZN becomes n: those present, and beyond them entries whose key and value no rule gives, free
values (R311; log entry 39). -/
def State.resizedEntries (s : State) (n : Nat) : List (Word × Word) :=
  s.strand.gents.take n ++
    buildFrom (fun i => (BitVec.ofNat 64 (s.free 15 (2 * i)), BitVec.ofNat 64 (s.free 15 (2 * i + 1)))) (n - s.strand.gents.length)
      s.strand.gents.length

/-- A write in the privileged view, to a strand that does not run unless `running` (R25, R152, R311, R377). PSPL holds 0 to
14, and no rule gives the effect of a greater value: the model takes 14 (DESIGN CHOICE, log entry 75); GZN holds 0 to 4096, and
of a greater value the model takes 4096 (DESIGN CHOICE, log entry 39). -/
def State.writeReg (s : State) (running : Bool) (r : Nat) (x : Word) : State :=
  let st := s.strand
  let idle := fun (t : State) => if running then s else t
  match r with
  | 0x00 => s.setCore { s.core with cyc := x }
  | 0x01 => s.setHart { s.hart with insn := x }
  | 0x12 => s.setStrand { st with tcause := keepBits x 0 21 }
  | 0x14 => s.setStrand { st with tval := x }
  | 0x16 => s.setStrand { st with inh := bitAt x.toNat 0 }
  | 0x18 => s.setWays (min 14 (bitsAt x.toNat 0 5))
  | 0x19 => s.setHart { s.hart with monArmed := bitAt x.toNat 0, monFired := bitAt x.toNat 1 }
  | 0x40 => idle (s.setStrand { st with mg := x })
  | 0x41 => idle (s.setStrand { st with mgs := x })
  | 0x42 => idle (s.setStrand { st with mgf := keepBits x 0 4 + keepBits x 8 5 + keepBits x 16 16 })
  | 0x43 => idle (s.setStrand { st with mgr := x })
  | 0x44 => idle (s.setStrand { st with mgc := x })
  | 0x45 => idle (s.setStrand { st with sreq := x })
  | 0x46 => idle (if 1 ≤ bitsAt x.toNat 0 7 && bitsAt x.toNat 0 7 ≤ 64
                  then s.setFlot { s.flot with fgr := BitVec.ofNat 7 x.toNat } else s)
  | 0x47 => s.setHart { s.hart with lastd := BitVec.ofNat 6 x.toNat }
  | 0x48 => s.setFlot { s.flot with fid := keepBits x 0 60 }
  | 0x49 => s.setStrand { st with sid := keepBits x 0 9 }
  | 0x4A => s.setStrand { st with lcnt := keepBits x 0 63 }
  | 0x4B => s.setHart { s.hart with pfxs := BitVec.ofNat 32 x.toNat }
  | 0x50 =>
    let t : BitVec 12 := BitVec.ofNat 12 x.toNat
    idle (if typeOk (BitVec.ofNat 3 (x.toNat / 512)) (BitVec.ofNat 5 x.toNat) then s.setStrand { st with type := t } else s)
  | 0x69 =>
    let t := tshpRows st.tshp x
    s.setStrand { st with tshp := BitVec.ofNat 64 (bitsAt t.toNat 0 9 + 65536 * bitsAt x.toNat 16 4) }
  | 0x6A =>
    let n := x.toNat
    (s.setCore { s.core with
      acc0 := { s.core.acc0 with own := BitVec.ofNat 16 n, owned := bitAt n 16 }
      acc1 := { s.core.acc1 with own := BitVec.ofNat 16 (n / 2 ^ 32), owned := bitAt n 48 } }).setStrand
      { st with saved0 := bitAt n 49, saved1 := bitAt n 50 }
  | 0x6B => s.setCore { s.core with acc0 := { s.core.acc0 with mxe := mxeBits x } }
  | 0x6C => s.setCore { s.core with acc1 := { s.core.acc1 with mxe := mxeBits x } }
  | 0x70 => idle (s.setStrand { st with gents := s.resizedEntries (min 4096 (bitsAt x.toNat 0 13)) })
  | 0x71 => idle (s.writeUser r x)
  | 0x72 => idle (s.writeUser r x)
  | 0x73 => idle (s.setStrand { st with govc := keepBits x 0 32 })
  | 0x74 => idle (s.setStrand { st with gflt := x })
  | 0x78 => s.setStrand { st with prio := keepBits x 0 3 + keepBits x 4 3 }
  | 0x79 => s.setFlot { s.flot with bm := x }
  | 0x7A => s.setStrand { st with spnr := keepBits x 0 32 }
  | 0x81 => s.setStrand { st with tmid := keepBits x 0 10 + keepBits x 15 1 }
  | n => s.writeUser n x

/-! A Bridge core's registers (R376, R411). -/

/-- BSTAT. -/
def BCore.bstat (b : BCore) : Word :=
  BitVec.ofNat 64 ((if b.att then 1 else 0) + (if b.intr then 2 else 0) + (if b.lead then 4 else 0)
    + (if b.stby then 8 else 0) + 16 * (b.id / 16 % 4) + 65536 * b.berth.toNat)

/-- LSTAT (R411). -/
def Berth.lstat (b : Berth) : Word :=
  BitVec.ofNat 64 ((if b.ready then 1 else 0) + (if b.failed then 2 else 0) + 256 * b.brcnt.toNat)

/-- The registers of a Bridge core that read without an effect, and the link registers of its berth (R376, R411). -/
def State.readBridge (s : State) (r : Nat) : Option Word :=
  let b := s.bcore
  let bb := s.berthAt b.berth.toNat
  match r with
  | 0x00 => some b.cyc
  | 0x01 => some s.hart.insn
  | 0x08 => some s.hart.sfcs
  | 0x47 => some (s.hart.lastd.setWidth 64)
  | 0x4B => some (s.hart.pfxs.setWidth 64)
  | 0x100 => some b.bstat
  | 0x101 => some (b.bctx.setWidth 64)
  | 0x103 => some (if b.bcmd then 1 else 0)
  | 0x104 => some (b.bsel.setWidth 64)
  | 0x110 => some b.bvec
  | 0x111 => some b.bepc
  | 0x112 => some b.because
  | 0x113 => some b.betval
  | 0x114 => some b.bscr
  | 0x115 => some (b.bint.setWidth 64)
  | 0x118 => some b.basp
  | 0x119 => some b.broot
  | 0x120 => some (BitVec.ofNat 64 (bb.qm.toNat + 256 * bb.qp.toNat))
  | 0x121 => some (bb.brcnt.setWidth 64)
  | 0x130 => some bb.crbase
  | 0x131 => some bb.cqbase
  | 0x132 => some bb.evbase
  | 0x133 => some bb.cqhead
  | 0x134 => some bb.evhead
  | 0x135 => some bb.enable
  | 0x136 => some 0
  | 0x137 => some bb.lstat
  | _ => none

/-- The registers of a Bridge core that are written without another effect; none for any other. -/
def State.writeBridge (s : State) (r : Nat) (x : Word) : Option State :=
  let b := s.bcore
  match r with
  | 0x00 => some (s.setBcore { b with cyc := x })
  | 0x01 => some (s.setHart { s.hart with insn := x })
  | 0x08 => some (s.setHart { s.hart with sfcs := fcsWrite s.hart.sfcs x })
  | 0x47 => some (s.setHart { s.hart with lastd := BitVec.ofNat 6 x.toNat })
  | 0x4B => some (s.setHart { s.hart with pfxs := BitVec.ofNat 32 x.toNat })
  | 0x100 => some s
  | 0x104 => some (s.setBcore { b with bsel := BitVec.ofNat 10 x.toNat })
  | 0x110 => some (s.setBcore { b with bvec := x &&& ~~~(1 : Word) })
  | 0x111 => some (s.setBcore { b with bepc := x })
  | 0x112 => some (s.setBcore { b with because := keepBits x 0 21 })
  | 0x113 => some (s.setBcore { b with betval := x })
  | 0x114 => some (s.setBcore { b with bscr := x })
  | 0x118 => some (s.setBcore { b with basp := keepBits x 0 24 })
  | 0x119 => some (s.setBcore { b with broot := keepBits x 7 49 })
  | 0x137 =>
    let k := b.berth.toNat
    some (s.putBerth k { s.berthAt k with ready := bitAt x.toNat 0, failed := bitAt x.toNat 1 })
  | _ => none

/-- An offset of the privileged range that R376 or R411 maps. -/
def bridgeMapped (r : Nat) : Bool :=
  (0x100 ≤ r && r ≤ 0x105) || (0x110 ≤ r && r ≤ 0x116) || r = 0x118 || r = 0x119 || r = 0x120 || r = 0x121
    || (0x130 ≤ r && r ≤ 0x137)

/-- The detail of an mfs of an offset, 0 when it is allowed (R76, R109, R376). -/
def State.mfsDetail (s : State) (r : Nat) : Nat :=
  if s.priv then
    if (s.readBridge r).isSome || r = 0x102 || r = 0x105 then 0 else 2
  else if bridgeMapped r then 6
  else if (s.readReg r).isSome then 0 else 2

/-- The detail of an mts to an offset, 0 when it is allowed. One that is mapped but read only is illegal with detail 2 on a Bridge
core, as a write-only one is for mfs: R110 and R76 give detail 6 at unprivileged level only (DESIGN CHOICE, log entry 92). -/
def State.mtsDetail (s : State) (r : Nat) : Nat :=
  if s.priv then
    if (s.writeBridge r 0).isSome || r = 0x101 || r = 0x103 || r = 0x105 || r = 0x115 || r = 0x116 then 0 else 2
  else if bridgeMapped r then 6
  else if (s.readReg r).isSome then (if s.mtsAllowed r then 0 else 6) else 2

end Sys2Proof.Machine
end

