-- ==== Sys2Proof/Machine/Float.lean ====
section
/-!
DEFINITION. Scalar floating point (R122 to R126).
-/
namespace Sys2Proof.Machine

/-- The format of a scalar format field. -/
def scalarFF (fmt : BitVec 2) : FF := ffOf fmt.toNat

/-- A scalar register read as a value of a format; higher bits are ignored (R122). -/
def State.fv (s : State) (f : FF) (r : BitVec 6) : Num := decodeNum f ((s.g r).toNat % 2 ^ f.width)

/-- The rounding of a variant: RM, or the one that it names (R123). -/
def varRnd (sfcs : Word) (var : BitVec 2) : Rnd :=
  match var.toNat with
  | 0 => fcsRm sfcs
  | 1 => .rne
  | 2 => .rtz
  | _ => .odd

/-- The end of every scalar floating-point instruction: the trap when an enabled exception was raised, else the flags
and the result (R122, R125). -/
def State.fpEnd (s : State) (d : BitVec 6) (cp : Option (BitVec 6)) (r : FRes) : Out :=
  if (r.fl &&& fcsEn s.hart.sfcs) ≠ 0 then
    s.trap { Trap.mk0 0x02 0 0 false with flg := r.fl.toNat }
  else
    let t := s.setHart { s.hart with sfcs := fcsOr s.hart.sfcs r.fl }
    .next ((t.result d cp (BitVec.ofNat 64 r.code)).retire 4)

/-- Issue of a scalar floating-point instruction. -/
def State.fpOp (s : State) (i : Instr) (d : BitVec 6) (regs : List (BitVec 6)) (r : FRes) : Out :=
  s.plain i (d :: regs) fun cp => s.fpEnd d cp r

/-- fadd (R123). -/
def execFadd (fmt var : BitVec 2) (d a b : BitVec 6) (s : State) : Out :=
  let f := scalarFF fmt
  s.fpOp (.fadd fmt var d a b) d [a, b] (fpAdd f (varRnd s.hart.sfcs var) (s.fv f a) (s.fv f b))

/-- fsub (R123). -/
def execFsub (fmt var : BitVec 2) (d a b : BitVec 6) (s : State) : Out :=
  let f := scalarFF fmt
  s.fpOp (.fsub fmt var d a b) d [a, b] (fpSub f (varRnd s.hart.sfcs var) (s.fv f a) (s.fv f b))

/-- fmul (R123). -/
def execFmul (fmt var : BitVec 2) (d a b : BitVec 6) (s : State) : Out :=
  let f := scalarFF fmt
  s.fpOp (.fmul fmt var d a b) d [a, b] (fpMul f (varRnd s.hart.sfcs var) (s.fv f a) (s.fv f b))

/-- fdiv (R123). -/
def execFdiv (fmt var : BitVec 2) (d a b : BitVec 6) (s : State) : Out :=
  let f := scalarFF fmt
  s.fpOp (.fdiv fmt var d a b) d [a, b] (fpDiv f (varRnd s.hart.sfcs var) (s.fv f a) (s.fv f b))

/-- fma: ga × gb + gd (R123). -/
def execFma (fmt : BitVec 2) (d a b : BitVec 6) (s : State) : Out :=
  let f := scalarFF fmt
  s.fpOp (.fma fmt d a b) d [a, b]
    (fpFma f (fcsRm s.hart.sfcs) false false (s.fv f a) (s.fv f b) (s.fv f d))

/-- fma.sub: ga × gb − gd (R123). -/
def execFmaSub (fmt : BitVec 2) (d a b : BitVec 6) (s : State) : Out :=
  let f := scalarFF fmt
  s.fpOp (.fmaSub fmt d a b) d [a, b]
    (fpFma f (fcsRm s.hart.sfcs) false true (s.fv f a) (s.fv f b) (s.fv f d))

/-- fma.neg: −(ga × gb) + gd (R123). -/
def execFmaNeg (fmt : BitVec 2) (d a b : BitVec 6) (s : State) : Out :=
  let f := scalarFF fmt
  s.fpOp (.fmaNeg fmt d a b) d [a, b]
    (fpFma f (fcsRm s.hart.sfcs) true false (s.fv f a) (s.fv f b) (s.fv f d))

/-- fminmax.min (R123). -/
def execFminmaxMin (fmt : BitVec 2) (d a b : BitVec 6) (s : State) : Out :=
  let f := scalarFF fmt
  s.fpOp (.fminmaxMin fmt d a b) d [a, b] (fpMinMax f false (s.fv f a) (s.fv f b))

/-- fminmax.max (R123). -/
def execFminmaxMax (fmt : BitVec 2) (d a b : BitVec 6) (s : State) : Out :=
  let f := scalarFF fmt
  s.fpOp (.fminmaxMax fmt d a b) d [a, b] (fpMinMax f true (s.fv f a) (s.fv f b))

/-- fminmax.minnum (R123). -/
def execFminmaxMinnum (fmt : BitVec 2) (d a b : BitVec 6) (s : State) : Out :=
  let f := scalarFF fmt
  s.fpOp (.fminmaxMinnum fmt d a b) d [a, b] (fpMinMaxNum f false (s.fv f a) (s.fv f b))

/-- fminmax.maxnum (R123). -/
def execFminmaxMaxnum (fmt : BitVec 2) (d a b : BitVec 6) (s : State) : Out :=
  let f := scalarFF fmt
  s.fpOp (.fminmaxMaxnum fmt d a b) d [a, b] (fpMinMaxNum f true (s.fv f a) (s.fv f b))

/-- fcvt from float to float (R126). -/
def execFcvtFloat (fmt src : BitVec 2) (d a : BitVec 6) (s : State) : Out :=
  s.fpOp (.fcvtFloat fmt src d a) d [a] (roundNum (scalarFF fmt) (fcsRm s.hart.sfcs) (s.fv (scalarFF src) a))

/-- fcvt from i64 or n64 (R126). -/
def execFcvtFromInt (fmt : BitVec 2) (uns : BitVec 1) (d a : BitVec 6) (s : State) : Out :=
  s.fpOp (.fcvtFromInt fmt uns d a) d [a]
    (roundNum (scalarFF fmt) (fcsRm s.hart.sfcs)
      (numOfInt (if uns.toNat = 1 then ((s.g a).toNat : Int) else (s.g a).toInt)))

/-- fcvt to i64 or n64 (R126). -/
def execFcvtToInt (fmt : BitVec 2) (uns rtz : BitVec 1) (d a : BitVec 6) (s : State) : Out :=
  s.fpOp (.fcvtToInt fmt uns rtz d a) d [a]
    (numToInt (uns.toNat = 0) 64 (if rtz.toNat = 1 then .rtz else fcsRm s.hart.sfcs) (s.fv (scalarFF fmt) a))

/-- A comparison's 1 or 0 with its flags. -/
def cmpRes (c : Cmp) (a b : Num) : FRes :=
  { code := if (fpCmp c a b).1 then 1 else 0, fl := (fpCmp c a b).2 }

/-- fcmp.eq (R123). -/
def execFcmpEq (fmt : BitVec 2) (d a b : BitVec 6) (s : State) : Out :=
  let f := scalarFF fmt
  s.fpOp (.fcmpEq fmt d a b) d [a, b] (cmpRes .eq (s.fv f a) (s.fv f b))

/-- fcmp.lt (R123). -/
def execFcmpLt (fmt : BitVec 2) (d a b : BitVec 6) (s : State) : Out :=
  let f := scalarFF fmt
  s.fpOp (.fcmpLt fmt d a b) d [a, b] (cmpRes .lt (s.fv f a) (s.fv f b))

/-- fcmp.le (R123). -/
def execFcmpLe (fmt : BitVec 2) (d a b : BitVec 6) (s : State) : Out :=
  let f := scalarFF fmt
  s.fpOp (.fcmpLe fmt d a b) d [a, b] (cmpRes .le (s.fv f a) (s.fv f b))

/-- fcmp.un (R123). -/
def execFcmpUn (fmt : BitVec 2) (d a b : BitVec 6) (s : State) : Out :=
  let f := scalarFF fmt
  s.fpOp (.fcmpUn fmt d a b) d [a, b] (cmpRes .un (s.fv f a) (s.fv f b))

end Sys2Proof.Machine
end

