-- ==== Sys2Proof/Machine/Scalar.lean ====
section
/-!
DEFINITION. Scalar integer instructions, immediates, loads, stores, atomics, branches and the compact forms
(R58, R61 to R63, R113 to R120).
-/
namespace Sys2Proof.Machine

/-! Integer functions (R113, R114). -/

/-- High 64 bits of the signed product. -/
def mulHigh (a b : Word) : Word := BitVec.ofInt 64 (a.toInt * b.toInt / (2 : Int) ^ 64)

/-- High 64 bits of the unsigned product. -/
def mulHighN (a b : Word) : Word := BitVec.ofNat 64 (a.toNat * b.toNat / 2 ^ 64)

/-- Signed quotient, rounded toward zero; −1 for a divisor of 0. -/
def divS (a b : Word) : Word := if b = 0 then -1 else BitVec.ofInt 64 (Int.tdiv a.toInt b.toInt)

/-- Unsigned quotient; all ones for a divisor of 0. -/
def divN (a b : Word) : Word := if b = 0 then -1 else BitVec.ofNat 64 (a.toNat / b.toNat)

/-- Signed remainder with the sign of the dividend; the dividend for a divisor of 0. -/
def remS (a b : Word) : Word := if b = 0 then a else BitVec.ofInt 64 (Int.tmod a.toInt b.toInt)

/-- Unsigned remainder; the dividend for a divisor of 0. -/
def remN (a b : Word) : Word := if b = 0 then a else BitVec.ofNat 64 (a.toNat % b.toNat)

/-- Signed and unsigned extremes. -/
def minS (a b : Word) : Word := if a.toInt < b.toInt then a else b
def maxS (a b : Word) : Word := if a.toInt < b.toInt then b else a
def minN (a b : Word) : Word := if a.toNat < b.toNat then a else b
def maxN (a b : Word) : Word := if a.toNat < b.toNat then b else a

/-- 1 or 0. -/
def flagWord (b : Bool) : Word := if b then 1 else 0

/-- Signed and unsigned comparison. -/
def sltS (a b : Word) : Word := flagWord (a.toInt < b.toInt)
def sltN (a b : Word) : Word := flagWord (a.toNat < b.toNat)

/-- Shifts by the count modulo 64. -/
def shlW (a : Word) (n : Nat) : Word := a <<< (n % 64)
def shrW (a : Word) (n : Nat) : Word := a >>> (n % 64)
def sraW (a : Word) (n : Nat) : Word := a.sshiftRight (n % 64)

/-- Leading zero bits; 64 for 0. -/
def clzW (a : Word) : Word := BitVec.ofNat 64 (64 - bitLen a.toNat)

/-- Trailing zero bits among the next `n` from bit `i`. -/
def ctzFrom (x : Nat) : Nat → Nat → Nat
  | 0, i => i
  | n + 1, i => if bitAt x i then i else ctzFrom x n (i + 1)

/-- Trailing zero bits; 64 for 0. -/
def ctzW (a : Word) : Word := BitVec.ofNat 64 (ctzFrom a.toNat 64 0)

/-- Number of 1 bits. -/
def popcW (a : Word) : Word := BitVec.ofNat 64 ((buildFrom (fun i => if bitAt a.toNat i then 1 else 0) 64 0).foldl (· + ·) 0)

/-- Sign extension to 64 bits. -/
def sext64 {n : Nat} (x : BitVec n) : Word := x.signExtend 64

/-- L of a compact instruction (R63): the register that LASTD names, 0 when it names none. -/
def State.l (s : State) : Word := s.hart.get s.hart.lastd.toNat

/-! Register-register forms (R113). -/

/-- add: gd := ga + gb (R113). -/
def execAdd (d a b : BitVec 6) (s : State) : Out := s.alu (.add d a b) d [a, b] (s.g a + s.g b)

/-- sub: gd := ga − gb (R113). -/
def execSub (d a b : BitVec 6) (s : State) : Out := s.alu (.sub d a b) d [a, b] (s.g a - s.g b)

/-- and: gd := ga and gb, bitwise (R113). -/
def execAnd (d a b : BitVec 6) (s : State) : Out := s.alu (.and d a b) d [a, b] (s.g a &&& s.g b)

/-- or: gd := ga or gb, bitwise (R113). -/
def execOr (d a b : BitVec 6) (s : State) : Out := s.alu (.or d a b) d [a, b] (s.g a ||| s.g b)

/-- xor: gd := ga xor gb, bitwise (R113). -/
def execXor (d a b : BitVec 6) (s : State) : Out := s.alu (.xor d a b) d [a, b] (s.g a ^^^ s.g b)

/-- shl: gd := ga shifted left by gb mod 64 (R113). -/
def execShl (d a b : BitVec 6) (s : State) : Out := s.alu (.shl d a b) d [a, b] (shlW (s.g a) (s.g b).toNat)

/-- shr: gd := ga shifted right logically by gb mod 64 (R113). -/
def execShr (d a b : BitVec 6) (s : State) : Out := s.alu (.shr d a b) d [a, b] (shrW (s.g a) (s.g b).toNat)

/-- sra: gd := ga shifted right arithmetically by gb mod 64 (R113). -/
def execSra (d a b : BitVec 6) (s : State) : Out := s.alu (.sra d a b) d [a, b] (sraW (s.g a) (s.g b).toNat)

/-- mul: gd := low 64 bits of ga × gb (R113). -/
def execMul (d a b : BitVec 6) (s : State) : Out := s.alu (.mul d a b) d [a, b] (s.g a * s.g b)

/-- mulh: gd := high 64 bits of the signed product (R113). -/
def execMulh (d a b : BitVec 6) (s : State) : Out := s.alu (.mulh d a b) d [a, b] (mulHigh (s.g a) (s.g b))

/-- mulhn: gd := high 64 bits of the unsigned product (R113). -/
def execMulhn (d a b : BitVec 6) (s : State) : Out := s.alu (.mulhn d a b) d [a, b] (mulHighN (s.g a) (s.g b))

/-- div: gd := signed quotient (R113, R114). -/
def execDiv (d a b : BitVec 6) (s : State) : Out := s.alu (.div d a b) d [a, b] (divS (s.g a) (s.g b))

/-- divn: gd := unsigned quotient (R113, R114). -/
def execDivn (d a b : BitVec 6) (s : State) : Out := s.alu (.divn d a b) d [a, b] (divN (s.g a) (s.g b))

/-- rem: gd := signed remainder (R113, R114). -/
def execRem (d a b : BitVec 6) (s : State) : Out := s.alu (.rem d a b) d [a, b] (remS (s.g a) (s.g b))

/-- remn: gd := unsigned remainder (R113, R114). -/
def execRemn (d a b : BitVec 6) (s : State) : Out := s.alu (.remn d a b) d [a, b] (remN (s.g a) (s.g b))

/-- min: gd := signed minimum (R113). -/
def execMin (d a b : BitVec 6) (s : State) : Out := s.alu (.min d a b) d [a, b] (minS (s.g a) (s.g b))

/-- max: gd := signed maximum (R113). -/
def execMax (d a b : BitVec 6) (s : State) : Out := s.alu (.max d a b) d [a, b] (maxS (s.g a) (s.g b))

/-- minn: gd := unsigned minimum (R113). -/
def execMinn (d a b : BitVec 6) (s : State) : Out := s.alu (.minn d a b) d [a, b] (minN (s.g a) (s.g b))

/-- maxn: gd := unsigned maximum (R113). -/
def execMaxn (d a b : BitVec 6) (s : State) : Out := s.alu (.maxn d a b) d [a, b] (maxN (s.g a) (s.g b))

/-- slt: gd := 1 if ga < gb signed, else 0 (R113). -/
def execSlt (d a b : BitVec 6) (s : State) : Out := s.alu (.slt d a b) d [a, b] (sltS (s.g a) (s.g b))

/-- sltn: gd := 1 if ga < gb unsigned, else 0 (R113). -/
def execSltn (d a b : BitVec 6) (s : State) : Out := s.alu (.sltn d a b) d [a, b] (sltN (s.g a) (s.g b))

/-- clz: gd := number of leading zero bits of ga (R113). -/
def execClz (d a : BitVec 6) (s : State) : Out := s.alu (.clz d a) d [a] (clzW (s.g a))

/-- ctz: gd := number of trailing zero bits of ga (R113). -/
def execCtz (d a : BitVec 6) (s : State) : Out := s.alu (.ctz d a) d [a] (ctzW (s.g a))

/-- popc: gd := number of 1 bits of ga (R113). -/
def execPopc (d a : BitVec 6) (s : State) : Out := s.alu (.popc d a) d [a] (popcW (s.g a))

/-- sel: gd := ga if gd ≠ 0, else gb (R113). -/
def execSel (d a b : BitVec 6) (s : State) : Out :=
  s.alu (.sel d a b) d [a, b] (if s.g d ≠ 0 then s.g a else s.g b)

/-! Immediate forms (R58, R115). -/

/-- addi: gd := ga + sext(imm) (R115). -/
def execAddi (d a : BitVec 6) (imm : BitVec 13) (s : State) : Out := s.alu (.addi d a imm) d [a] (s.g a + sext64 imm)

/-- andi: gd := ga and sext(imm) (R115). -/
def execAndi (d a : BitVec 6) (imm : BitVec 13) (s : State) : Out := s.alu (.andi d a imm) d [a] (s.g a &&& sext64 imm)

/-- ori: gd := ga or sext(imm) (R115). -/
def execOri (d a : BitVec 6) (imm : BitVec 13) (s : State) : Out := s.alu (.ori d a imm) d [a] (s.g a ||| sext64 imm)

/-- xori: gd := ga xor sext(imm) (R115). -/
def execXori (d a : BitVec 6) (imm : BitVec 13) (s : State) : Out := s.alu (.xori d a imm) d [a] (s.g a ^^^ sext64 imm)

/-- slti: gd := 1 if ga < sext(imm) signed, else 0 (R115). -/
def execSlti (d a : BitVec 6) (imm : BitVec 13) (s : State) : Out := s.alu (.slti d a imm) d [a] (sltS (s.g a) (sext64 imm))

/-- shi.shl: gd := ga shifted by n (R58, R115). -/
def execShiShl (d a : BitVec 6) (n : BitVec 6) (s : State) : Out := s.alu (.shiShl d a n) d [a] (shlW (s.g a) n.toNat)

/-- shi.shr: gd := ga shifted by n (R58, R115). -/
def execShiShr (d a : BitVec 6) (n : BitVec 6) (s : State) : Out := s.alu (.shiShr d a n) d [a] (shrW (s.g a) n.toNat)

/-- shi.sra: gd := ga shifted by n (R58, R115). -/
def execShiSra (d a : BitVec 6) (n : BitVec 6) (s : State) : Out := s.alu (.shiSra d a n) d [a] (sraW (s.g a) n.toNat)

/-- ldhi: gd := sext(imm19) × 2^13 (R58). -/
def execLdhi (d : BitVec 6) (imm : BitVec 19) (s : State) : Out := s.alu (.ldhi d imm) d [] (sext64 imm <<< 13)

/-- adr: gd := PC + sext(imm19) (R58). -/
def execAdr (d : BitVec 6) (imm : BitVec 19) (s : State) : Out := s.alu (.adr d imm) d [] (s.hart.pc + sext64 imm)

/-! Loads and stores (R116, R117). -/

/-- Bytes that a width code names. -/
def widthBytes (w : BitVec 2) : Nat := 2 ^ w.toNat

/-- The address of an RI memory form: ga + imm10 × 2^w (R58). -/
def riAddr (s : State) (w : BitVec 2) (a : BitVec 6) (imm : BitVec 10) : Word := s.g a + (sext64 imm <<< w.toNat)

/-- lds.iN: a sign-extending load (R116). -/
def execLdsI (w : BitVec 2) (d a : BitVec 6) (imm : BitVec 10) (s : State) : Out :=
  s.plain (.ldsI w d a imm) [d, a] fun cp =>
    s.loadN (riAddr s w a imm) (widthBytes w) fun t x =>
      .next ((t.result d cp (BitVec.ofInt 64 (signedOf (8 * widthBytes w) x))).retire 4)

/-- lds.nN: a zero-extending load (R116). -/
def execLdsN (w : BitVec 2) (d a : BitVec 6) (imm : BitVec 10) (s : State) : Out :=
  s.plain (.ldsN w d a imm) [d, a] fun cp =>
    s.loadN (riAddr s w a imm) (widthBytes w) fun t x => .next ((t.result d cp (BitVec.ofNat 64 x)).retire 4)

/-- sts.N: a store of the low N bits of gd (R116); a copy loan is refused (R65). -/
def execSts (w : BitVec 2) (d a : BitVec 6) (imm : BitVec 10) (s : State) : Out :=
  s.scalar (.sts w d a imm) 4 true false [d, a] fun _ => s.storeN (riAddr s w a imm) (widthBytes w) (s.g d) 4

/-! Atomics (R118, R119). -/

/-- Bytes of an amo. -/
def amoSize (w : BitVec 1) : Nat := if w.toNat = 1 then 4 else 8

/-- The value that an amo returns for the old bytes. -/
def amoOld (w : BitVec 1) (x : Nat) : Word := if w.toNat = 1 then BitVec.ofInt 64 (signedOf 32 x) else BitVec.ofNat 64 x

/-- The orders rel and acqrel (R95). -/
def isRelease (ord : BitVec 2) : Bool := 2 ≤ ord.toNat

/-- The shape of every amo: alignment, the copies that a release waits for (R95), the interlock table, the checks, then one
read-modify-write; `f` gives the new value, if any, from the operand and the old value, both of size bytes. -/
def State.amo (s : State) (i : Instr) (w : BitVec 1) (ord : BitVec 2) (d a : BitVec 6) (regs : List (BitVec 6))
    (f : Nat → Nat → Option Nat) : Out :=
  s.alone i (d :: a :: regs) <|
    let ea := s.g a
    let n := amoSize w
    if ea.toNat % n ≠ 0 then s.trap (Trap.mk0 0x03 0 ea false)
    else
      s.releasing (isRelease ord) <| s.clear true ea.toNat (ea.toNat + n - 1)
        (match s.check s.aspace Need.rmw ea n with
         | .error st => s.trap (Trap.access st)
         | .ok ls =>
           let old := ofBytes (s.bytes ls)
           let t := s.touch ea n
           let t := match f ((s.g d).toNat % 2 ^ (8 * n)) old with
             | some x => t.store none (writesOf ls (toBytes n x))
             | none => t.snoop (dedup (ls.map Loc.line))
           .next ((t.wr d (amoOld w old)).retire 4))

/-- An amo whose new value is a function of the width, the old value and the operand. -/
def State.amoOp (s : State) (i : Instr) (w : BitVec 1) (ord : BitVec 2) (d a : BitVec 6) (f : Nat → Nat → Nat → Nat) : Out :=
  s.amo i w ord d a [] fun x old => some (f (8 * amoSize w) old x)

/-- The smaller or larger of two w-bit codes, signed or unsigned (R118, R234). -/
def extremeCode (sgn mx : Bool) (w a b : Nat) : Nat :=
  let below := if sgn then decide (signedOf w a < signedOf w b) else decide (a < b)
  if below = mx then b else a

/-- Bitwise functions on codes. -/
def addCode (w a b : Nat) : Nat := (a + b) % 2 ^ w
def andCode (_ a b : Nat) : Nat := a &&& b
def orCode (_ a b : Nat) : Nat := a ||| b
def xorCode (_ a b : Nat) : Nat := a ^^^ b

/-- amo.swap (R118); its scope adds edges between agents only (R95). -/
def execAmoSwap (w : BitVec 1) (scope : BitVec 3) (ord : BitVec 2) (d a : BitVec 6) (s : State) : Out :=
  s.amoOp (.amoSwap w scope ord d a) w ord d a fun _ _ x => x

/-- amo.cas (R118): the new value is the low bytes of g(d+1). -/
def execAmoCas (w : BitVec 1) (scope : BitVec 3) (ord : BitVec 2) (d a : BitVec 6) (s : State) : Out :=
  s.amo (.amoCas w scope ord d a) w ord d a [d + 1] fun x old =>
    if old = x then some ((s.g (d + 1)).toNat % 2 ^ (8 * amoSize w)) else none

/-- amo.add (R118). -/
def execAmoAdd (w : BitVec 1) (scope : BitVec 3) (ord : BitVec 2) (d a : BitVec 6) (s : State) : Out :=
  s.amoOp (.amoAdd w scope ord d a) w ord d a addCode

/-- amo.and (R118). -/
def execAmoAnd (w : BitVec 1) (scope : BitVec 3) (ord : BitVec 2) (d a : BitVec 6) (s : State) : Out :=
  s.amoOp (.amoAnd w scope ord d a) w ord d a andCode

/-- amo.or (R118). -/
def execAmoOr (w : BitVec 1) (scope : BitVec 3) (ord : BitVec 2) (d a : BitVec 6) (s : State) : Out :=
  s.amoOp (.amoOr w scope ord d a) w ord d a orCode

/-- amo.xor (R118). -/
def execAmoXor (w : BitVec 1) (scope : BitVec 3) (ord : BitVec 2) (d a : BitVec 6) (s : State) : Out :=
  s.amoOp (.amoXor w scope ord d a) w ord d a xorCode

/-- amo.min (R118). -/
def execAmoMin (w : BitVec 1) (scope : BitVec 3) (ord : BitVec 2) (d a : BitVec 6) (s : State) : Out :=
  s.amoOp (.amoMin w scope ord d a) w ord d a (extremeCode true false)

/-- amo.max (R118). -/
def execAmoMax (w : BitVec 1) (scope : BitVec 3) (ord : BitVec 2) (d a : BitVec 6) (s : State) : Out :=
  s.amoOp (.amoMax w scope ord d a) w ord d a (extremeCode true true)

/-- amo.minn (R118). -/
def execAmoMinn (w : BitVec 1) (scope : BitVec 3) (ord : BitVec 2) (d a : BitVec 6) (s : State) : Out :=
  s.amoOp (.amoMinn w scope ord d a) w ord d a (extremeCode false false)

/-- amo.maxn (R118). -/
def execAmoMaxn (w : BitVec 1) (scope : BitVec 3) (ord : BitVec 2) (d a : BitVec 6) (s : State) : Out :=
  s.amoOp (.amoMaxn w scope ord d a) w ord d a (extremeCode false true)

/-! Branches and jumps (R58, R120). -/

/-- The distance that an offset in parcels gives. -/
def parcels {n : Nat} (off : BitVec n) : Word := sext64 off <<< 1

/-- bz: a branch on one register (R120). -/
def execBz (cond : BitVec 3) (a : BitVec 6) (off : BitVec 16) (s : State) : Out :=
  s.alone (.bz cond a off) [a] (.next (s.retire (if condHolds cond.toNat (s.g a) then parcels off else 4)))

/-- bc: a branch on two registers (R120). -/
def execBc (cond : BitVec 3) (a b : BitVec 6) (off : BitVec 10) (s : State) : Out :=
  s.alone (.bc cond a b off) [a, b]
    (.next (s.retire (if condHolds2 cond.toNat (s.g a) (s.g b) then parcels off else 4)))

/-- jal: g63 := the address of the next instruction (R58, R120). -/
def execJal (off : BitVec 25) (s : State) : Out :=
  s.alone (.jal off) [63] (.next ((s.wr 63 (s.hart.pc + 4)).retire (parcels off)))

/-- jr: the target from ga as it stood, then gd := the address of the next instruction (R120). Bit 0 of the target is
dropped (DEDUCED, log entry 14). -/
def execJr (d a : BitVec 6) (imm : BitVec 13) (s : State) : Out :=
  s.alone (.jr d a imm) [d, a]
    (.next ((s.wr d (s.hart.pc + 4)).retire (((s.g a + sext64 imm) &&& ~~~(1 : Word)) - s.hart.pc)))

/-! Compact forms (R63). -/

/-- add.c: gd := L and gb combined as add (R63). -/
def execAddC (b d : BitVec 5) (s : State) : Out :=
  let b' := b.setWidth 6
  let d' := d.setWidth 6
  s.aluC (.addC b d) d' [s.hart.lastd, b'] (s.l + s.g b')

/-- sub.c: gd := L and gb combined as sub (R63). -/
def execSubC (b d : BitVec 5) (s : State) : Out :=
  let b' := b.setWidth 6
  let d' := d.setWidth 6
  s.aluC (.subC b d) d' [s.hart.lastd, b'] (s.l - s.g b')

/-- and.c: gd := L and gb combined as and (R63). -/
def execAndC (b d : BitVec 5) (s : State) : Out :=
  let b' := b.setWidth 6
  let d' := d.setWidth 6
  s.aluC (.andC b d) d' [s.hart.lastd, b'] (s.l &&& s.g b')

/-- or.c: gd := L and gb combined as or (R63). -/
def execOrC (b d : BitVec 5) (s : State) : Out :=
  let b' := b.setWidth 6
  let d' := d.setWidth 6
  s.aluC (.orC b d) d' [s.hart.lastd, b'] (s.l ||| s.g b')

/-- xor.c: gd := L and gb combined as xor (R63). -/
def execXorC (b d : BitVec 5) (s : State) : Out :=
  let b' := b.setWidth 6
  let d' := d.setWidth 6
  s.aluC (.xorC b d) d' [s.hart.lastd, b'] (s.l ^^^ s.g b')

/-- shl.c: gd := L and gb combined as shl (R63). -/
def execShlC (b d : BitVec 5) (s : State) : Out :=
  let b' := b.setWidth 6
  let d' := d.setWidth 6
  s.aluC (.shlC b d) d' [s.hart.lastd, b'] (shlW s.l (s.g b').toNat)

/-- shr.c: gd := L and gb combined as shr (R63). -/
def execShrC (b d : BitVec 5) (s : State) : Out :=
  let b' := b.setWidth 6
  let d' := d.setWidth 6
  s.aluC (.shrC b d) d' [s.hart.lastd, b'] (shrW s.l (s.g b').toNat)

/-- sra.c: gd := L and gb combined as sra (R63). -/
def execSraC (b d : BitVec 5) (s : State) : Out :=
  let b' := b.setWidth 6
  let d' := d.setWidth 6
  s.aluC (.sraC b d) d' [s.hart.lastd, b'] (sraW s.l (s.g b').toNat)

/-- mul.c: gd := L and gb combined as mul (R63). -/
def execMulC (b d : BitVec 5) (s : State) : Out :=
  let b' := b.setWidth 6
  let d' := d.setWidth 6
  s.aluC (.mulC b d) d' [s.hart.lastd, b'] (s.l * s.g b')

/-- min.c: gd := L and gb combined as min (R63). -/
def execMinC (b d : BitVec 5) (s : State) : Out :=
  let b' := b.setWidth 6
  let d' := d.setWidth 6
  s.aluC (.minC b d) d' [s.hart.lastd, b'] (minS s.l (s.g b'))

/-- max.c: gd := L and gb combined as max (R63). -/
def execMaxC (b d : BitVec 5) (s : State) : Out :=
  let b' := b.setWidth 6
  let d' := d.setWidth 6
  s.aluC (.maxC b d) d' [s.hart.lastd, b'] (maxS s.l (s.g b'))

/-- minn.c: gd := L and gb combined as minn (R63). -/
def execMinnC (b d : BitVec 5) (s : State) : Out :=
  let b' := b.setWidth 6
  let d' := d.setWidth 6
  s.aluC (.minnC b d) d' [s.hart.lastd, b'] (minN s.l (s.g b'))

/-- maxn.c: gd := L and gb combined as maxn (R63). -/
def execMaxnC (b d : BitVec 5) (s : State) : Out :=
  let b' := b.setWidth 6
  let d' := d.setWidth 6
  s.aluC (.maxnC b d) d' [s.hart.lastd, b'] (maxN s.l (s.g b'))

/-- slt.c: gd := L and gb combined as slt (R63). -/
def execSltC (b d : BitVec 5) (s : State) : Out :=
  let b' := b.setWidth 6
  let d' := d.setWidth 6
  s.aluC (.sltC b d) d' [s.hart.lastd, b'] (sltS s.l (s.g b'))

/-- sltn.c: gd := L and gb combined as sltn (R63). -/
def execSltnC (b d : BitVec 5) (s : State) : Out :=
  let b' := b.setWidth 6
  let d' := d.setWidth 6
  s.aluC (.sltnC b d) d' [s.hart.lastd, b'] (sltN s.l (s.g b'))

/-- addi.c: gd := L + sext(imm) (R63). -/
def execAddiC (imm d : BitVec 5) (s : State) : Out :=
  s.aluC (.addiC imm d) (d.setWidth 6) [s.hart.lastd] (s.l + sext64 imm)

/-- andi.c: gd := L and sext(imm) (R63). -/
def execAndiC (imm d : BitVec 5) (s : State) : Out :=
  s.aluC (.andiC imm d) (d.setWidth 6) [s.hart.lastd] (s.l &&& sext64 imm)

/-- shli.c: gd := L shifted left by imm (R63). -/
def execShliC (imm d : BitVec 5) (s : State) : Out :=
  s.aluC (.shliC imm d) (d.setWidth 6) [s.hart.lastd] (shlW s.l imm.toNat)

/-- shri.c: gd := L shifted right logically by imm (R63). -/
def execShriC (imm d : BitVec 5) (s : State) : Out :=
  s.aluC (.shriC imm d) (d.setWidth 6) [s.hart.lastd] (shrW s.l imm.toNat)

/-- srai.c: gd := L shifted right arithmetically by imm (R63). -/
def execSraiC (imm d : BitVec 5) (s : State) : Out :=
  s.aluC (.sraiC imm d) (d.setWidth 6) [s.hart.lastd] (sraW s.l imm.toNat)

/-- mov.c: gd := gb; L is not read (R63). -/
def execMovC (b d : BitVec 5) (s : State) : Out :=
  s.aluC (.movC b d) (d.setWidth 6) [b.setWidth 6] (s.g (b.setWidth 6))

/-- li.c: gd := sext(imm) (R63). -/
def execLiC (imm d : BitVec 5) (s : State) : Out := s.aluC (.liC imm d) (d.setWidth 6) [] (sext64 imm)

/-- lds.c: gd := the 64-bit word at L + 8 × imm (R63). -/
def execLdsC (imm d : BitVec 5) (s : State) : Out :=
  s.compact (.ldsC imm d) [d.setWidth 6, s.hart.lastd]
    (s.loadN (s.l + BitVec.ofNat 64 (8 * imm.toNat)) 8 fun t x =>
      .next ((t.wr (d.setWidth 6) (BitVec.ofNat 64 x)).retire 2))

/-- sts.c: the 64-bit word at L + 8 × imm := gd (R63). -/
def execStsC (imm d : BitVec 5) (s : State) : Out :=
  s.compact (.stsC imm d) [d.setWidth 6, s.hart.lastd]
    (s.storeN (s.l + BitVec.ofNat 64 (8 * imm.toNat)) 8 (s.g (d.setWidth 6)) 2)

/-- nop.c: nothing (R63). -/
def execNopC (s : State) : Out := s.compact .nopC [] (.next (s.retire 2))

end Sys2Proof.Machine
end

