-- ==== Sys2Proof/Machine/VecArith.lean ====
section
/-!
DEFINITION. setvl and advmg, and the elementwise instructions of majors 0x18 to 0x1B and 0x32 (R174 to R195).
-/
namespace Sys2Proof.Machine

/-! setvl and advmg. -/

/-- The grant of R20. -/
def grantOf (q : Nat) (t : VType) (fgr : Nat) : Nat :=
  let cap := min (8 * t.g) fgr * perGroup t.w
  if q = 0 then 0
  else if t.blk = 0 then min q (min t.vmax cap)
  else t.blk * min (ceilDiv q t.blk) (cap / t.blk)

/-- TYPE from the fields of a setvl word (R153). -/
def typeBits (blk : BitVec 3) (mpol tail : BitVec 1) (grp : BitVec 2) (fmt : BitVec 5) : BitVec 12 :=
  BitVec.ofNat 12 (512 * blk.toNat + 256 * mpol.toNat + 128 * tail.toNat + 32 * grp.toNat + fmt.toNat)

/-- Issue of a scalar instruction that a Bridge core does not run (R373). -/
def State.strandOnly (s : State) (i : Instr) (regs : List (BitVec 6)) (body : Out) : Out :=
  if s.priv then s.illegal i 1 else s.alone i regs body

/-- setvl (R174): TYPE, the grant, and a strip opened (R28). -/
def execSetvl (blk : BitVec 3) (mpol tail : BitVec 1) (grp : BitVec 2) (fmt : BitVec 5) (d a : BitVec 6) (s : State) : Out :=
  s.strandOnly (.setvl blk mpol tail grp fmt d a) [d, a] <|
    let t := typeBits blk mpol tail grp fmt
    let q := s.g a
    let g : Word := BitVec.ofNat 64 (grantOf q.toNat (vtypeOf t) s.flot.fgr.toNat)
    let st := { s.strand with type := t, mgs := g, mg := g, mgf := 0, sreq := q, grant := g.toNat }
    .next (((s.setStrand st.openStrip).wr d g).retire 4)

/-- advmg (R175): gd := ga + MGS × 2^sh, MGF := 0, and a strip opened. -/
def execAdvmg (sh : BitVec 4) (d a : BitVec 6) (s : State) : Out :=
  s.strandOnly (.advmg sh d a) [d, a] <|
    let x := s.g a + (s.strand.mgs <<< sh.toNat)
    let st := { s.strand with mgf := 0 }
    .next (((s.setStrand st.openStrip).wr d x).retire 4)

/-! The common shape (R176 to R180). -/

/-- Every two groups of a list are identical or disjoint (R177). -/
def allSameOr : List Grp → Bool
  | [] => true
  | x :: t => t.all x.sameOr && allSameOr t

/-- What an elementwise instruction writes to its destination group. -/
def State.dest (s : State) (d : Grp) (w n k : Nat) (act : Nat → Bool) (res : Nat → Nat) : Dest :=
  { d := d.start, w := w, size := d.size, n := n, k := k, keep := s.ty.keep, free := s.ty.free, act := act,
    skip := fun _ => false, res := res }

/-- The flags of the active elements of [0, k) (R171). -/
def activeFlags (act : Nat → Bool) (fl : Nat → Flags) (k : Nat) : Flags :=
  flagsUpTo (fun i => if act i then fl i else 0) k 0

/-- The elementwise pattern of R179 after issue: destination group `d` at width `w`, with `op` giving each element's
code and exceptions. -/
def State.elements (s : State) (d : Grp) (w : Nat) (act : Nat → Bool) (copy : Option Nat) (op : Nat → FRes) : Out :=
  let n := s.n
  if n = 0 then s.empty
  else
    s.finish n .elems (s.arithStop n act fun i => (op i).fl) fun k =>
      (s.writeDest 10 copy (s.dest d w n k act fun i => (op i).code)).orFlags (activeFlags act (fun i => (op i).fl) k)

/-- An elementwise instruction on groups under TYPE: its type check, mask field, destination, vector sources, scalar
sources. -/
def State.elementwise (s : State) (i : Instr) (typeOkay : Bool) (m : BitVec 3) (d : BitVec 5) (srcs : List (BitVec 5))
    (regs : List (BitVec 6)) (op : Nat → FRes) : Out :=
  let dg := s.grp d
  let sg := srcs.map s.grp
  s.vector i (typeOkay && allSameOr (dg :: sg))
    { loanable := true, field := m.toNat, dest := some dg, others := sg, regs := regs }
    fun loan copy => s.elements dg s.ty.w (s.strand.active m.toNat loan) copy op

/-- Element `i` of the operand that a field names, at TYPE's width. -/
def State.el (s : State) (v : BitVec 5) (i : Nat) : Nat := s.rd (s.grp v) s.ty.w i

/-- A code without exceptions. -/
def FRes.pure (c : Nat) : FRes := { code := c, fl := 0 }

/-- The formats of major 0x18 and of vcmp (R181, R183). -/
def VType.arith (t : VType) : Bool := t.isFloat || t.isInt8

/-- An operation of one, two or three codes under a type: floating by `f`, integer by `g` with its signedness. -/
def codeOp (t : VType) (rm : Rnd) (f : FF → Rnd → Num → Num → Num → FRes) (g : Bool → Nat → Nat → Nat → Nat → Nat)
    (a b d : Nat) : FRes :=
  if t.isFloat then
    let ff := ffOf t.fmt
    f ff rm (decodeNum ff a) (decodeNum ff b) (decodeNum ff d)
  else .pure (g t.isI t.w a b d)

/-- An arithmetic instruction of major 0x18 on a, b and d (R181). -/
def State.arith (s : State) (i : Instr) (m : BitVec 3) (d a b : BitVec 5)
    (f : FF → Rnd → Num → Num → Num → FRes) (g : Bool → Nat → Nat → Nat → Nat → Nat) : Out :=
  s.elementwise i s.ty.arith m d [a, b] [] fun e =>
    codeOp s.ty (fcsRm s.strand.vfcs) f g (s.el a e) (s.el b e) (s.el d e)

/-! Integer functions on codes of width w (R162, R181). -/

/-- The difference modulo 2^w. -/
def subCode (w a b : Nat) : Nat := wrapTo w ((a : Int) - (b : Int))

/-- The product modulo 2^w. -/
def mulCode (w a b : Nat) : Nat := a * b % 2 ^ w

/-- The quotient toward zero; all ones for a divisor of 0 (R114 at width w). -/
def divCode (sgn : Bool) (w a b : Nat) : Nat :=
  if b = 0 then ones w
  else if sgn then wrapTo w (Int.tdiv (signedOf w a) (signedOf w b)) else a / b

/-- The magnitude of a signed code; an unsigned code itself. -/
def absCode (sgn : Bool) (w a : Nat) : Nat := if sgn then wrapTo w ((signedOf w a).natAbs : Int) else a

/-! Arithmetic (R181). -/

/-- vadd: a + b (R181). -/
def execVadd (m : BitVec 3) (d a b : BitVec 5) (s : State) : Out :=
  s.arith (.vadd m d a b) m d a b (fun ff rm a b _ => fpAdd ff rm a b) (fun _ w a b _ => addCode w a b)

/-- vsub: a − b (R181). -/
def execVsub (m : BitVec 3) (d a b : BitVec 5) (s : State) : Out :=
  s.arith (.vsub m d a b) m d a b (fun ff rm a b _ => fpSub ff rm a b) (fun _ w a b _ => subCode w a b)

/-- vmul: a × b (R181). -/
def execVmul (m : BitVec 3) (d a b : BitVec 5) (s : State) : Out :=
  s.arith (.vmul m d a b) m d a b (fun ff rm a b _ => fpMul ff rm a b) (fun _ w a b _ => mulCode w a b)

/-- vdiv: a / b (R181). -/
def execVdiv (m : BitVec 3) (d a b : BitVec 5) (s : State) : Out :=
  s.arith (.vdiv m d a b) m d a b (fun ff rm a b _ => fpDiv ff rm a b) (fun sgn w a b _ => divCode sgn w a b)

/-- vsqrt: √a, floating formats only (R181). -/
def execVsqrt (m : BitVec 3) (d a : BitVec 5) (s : State) : Out :=
  s.elementwise (.vsqrt m d a) s.ty.isFloat m d [a] [] fun e =>
    fpSqrt (ffOf s.ty.fmt) (fcsRm s.strand.vfcs) (decodeNum (ffOf s.ty.fmt) (s.el a e))

/-- vmin: the smaller, as fminmax.min (R181). -/
def execVmin (m : BitVec 3) (d a b : BitVec 5) (s : State) : Out :=
  s.arith (.vmin m d a b) m d a b (fun ff _ a b _ => fpMinMax ff false a b) (fun sgn w a b _ => extremeCode sgn false w a b)

/-- vmax: the larger, as fminmax.max (R181). -/
def execVmax (m : BitVec 3) (d a b : BitVec 5) (s : State) : Out :=
  s.arith (.vmax m d a b) m d a b (fun ff _ a b _ => fpMinMax ff true a b) (fun sgn w a b _ => extremeCode sgn true w a b)

/-- vabs: the sign bit cleared, or the magnitude (R181). -/
def execVabs (m : BitVec 3) (d a : BitVec 5) (s : State) : Out :=
  s.elementwise (.vabs m d a) s.ty.arith m d [a] [] fun e =>
    .pure (if s.ty.isFloat then s.el a e % 2 ^ (s.ty.w - 1) else absCode s.ty.isI s.ty.w (s.el a e))

/-- vneg: the sign bit inverted, or 0 − a (R181). -/
def execVneg (m : BitVec 3) (d a : BitVec 5) (s : State) : Out :=
  s.elementwise (.vneg m d a) s.ty.arith m d [a] [] fun e =>
    .pure (if s.ty.isFloat then s.el a e ^^^ 2 ^ (s.ty.w - 1) else subCode s.ty.w 0 (s.el a e))

/-- vfma: a × b + d, one rounding (R181). -/
def execVfma (m : BitVec 3) (d a b : BitVec 5) (s : State) : Out :=
  s.arith (.vfma m d a b) m d a b (fun ff rm a b d => fpFma ff rm false false a b d) (fun _ w a b d => addCode w (a * b) d)

/-- vfms: a × b − d, one rounding (R181). -/
def execVfms (m : BitVec 3) (d a b : BitVec 5) (s : State) : Out :=
  s.arith (.vfms m d a b) m d a b (fun ff rm a b d => fpFma ff rm false true a b d) (fun _ w a b d => subCode w (a * b) d)

/-- vfnma: −(a × b) + d, one rounding (R181). -/
def execVfnma (m : BitVec 3) (d a b : BitVec 5) (s : State) : Out :=
  s.arith (.vfnma m d a b) m d a b (fun ff rm a b d => fpFma ff rm true false a b d) (fun _ w a b d => subCode w d (a * b))

/-! Logic and shifts (R182). -/

/-- An instruction of major 0x19: integer formats of 8 bits or more, two operands. -/
def State.logic (s : State) (i : Instr) (m : BitVec 3) (d a b : BitVec 5) (g : Nat → Nat → Nat → Nat) : Out :=
  s.elementwise i s.ty.isInt8 m d [a, b] [] fun e => .pure (g s.ty.w (s.el a e) (s.el b e))

/-- Shifts of a w-bit code by a count modulo w. -/
def shlCode (w a b : Nat) : Nat := a * 2 ^ (b % w) % 2 ^ w
def shrCode (w a b : Nat) : Nat := a / 2 ^ (b % w)
def sraCode (w a b : Nat) : Nat := wrapTo w (signedOf w a / (2 : Int) ^ (b % w))

/-- vand: a AND b (R182). -/
def execVand (m : BitVec 3) (d a b : BitVec 5) (s : State) : Out := s.logic (.vand m d a b) m d a b andCode

/-- vor: a OR b (R182). -/
def execVor (m : BitVec 3) (d a b : BitVec 5) (s : State) : Out := s.logic (.vor m d a b) m d a b orCode

/-- vxor: a XOR b (R182). -/
def execVxor (m : BitVec 3) (d a b : BitVec 5) (s : State) : Out := s.logic (.vxor m d a b) m d a b xorCode

/-- vshl: a shifted left by b mod w (R182). -/
def execVshl (m : BitVec 3) (d a b : BitVec 5) (s : State) : Out := s.logic (.vshl m d a b) m d a b shlCode

/-- vshr: a shifted right by b mod w, filling with 0 (R182). -/
def execVshr (m : BitVec 3) (d a b : BitVec 5) (s : State) : Out := s.logic (.vshr m d a b) m d a b shrCode

/-- vsra: a shifted right by b mod w, filling with bit w − 1 (R182). -/
def execVsra (m : BitVec 3) (d a b : BitVec 5) (s : State) : Out := s.logic (.vsra m d a b) m d a b sraCode

/-- vnot: NOT a (R182). -/
def execVnot (m : BitVec 3) (d a : BitVec 5) (s : State) : Out :=
  s.elementwise (.vnot m d a) s.ty.isInt8 m d [a] [] fun e => .pure (ones s.ty.w - s.el a e)

/-! Comparisons (R183). -/

/-- A comparison of integer codes. -/
def intCmp (c : Cmp) (sgn : Bool) (w a b : Nat) : Bool :=
  let x : Int := if sgn then signedOf w a else (a : Int)
  let y : Int := if sgn then signedOf w b else (b : Int)
  match c with
  | .eq => x = y
  | .ne => x ≠ y
  | .lt => x < y
  | .le => x ≤ y
  | .gt => y < x
  | .ge => y ≤ x
  | .un => false

/-- A mask destination written over [0, n) (R151, R179). -/
def State.maskBits (s : State) (md : BitVec 3) (act : Nat → Bool) (op : Nat → FRes) : Out :=
  let n := s.n
  if n = 0 then s.empty
  else
    s.finish n .elems (s.arithStop n act fun i => (op i).fl) fun k =>
      (s.writeMask 10 (s.dest { start := md.toNat, size := 1 } 1 n k act fun i => (op i).code)).orFlags
        (activeFlags act (fun i => (op i).fl) k)

/-- vcmp with a condition (R183); a copy loan is refused, since it writes a mask (R65). -/
def State.vcmp (s : State) (i : Instr) (c : Cmp) (typeOkay : Bool) (m d : BitVec 3) (a b : BitVec 5) : Out :=
  s.vector i (typeOkay && allSameOr [s.grp a, s.grp b])
    { loanable := true, field := m.toNat, dest := none, others := [], regs := [] }
    fun loan _ => s.maskBits d (s.strand.active m.toNat loan) fun e =>
      if s.ty.isFloat then cmpRes c (decodeNum (ffOf s.ty.fmt) (s.el a e)) (decodeNum (ffOf s.ty.fmt) (s.el b e))
      else .pure (if intCmp c s.ty.isI s.ty.w (s.el a e) (s.el b e) then 1 else 0)

/-- vcmp.eq (R183). -/
def execVcmpEq (m d : BitVec 3) (a b : BitVec 5) (s : State) : Out :=
  s.vcmp (.vcmpEq m d a b) .eq s.ty.arith m d a b

/-- vcmp.ne (R183). -/
def execVcmpNe (m d : BitVec 3) (a b : BitVec 5) (s : State) : Out :=
  s.vcmp (.vcmpNe m d a b) .ne s.ty.arith m d a b

/-- vcmp.lt (R183). -/
def execVcmpLt (m d : BitVec 3) (a b : BitVec 5) (s : State) : Out :=
  s.vcmp (.vcmpLt m d a b) .lt s.ty.arith m d a b

/-- vcmp.le (R183). -/
def execVcmpLe (m d : BitVec 3) (a b : BitVec 5) (s : State) : Out :=
  s.vcmp (.vcmpLe m d a b) .le s.ty.arith m d a b

/-- vcmp.gt (R183). -/
def execVcmpGt (m d : BitVec 3) (a b : BitVec 5) (s : State) : Out :=
  s.vcmp (.vcmpGt m d a b) .gt s.ty.arith m d a b

/-- vcmp.ge (R183). -/
def execVcmpGe (m d : BitVec 3) (a b : BitVec 5) (s : State) : Out :=
  s.vcmp (.vcmpGe m d a b) .ge s.ty.arith m d a b

/-- vcmp.un, floating formats only (R183). -/
def execVcmpUn (m d : BitVec 3) (a b : BitVec 5) (s : State) : Out :=
  s.vcmp (.vcmpUn m d a b) .un s.ty.isFloat m d a b

/-! Selects, moves, broadcast, index (R184 to R187). -/

/-- vsel: a where active, b elsewhere; every element below MG is written (R184). -/
def execVsel (m : BitVec 3) (d a b : BitVec 5) (s : State) : Out :=
  let dg := s.grp d
  s.vector (.vsel m d a b) (allSameOr [dg, s.grp a, s.grp b])
    { loanable := true, field := m.toNat, dest := some dg, others := [s.grp a, s.grp b], regs := [] }
    fun loan copy =>
      s.elements dg s.ty.w (fun _ => true) copy fun e =>
        .pure (if s.strand.active m.toNat loan e then s.el a e else s.el b e)

/-- vmov (R185). -/
def execVmov (m : BitVec 3) (d a : BitVec 5) (s : State) : Out :=
  s.elementwise (.vmov m d a) true m d [a] [] fun e => .pure (s.el a e)

/-- The 4-bit units of member j that the first `n` elements of width `w` cover (R299). -/
def coverOf (w n j : Nat) : Nat := min 4096 ((n - j * perReg w) * w / 4)

/-- A swatch set on each member of a group. -/
def State.groupSw (s : State) (g : Grp) (c : BitVec 10) (w n : Nat) : State :=
  (buildFrom id g.size 0).foldl (fun s j => s.setSw (g.start + j) c (coverOf w n j)) s

/-- The swatch that a broadcast code gives (R186). -/
def brdSwatch (w c : Nat) : BitVec 10 :=
  if c = 0 then swatchZero
  else if swWidth w then mkSwatch (finCode w c) 0 (swatchKind false w) else 0

/-- vbrd (R186): the low w bits of ga; unmasked and complete, it sets the members' swatches. -/
def execVbrd (m : BitVec 3) (d : BitVec 5) (a : BitVec 6) (s : State) : Out :=
  let dg := s.grp d
  let w := s.ty.w
  let c := (s.g a).toNat % 2 ^ w
  s.vector (.vbrd m d a) true
    { loanable := true, field := m.toNat, dest := some dg, others := [], regs := [a] }
    fun loan copy =>
      let n := s.n
      if n = 0 then s.empty
      else
        s.finish n .elems none fun k =>
          let t := s.writeDest 10 copy (s.dest dg w n k (s.strand.active m.toNat loan) fun _ => c)
          if unmasked m.toNat loan && k = n then t.groupSw dg (brdSwatch w c) w n else t

/-- vidx (R187): ga + i × gb. -/
def execVidx (m : BitVec 3) (d : BitVec 5) (a b : BitVec 6) (s : State) : Out :=
  s.elementwise (.vidx m d a b) s.ty.isInt8 m d [] [a, b] fun e =>
    .pure (((s.g a).toNat + e * (s.g b).toNat) % 2 ^ s.ty.w)

/-! Conversions (R188 to R190). -/

/-- The destination group size of a conversion. -/
def cvtSize (g ws wd : Nat) : Nat := ceilDiv (g * wd) ws

/-- The auxiliary group size: random words, block scales, or none (R189). -/
def cvtAux (t : VType) (sr : Bool) : Nat :=
  if sr then ceilDiv (16 * t.g) t.w
  else if t.blk ≠ 0 then ceilDiv (16384 * t.g / t.w) (2048 * t.blk) else 0

/-- A format code is an integer one, or floating with e5m2, e4m3, e2m1. -/
def intCode (f : Nat) : Bool := 8 ≤ f && f ≤ 0x11
def signedCode (f : Nat) : Bool := (8 ≤ f && f ≤ 0x0B) || f = 0x10
def e2m1Code (f : Nat) : Bool := 0x14 ≤ f && f ≤ 0x17
def p4Code (f : Nat) : Bool := 0x18 ≤ f && f ≤ 0x1B

/-- A value converted to a format under a mode (R163, R164, R190). The chain of R168 gives the direct rounding. -/
def convertTo (dfmt : Nat) (mode : Rnd) (x : Num) : FRes :=
  if intCode dfmt then numToInt (signedCode dfmt) (fmtWidth dfmt) mode x else roundNum (ffOf dfmt) mode x

/-- vcvt (R188 to R190). Every two e2m1 formats count as the same format, whatever spares their selectors name: without a
block length the codes are copied, 0x8 included (DESIGN CHOICE, log entry 77: R190 does not say whether another selector makes
another format). -/
def execVcvt (m : BitVec 3) (sr : BitVec 1) (dfmt d a : BitVec 5) (s : State) : Out :=
  let t := s.ty
  let df := dfmt.toNat
  let wd := fmtWidth df
  let isSr := sr.toNat = 1
  let dg : Grp := { start := d.toNat, size := cvtSize t.g t.w wd }
  let ag : Grp := { start := (d.toNat + dg.size) % 32, size := cvtAux t isSr }
  let legal := wd ≠ 0 && !p4Code df && dg.size ≤ 8 && ag.size ≤ 8 && !(isSr && t.blk ≠ 0)
    && !(isSr && (t.isInt || intCode df))
    && ((s.grp a).disjoint dg || (t.w = wd && a = d)) && ag.disjoint dg && ag.disjoint (s.grp a)
  s.vector (.vcvt m sr dfmt d a) legal
    { loanable := true, field := m.toNat, dest := some dg, others := [s.grp a, ag], regs := [] }
    fun loan copy =>
      s.elements dg wd (s.strand.active m.toNat loan) copy fun e =>
        let c := s.el a e
        if t.blk = 0 && t.isE2m1 && e2m1Code df then .pure c
        else
          let x := s.paddedValue e c
          let x := if t.blk = 0 then x else scaleBy (s.strand.scaleCode ag.start t.blk e) x
          let mode := if isSr then .stoch (s.strand.elem ag.start 16 e) else fcsRm s.strand.vfcs
          convertTo df mode x

/-! Mask instructions (R191, R192). -/

/-- The lowest active i below n whose bit is 1, or n. -/
def firstSet (act bit : Nat → Bool) (n : Nat) : Nat := (firstIdx (fun i => act i && bit i) n 0).getD n

/-- A mask instruction with a mask result, given the active bits. -/
def State.maskOp (s : State) (i : Instr) (m d : BitVec 3) (op : (Nat → Bool) → Nat → Bool) : Out :=
  s.vector i true { loanable := true, field := m.toNat, dest := none, others := [], regs := [] }
    fun loan _ =>
      let act := s.strand.active m.toNat loan
      s.maskBits d act fun e => .pure (if op act e then 1 else 0)

/-- mand (R191). -/
def execMand (m d a b : BitVec 3) (s : State) : Out :=
  s.maskOp (.mand m d a b) m d (fun _ e => s.strand.mbit a.toNat e && s.strand.mbit b.toNat e)

/-- mor (R191). -/
def execMor (m d a b : BitVec 3) (s : State) : Out :=
  s.maskOp (.mor m d a b) m d (fun _ e => s.strand.mbit a.toNat e || s.strand.mbit b.toNat e)

/-- mxor (R191). -/
def execMxor (m d a b : BitVec 3) (s : State) : Out :=
  s.maskOp (.mxor m d a b) m d (fun _ e => xor (s.strand.mbit a.toNat e) (s.strand.mbit b.toNat e))

/-- mnot (R191). -/
def execMnot (m d a : BitVec 3) (s : State) : Out :=
  s.maskOp (.mnot m d a) m d (fun _ e => !(s.strand.mbit a.toNat e))

/-- mbef: bit i is 1 when i < f (R191). -/
def execMbef (m d a : BitVec 3) (s : State) : Out :=
  s.maskOp (.mbef m d a) m d (fun act e => e < firstSet act (s.strand.mbit a.toNat) s.n)

/-- minc: bit i is 1 when i ≤ f (R191). -/
def execMinc (m d a : BitVec 3) (s : State) : Out :=
  s.maskOp (.minc m d a) m d (fun act e => e ≤ firstSet act (s.strand.mbit a.toNat) s.n)

/-- A mask instruction with a scalar result from the active bits of [0, MG) (R35, R192); n = 0 leaves gd (R32). -/
def State.maskScalar (s : State) (i : Instr) (m : BitVec 3) (d : BitVec 6) (regs : List (BitVec 6))
    (res : (Nat → Bool) → Nat → Word) : Out :=
  s.vector i true { loanable := true, field := m.toNat, dest := none, others := [], regs := d :: regs }
    fun loan _ =>
      let n := s.n
      if n = 0 then (s.takeLastd d).empty
      else s.finish n .elems none (fun k => s.wr d (res (s.strand.active m.toNat loan) k))
        fun x => { x with regs := d :: x.regs }

/-- Active bits of [0, k) that are 1. -/
def countBits (p : Nat → Bool) : Nat → Nat → Nat
  | 0, _ => 0
  | k + 1, i => (if p i then 1 else 0) + countBits p k (i + 1)

/-- mpop (R192). -/
def execMpop (m : BitVec 3) (d : BitVec 6) (a : BitVec 3) (s : State) : Out :=
  s.maskScalar (.mpop m d a) m d [] fun act k =>
    BitVec.ofNat 64 (countBits (fun i => act i && s.strand.mbit a.toNat i) k 0)

/-- mfirst (R192). -/
def execMfirst (m : BitVec 3) (d : BitVec 6) (a : BitVec 3) (s : State) : Out :=
  s.maskScalar (.mfirst m d a) m d [] fun act k =>
    match firstIdx (fun i => act i && s.strand.mbit a.toNat i) k 0 with
    | some i => BitVec.ofNat 64 i
    | none => -1

/-- The 64 bits of a mask from position o, within [0, k). -/
def bitsFrom (p : Nat → Bool) (o k : Nat) : Nat :=
  (buildFrom (fun j => if o + j < k && p (o + j) then 2 ^ j else 0) 64 0).foldl (· + ·) 0

/-- mtos (R192). -/
def execMtos (m : BitVec 3) (d : BitVec 6) (a : BitVec 3) (b : BitVec 6) (s : State) : Out :=
  s.maskScalar (.mtos m d a b) m d [b] fun act k =>
    BitVec.ofNat 64 (bitsFrom (fun i => act i && s.strand.mbit a.toNat i) (s.g b).toNat k)

/-! Special functions (R193 to R195). -/

/-- A special function of one floating operand. -/
def State.special (s : State) (i : Instr) (m : BitVec 3) (d a : BitVec 5) (f : FF → Num → FRes) : Out :=
  s.elementwise i s.ty.isFloat m d [a] [] fun e => f (ffOf s.ty.fmt) (decodeNum (ffOf s.ty.fmt) (s.el a e))

/-- vrcp (R193). -/
def execVrcp (m : BitVec 3) (d a : BitVec 5) (s : State) : Out := s.special (.vrcp m d a) m d a fpRcp

/-- vrsq (R193). -/
def execVrsq (m : BitVec 3) (d a : BitVec 5) (s : State) : Out := s.special (.vrsq m d a) m d a fpRsq

/-- vexp2 (R193). -/
def execVexp2 (m : BitVec 3) (d a : BitVec 5) (s : State) : Out := s.special (.vexp2 m d a) m d a fpExp2

/-- The generator of vdraw (R194). -/
def drawWord (k c : Word) (i : Nat) : Word :=
  let z := c + BitVec.ofNat 64 i
  let z := z ^^^ k
  let z := z + 0x9E3779B97F4A7C15
  let z := (z ^^^ (z >>> 30)) * 0xBF58476D1CE4E5B9
  let z := (z ^^^ (z >>> 27)) * 0x94D049BB133111EB
  z ^^^ (z >>> 31)

/-- vdraw (R194): the top w bits of the generator's word. -/
def execVdraw (m : BitVec 3) (d : BitVec 5) (a b : BitVec 6) (s : State) : Out :=
  s.elementwise (.vdraw m d a b) (0x0C ≤ s.ty.fmt && s.ty.fmt ≤ 0x0F) m d [] [a, b] fun e =>
    .pure (drawWord (s.g a) (s.g b) e >>> (64 - s.ty.w)).toNat

/-- vclass (R195). -/
def execVclass (m : BitVec 3) (d a : BitVec 5) (s : State) : Out :=
  s.elementwise (.vclass m d a) s.ty.isFloat m d [a] [] fun e => .pure (2 ^ classBit (ffOf s.ty.fmt) (s.el a e))

end Sys2Proof.Machine
end

