-- ==== Sys2Proof/Machine/VecMem.lean ====
section
/-!
DEFINITION. Vector memory, majors 0x20 to 0x26 and 0x28: loads, stores, gathers, scatters, scatter-adds, vector
atomics, charted streams and vpref (R220 to R241, R249 to R255).
-/
namespace Sys2Proof.Machine

/-! Elements in memory (R220, R222, R226, R229). -/

/-- The elements of one instruction: effective length, bytes each, whether they are nibbles, which are performed, the
address of each or the stop that finding it meets, and the reads that find addresses. -/
structure Access where
  n    : Nat
  sz   : Nat
  nib  : Bool
  on   : Nat → Bool
  addr : Nat → Except Stop Word
  aux  : List (Word × Nat)

/-- The located bytes of element `i` when every check passes (R252); `al` adds the alignment check of vamo. -/
def State.elemLocs (s : State) (need : Need) (al : Bool) (x : Access) (i : Nat) : Except Stop (List Loc) :=
  match x.addr i with
  | .error st => .error st
  | .ok ea => if al && ea.toNat % x.sz ≠ 0 then .error (Stop.plain 2 ea) else s.check s.aspace need ea x.sz

/-- stop(i) (R222): TVAL takes the element's address, or the entry's that could not be read (R240, R252). -/
def State.elemStop (s : State) (need : Need) (al : Bool) (x : Access) (i : Nat) : Option VStop :=
  if x.on i then
    match s.elemLocs need al x i with
    | .error st => some (VStop.mem i ((x.addr i).toOption.getD st.addr) st)
    | .ok _ => none
  else none

/-- The first of `m` elements from `i` that stops (R253). -/
def firstStop (f : Nat → Option VStop) : Nat → Nat → Option VStop
  | 0, _ => none
  | m + 1, i =>
    match f i with
    | some v => some v
    | none => firstStop f m (i + 1)

/-- The stop of an access. -/
def State.accessStop (s : State) (need : Need) (al : Bool) (x : Access) : Option VStop :=
  firstStop (s.elemStop need al x) x.n 0

/-- The byte ranges that an access touches, each with whether it writes: the reads that find addresses, and the elements. -/
def Access.ranges (x : Access) (write : Bool) : List (Bool × Nat × Nat) :=
  (x.aux.map fun e => (false, eaBounds e.1 e.2)) ++
    (buildFrom id x.n 0).filterMap fun i =>
      if x.on i then (match x.addr i with | .ok ea => some (write, eaBounds ea x.sz) | .error _ => none) else none

/-- The interlock entry of an instruction (R263): the bounding range of its elements in [0, n); one that wraps covers every
address. Its owner 0 is no job's number. -/
def Access.entry (x : Access) (write : Bool) : Interlock :=
  let rs := (buildFrom id x.n 0).filterMap fun i => (x.addr i).toOption.map fun ea => eaBounds ea x.sz
  { owner := 0, write := write, lo := rs.foldl (fun l r => min l r.1) (2 ^ 64 - 1), hi := rs.foldl (fun h r => max h r.2) 0
    known := true, bar := false }

/-- What a vector memory instruction that a pre-emption cuts leaves in flight: its interlock entry under SO, and without it a
wait of every later scalar access (R95, R147, R263). -/
def Access.hold (x : Access) (so : BitVec 1) (write : Bool) (c : Cut) : Cut :=
  { c with mem := true, so := c.so || so = 0, held := if so = 1 then c.held ++ [x.entry write] else c.held }

/-- Waiting for the interlock entry that an element conflicts with (R264). -/
def State.clearAll (s : State) (write : Bool) (x : Access) (go : Out) : Out :=
  if s.priv || s.strand.irt.isEmpty then go
  else
    match (x.ranges write).findSome? fun r => s.conflict r.1 r.2.1 r.2.2 with
    | some j => .next (s.stall j)
    | none => go

/-- Filling the TLB with the pages of a list of accesses. -/
def State.touchAll (s : State) (l : List (Word × Nat)) : State := l.foldl (fun t e => t.touch e.1 e.2) s

/-- Filling the TLB with the pages of the reads that find addresses and of the elements below k (R391). -/
def State.touchAccess (s : State) (x : Access) (k : Nat) : State :=
  (s.touchAll x.aux).touchAll <| (buildFrom id k 0).filterMap fun i =>
    if x.on i then (match x.addr i with | .ok ea => some (ea, x.sz) | .error _ => none) else none

/-- The code that element `i` holds in memory. -/
def State.elemMem (s : State) (x : Access) (i : Nat) (ls : List Loc) : Nat :=
  let c := ofBytes (s.bytes ls)
  if x.nib then (if i % 2 = 0 then c % 16 else c / 16) else c

/-- What a load writes (R227): loaded codes, 0 for padding; an element that stops stays unwritten (R255). -/
def State.loadDest (s : State) (g : Grp) (x : Access) (act : Nat → Bool) (k : Nat) : Dest :=
  { s.dest g s.ty.w x.n k act (fun i =>
      if s.pad i then 0
      else match s.elemLocs Need.load false x i with
        | .ok ls => s.elemMem x i ls
        | .error _ => 0) with
    skip := fun i => (s.elemStop Need.load false x i).isSome }

/-- A load of elements (R227, R230, R241), which takes an interlock entry under SO (R263); `post` sets swatches after
k elements are made good. -/
def State.loadElems (s : State) (so : BitVec 1) (g : Grp) (x : Access) (act : Nat → Bool) (copy : Option Nat)
    (post : Nat → State → State) : Out :=
  if x.n = 0 then s.empty
  else
    s.entryRoom (so = 1) <| s.clearAll false x <|
      s.finish x.n .elems (s.accessStop Need.load false x)
        (fun k => post k ((s.touchAccess x k).writeDest 10 copy (s.loadDest g x act k))) (x.hold so false)

/-- The bytes that a store of elements below k writes, in index order (R228). -/
def State.elemWrites (s : State) (x : Access) (code : Nat → Nat) (k : Nat) : List (Loc × Byte) :=
  let locs := fun i => if i < k && x.on i then (s.elemLocs Need.store false x i).toOption else none
  if x.nib then
    (buildFrom id (ceilDiv k 2) 0).flatMap fun j =>
      let put := fun (l : Loc) (lo hi : Bool) =>
        let old := (s.byte l).toNat
        [(l, (BitVec.ofNat 8 ((if lo then code (2 * j) % 16 else old % 16)
          + 16 * (if hi then code (2 * j + 1) % 16 else old / 16)) : Byte))]
      match locs (2 * j), locs (2 * j + 1) with
      | some (l :: _), some _ => put l true true
      | some (l :: _), none => put l true false
      | none, some (l :: _) => put l false true
      | _, _ => []
  else
    (buildFrom id k 0).flatMap fun i =>
      match locs i with
      | some ls => writesOf ls (toBytes x.sz (code i))
      | none => []

/-- Whether a store of elements below k writes only half of a byte (R228). -/
def State.halfByte (s : State) (x : Access) (k : Nat) (l : Loc) : Bool :=
  let holds := fun i => i < k && x.on i &&
    (match s.elemLocs Need.store false x i with
     | .ok ls => (ls.map Loc.plain).contains l
     | .error _ => false)
  x.nib && (buildFrom id (ceilDiv k 2) 0).any fun j => holds (2 * j) != holds (2 * j + 1)

/-- A store of elements (R228, R230, R241): every check first; the home gets a known width only when `known` and the
store completes (R251). -/
def State.storeElems (s : State) (so : BitVec 1) (x : Access) (known : Bool) (code : Nat → Nat) : Out :=
  if x.n = 0 then s.empty
  else
    s.entryRoom (so = 1) <| s.clearAll true x <|
      s.finish x.n .elems (s.accessStop Need.store false x)
        (fun k => (s.touchAccess x k).storePart (if known && k = x.n then some s.ty.w else none) (s.halfByte x k)
          (s.elemWrites x code k)) (x.hold so true)

/-! Contiguous and strided access (R226 to R228). -/

/-- Formats of 8 bits or more (R225). -/
def VType.byteOk (t : VType) : Bool := 8 ≤ t.w

/-- The elements that vld, vst and vpref address (R226). -/
def State.linear (s : State) (a c : BitVec 6) (act : Nat → Bool) : Access :=
  let nib := s.ty.w = 4
  let step : Word := if c = 0 then BitVec.ofNat 64 s.ty.sz else s.g c
  { n := s.n, sz := if nib then 1 else s.ty.sz, nib := nib, on := fun i => act i && !s.pad i
    addr := fun i => .ok (s.g a + (if nib then BitVec.ofNat 64 (i / 2) else BitVec.ofNat 64 i * step))
    aux := [] }

/-- The base is a multiple of the element size. -/
def State.baseAligned (s : State) (a : BitVec 6) : Bool := s.ty.w = 4 || (s.g a).toNat % s.ty.sz = 0

/-- The swatch of the line of a located byte; general outside DRAM. -/
def State.locSw (s : State) (l : Loc) : BitVec 10 := if l.space = .dram then s.ms.lineSw (l.addr / 128) else 0

/-- The first code of width w in the line of a located byte. -/
def State.lineCode (s : State) (w : Nat) (l : Loc) : Nat :=
  ofBytes (s.bytes (locRange l.space (l.addr / 128 * 128) (w / 8)))

/-- A swatch's KIND, POS and FIN (R297). -/
def swKindOf (c : BitVec 10) : Nat := c.toNat % 8
def swPosOf (c : BitVec 10) : Nat := c.toNat / 8 % 64
def swFinOf (c : BitVec 10) : Bool := bitAt c.toNat 9

/-- The swatch that a register's member takes from the elements it read, given with their places (R249, log entry 20). -/
def State.loadSwatch (s : State) (w : Nat) (els : List (Nat × Loc)) : BitVec 10 :=
  match els with
  | [] => 0
  | (_, l0) :: _ =>
    if els.all fun e => s.locSw e.2 = swatchZero then swatchZero
    else if !swWidth w then 0
    else if els.all fun e => swKindOf (s.locSw e.2) = swatchKind false w && s.lineCode w e.2 = s.lineCode w l0 then
      mkSwatch (els.all fun e => swFinOf (s.locSw e.2)) 0 (swatchKind false w)
    else
      let isUnit := fun (e : Nat × Loc) =>
        e.1 < 64 && swKindOf (s.locSw e.2) = swatchKind true w && swPosOf (s.locSw e.2) = e.2.addr % 128 / (w / 8)
      match els.find? isUnit with
      | some u =>
        if els.all fun e => e.2.line = u.2.line || s.locSw e.2 = swatchZero then mkSwatch true u.1 (swatchKind true w)
        else 0
      | none => 0

/-- The places of the elements of member j that a load read. -/
def State.memberEls (s : State) (x : Access) (w j : Nat) : List (Nat × Loc) :=
  (buildFrom id (min (perReg w) (x.n - j * perReg w)) 0).filterMap fun e =>
    let i := j * perReg w + e
    if x.on i then
      match s.elemLocs Need.load false x i with
      | .ok (l :: _) => some (e, l)
      | _ => none
    else none

/-- The swatches that a complete, unmasked, aligned unit-stride load gives its members (R249). -/
def State.loadSwatches (s : State) (g : Grp) (x : Access) (t : State) : State :=
  let w := s.ty.w
  (buildFrom id g.size 0).foldl (fun t j =>
    t.setSw (g.start + j) (s.loadSwatch w (s.memberEls x w j)) (coverOf w x.n j)) t

/-- vld (R226, R227). -/
def execVld (pol : BitVec 2) (so eo : BitVec 1) (m : BitVec 3) (c a : BitVec 6) (d : BitVec 5) (s : State) : Out :=
  let g := s.grp d
  s.vector (.vld pol so eo m c a d) (c = 0 || s.ty.byteOk)
    { loanable := true, field := m.toNat, dest := some g, others := [], regs := [a, c] }
    fun loan copy =>
      let act := s.strand.active m.toNat loan
      let x := s.linear a c act
      s.loadElems so g x act copy fun k t =>
        if c = 0 && m = 0 && loan = .none && copy.isNone && s.baseAligned a && k = x.n then s.loadSwatches g x t else t

/-- vst (R226, R228). -/
def execVst (pol : BitVec 2) (so eo : BitVec 1) (m : BitVec 3) (c a : BitVec 6) (d : BitVec 5) (s : State) : Out :=
  s.vector (.vst pol so eo m c a d) (c = 0 || s.ty.byteOk)
    { loanable := true, field := m.toNat, dest := none, others := [], regs := [a, c] }
    fun loan _ =>
      s.storeElems so (s.linear a c (s.strand.active m.toNat loan))
        (c = 0 && m = 0 && loan = .none && s.baseAligned a) (s.el d)

/-- vpref (R236): a hint that counts and does nothing else. -/
def execVpref (pol : BitVec 2) (m : BitVec 3) (c a : BitVec 6) (lvl : BitVec 1) (s : State) : Out :=
  s.vector (.vpref pol m c a lvl) s.ty.byteOk
    { loanable := true, field := m.toNat, dest := none, others := [], regs := [a, c] }
    fun _ _ => if s.n = 0 then s.empty else s.finish s.n .elems none fun _ => s

/-! Gathers, scatters, scatter-adds and atomics (R229 to R235). -/

/-- The width of an index element. -/
def VType.wi (t : VType) : Nat := max t.w 32

/-- The index group that a field names. -/
def State.idxGrp (s : State) (c : BitVec 5) : Grp := { start := c.toNat, size := ceilDiv (s.ty.g * s.ty.wi) s.ty.w }

/-- The elements that an index group addresses (R229). -/
def State.indexed (s : State) (a : BitVec 6) (c : BitVec 5) (act : Nat → Bool) : Access :=
  { n := s.n, sz := s.ty.sz, nib := false, on := fun i => act i && !s.pad i
    addr := fun i => .ok (s.g a + BitVec.ofInt 64 (signedOf s.ty.wi (s.rd (s.idxGrp c) s.ty.wi i) * s.ty.sz))
    aux := [] }

/-- The format is 8 bits or more and the index group has at most eight registers (R225, R229). -/
def State.indexOk (s : State) (c : BitVec 5) : Bool := s.ty.byteOk && (s.idxGrp c).size ≤ 8

/-- vldx (R229, R230). -/
def execVldx (pol : BitVec 2) (so eo : BitVec 1) (m : BitVec 3) (c : BitVec 5) (a : BitVec 6) (d : BitVec 5) (s : State) : Out :=
  let g := s.grp d
  s.vector (.vldx pol so eo m c a d) (s.indexOk c && g.disjoint (s.idxGrp c))
    { loanable := true, field := m.toNat, dest := some g, others := [s.idxGrp c], regs := [a] }
    fun loan copy =>
      let act := s.strand.active m.toNat loan
      s.loadElems so g (s.indexed a c act) act copy fun _ t => t

/-- vstx (R229, R230). -/
def execVstx (pol : BitVec 2) (so eo : BitVec 1) (m : BitVec 3) (c : BitVec 5) (a : BitVec 6) (d : BitVec 5) (s : State) : Out :=
  s.vector (.vstx pol so eo m c a d) (s.indexOk c)
    { loanable := true, field := m.toNat, dest := none, others := [], regs := [a] }
    fun loan _ => s.storeElems so (s.indexed a c (s.strand.active m.toNat loan)) false (s.el d)

/-- One read-modify-write of each element of [i, i + m) that is performed, in index order, in state `t`; `op` gives
from the element's index and the old code the new one, if any; the monitors of the line fire either way (R137). The
checks and places are those of `s`. Answers the state and the old codes, the latest first. -/
def State.rmwElems (s : State) (al : Bool) (x : Access) (op : Nat → Nat → Option Nat) :
    Nat → Nat → State → List (Nat × Nat) → State × List (Nat × Nat)
  | 0, _, t, olds => (t, olds)
  | m + 1, i, t, olds =>
    if x.on i then
      match s.elemLocs Need.rmw al x i with
      | .ok ls =>
        let old := ofBytes (t.bytes ls)
        let t' := match op i old with
          | some v => t.store none (writesOf ls (toBytes x.sz v))
          | none => t.snoop (dedup (ls.map Loc.line))
        s.rmwElems al x op m (i + 1) t' ((i, old) :: olds)
      | .error _ => s.rmwElems al x op m (i + 1) t olds
    else s.rmwElems al x op m (i + 1) t olds

/-- The formats of vstx.add (R225). -/
def VType.addOk (t : VType) : Bool := t.isFloat || t.isInt8

/-- One addition of vstx.add, the memory value first (R232). -/
def State.addElem (s : State) (d : BitVec 5) (i old : Nat) : FRes :=
  let t := s.ty
  if t.isFloat then
    fpAdd (ffOf t.fmt) (fcsRm s.strand.vfcs) (decodeNum (ffOf t.fmt) old) (decodeNum (ffOf t.fmt) (s.el d i))
  else .pure (addCode t.w old (s.el d i))

/-- vstx.add (R232). -/
def execVstxAdd (pol : BitVec 2) (so eo : BitVec 1) (m : BitVec 3) (c : BitVec 5) (a : BitVec 6) (d : BitVec 5) (s : State) : Out :=
  s.vector (.vstxAdd pol so eo m c a d) (s.indexOk c && s.ty.addOk)
    { loanable := true, field := m.toNat, dest := none, others := [], regs := [a] }
    fun loan _ =>
      let x := s.indexed a c (s.strand.active m.toNat loan)
      if x.n = 0 then s.empty
      else
        s.entryRoom (so = 1) <| s.clearAll true x <|
          s.finish x.n .accum (s.accessStop Need.rmw false x)
            (fun k =>
              let r := s.rmwElems false x (fun i old => some (s.addElem d i old).code) k 0 (s.touchAccess x k) []
              r.1.orFlags (r.2.foldl (fun fl e => fl ||| (s.addElem d e.1 e.2).fl) 0))
            (x.hold so true)

/-- The formats of vamo: i32, i64, n32, n64 (R225). -/
def VType.amoOk (t : VType) : Bool := t.fmt = 0x0A || t.fmt = 0x0B || t.fmt = 0x0E || t.fmt = 0x0F

/-- The shape of every vamo (R234): the value of element i in [MG, n) is what a run without a stop would give (R35). Above
core scope it follows every copy of the strand (R235). -/
def State.vamo (s : State) (i : Instr) (scope : BitVec 3) (legal : Bool) (others : List Grp) (c : BitVec 5) (a : BitVec 6) (d : BitVec 5)
    (op : Nat → Nat → Option Nat) : Out :=
  let g := s.grp d
  let ig := s.idxGrp c
  s.vector i (s.ty.amoOk && s.indexOk c && g.disjoint ig && legal)
    { loanable := true, field := 0, dest := some g, others := ig :: others, regs := [a] }
    fun loan copy =>
      let act := s.strand.active 0 loan
      let x := s.indexed a c act
      if x.n = 0 then s.empty
      else
        s.releasing (scope ≠ 0) <| s.clearAll true x <|
          s.finish x.n .accum (s.accessStop Need.rmw true x)
            (fun k =>
              let t := (s.rmwElems true x op k 0 (s.touchAccess x k) []).1
              let olds := (s.rmwElems true x op x.n 0 s []).2
              t.writeDest 10 copy
                { s.dest g s.ty.w x.n k act (fun e => ((olds.find? fun p => p.1 = e).map (·.2)).getD 0) with
                  skip := fun e => (s.elemStop Need.rmw true x e).isSome })
            fun c => x.hold 0 true (if scope = 0 then c else { c with held := c.held ++ [{ x.entry true with known := false }] })

/-- A vamo whose new code is a function of the width, the old code and the operand (R118, R234). -/
def State.vamoOp (s : State) (i : Instr) (scope : BitVec 3) (c : BitVec 5) (a : BitVec 6) (d : BitVec 5)
    (f : Nat → Nat → Nat → Nat) : Out :=
  s.vamo i scope true [] c a d fun e old => some (f s.ty.w old (s.el d e))

/-- vamo.swap (R234). -/
def execVamoSwap (scope : BitVec 3) (c : BitVec 5) (a : BitVec 6) (d : BitVec 5) (s : State) : Out :=
  s.vamoOp (.vamoSwap scope c a d) scope c a d fun _ _ x => x

/-- vamo.cas (R234): the group v(d+g) holds the new values, disjoint from the data and index groups. -/
def execVamoCas (scope : BitVec 3) (c : BitVec 5) (a : BitVec 6) (d : BitVec 5) (s : State) : Out :=
  let ng : Grp := { start := d.toNat + s.ty.g, size := s.ty.g }
  s.vamo (.vamoCas scope c a d) scope (ng.disjoint (s.grp d) && ng.disjoint (s.idxGrp c)) [ng] c a d fun e old =>
    if old = s.el d e then some (s.rd ng s.ty.w e) else none

/-- vamo.add (R234). -/
def execVamoAdd (scope : BitVec 3) (c : BitVec 5) (a : BitVec 6) (d : BitVec 5) (s : State) : Out :=
  s.vamoOp (.vamoAdd scope c a d) scope c a d addCode

/-- vamo.and (R234). -/
def execVamoAnd (scope : BitVec 3) (c : BitVec 5) (a : BitVec 6) (d : BitVec 5) (s : State) : Out :=
  s.vamoOp (.vamoAnd scope c a d) scope c a d andCode

/-- vamo.or (R234). -/
def execVamoOr (scope : BitVec 3) (c : BitVec 5) (a : BitVec 6) (d : BitVec 5) (s : State) : Out :=
  s.vamoOp (.vamoOr scope c a d) scope c a d orCode

/-- vamo.xor (R234). -/
def execVamoXor (scope : BitVec 3) (c : BitVec 5) (a : BitVec 6) (d : BitVec 5) (s : State) : Out :=
  s.vamoOp (.vamoXor scope c a d) scope c a d xorCode

/-- vamo.min (R234). -/
def execVamoMin (scope : BitVec 3) (c : BitVec 5) (a : BitVec 6) (d : BitVec 5) (s : State) : Out :=
  s.vamoOp (.vamoMin scope c a d) scope c a d (extremeCode true false)

/-- vamo.max (R234). -/
def execVamoMax (scope : BitVec 3) (c : BitVec 5) (a : BitVec 6) (d : BitVec 5) (s : State) : Out :=
  s.vamoOp (.vamoMax scope c a d) scope c a d (extremeCode true true)

/-- vamo.minn (R234). -/
def execVamoMinn (scope : BitVec 3) (c : BitVec 5) (a : BitVec 6) (d : BitVec 5) (s : State) : Out :=
  s.vamoOp (.vamoMinn scope c a d) scope c a d (extremeCode false false)

/-- vamo.maxn (R234). -/
def execVamoMaxn (scope : BitVec 3) (c : BitVec 5) (a : BitVec 6) (d : BitVec 5) (s : State) : Out :=
  s.vamoOp (.vamoMaxn scope c a d) scope c a d (extremeCode false true)

/-! Charted streams (R237 to R241). -/

/-- A chart's fields (R237). -/
structure Chart where
  tbl   : Word
  blkt  : Nat
  hstr  : Word
  tstr  : Word
  start : Word
  deriving DecidableEq, Repr

/-- Reading the chart at `ea` with its checks (R239). -/
def State.readChart (s : State) (ea : Word) : Except Stop Chart :=
  if ea.toNat % 64 ≠ 0 then .error (Stop.plain 2 ea)
  else
    match s.check s.aspace Need.load ea 64 with
    | .error st => .error { st with addr := ea }
    | .ok ls =>
      let f := fun j : Nat => ofBytes ((s.bytes ls).drop (8 * j) |>.take 8)
      let blkt := f 1
      if f 0 % 8 ≠ 0 || !(1 ≤ blkt && blkt ≤ 65536 && blkt = 2 ^ Nat.log2 blkt) || f 5 ≠ 0 || f 6 ≠ 0 || f 7 ≠ 0 then
        .error (Stop.plain 2 ea)
      else
        .ok { tbl := BitVec.ofNat 64 (f 0), blkt := blkt, hstr := BitVec.ofNat 64 (f 2), tstr := BitVec.ofNat 64 (f 3)
              start := BitVec.ofNat 64 (f 4) }

/-- Token of element i (R238). -/
def Chart.token (x : Chart) (sel : Word) (i : Nat) : Word := x.start + BitVec.ofNat 64 (sel.toNat % 2 ^ 32) + BitVec.ofNat 64 i

/-- The address of the block-table entry of element i. -/
def Chart.entryAt (x : Chart) (sel : Word) (i : Nat) : Word :=
  x.tbl + BitVec.ofNat 64 (8 * ((x.token sel i).toNat / x.blkt))

/-- The elements that a chart addresses (R238, R240): the entry of an element's block is read before the element's address
exists, so no element is accessed before the reads of its entry and of the chart (R259). -/
def State.charted (s : State) (ea sel : Word) (x : Chart) (act : Nat → Bool) : Access :=
  let on := fun i => act i && !s.pad i
  { n := s.n, sz := s.ty.sz, nib := false, on := on
    addr := fun i =>
      match s.load8 s.aspace (x.entryAt sel i) with
      | .error st => .error { st with addr := x.entryAt sel i }
      | .ok e =>
        .ok (e + BitVec.ofNat 64 ((x.token sel i).toNat % x.blkt) * x.tstr
          + BitVec.ofNat 64 (bitsAt sel.toNat 32 16) * x.hstr + BitVec.ofNat 64 (bitsAt sel.toNat 48 16 * s.ty.sz))
    aux := (ea, 64) :: (((buildFrom id s.n 0).filter on).map fun i => (x.entryAt sel i, 8)) }

/-- Issue of a chart instruction: the chart is read first, and a malformed or unreadable one traps (R239); only
its fields give the entries and elements that `go` accesses (R259). -/
def State.chartOp (s : State) (i : Instr) (m : BitVec 3) (c a : BitVec 6) (dest : Option Grp)
    (go : Access → (Nat → Bool) → Out) : Out :=
  s.vector i s.ty.byteOk { loanable := false, field := m.toNat, dest := dest, others := [], regs := [a, c] }
    fun loan _ =>
      if s.n = 0 then s.empty
      else
        let ea := s.g a
        let act := s.strand.active m.toNat loan
        let r := eaBounds ea 64
        s.clear false r.1 r.2
          (match s.readChart ea with
           | .error st => s.finish s.n .never (some (VStop.mem 0 ea st)) fun _ => s
           | .ok x => go (s.charted ea (s.g c) x act) act)

/-- vldc (R238 to R241). -/
def execVldc (pol : BitVec 2) (so : BitVec 1) (m : BitVec 3) (c a : BitVec 6) (d : BitVec 5) (s : State) : Out :=
  s.chartOp (.vldc pol so m c a d) m c a (some (s.grp d)) fun x act => s.loadElems so (s.grp d) x act none fun _ t => t

/-- vstc (R238 to R241). -/
def execVstc (pol : BitVec 2) (so : BitVec 1) (m : BitVec 3) (c a : BitVec 6) (d : BitVec 5) (s : State) : Out :=
  s.chartOp (.vstc pol so m c a d) m c a none fun x _ => s.storeElems so x false (s.el d)

end Sys2Proof.Machine
end

