-- ==== Sys2Proof/Machine/Matrix.lean ====
section
/-!
DEFINITION. The matrix unit, majors 0x2C to 0x2F: accumulators and their ownership, outer products, control, row and
column moves (R279 to R304).
-/
namespace Sys2Proof.Machine

/-! Accumulators and their banks (R279, R280). -/

/-- Accumulator Z of the focused core. -/
def State.acc (s : State) (z : BitVec 1) : Acc := if z = 0 then s.core.acc0 else s.core.acc1

/-- Accumulator Z replaced. -/
def State.setAcc (s : State) (z : BitVec 1) (a : Acc) : State :=
  s.setCore (if z = 0 then { s.core with acc0 := a } else { s.core with acc1 := a })

/-- Rows and columns of the extent, and the accumulation format (R280). -/
def Acc.er (a : Acc) : Nat := bitsAt a.mxe.toNat 0 7
def Acc.ec (a : Acc) : Nat := bitsAt a.mxe.toNat 8 8
def Acc.af (a : Acc) : Nat := bitsAt a.mxe.toNat 16 2

/-- Bytes of an element under an accumulation format (R279). -/
def esz (af : Nat) : Nat := if af = 0 then 8 else 4

/-- A row of 512 bytes. -/
abbrev Row := Vector Byte 512

/-- Row number `r` of a bank. -/
def Bank.row (b : Bank) (r : Nat) : Row := vget b.rows r (mkVec 512 fun _ => 0#8)

/-- Element `c` of a row (R279). -/
def rowElem (x : Row) (sz c : Nat) : Nat := ofBytes (buildFrom (fun i => vget x i 0#8) sz (sz * c))

/-- Element (r, c) of a bank. -/
def Bank.elem (b : Bank) (af r c : Nat) : Nat := rowElem (b.row r) (esz af) c

/-- A row with the elements that `f` gives replaced. -/
def rowWith (x : Row) (sz : Nat) (f : Nat → Option Nat) : Row :=
  mkVec 512 fun b =>
    match f (b / sz) with
    | some v => BitVec.ofNat 8 (v / 256 ^ (b % sz))
    | none => vget x b 0#8

/-- A bank with the elements that `f` gives replaced; its swatch and mark as they were. -/
def Bank.with (b : Bank) (af : Nat) (f : Nat → Nat → Option Nat) : Bank :=
  { b with rows := mkVec 64 fun r => rowWith (b.row r) (esz af) (f r) }

/-! Ownership (R282, R283). -/

/-- The strand's SAVED bit of accumulator Z. -/
def State.savedBit (s : State) (z : BitVec 1) : Bool := if z = 0 then s.strand.saved0 else s.strand.saved1

/-- The ownership check of R283: proceed, claim, or trap with cause 0x08. -/
def State.own (s : State) (z : BitVec 1) (go : State → Out) : Out :=
  let a := s.acc z
  if a.mine s.strand.tag then go s
  else if !a.owned && !s.savedBit z then go (s.setAcc z { Acc.reset with own := s.strand.tag, owned := true })
  else s.trap (Trap.mk0 0x08 0 0 true)

/-- Reading a bank that is marked poisoned traps (R286). -/
def State.bankRead (s : State) (b : Bank) (go : Out) : Out :=
  if b.poison then s.finish 1 .never (some (VStop.plain 0 3 0)) fun _ => s else go

/-- How a matrix instruction issues. -/
def mxForm (m : BitVec 3) (dest : Option Grp) (others : List Grp) (regs : List (BitVec 6)) : VForm :=
  { loanable := false, field := m.toNat, dest := dest, others := others, regs := regs }

/-- A rejected operand: kind 6 on the leading element (R294). -/
def reject (bad : Bool) : Option VStop := if bad then some (VStop.plain 0 6 0) else none

/-! Outer products (R287 to R290). -/

/-- A format that some pair of R281 holds. -/
def VType.opOk (t : VType) : Bool :=
  t.fmt ≤ 5 || t.fmt = 0x08 || t.fmt = 0x0C || t.isE2m1 || t.isP4

/-- The pairs of R281. -/
def VType.pairOk (t : VType) (af : Nat) : Bool :=
  if t.fmt = 0 then af = 0
  else if t.fmt = 1 then af = 0 || af = 1
  else if t.fmt = 0x08 || t.fmt = 0x0C then af = (if t.blk = 0 then 2 else 1)
  else t.opOk && af = 1

/-- The floating format of an accumulation format. -/
def afFF (af : Nat) : FF := if af = 0 then ffF64 else ffF32

/-- An operand element's value, with the factor of its block from byte `base` of the scale register (R290). -/
def State.opVal (s : State) (v sc : BitVec 5) (base i : Nat) : Num :=
  let t := s.ty
  let x := s.strand.value t.fmt (s.strand.elem v.toNat t.w i)
  if t.blk = 0 then x else scaleBy (regElem (s.strand.vreg sc.toNat) 8 (base + i / t.blk)) x

/-- The product is an exact zero (R289). -/
def zeroProduct (a b : Num) : Bool :=
  (a.isZero && !b.isNan && !b.isInf) || (b.isZero && !a.isNan && !a.isInf)

/-- acc ± a × b (R288, R289). -/
def mac (f : FF) (rm : Rnd) (sub : Bool) (acc : Nat) (a b : Num) : FRes :=
  if zeroProduct a b then .pure acc
  else
    let x := decodeNum f acc
    if x.isNan || a.isNan || b.isNan then nanOr f [x, a, b] (if infZero a b then fInvalid else 0)
    else fpFma f rm sub false a b x

/-- acc ± a × b modulo 2^32 (R290). -/
def macInt (sub : Bool) (acc : Nat) (a b : Int) : Nat := wrapTo 32 ((acc : Int) + if sub then -(a * b) else a * b)

/-- What an outer product computes. -/
structure Product where
  na  : Nat
  nb  : Nat
  onA : Nat → Bool
  onB : Nat → Bool
  at_ : Nat → Nat → FRes

/-- The exceptions of row i. -/
def Product.rowFlags (p : Product) (i : Nat) : Flags :=
  if p.onA i then flagsUpTo (fun j => if p.onB j then (p.at_ i j).fl else 0) p.nb 0 else 0

/-- The outer product of an issued instruction over accumulator `a` (R288). -/
def State.product (s : State) (a : Acc) (sub : Bool) (mb ma : BitVec 3) (vb va sc : BitVec 5) : Product :=
  let t := s.ty
  let n := s.n
  let int := fun (v : BitVec 5) i => if t.isI then signedOf t.w (s.strand.elem v.toNat t.w i) else ((s.strand.elem v.toNat t.w i : Nat) : Int)
  { na := min n a.er, nb := min n a.ec
    onA := fun i => s.strand.active ma.toNat .none i, onB := fun j => s.strand.active mb.toNat .none j
    at_ := fun i j =>
      let old := a.work.elem a.af i j
      if a.af = 2 then .pure (macInt sub old (int va i) (int vb j))
      else mac (afFF a.af) (fcsRm s.strand.vfcs) sub old (s.opVal va sc 0 i) (s.opVal vb sc 16 j) }

/-- A register's swatch is zero over its first `n` elements, or finite over them (R299, R301). -/
def State.swCovers (s : State) (v : BitVec 5) (n : Nat) : Bool := n * s.ty.w ≤ 4 * (vget s.strand.sw v.toNat { code := 0, len := 0 }).len
def State.swCode (s : State) (v : BitVec 5) : BitVec 10 := (vget s.strand.sw v.toNat { code := 0, len := 0 }).code

/-- The first two cases of R301: the whole product may be skipped. -/
def State.mayElide (s : State) (p : Product) (vb va : BitVec 5) : Bool :=
  s.ty.blk = 0 && s.swCovers va p.na && s.swCovers vb p.nb &&
    ((swKindOf (s.swCode va) = 1 && swFinOf (s.swCode vb)) || (swKindOf (s.swCode vb) = 1 && swFinOf (s.swCode va)))

/-- The working bank after rows below k of a product: the elements, and the swatch of R300, which a skipped product and
one without an active pair leave (skipping is a choice of the issue stage, R301). -/
def State.opBank (s : State) (a : Acc) (p : Product) (vb va : BitVec 5) (k : Nat) : Bank :=
  let b := a.work.with a.af fun i j =>
    if i < k && i < p.na && j < p.nb && p.onA i && p.onB j then some (p.at_ i j).code else none
  let pair := (firstIdx p.onA p.na 0).isSome && (firstIdx p.onB p.nb 0).isSome
  let skipped := s.mayElide p vb va && b.rows = a.work.rows && s.choose 5 0
  { b with zero := a.work.zero && (!pair || skipped) }

/-- The shape of opadd and opsub (R287 to R291). One of n above 0 reads its working bank, and meets the bank's mark, whether or
not it adds anything (DESIGN CHOICE, log entry 90). -/
def State.outer (s : State) (i : Instr) (sub : Bool) (z : BitVec 1) (mb ma : BitVec 3) (vb va sc : BitVec 5) : Out :=
  s.vector i ((s.ty.blk ≠ 0 || sc = 0) && s.ty.opOk) (mxForm 0 none [] []) fun _ _ =>
    s.own z fun s =>
      let a := s.acc z
      if !s.ty.pairOk a.af then s.illegal i 2
      else if s.n = 0 then s.empty
      else
        s.bankRead a.work <|
          let p := s.product a sub mb ma vb va sc
          let en := fcsEn s.strand.vfcs
          let stop :=
            match firstIdx (fun i => (p.rowFlags i &&& en) ≠ 0) p.na 0 with
            | some i => some (VStop.plain i 4 (p.rowFlags i &&& en).toNat)
            | none => none
          s.finish s.n .never stop fun k =>
            (s.setAcc z { a with work := s.opBank a p vb va k }).orFlags (flagsUpTo p.rowFlags (min k p.na) 0)

/-- opadd (R287, R288). -/
def execOpadd (z : BitVec 1) (mb ma : BitVec 3) (b a sc : BitVec 5) (s : State) : Out :=
  s.outer (.opadd z mb ma b a sc) false z mb ma b a sc

/-- opsub (R287, R288). -/
def execOpsub (z : BitVec 1) (mb ma : BitVec 3) (b a sc : BitVec 5) (s : State) : Out :=
  s.outer (.opsub z mb ma b a sc) true z mb ma b a sc

/-! Control (R294, R295). -/

/-- The shape of a control instruction: ownership, n = 0, the rejection, then one effect in full. -/
def State.mxControl (s : State) (i : Instr) (z : BitVec 1) (d : BitVec 6) (regs : List (BitVec 6)) (bad : State → Bool)
    (effect : State → State) : Out :=
  s.vector i true (mxForm 0 none [] regs) fun _ _ =>
    s.own z fun s =>
      if s.n = 0 then (s.takeLastd d).empty
      else s.finish s.n .never (reject (bad s)) fun _ => effect s

/-- mzero: the working bank becomes zero, and its mark is cleared (R286, R294). -/
def execMzero (z : BitVec 1) (s : State) : Out :=
  s.mxControl (.mzero z) z 0 [] (fun _ => false) fun s => s.setAcc z { s.acc z with work := Bank.reset }

/-- mswap: the banks change places with their swatches and marks (R294). -/
def execMswap (z : BitVec 1) (s : State) : Out :=
  s.mxControl (.mswap z) z 0 [] (fun _ => false) fun s =>
    s.setAcc z { s.acc z with work := (s.acc z).vis, vis := (s.acc z).work }

/-- What mext rejects (R294). -/
def mextBad (x : Word) : Bool :=
  let n := x.toNat
  let er := bitsAt n 0 7
  let ec := bitsAt n 8 8
  let af := bitsAt n 16 2
  er = 0 || 64 < er || ec = 0 || 128 < ec || (af = 0 && 64 < ec) || af = 3 || bitsAt n 18 46 ≠ 0 || bitAt n 7

/-- mext: the extent and format (R294). -/
def execMext (z : BitVec 1) (a : BitVec 6) (s : State) : Out :=
  s.mxControl (.mext z a) z 0 [a] (fun s => mextBad (s.g a)) fun s => s.setAcc z { s.acc z with mxe := keepBits (s.g a) 0 18 }

/-- The origin that mgang binds: gr × ER and gc × EC (R295). -/
def State.gang (s : State) (z : BitVec 1) (x : Word) : Nat × Nat :=
  let gc := bitsAt x.toNat 0 5
  let p := s.strand.index
  (p / gc * (s.acc z).er, p % gc * (s.acc z).ec)

/-- What mgang rejects (R295). -/
def State.gangBad (s : State) (z : BitVec 1) (x : Word) : Bool :=
  let gc := bitsAt x.toNat 0 5
  let o := s.gang z x
  bitsAt x.toNat 5 59 ≠ 0 || gc = 0 || 16 < gc || 256 < o.1 + (s.acc z).er || 512 < o.2 + (s.acc z).ec

/-- mgang: OR and OC bound, and gd := OR × 2^32 + OC (R295). -/
def execMgang (z : BitVec 1) (d a : BitVec 6) (s : State) : Out :=
  s.mxControl (.mgang z d a) z d [d, a] (fun s => s.gangBad z (s.g a)) fun s =>
    let o := s.gang z (s.g a)
    let ac := s.acc z
    (s.setAcc z { ac with mxe := keepBits ac.mxe 0 18 + BitVec.ofNat 64 (2 ^ 24 * o.1 + 2 ^ 32 * o.2) }).wr d
      (BitVec.ofNat 64 (o.1 * 2 ^ 32 + o.2))

/-- A bank's swatch: zero or general (R300). -/
def Bank.sw (b : Bank) : BitVec 10 := if b.zero then swatchZero else 0

/-- mcls: the swatches of the two banks and of a register (R294). -/
def execMcls (z : BitVec 1) (d : BitVec 6) (a : BitVec 5) (s : State) : Out :=
  s.mxControl (.mcls z d a) z d [d] (fun _ => false) fun s =>
    s.wr d (BitVec.ofNat 64 ((s.acc z).work.sw.toNat + 2 ^ 16 * (s.acc z).vis.sw.toNat + 2 ^ 32 * (s.swCode a).toNat))

/-! Row and column moves (R296). -/

/-- The TYPE format is the one that AF names. -/
def VType.isAf (t : VType) (af : Nat) : Bool :=
  (t.fmt = 0 && af = 0) || (t.fmt = 1 && af = 1) || (t.fmt = 0x0A && af = 2)

/-- The shape of mrow and mcol: the format after ownership, n = 0, the mark of a bank that is read (R286), the index, then
the elements. No rule orders the trap on a marked bank and the stop on a rejected index (R286, R296): the model takes the mark
first (DESIGN CHOICE, log entry 90). -/
def State.mxMove (s : State) (i : Instr) (z : BitVec 1) (col reads : Bool) (m : BitVec 3) (a : BitVec 6) (f : VForm)
    (commit : State → (Nat → Bool) → Nat → Nat → State) : Out :=
  s.vector i true { f with field := m.toNat, regs := [a] } fun loan _ =>
    s.own z fun s =>
      let ac := s.acc z
      if !s.ty.isAf ac.af then s.illegal i 2
      else if s.n = 0 then s.empty
      else
        let x := (s.g a).toNat
        let act := s.strand.active m.toNat loan
        let run := s.finish s.n .never (reject ((if col then ac.ec else ac.er) ≤ x)) fun _ =>
          commit s act x (if col then ac.er else ac.ec)
        if reads then s.bankRead ac.vis run else run

/-- A reading move: elements beyond the extent read as 0 bits. -/
def State.mxRead (s : State) (i : Instr) (z : BitVec 1) (col : Bool) (m : BitVec 3) (a : BitVec 6) (d : BitVec 5) : Out :=
  let g := s.grp d
  s.mxMove i z col true m a (mxForm m (some g) [] []) fun s act x lim =>
    let ac := s.acc z
    s.writeGroup 10 (s.dest g s.ty.w s.n s.n act fun e =>
      if e < lim then (if col then ac.vis.elem ac.af e x else ac.vis.elem ac.af x e) else 0)

/-- A writing move: a write of any element makes the visible swatch general. -/
def State.mxWrite (s : State) (i : Instr) (z : BitVec 1) (col : Bool) (m : BitVec 3) (a : BitVec 6) (d : BitVec 5) : Out :=
  s.mxMove i z col false m a (mxForm m none [s.grp d] []) fun s act x lim =>
    let ac := s.acc z
    let on := fun e => e < s.n && e < lim && act e
    let b := ac.vis.with ac.af fun r c =>
      let e := if col then r else c
      if (if col then c else r) = x && on e then some (s.el d e) else none
    s.setAcc z { ac with vis := { b with zero := b.zero && (firstIdx on s.n 0).isNone } }

/-- mrow, reading (R296). -/
def execMrowRead (z : BitVec 1) (m : BitVec 3) (a : BitVec 6) (d : BitVec 5) (s : State) : Out :=
  s.mxRead (.mrowRead z m a d) z false m a d

/-- mrow, writing (R296). -/
def execMrowWrite (z : BitVec 1) (m : BitVec 3) (a : BitVec 6) (d : BitVec 5) (s : State) : Out :=
  s.mxWrite (.mrowWrite z m a d) z false m a d

/-- mcol, reading (R296). -/
def execMcolRead (z : BitVec 1) (m : BitVec 3) (a : BitVec 6) (d : BitVec 5) (s : State) : Out :=
  s.mxRead (.mcolRead z m a d) z true m a d

/-- mcol, writing (R296). -/
def execMcolWrite (z : BitVec 1) (m : BitVec 3) (a : BitVec 6) (d : BitVec 5) (s : State) : Out :=
  s.mxWrite (.mcolWrite z m a d) z true m a d

end Sys2Proof.Machine
end

