-- ==== Sys2Proof/Machine/Pages.lean ====
section
/-!
DEFINITION. Pages of a berth's memory as the Bridge firmware and Pilot take them (R383, R386, R393; log entry 9): pages
in rising order over the berth's channel groups, freed pages first; and reports about a physical address.
-/
namespace Sys2Proof.Machine

/-- 64 KiB pages of a channel group. -/
def groupPages : Nat := groupSize / 65536

/-- The channel groups of a berth in rising order (R395). -/
def Berth.groupList (b : Berth) : List Nat := (buildFrom id 64 0).filter (bitAt b.groups)

/-- The physical address of the berth's page number p. -/
def Berth.pageAddr (b : Berth) (p : Nat) : Option Nat :=
  (b.groupList[p / groupPages]?).map fun g => g * groupSize + p % groupPages * 65536

/-- Taking a page. -/
def Berth.allocPage (b : Berth) : Option (Nat × Berth) :=
  match b.freed with
  | a :: t => some (a, { b with freed := t })
  | [] => (b.pageAddr b.nextPage).map fun a => (a, { b with nextPage := b.nextPage + 1 })

/-- Giving a page back. -/
def Berth.freePage (b : Berth) (a : Nat) : Berth := { b with freed := a :: b.freed }

/-- Taking a save area of 0x4_9000 bytes from the pool that the lead core hands Pilot (R386): one given back, or five
pages of one channel group. -/
def Berth.allocSave (b : Berth) : Option (Nat × Berth) :=
  match b.saves with
  | a :: t => some (a, { b with saves := t })
  | [] =>
    let p := if groupPages < b.nextPage % groupPages + 5 then (b.nextPage / groupPages + 1) * groupPages else b.nextPage
    (b.pageAddr p).map fun a => (a, { b with nextPage := p + 5 })

/-- The berth-relative number of a physical page (R436). -/
def Berth.pageNo (b : Berth) (m : List MapRange) (pa : Nat) : Nat :=
  (b.groupList.findIdx (· = groupOf m pa)) * 98304 + (homeOf m pa).2 % groupSize / 65536

/-- The berth whose channel groups hold a physical address. -/
def State.ownerOf (s : State) (pa : Nat) : Option Nat :=
  (buildFrom id 16 0).find? fun b => (s.berthAt b).ownsDram s.ms.addrMap pa

/-- A report about a physical address of device DRAM (R436, R437), of unit 1 with its group's instance on its die, or of the
cluster whose cache held it, unit 2. -/
def State.dramReport (s : State) (cache : Option Nat) (cls synd pa count : Nat) (tag : Option (BitVec 16)) : State :=
  let b := s.ownerOf pa
  let unit := if cache.isSome then 2 else 1
  let inst := match cache with | some c => c % 48 | none => groupOf s.ms.addrMap pa % 16
  let die := match cache with | some c => c / 48 | none => s.ms.homeDie pa
  s.report (reportWord unit inst die false cls synd (b.getD 0) b.isSome b.isSome)
    (match b with | some k => BitVec.ofNat 64 ((s.berthAt k).pageNo s.ms.addrMap pa) | none => 0)
    (BitVec.ofNat 64 ((tag.getD 0).toNat + 2 ^ 32 * count)) tag b

end Sys2Proof.Machine
end

