-- ==== Sys2Proof/Machine/Context.lean ====
section
/-!
DEFINITION. The save area of a context: saving and restoring a context, spilling and loading an accumulator
(R42, R151, R266, R284, R307, R321, R386, R387).
-/
namespace Sys2Proof.Machine

/-- The state with a context of the population in focus, to read or change it in place. -/
def State.viewCtx (s : State) (c : Ctx) : State :=
  { s with
    priv := false, hart := c.hart, strand := c.strand
    core := s.pop.coreAt c.strand.core, flot := s.pop.flotAt c.strand.flot }

/-- A context of the population replaced. -/
def State.putCtx (s : State) (c : Ctx) : State :=
  s.setPop { s.pop with ctxs := s.pop.ctxs.map fun x => if x.strand.tag = c.strand.tag then c else x }

/-- Bytes of 64-bit words. -/
def wordBytes (ws : List Word) : List Byte := ws.flatMap fun w => toBytes 8 w.toNat

/-- A pending token's slot: the register number in bits 7:0 and the state in bits 15:8 of the first word, then the value
(R386; the places are a DESIGN CHOICE, log entry 30). -/
def tokenSlot (reg : BitVec 6) (state : Nat) (value : Word) : List Word := [BitVec.ofNat 64 (reg.toNat + 256 * state), value]

/-- The 16 slots of pending tokens. -/
def tokenSlots (ts : List Token) : List Word :=
  (ts.take 16).flatMap (fun t => tokenSlot t.reg 1 0) ++ List.replicate (32 - 2 * min 16 ts.length) 0

/-- The words from 0xB20: CASP, CROOT, CCAUSE, CTVAL, CPC, then the kept record (R386). -/
def Strand.recordWords (st : Strand) : List Word :=
  [st.casp, st.croot, st.ccause, st.ctval, st.cpc, st.kept.lastd.setWidth 64, st.kept.mg, st.kept.mgs, st.kept.mgf,
   st.kept.mgr, st.kept.mgc, st.kept.sreq] ++ List.replicate 16 0

/-- The bytes of a mask register. -/
def maskBytes (m : MReg) : List Byte :=
  buildFrom (fun b => BitVec.ofNat 8 ((buildFrom (fun i => if vget m (8 * b + i) false then 2 ^ i else 0) 8 0).foldl (· + ·) 0)) 4096 0

/-- What a save writes, by offset (R386, R387): all but the accumulators. -/
def State.saveParts (s : State) (c : Ctx) : List (Nat × List Byte) :=
  let v := s.viewCtx c
  [(0, wordBytes (buildFrom (fun r => c.hart.get r) 64 0)),
   (0x200, wordBytes (buildFrom (fun j => (v.readReg j).getD 0) 256 0)),
   (0xA00, buildFrom (fun j => BitVec.ofNat 8 (vget c.strand.tide j 0)) 32 0),
   (0xA20, wordBytes (tokenSlots c.strand.tokens)),
   (0xB20, wordBytes c.strand.recordWords),
   (0x1000, (buildFrom (fun j => maskBytes (vget c.strand.m j (mkVec 32768 fun _ => false))) 8 0).flatten),
   (0x39000, wordBytes (c.strand.gents.flatMap fun e => [e.1, e.2]))]
  ++ buildFrom (fun j =>
      (0x9000 + 2048 * j, buildFrom (fun b => vget (c.strand.vreg j) b 0) (256 * vget c.strand.tide j 0) 0)) 32 0

/-- The physical address of a context's save area, a multiple of 4096 (R377). -/
def Strand.saveAt (st : Strand) : Nat := st.csav.toNat / 4096 * 4096

/-- A context saved to its save area (R387). -/
def State.saveCtx (s : State) (c : Ctx) : State :=
  (s.saveParts c).foldl (fun t p => t.writePhys (c.strand.saveAt + p.1) p.2) s

/-- A mask register from its bytes. -/
def maskOf (f : Nat → Byte) : MReg := mkVec 32768 fun i => bitAt (f (i / 8)).toNat (i % 8)

/-- A context as its save area restores it (R387): what the save wrote and nothing else; register swatches general,
the monitor disarmed, the gazetteer's summary rebuilt from the table's entries that the context can read on its core, and its
mark cleared (R321, R322), delivered tokens in their registers (R355). FID, like FGR and BM, stays the flotilla's (R17), and the fetched
parcels stay (R268). -/
def State.restoreCtx (s : State) (c : Ctx) : Ctx :=
  let b := c.strand.saveAt
  let word := fun (o : Nat) => s.phys8 (b + o)
  let reg := fun (j : Nat) => word (0x200 + 8 * j)
  let byte := fun (o : Nat) => memGet s.ms.dram (b + o)
  let tide := fun (j : Nat) => min 8 (byte (0xA00 + j)).toNat
  let slots := buildFrom (fun k => (word (0xA20 + 16 * k), word (0xA28 + 16 * k))) 16 0
  let done := slots.filter fun x => bitsAt x.1.toNat 8 8 = 2
  let hart : Hart :=
    { g := mkVec 64 fun r => if r = 0 then 0 else word (8 * r)
      pc := c.hart.pc, lastd := (reg 0x47).setWidth 6, pfxs := (reg 0x4B).setWidth 32, insn := reg 0x01, sfcs := reg 0x08
      monArmed := false, monFired := false, monLine := none, wait := .running }
  let hart := done.foldl (fun h x => h.put (bitsAt x.1.toNat 0 6) x.2) hart
  let st : Strand :=
    { c.strand with
      v := mkVec 32 fun j => mkVec 2048 fun i => if i < 256 * tide j then byte (0x9000 + 2048 * j + i) else 0
      tide := mkVec 32 tide, sw := mkVec 32 fun _ => { code := 0, len := 0 }
      m := mkVec 8 fun j => maskOf fun i => byte (0x1000 + 4096 * j + i)
      type := (reg 0x50).setWidth 12, vfcs := reg 0x51, spth := (reg 0x52).setWidth 9
      spare := mkVec 4 fun j => (reg (0x54 + j)).setWidth 16
      pal := mkVec 16 fun j => reg (0x58 + j)
      ach := (reg 0x68).setWidth 3, tshp := reg 0x69, saved0 := bitAt (reg 0x6A).toNat 49, saved1 := bitAt (reg 0x6A).toNat 50
      mg := reg 0x40, mgs := reg 0x41, mgf := reg 0x42, mgr := reg 0x43, mgc := reg 0x44, sreq := reg 0x45
      tvec := reg 0x10, tscr := reg 0x11, tcause := reg 0x12, tpc := reg 0x13, tval := reg 0x14, tpfx := reg 0x15
      inh := bitAt (reg 0x16).toNat 0, sid := reg 0x49, lcnt := reg 0x4A
      govb := reg 0x71, govl := reg 0x72, govc := reg 0x73, gflt := reg 0x74
      gents := buildFrom (fun i => (word (0x39000 + 16 * i), word (0x39008 + 16 * i))) (min 4096 (reg 0x70).toNat) 0
      gsum := [], gunk := [], gpois := false, prio := reg 0x78, spnr := reg 0x7A, tcsp := reg 0x80, tmid := reg 0x81
      casp := word 0xB20, croot := word 0xB28, ccause := word 0xB30, ctval := word 0xB38, cpc := word 0xB40
      kept := { lastd := (word 0xB48).setWidth 6, mg := word 0xB50, mgs := word 0xB58, mgf := word 0xB60
                mgr := word 0xB68, mgc := word 0xB70, sreq := word 0xB78, grant := c.strand.kept.grant }
      tokens := c.strand.tokens.filter fun t => !(done.any fun x => bitsAt x.1.toNat 0 6 = t.reg.toNat)
      irt := [] }
  let v := s.viewCtx { hart := hart, strand := st }
  let found := buildFrom (fun e =>
    match v.check v.aspace Need.load (st.govb + BitVec.ofNat 64 (16 * e)) 16 with
    | .ok ls =>
      let bs := v.bytes ls
      some ((BitVec.ofNat 64 (ofBytes (bs.take 8)) : Word), (BitVec.ofNat 64 (ofBytes (bs.drop 8)) : Word))
    | .error _ => none) st.govc.toNat 0
  { hart := hart
    strand := { st with
      gsum := found.map fun x => x.getD (0, 0)
      gunk := (found.zipIdx.filter fun x => x.1.isNone).map (·.2) } }

/-- The halted context of a tag is saved, and its slot is free (R266, R387); a copy in flight ends first. -/
def State.parkCtx (s : State) (tag : BitVec 16) : State :=
  s.over fun s =>
    match s.pop.ctxAt tag with
    | some c =>
      if c.strand.status ≠ .halted then s
      else if !c.strand.irt.isEmpty then s
      else (s.saveCtx c).putCtx { c with strand := { c.strand with status := .parked } }
    | none => s

/-- The halted context that the input names is written to its save area (R387). -/
def execContextSave (s : State) : Out := .next ((s.parkCtx s.inp.tag).idle)

/-! Accumulators in the save area (R284, R307, R386). -/

/-- Where the save area holds MXE of accumulator z, its bank swatches, and its banks. -/
def mxeOff (z : BitVec 1) : Nat := 0xC00 + 8 * z.toNat
def swOff (z : BitVec 1) (b : Nat) : Nat := 0xC10 + 8 * (2 * z.toNat + b)
def bankOff (z : BitVec 1) (b : Nat) : Nat := 0x19000 + 0x8000 * (2 * z.toNat + b)

/-- The extent's elements of a bank in row order. -/
def Acc.bankBytes (a : Acc) (b : Bank) : List Byte :=
  (buildFrom (fun r => (buildFrom (fun c => toBytes (esz a.af) (b.elem a.af r c)) a.ec 0).flatten) a.er 0).flatten

/-- One bank spilled: its swatch, and its elements when the swatch is general. -/
def State.spillBank (s : State) (at_ : Nat) (z : BitVec 1) (i : Nat) (a : Acc) (b : Bank) : State :=
  let s := s.writePhys (at_ + swOff z i) (toBytes 8 b.sw.toNat)
  if b.zero then s else s.writePhys (at_ + bankOff z i) (a.bankBytes b)

/-- Accumulator z of a core. -/
def Core.acc (k : Core) (z : BitVec 1) : Acc := if z = 0 then k.acc0 else k.acc1

/-- Accumulator z of a core replaced. -/
def Core.withAcc (k : Core) (z : BitVec 1) (a : Acc) : Core :=
  if z = 0 then { k with acc0 := a } else { k with acc1 := a }

/-- A context's SAVED bit. -/
def Strand.savedAcc (st : Strand) (z : BitVec 1) : Bool := if z = 0 then st.saved0 else st.saved1

/-- A context with its SAVED bit set or cleared. -/
def Strand.withSaved (st : Strand) (z : BitVec 1) (x : Bool) : Strand :=
  if z = 0 then { st with saved0 := x } else { st with saved1 := x }

/-- The SAVED bit of a context of the population; a saved context's area holds it in the AOWN word. -/
def State.markSaved (s : State) (c : Ctx) (z : BitVec 1) (x : Bool) : State :=
  let c := { c with strand := c.strand.withSaved z x }
  let s := s.putCtx c
  if c.strand.status = .saved || c.strand.status = .parked then
    s.writePhys (c.strand.saveAt + 0x200 + 8 * 0x6A) (toBytes 8 (((s.viewCtx c).readReg 0x6A).getD 0).toNat)
  else s

/-- Step 2 of R284 on core `id`: the owner's state goes to the owner's save area; V is cleared (R285). -/
def State.spillAcc (s : State) (id : Nat) (z : BitVec 1) : State :=
  let k := s.pop.coreAt id
  let a := k.acc z
  if !a.owned then s
  else
    match s.pop.ctxAt a.own with
    | none => s
    | some c =>
      let at_ := c.strand.saveAt
      let s := s.writePhys (at_ + mxeOff z) (toBytes 8 a.mxe.toNat)
      let s := (s.spillBank at_ z 0 a a.work).spillBank at_ z 1 a a.vis
      let s := s.setPop { s.pop with cores := putBy Core.id (k.withAcc z { a with owned := false }) s.pop.cores }
      s.markSaved c z true

/-- One bank restored: zero, or its elements from the save area; the mark is cleared (R286). A spill saves the extent alone
(R284, R307), and no rule gives what else a general bank then holds: free values (DESIGN CHOICE, log entry 17). -/
def State.loadBank (s : State) (at_ : Nat) (z : BitVec 1) (i : Nat) (a : Acc) : Bank :=
  if s.phys8 (at_ + swOff z i) = 0x201 then Bank.reset
  else
    { Bank.reset.with a.af (fun r c =>
        some (if r < a.er && c < a.ec then ofBytes (memRead s.ms.dram (at_ + bankOff z i + (r * a.ec + c) * esz a.af) (esz a.af))
          else s.free 26 (((2 * z.toNat + i) * 64 + r) * 128 + c) % 2 ^ (8 * esz a.af))) with zero := false }

/-- Steps 3 and 4 of R284 for a context on core `id`. -/
def State.loadAcc (s : State) (id : Nat) (z : BitVec 1) (c : Ctx) : State :=
  let k := s.pop.coreAt id
  let at_ := c.strand.saveAt
  let base := { Acc.reset with own := c.strand.tag, owned := true }
  let a :=
    if c.strand.savedAcc z then
      let a := { base with mxe := s.phys8 (at_ + mxeOff z) }
      { a with work := s.loadBank at_ z 0 a, vis := s.loadBank at_ z 1 a }
    else base
  let s := s.setPop { s.pop with cores := putBy Core.id (k.withAcc z a) s.pop.cores }
  if c.strand.savedAcc z then s.markSaved c z false else s

end Sys2Proof.Machine
end

