-- ==== Sys2Proof/Machine/Permute.lean ====
section
/-!
DEFINITION. Permutations and conflict detection, majors 0x1D and 0x1E (R208 to R211).
-/
namespace Sys2Proof.Machine

/-- Active elements among [0, i). -/
def activeBelow (act : Nat → Bool) (i : Nat) : Nat := countBits act i 0

/-- The index of the active element with exactly p active elements before it, among `m` from `i`. -/
def nthActive (act : Nat → Bool) : Nat → Nat → Nat → Option Nat
  | 0, _, _ => none
  | m + 1, i, p => if act i then (if p = 0 then some i else nthActive act m (i + 1) (p - 1)) else nthActive act m (i + 1) p

/-- A permutation (R208, R209): element i of a run that makes good k is `res k i`; an element from k to n is old or that
of a whole run. `governs` tells whether the mask governs the destination; an active element that `keeps` holds of is left
unwritten, in the destination and in a copy (R66). -/
def State.permuteKeep (s : State) (i : Instr) (m : BitVec 3) (d : BitVec 5) (srcs : List (BitVec 5)) (regs : List (BitVec 6))
    (governs : Bool) (keeps : Nat → Bool) (res : (Nat → Bool) → Nat → Nat → Nat) : Out :=
  let dg := s.grp d
  let sg := srcs.map s.grp
  s.vector i (sg.all dg.disjoint)
    { loanable := true, field := m.toNat, dest := some dg, others := sg, regs := regs }
    fun loan copy =>
      let n := s.n
      if n = 0 then s.empty
      else
        let act := s.strand.active m.toNat loan
        s.finish n .elems none fun k =>
          s.writeDest 10 copy
            { s.dest dg s.ty.w n k (if governs then act else fun _ => true)
                (fun e => if e < k then res act k e else res act n e) with skip := fun e => keeps e && act e }

/-- A permutation that writes every active element. -/
def State.permute (s : State) (i : Instr) (m : BitVec 3) (d : BitVec 5) (srcs : List (BitVec 5)) (regs : List (BitVec 6))
    (governs : Bool) (res : (Nat → Bool) → Nat → Nat → Nat) : Out :=
  s.permuteKeep i m d srcs regs governs (fun _ => false) res

/-- vslup: a[i − s]; below s an active element stays as it was, in vd and in a copy of it (R66, R209). -/
def execVslup (m : BitVec 3) (d a : BitVec 5) (b : BitVec 6) (s : State) : Out :=
  let c := (s.g b).toNat
  s.permuteKeep (.vslup m d a b) m d [a] [b] true (fun e => e < c) fun _ _ e => s.el a (e - c)

/-- vsldn: a[i + s], or 0 beyond what is made good (R209). -/
def execVsldn (m : BitVec 3) (d a : BitVec 5) (b : BitVec 6) (s : State) : Out :=
  let c := (s.g b).toNat
  s.permute (.vsldn m d a b) m d [a] [b] true fun _ k e => if e + c < k then s.el a (e + c) else 0

/-- vperm: a[b[i]], or 0 beyond what is made good (R209). -/
def execVperm (m : BitVec 3) (d a b : BitVec 5) (s : State) : Out :=
  s.permute (.vperm m d a b) m d [a, b] [] true fun _ k e =>
    if s.el b e < k then s.el a (s.el b e) else 0

/-- vcomp: the active elements packed, then 0 (R210). -/
def execVcomp (m : BitVec 3) (d a : BitVec 5) (s : State) : Out :=
  s.permute (.vcomp m d a) m d [a] [] false fun act k e =>
    match nthActive act k 0 e with
    | some t => s.el a t
    | none => 0

/-- vexpd: a[c], c the number of active elements below i (R209). -/
def execVexpd (m : BitVec 3) (d a : BitVec 5) (s : State) : Out :=
  s.permute (.vexpd m d a) m d [a] [] true fun act _ e => s.el a (activeBelow act e)

/-- vzip: a and b interleaved (R209). -/
def execVzip (m : BitVec 3) (d a b : BitVec 5) (s : State) : Out :=
  s.permute (.vzip m d a b) m d [a, b] [] true fun _ _ e =>
    if e % 2 = 0 then s.el a (e / 2) else s.el b (e / 2)

/-- vunzip: every second element from `odd` (R209). -/
def State.unzip (s : State) (i : Instr) (m : BitVec 3) (d a : BitVec 5) (odd : Nat) : Out :=
  s.permute i m d [a] [] true fun _ k e => if 2 * e + odd < k then s.el a (2 * e + odd) else 0

/-- vunzip.ev (R209). -/
def execVunzipEv (m : BitVec 3) (d a : BitVec 5) (s : State) : Out := s.unzip (.vunzipEv m d a) m d a 0

/-- vunzip.od (R209). -/
def execVunzipOd (m : BitVec 3) (d a : BitVec 5) (s : State) : Out := s.unzip (.vunzipOd m d a) m d a 1

/-- vconf: bit i is 1 when some active j < i holds the same value (R211). -/
def execVconf (m d : BitVec 3) (a : BitVec 5) (s : State) : Out :=
  s.vector (.vconf m d a) s.ty.isInt8
    { loanable := true, field := m.toNat, dest := none, others := [], regs := [] }
    fun loan _ =>
      let act := s.strand.active m.toNat loan
      s.maskBits d act fun e =>
        .pure (if (firstIdx (fun j => act j && s.el a j = s.el a e) e 0).isSome then 1 else 0)

end Sys2Proof.Machine
end

