-- ==== Sys2Proof/Machine/Pilot.lean ====
section
/-!
DEFINITION. Pilot: launches and their queues, arbitration and placement, pre-emption, tasks, barriers and beacons
(R323 to R347), major 0x16.
-/
namespace Sys2Proof.Machine

/-! The launch record (R323, R324, R327, R328). -/

/-- Fields of CTL and CNT (R323). -/
def ctlNs (c : Word) : Nat := bitsAt c.toNat 16 5
def ctlPri (c : Word) : Nat := bitsAt c.toNat 21 3
def ctlQid (c : Word) : Nat := bitsAt c.toNat 24 8
def ctlKslot (c : Word) : Nat := bitsAt c.toNat 32 6
def ctlNdep (c : Word) : Nat := bitsAt c.toNat 38 3
def ctlNarg (c : Word) : Nat := bitsAt c.toNat 41 4
def ctlBerth (c : Word) : Nat := bitsAt c.toNat 53 4

/-- Fields of a launch. -/
def Launch.ns (l : Launch) : Nat := ctlNs l.ctl
def Launch.pri (l : Launch) : Nat := ctlPri l.ctl
/-- The queue's number over all dies: 64 × DIE + QUEUE. -/
def Launch.qid (l : Launch) : Nat := ctlQid l.ctl
def Launch.die (l : Launch) : Nat := ctlQid l.ctl / 64
def Launch.berth (l : Launch) : Nat := ctlBerth l.ctl
def Launch.nx (l : Launch) : Nat := bitsAt l.cnt.toNat 0 21
def Launch.ny (l : Launch) : Nat := bitsAt l.cnt.toNat 21 21
def Launch.nz (l : Launch) : Nat := bitsAt l.cnt.toNat 42 21
/-- Flotillas of the launch (R18). -/
def Launch.total (l : Launch) : Nat := l.nx * l.ny * l.nz
def Launch.rlog (l : Launch) : Nat := bitsAt l.ring.toNat 0 5
def Launch.ringBase (l : Launch) : Word := l.ring >>> 6 <<< 6
def Launch.sigAddr (l : Launch) : Word := l.csig >>> 3 <<< 3
/-- The launch's address space. -/
def Launch.aspace (l : Launch) : ASpace := aspaceOf l.berth l.casp l.croot

/-- Consecutive 64-bit words read in order, each after its checks. -/
def State.words (s : State) (sp : ASpace) : Nat → Word → Except Stop (List Word)
  | 0, _ => .ok []
  | n + 1, ea =>
    match s.load8 sp ea with
    | .error st => .error st
    | .ok w =>
      match s.words sp n (ea + 8) with
      | .error st => .error st
      | .ok ws => .ok (w :: ws)

/-- A Damino object's kernel: its entry and recorded grant, or none when the object fails a check of R82. The entry is read whole,
once the header has passed its checks, wherever KOFF puts it: R82 orders neither its reads after the header's checks nor
anything of a KOFF that R80 does not allow (DESIGN CHOICE, log entry 82). -/
def State.kernel (s : State) (sp : ASpace) (code : Word) (kidx ns : Nat) : Except Stop (Option (Word × Word)) :=
  match s.words sp 16 code with
  | .error st => .error st
  | .ok h =>
    let f := fun j : Nat => h.getD j 0
    let ver := (f 1).toNat
    if f 0 ≠ 0x00004F4E494D4144 || bitsAt ver 0 16 ≠ 1 || bitsAt ver 32 32 ≠ 0 || 1 < bitsAt ver 16 8 || f 15 ≠ 0
        || (f 4).toNat ≤ kidx then .ok none
    else
      match s.words sp 4 (code + f 3 + BitVec.ofNat 64 (32 * kidx)) with
      | .error st => .error st
      | .ok k =>
        let entry := k.getD 0 0
        let ns' := (k.getD 1 0).toNat
        if entry.toNat % 2 = 1 || entry.toNat < (f 11).toNat || (f 11).toNat + (f 12).toNat ≤ entry.toNat
            || 32 ≤ ns' || (ns' ≠ 0 && ns' ≠ ns) then .ok none
        else .ok (some (entry, k.getD 2 0))

/-- The record's own fields are malformed (R328), but for the side words and the code object. -/
def recordBad (r : List Word) : Bool :=
  let f := fun j : Nat => r.getD j 0
  let ctl := f 1
  let cnt := (f 2).toNat
  let side := (f 4).toNat
  bitsAt ctl.toNat 57 7 ≠ 0 || bitAt cnt 63 || bitAt (f 5).toNat 5 || ctlNs ctl = 0 || 16 < ctlNs ctl
    || 2 ^ 20 < bitsAt cnt 0 21 || 2 ^ 20 < bitsAt cnt 21 21 || 2 ^ 20 < bitsAt cnt 42 21
    || 4 < ctlNdep ctl || 8 < ctlNarg ctl || 4 < bitsAt ctl.toNat 50 3
    || ((f 6) >>> 3 ≠ 0 && (bitsAt (f 6).toNat 0 3 < 2 || 4 < bitsAt (f 6).toNat 0 3))
    || (f 0).toNat % 64 ≠ 0 || side % 64 ≠ 0 || 24 < bitsAt (f 5).toNat 0 5
    || (side = 0 && (ctlNdep ctl ≠ 0 || ctlNarg ctl ≠ 0))

/-- The dependences and arguments that the side block gives (R324), read before the record is checked (R327; log entry 24). -/
def State.sideWords (s : State) (sp : ASpace) (r : List Word) : Except Stop (List Word × List Word) :=
  match s.words sp (2 * ctlNdep (r.getD 1 0)) (r.getD 4 0) with
  | .error st => .error st
  | .ok ds =>
    match s.words sp (ctlNarg (r.getD 1 0)) (r.getD 4 0 + 0x40) with
    | .error st => .error st
    | .ok as => .ok (ds, as)

/-- Pairs of a list of words. -/
def depsOf : List Word → List Dep
  | a :: v :: t => { addr := a, val := v, sat := false } :: depsOf t
  | _ => []

/-- An address translates with the access it needs (R328, row 4); the scratchpad window does not. -/
def State.reaches (s : State) (sp : ASpace) (n : Need) (ea : Word) (size : Nat) : Bool :=
  !inPool ea && (match s.check sp { n with p := false } ea size with | .ok _ => true | .error _ => false)

/-- The first address of each page that the ring's bytes touch. -/
def ringPages (base : Word) (rlog : Nat) : List Word :=
  let first := base.toNat / 65536
  let last := (base.toNat + 64 + 32 * 2 ^ rlog - 1) / 65536
  base :: buildFrom (fun p => BitVec.ofNat 64 (p * 65536)) (last - first) (first + 1)

/-- Row 3 of R328: not permitted. `limit` bounds the priority of an unprivileged strand's launch. -/
def State.notPermitted (s : State) (berth : Nat) (limit : Option Nat) (ctl : Word) : Bool :=
  let b := s.berthAt berth
  ctlBerth ctl ≠ berth || !bitAt b.queues (ctlQid ctl) || vget b.keys (ctlKslot ctl) .empty ≠ .active
    || (match limit with | some p => p < ctlPri ctl | none => false)

/-- Row 4 of R328: unreachable. -/
def State.unreachable (s : State) (sp : ASpace) (r : List Word) (deps : List Dep) : Bool :=
  let ring := r.getD 5 0
  let csig := r.getD 6 0 >>> 3 <<< 3
  deps.any (fun d => !s.reaches sp Need.load d.addr 8) || (csig ≠ 0 && !s.reaches sp Need.store csig 8)
    || (bitsAt ring.toNat 0 5 ≠ 0
        && (ringPages (ring >>> 6 <<< 6) (bitsAt ring.toNat 0 5)).any fun a => !s.reaches sp Need.store a 1)

/-- The launch that a record makes. -/
def launchOf (id : Nat) (asp root : Word) (r : List Word) (deps : List Dep) (args : List Word)
    (k : Word × Word) : Launch :=
  let f := fun j : Nat => r.getD j 0
  { id := id, code := f 0, ctl := f 1, cnt := f 2, grant := f 3, ring := f 5, csig := f 6, cval := f 7, deps := deps,
    args := args, entry := k.1, grec := k.2, casp := asp, croot := root, state := .queued, next := 0, live := 0,
    lost := 0, tow := 0 }

/-- Launches of a queue that have not signalled. -/
def Pilot.queueLen (p : Pilot) (qid : Nat) : Nat := (p.launches.filter fun l => l.qid = qid).length

/-- Every launch moves on as R329 gives: QUEUED leaves when every earlier launch of its queue is DRAINING, WAITING when
every dependence is satisfied; nothing moves in a queue that is HELD. -/
def advanceLaunches (held : List (Nat × Nat)) : List Launch → List Launch → List Launch
  | done, [] => done
  | done, l :: t =>
    let move :=
      if held.contains (l.die, l.qid % 64) then l
      else
        let l := if l.state = .queued && (done.filter fun e => e.qid = l.qid).all fun e => e.state = .draining
                 then { l with state := .waiting } else l
        if l.state = .waiting && l.deps.all (·.sat)
        then { l with state := if l.total = 0 then .draining else .ready } else l
    advanceLaunches held (done ++ [move]) t

/-- R329 applied to every queue. -/
def State.advance (s : State) : State :=
  s.setPilot { s.pilot with launches := advanceLaunches s.pilot.held [] s.pilot.launches }

/-- A launch accepted into its queue. -/
def State.accept (s : State) (l : Launch) : State :=
  (s.setPilot { s.pilot with launches := s.pilot.launches ++ [l], nextId := s.pilot.nextId + 1 }).advance

/-- A record submitted (R328): the status, and the state with the launch accepted when it is 0; or the stop of a read of the
side block or the code object. The object of a record that is malformed already is not read (DESIGN CHOICE, log entry 82). -/
def State.submitRec (s : State) (sp : ASpace) (asp root : Word) (limit : Option Nat) (r : List Word) :
    Except Stop (Nat × State) :=
  match s.sideWords sp r with
  | .error st => .error st
  | .ok (ds, as) =>
    let deps := depsOf ds
    let ctl := r.getD 1 0
    if recordBad r || deps.any (fun d => d.addr.toNat % 8 ≠ 0) then .ok (2, s)
    else
      match s.kernel sp (r.getD 0 0) (bitsAt ctl.toNat 0 16) (ctlNs ctl) with
      | .error st => .error st
      | .ok none => .ok (2, s)
      | .ok (some k) =>
        .ok (if s.notPermitted sp.berth limit ctl then (3, s)
          else if s.unreachable sp r deps then (4, s)
          else if 16 ≤ s.pilot.queueLen (ctlQid ctl) then (1, s)
          else (0, s.accept (launchOf s.pilot.nextId asp root r deps as k)))

/-- launch (R327, R328) of the record at an effective address. -/
def State.submit (s : State) (sp : ASpace) (asp root : Word) (limit : Option Nat) (ea : Word) :
    Except Stop (Nat × State) :=
  if ea.toNat % 64 ≠ 0 then .ok (2, s)
  else
    match s.words sp 8 ea with
    | .error st => .error st
    | .ok r => s.submitRec sp asp root limit r

/-- The priority bound of an unprivileged strand (R328, R336). -/
def State.priLimit (s : State) : Option Nat := if s.priv then none else some (bitsAt s.strand.prio.toNat 0 3)

/-- launch (R327), after every copy of the strand (R347): a failed read traps as an lds does, and nothing is submitted. -/
def execLaunch (d a : BitVec 6) (s : State) : Out :=
  s.alone (.launch d a) [d, a] <|
    let ea := s.g a
    s.drain
      (let asp := if s.priv then s.bcore.basp else s.strand.casp
       let root := if s.priv then s.bcore.broot else s.strand.croot
       match s.submit s.aspace asp root s.priLimit ea with
       | .error st => s.trap (Trap.access st)
       | .ok (status, t) => .next ((t.wr d (BitVec.ofNat 64 status)).retire 4))

/-! Dependences, signals, towing (R329, R330, R333). -/

/-- The launches of the input's queue. -/
def State.queueOf (s : State) : List Launch :=
  s.pilot.launches.filter fun l => l.qid = 64 * s.inp.die.toNat + s.inp.queue.toNat

/-- A dependence read: satisfied from then on when the word is at least its value (R324). `hostOnly` reads those in
host memory, and otherwise those homed in the package. -/
def State.readDep (s : State) (l : Launch) (hostOnly : Bool) (d : Dep) : Dep :=
  match s.check l.aspace Need.load d.addr 8 with
  | .error _ => d
  | .ok ls =>
    if (ls.any fun x => x.space = .cxl || x.space = .pcie) ≠ hostOnly then d
    else if d.val.toNat ≤ ofBytes (s.bytes ls) then { d with sat := true } else d

/-- The waiting head's dependences read again. -/
def State.readDeps (s : State) (hostOnly : Bool) : State :=
  match s.queueOf.find? fun l => l.state = .waiting with
  | none => s
  | some l =>
    (s.mapLaunch l.id fun x => { x with deps := x.deps.map fun d => if d.sat then d else s.readDep l hostOnly d }).advance

/-- The dependences of the input queue's waiting head are read again (R329). -/
def execDependenceCheck (s : State) : Out := .next ((s.readDeps false).idle)

/-- Those in host memory are read again at sys scope (R329). -/
def execHostDependencePoll (s : State) : Out := .next ((s.readDeps true).idle)

/-- A 64-bit word written through an address space by Pilot; a write that no translation allows is not performed (log
entry 27). -/
def State.pilotWrite (s : State) (sp : ASpace) (ea x : Word) : State :=
  match s.check sp Need.store ea 8 with
  | .ok ls => s.store none (writesOf ls (toBytes 8 x.toNat))
  | .error _ => s

/-- The input queue's oldest launch, drained, signals and is removed (R329, R330). -/
def execLaunchSignal (s : State) : Out :=
  match s.queueOf with
  | l :: _ =>
    if l.state = .draining && l.live = 0 && !s.pilot.held.contains (l.die, l.qid % 64) then
      let t := if l.sigAddr = 0 then s else s.pilotWrite l.aspace l.sigAddr l.cval
      let t := t.setPilot { t.pilot with launches := t.pilot.launches.filter fun x => x.id ≠ l.id }
      .next (t.advance.idle)
    else .next s.idle
  | [] => .next s.idle

/-- Effective priority from a count of lost placements (R332). -/
def Launch.eff (l : Launch) (lost : Nat) : Nat := min 7 (max (l.pri + lost / 64) l.tow)

/-- One application of R333 to a launch: what waits in a HELD queue is not in WAITING (R329). -/
def towOf (held : List (Nat × Nat)) (ls : List Launch) (l : Launch) : Nat :=
  if l.sigAddr = 0 then 0
  else
    ((ls.filter fun w => w.berth = l.berth && w.state = .waiting && !held.contains (w.die, w.qid % 64) && w.casp = l.casp
        && w.deps.any fun d => !d.sat && d.addr = l.sigAddr).map fun w => w.eff w.lost).foldl max 0

/-- R333 applied `n` times. -/
def towRounds (held : List (Nat × Nat)) : Nat → List Launch → List Launch
  | 0, ls => ls
  | n + 1, ls => towRounds held n (ls.map fun l => { l with tow := towOf held ls l })

/-- PRIO of every strand shows its launch's effective priority (R336). -/
def State.showPrio (s : State) : State :=
  s.mapCtxs fun c =>
    match s.pilot.launchAt c.strand.launch with
    | some l => { c with strand := { c.strand with prio := BitVec.ofNat 64 (l.pri + 16 * l.eff l.lost) } }
    | none => c

/-- Towing applied until nothing changes (R333): as often as there are launches. -/
def towed (held : List (Nat × Nat)) (ls : List Launch) : List Launch :=
  towRounds held (ls.length + 1) (ls.map fun l => { l with tow := 0 })

/-- Dies exchange what tows (R333). -/
def execTowExchange (s : State) : Out :=
  .next (((s.setPilot { s.pilot with launches := towed s.pilot.held s.pilot.launches }).showPrio).idle)

/-! Candidates and fitting (R18, R285, R331). Every agent stands in the population. -/

/-- A context that holds its slot. -/
def Strand.resident (st : Strand) : Bool :=
  st.status = .running || st.status = .trapped || st.status = .halted || st.status = .saved

/-- What a candidate places. -/
inductive CandKind where
  | resume (flot : Nat)
  | fresh
  | task (t : MTask)
  deriving DecidableEq, Repr

/-- A candidate of R332: its number, effective priority, launch. -/
structure Cand where
  num    : Nat
  eff    : Nat
  launch : Launch
  kind   : CandKind
  deriving DecidableEq, Repr

/-- The contexts of a flotilla. -/
def Pop.crew (p : Pop) (f : Nat) : List Ctx := p.ctxs.filter fun c => c.strand.flot = f

/-- A flotilla that has halted: no strand of it runs, waits for the Bridge or is held by SYNC. -/
def Pop.allHalted (p : Pop) (f : Flotilla) : Bool :=
  f.halted.isSome && !(p.crew f.id).isEmpty &&
    (p.crew f.id).all fun c => c.strand.held ≠ 3 && (c.strand.status = .halted || c.strand.status = .parked)

/-- The halted flotilla of a launch that halted first. -/
def Pop.firstHalted (p : Pop) (l : Launch) : Option Flotilla :=
  (p.flots.filter fun f => f.launch = l.id && p.allHalted f).foldl (fun best f =>
    match best with
    | none => some f
    | some b => if f.halted.getD 0 < b.halted.getD 0 then some f else best) none

/-- The candidate that a queue presents (R331). -/
def State.queueCand (s : State) (berth qid : Nat) : Option Cand :=
  if !bitAt (s.berthAt berth).queues qid || s.pilot.held.contains (qid / 64, qid % 64) then none
  else
    let ls := s.pilot.launches.filter fun l => l.qid = qid
    match ls.findSome? fun l => (s.pop.firstHalted l).map fun f => (l, f) with
    | some (l, f) => some { num := qid % 64, eff := l.eff l.lost, launch := l, kind := .resume f.id }
    | none =>
      (ls.find? fun l => l.state = .ready).map fun l =>
        { num := qid % 64, eff := l.eff l.lost, launch := l, kind := .fresh }

/-- The placements that the muster queue's candidate of a berth and die has lost. -/
def Pilot.lostAt (p : Pilot) (berth die : Nat) : Nat :=
  ((p.lostTask.find? fun e => e.1 = 4 * berth + die).map (·.2)).getD 0

/-- The oldest task of a die: in its muster queue, and no older one of the die in a ring (R331, R338). -/
def Pilot.oldestTask (p : Pilot) (die : Nat) : Option MTask :=
  let old := (p.muster.filter fun t => t.die = die).foldl (fun best t =>
    match best with
    | none => some t
    | some b => if t.seq < b.seq then some t else best) none
  old.filter fun t => !(p.ringq.any fun e => e.die = die && e.seq < t.seq)

/-- Candidate 64: the die's oldest task, when it is the berth's; it takes its launch's effective priority, raised by the
placements it has lost itself (R331; log entry 25). The tasks of a launch whose queue is HELD are placed all the same: R329 gives
HELD no effect on them (DESIGN CHOICE, log entry 99). -/
def State.taskCand (s : State) (berth die : Nat) : Option Cand :=
  match s.pilot.oldestTask die with
  | none => none
  | some t =>
    match s.pilot.launchAt t.launch with
    | some l =>
      if l.berth = berth then
        some { num := 64, eff := max (l.eff l.lost) (l.eff (s.pilot.lostAt berth die)), launch := l, kind := .task t }
      else none
    | none => none

/-- The candidates of a berth on a die. -/
def State.cands (s : State) (berth die : Nat) : List Cand :=
  ((buildFrom id 64 (64 * die)).filterMap fun q => s.queueCand berth q) ++ (s.taskCand berth die).toList

/-- A place on a core: the core and its slot. -/
abbrev Place := Nat × Bool

/-- The slot is free, but for contexts of the tags `ex`. -/
def Pop.slotFree (p : Pop) (ex : List (BitVec 16)) (pl : Place) : Bool :=
  !(p.ctxs.any fun c => c.strand.resident && c.strand.core = pl.1 && c.strand.slot = pl.2 && !ex.contains c.strand.tag)

/-- The core is wholly free. -/
def Pop.coreFree (p : Pop) (ex : List (BitVec 16)) (id : Nat) : Bool :=
  p.slotFree ex (id, false) && p.slotFree ex (id, true)

/-- The clusters of a berth on a die (R395). -/
def Berth.clustersOn (b : Berth) (die : Nat) : List Nat := (buildFrom id 48 (48 * die)).filter (bitAt b.clusters)

/-- A list turned to begin at its entry number `k`. -/
def turned {α : Type} (l : List α) (k : Nat) : List α := l.drop (k % l.length) ++ l.take (k % l.length)

/-- The places of `n` strands on a cluster's wholly free cores, two a core (R334); the input's numbers turn the hidden
choice among clusters and cores. -/
def State.fitFlotilla (s : State) (ex : List (BitVec 16)) (cl n : Nat) : Option (List Place) :=
  let free := (turned (buildFrom id 8 (8 * cl)) s.inp.job).filter (s.pop.coreFree ex)
  if free.length < ceilDiv n 2 then none
  else some (buildFrom (fun i => (free.getD (i / 2) 0, i % 2 = 1)) n 0)

/-- A free slot of a cluster for a task. -/
def State.fitTask (s : State) (ex : List (BitVec 16)) (cl : Nat) : Option (List Place) :=
  ((turned (buildFrom id 16 (16 * cl)) s.inp.job).find? fun k => s.pop.slotFree ex (k / 2, k % 2 = 1)).map
    fun k => [(k / 2, k % 2 = 1)]

/-- A context owns an accumulator of its core (R285). -/
def State.ownsAcc (s : State) (c : Ctx) : Bool :=
  let k := s.pop.coreAt c.strand.core
  k.acc0.mine c.strand.tag || k.acc1.mine c.strand.tag

/-- The places of a halted flotilla: its own cores when they are free, or others when every context has been saved and
none owns an accumulator (R285). -/
def State.fitHalted (s : State) (ex : List (BitVec 16)) (cls : List Nat) (f : Flotilla) : Option (List Place) :=
  let crew := s.pop.crew f.id
  let ex' := ex ++ crew.map (·.strand.tag)
  let own := crew.all fun c =>
    if f.task then s.pop.slotFree ex' (c.strand.core, c.strand.slot) else s.pop.coreFree ex' c.strand.core
  if own then
    some (buildFrom (fun i =>
      match crew.find? fun c => c.strand.index = i with
      | some c => (c.strand.core, c.strand.slot)
      | none => (0, false)) f.size 0)
  else if crew.all (fun c => c.strand.status = .parked && !s.ownsAcc c) then
    cls.findSome? fun cl => if f.task then s.fitTask ex' cl else s.fitFlotilla ex' cl f.size
  else none

/-- Where a candidate fits on a die's clusters, leaving out the contexts `ex` (R331). -/
def State.fit (s : State) (ex : List (BitVec 16)) (cls : List Nat) (c : Cand) : Option (List Place) :=
  match c.kind with
  | .resume f => s.fitHalted ex cls (s.pop.flotAt f)
  | .fresh => cls.findSome? fun cl => s.fitFlotilla ex cl c.launch.ns
  | .task _ => cls.findSome? fun cl => s.fitTask ex cl

/-! The overflow ring of a launch (R325, R336). -/

/-- A word of the ring as memory holds it: Pilot reads it through the translation that R328 asks for, one that allows writes
(DEDUCED, log entry 27). -/
def State.ringWord (s : State) (l : Launch) (off : Word) : Word :=
  match s.check l.aspace Need.store (l.ringBase + off) 8 with
  | .ok ls => BitVec.ofNat 64 (ofBytes (s.bytes ls))
  | .error _ => 0

/-- Entries of the ring in use, TAIL less HEAD. -/
def State.ringUse (s : State) (l : Launch) : Word := if l.rlog = 0 then 0 else keepBits (s.ringWord l 8 - s.ringWord l 0) 0 32

/-- SPNR of a launch's strands (R336). -/
def State.showSpnr (s : State) (id : Nat) : State :=
  match s.pilot.launchAt id with
  | some l =>
    let x := s.ringUse l
    s.mapCtxs fun c => if c.strand.launch = id then { c with strand := { c.strand with spnr := x } } else c
  | none => s

/-! Placement (R334, R339). -/

/-- A context tag of the berth that no context uses (R377). -/
def State.newTag (s : State) (berth : Nat) : Option (BitVec 16) :=
  ((turned (buildFrom id 4096 0) s.pilot.nextTag).find? fun i =>
    !(s.pop.ctxs.any fun c => c.strand.tag.toNat = 4096 * berth + i)).map fun i => BitVec.ofNat 16 (4096 * berth + i)

/-- A new strand's context (R334). -/
def newCtx (l : Launch) (tag : BitVec 16) (pl : Place) (flot csav : Nat) (placed tmid pc sid lcnt spnr : Word)
    (args : List Word) : Ctx :=
  { hart := { Hart.reset with
      pc := pc
      g := mkVec 64 fun r => if r = 0 then 0 else args.getD (r - 1) 0 }
    strand := { Strand.reset with
      vfcs := BitVec.ofNat 64 (bitsAt l.ctl.toNat 50 3 + 2 ^ 16 * bitsAt l.ctl.toNat 45 5)
      sid := sid, lcnt := lcnt, spnr := spnr
      prio := BitVec.ofNat 64 (l.pri + 16 * l.eff l.lost)
      tmid := tmid, casp := l.casp, croot := l.croot, csav := BitVec.ofNat 64 csav
      tag := tag, status := .running, core := pl.1, slot := pl.2, flot := flot, launch := l.id, placed := placed } }

/-- One strand placed; none when the berth has no tag or no save area left. -/
def State.placeStrand (s : State) (l : Launch) (flot : Nat) (pl : Place) (pc sid lcnt : Word) (args : List Word) :
    Option State :=
  match s.newTag l.berth, (s.berthAt l.berth).allocSave with
  | some tag, some (a, b) =>
    let core := s.pop.coreAt pl.1
    let c := newCtx l tag pl flot a core.ran b.tmid pc sid lcnt (s.ringUse l) args
    let s := (s.putBerth l.berth b).setPop { s.pop with
      ctxs := s.pop.ctxs ++ [c], cores := putBy Core.id core s.pop.cores }
    some ((s.setPilot { s.pilot with nextTag := tag.toNat % 4096 + 1 }).mapLaunch l.id fun x => { x with live := x.live + 1 })
  | _, _ => none

/-- A flotilla made for placement, with its coordinates (R19, R334). -/
def State.newFlot (s : State) (l : Launch) (n : Nat) (pl : Place) (fid : Word) (task : Bool) : State :=
  (s.setPop { s.pop with flots := s.pop.flots ++
    [{ Flotilla.reset with id := s.pilot.nextId, launch := l.id, size := n, cluster := pl.1 / 8, fid := fid, task := task }] }).setPilot
    { s.pilot with nextId := s.pilot.nextId + 1 }

/-- The strands of a new flotilla placed in order (R19, R334). -/
def State.placeAll (s : State) (l : Launch) (flot : Nat) : List Place → Nat → Option State
  | [], _ => some s
  | pl :: t, i =>
    match s.placeStrand l flot pl (l.code + l.entry) (BitVec.ofNat 64 (i + 16 * l.ns)) l.cnt l.args with
    | some s' => s'.placeAll l flot t (i + 1)
    | none => none

/-- The coordinates of flotilla number k of a launch: x counts fastest (log entry 26). -/
def Launch.fid (l : Launch) (k : Nat) : Word :=
  BitVec.ofNat 64 (k % l.nx + 2 ^ 20 * (k / l.nx % l.ny) + 2 ^ 40 * (k / (l.nx * l.ny)))

/-- The writes that the Bridge made, while a context did not run, to registers of its core and flotilla (R377). -/
def State.actLate (s : State) (c : Ctx) : State :=
  if c.strand.late.isEmpty then s
  else
    let v := c.strand.late.foldl (fun v x => v.writeReg false x.1 x.2) (s.viewCtx c)
    (s.setPop { s.pop with
      cores := putBy Core.id v.core s.pop.cores
      flots := s.pop.flots.map fun f => if f.id = v.flot.id then v.flot else f }).putCtx
      { c with strand := { c.strand with late := [] } }

/-- A halted flotilla resumes: contexts that were saved are restored, all run on (R334, R387), after an ordering of every
access before the halt and those after it (R334). R28 names only setvl, advmg and a trap return as what opens a strip: the
model opens one at this resumption too, so POS counts from 0 and the granule is taken anew (DESIGN CHOICE, log entry 73). -/
def State.resumeCrew (s : State) (f : Nat) (pls : List Place) : State :=
  let crew := s.pop.crew f
  let s := crew.foldl (fun s c =>
    let pl := pls.getD c.strand.index (c.strand.core, c.strand.slot)
    let core := s.pop.coreAt pl.1
    let was := c.strand.status
    let c := { c with strand := { c.strand with core := pl.1, slot := pl.2 } }
    let c := if was = .parked then s.restoreCtx c else c
    let c := { c with strand := { c.strand with status := .running, cutReq := none, placed := core.ran } }
    let c := { c with strand := c.strand.openStrip }
    (s.setPop { s.pop with
      ctxs := putBy (fun c => c.strand.tag.toNat) c s.pop.ctxs
      cores := putBy Core.id core s.pop.cores }).actLate c) s
  let s := (crew.filter fun c => c.strand.status = .parked).foldl (fun s c => s.showSpnr c.strand.launch) s
  s.setPop { s.pop with flots := s.pop.flots.map fun x =>
    if x.id = f then { x with halted := none, cluster := (pls.headD (0, false)).1 / 8 } else x }

/-- The candidate placed. -/
def State.placeCand (s : State) (c : Cand) (pls : List Place) : Option State :=
  match c.kind with
  | .resume f => some (s.resumeCrew f pls)
  | .fresh =>
    let l := c.launch
    let id := s.pilot.nextId
    ((s.newFlot l l.ns (pls.headD (0, false)) (l.fid l.next) false).placeAll l id pls 0).map fun t =>
      (t.mapLaunch l.id fun x =>
        { x with next := x.next + 1, state := if x.total ≤ x.next + 1 then .draining else x.state }).advance
  | .task t =>
    let l := c.launch
    let id := s.pilot.nextId
    ((s.newFlot l 1 (pls.headD (0, false)) 0 true).placeStrand l id (pls.headD (0, false)) t.entry 0x10
        0x0000040000200001 [t.arg, t.ctr]).map fun s =>
      let s := s.mapLaunch l.id fun x => { x with live := x.live - 1 }
      s.setPilot { s.pilot with muster := s.pilot.muster.erase t }

/-- The placements lost by a candidate set. -/
def State.setLost (s : State) (berth die : Nat) (c : Cand) (f : Nat → Nat) : State :=
  match c.kind with
  | .task _ =>
    let p := s.pilot
    let k := 4 * berth + die
    s.setPilot { p with lostTask := (k, f (p.lostAt berth die)) :: p.lostTask.filter fun e => e.1 ≠ k }
  | _ => s.mapLaunch c.launch.id fun l => { l with lost := f l.lost }

/-- The first candidate of the highest priority at or after its pointer, counting upward and wrapping (R332). -/
def pick65 (rp : Nat) (l : List (Cand × List Place)) : Option (Cand × List Place) :=
  l.foldl (fun best x =>
    match best with
    | none => some x
    | some b => if (x.1.num + 65 - rp) % 65 < (b.1.num + 65 - rp) % 65 then some x else best) none

/-- The highest effective priority. -/
def topEff (l : List Cand) : Nat := (l.map (·.eff)).foldl max 0

/-! Pre-emption (R343, R344). -/

/-- A flotilla runs and no pre-emption of it has been requested. -/
def Pop.runs (p : Pop) (f : Flotilla) : Bool :=
  !p.allHalted f && (p.crew f.id).any fun c => c.strand.status = .running && c.strand.cutReq.isNone

/-- Every live strand is blocked in join, waiti, bar or mwait. -/
def Pop.blocked (p : Pop) (f : Flotilla) : Bool :=
  (p.crew f.id).all fun c =>
    match c.hart.wait with
    | .mwait .. | .join _ | .bar _ | .waiti _ => true
    | _ => false

/-- Every core of the flotilla has run it for at least 2^20 of its cycles since placement. -/
def Pop.longRun (p : Pop) (f : Flotilla) : Bool :=
  (p.crew f.id).all fun c => 2 ^ 20 ≤ ((p.coreAt c.strand.core).ran - c.strand.placed).toNat

/-- A flotilla's effective priority. -/
def State.flotEff (s : State) (f : Flotilla) : Nat :=
  match s.pilot.launchAt f.launch with
  | some l => l.eff l.lost
  | none => 0

/-- A request to every running strand of a flotilla: each halts at its next turn; the cut is free (R46). -/
def State.requestFlot (s : State) (f : Nat) : State :=
  s.setPop { s.pop with ctxs := s.pop.ctxs.map fun c =>
    if c.strand.flot = f && (c.strand.status = .running || c.strand.status = .trapped) && c.strand.cutReq.isNone then
      { c with strand := { c.strand with cutReq := some (s.free 11 c.strand.tag.toNat % 65536) } }
    else c }

/-- Contexts whose slots will be free once the requests made so far are met. -/
def Pop.going (p : Pop) : List (BitVec 16) :=
  (p.ctxs.filter fun c => c.strand.cutReq.isSome || c.strand.status = .halted).map (·.strand.tag)

/-- Possible victims of a cluster, lowest effective priority first, fully blocked first within one. -/
def State.victims (s : State) (berth cl : Nat) (c : Cand) : List Flotilla :=
  let all := s.pop.flots.filter fun f =>
    f.cluster = cl && s.pop.runs f
      && (match s.pilot.launchAt f.launch with | some l => l.berth = berth | none => false)
      && (s.flotEff f < c.eff || (s.flotEff f = c.eff && s.pop.longRun f) || s.pop.blocked f)
  let key := fun f => 2 * s.flotEff f + (if s.pop.blocked f then 0 else 1)
  (buildFrom id 16 0).flatMap fun k => all.filter fun f => key f = k

/-- The shortest prefix of the victims that lets the candidate fit in the cluster. -/
def State.enough (s : State) (cl : Nat) (c : Cand) (ex : List (BitVec 16)) : List Flotilla → List Nat → Option (List Nat)
  | [], _ => none
  | f :: t, vs =>
    let ex := ex ++ (s.pop.crew f.id).map (·.strand.tag)
    if (s.fit ex [cl] c).isSome then some (vs ++ [f.id]) else s.enough cl c ex t (vs ++ [f.id])

/-- The flotillas that pre-emption for the top of candidates that do not fit asks to halt (R343): none when it will fit once
earlier requests are met, or when no set of victims of one cluster would let it fit. -/
def State.victimsFor (s : State) (berth : Nat) (cls : List Nat) (cs : List Cand) : List Nat :=
  let p := topEff cs
  let rp := vget (s.berthAt berth).rp p 0
  match pick65 rp ((cs.filter fun c => c.eff = p).map fun c => (c, [])) with
  | none => []
  | some (c, _) =>
    let ex := s.pop.going
    if (s.fit ex cls c).isSome then [] else (cls.findSome? fun cl => s.enough cl c ex (s.victims berth cl c) []).getD []

/-- The candidates of a berth and die that do not fit, for whose top one Pilot pre-empts (R343). -/
def State.unfit (s : State) (berth die : Nat) (cls : List Nat) : List Cand :=
  (s.cands berth die).filter fun c => (s.fit [] cls c).isNone

/-- Pre-emption for the top candidate that does not fit. -/
def State.preempt (s : State) (berth die : Nat) (cls : List Nat) : State :=
  (s.victimsFor berth cls (s.unfit berth die cls)).foldl State.requestFlot s


/-- Tasks in the muster queue of a die. -/
def Pilot.musterLen (p : Pilot) (die : Nat) : Nat := (p.muster.filter fun t => t.die = die).length

/-- The die's oldest task in a ring moves into its muster queue, when there is space and it stands at its ring's head
(R338). -/
def State.refillOne (s : State) (die : Nat) : Option State :=
  match s.pilot.ringq.find? fun e => e.die = die with
  | none => none
  | some e =>
    match s.pilot.launchAt e.launch with
    | none => none
    | some l =>
      if (s.pilot.ringq.find? fun x => x.launch = e.launch) = some e && s.pilot.musterLen die < 4096 then
        let head := s.ringWord l 0
        let off : Word := BitVec.ofNat 64 (64 + 32 * (head.toNat % 2 ^ l.rlog))
        let t : MTask :=
          { launch := l.id, entry := s.ringWord l off, arg := s.ringWord l (off + 8), ctr := s.ringWord l (off + 16)
            die := die, seq := e.seq }
        let s := s.pilotWrite l.aspace l.ringBase (head + 1)
        some ((s.setPilot { s.pilot with ringq := s.pilot.ringq.erase e, muster := s.pilot.muster ++ [t] }).showSpnr l.id)
      else none

/-- At most `n` tasks of the rings move on. -/
def State.refill : Nat → State → State
  | 0, s => s
  | n + 1, s =>
    match (buildFrom id 4 0).findSome? s.refillOne with
    | some t => t.refill n
    | none => s

/-- Every task of the rings that can moves into the muster queues, oldest first (R338). -/
def State.refillAll (s : State) : State := s.refill s.pilot.ringq.length

/-- One placement among the candidates of a berth and die (R332); the muster queue that it frees space in is refilled. -/
def State.placeOne (s : State) (berth die : Nat) (cls : List Nat) : State :=
  let el := (s.cands berth die).filterMap fun c => (s.fit [] cls c).map fun pls => (c, pls)
  if el.isEmpty then s
  else
    let p := topEff (el.map (·.1))
    let b := s.berthAt berth
    match pick65 (vget b.rp p 0) (el.filter fun x => x.1.eff = p) with
    | none => s
    | some (c, pls) =>
      match s.placeCand c pls with
      | none => s
      | some t =>
        let tb := t.berthAt berth
        let t := t.putBerth berth { tb with rp := vset tb.rp p ((c.num + 1) % 65) }
        let t := t.setLost berth die c fun _ => 0
        ((el.filter fun x => x.1 ≠ c).foldl (fun t x => t.setLost berth die x.1 fun n => n + 1) t).refillAll

/-- One arbitration among the candidates of the input's berth and die (R332), then pre-emption for the top candidate that
does not fit (R343). -/
def State.arbitrate (s : State) : State :=
  let berth := s.inp.berth.toNat
  let die := s.inp.die.toNat
  let cls := turned ((s.berthAt berth).clustersOn die) s.inp.num
  (s.refillAll.placeOne berth die cls).preempt berth die cls

/-- Pilot places (R332), and PRIO shows the priorities (R336). -/
def execPilotPlace (s : State) : Out := .next ((s.over fun s => s.arbitrate.showPrio).idle)

/-- The abandonment of a waiting instruction and the halt before it; an mwait ends with reason 2 first (R344). -/
def State.haltWaiting (s : State) : State :=
  match s.hart.wait with
  | .mwait d _ =>
    let h := s.hart.put d.toNat 2
    ((s.setHart { h with monArmed := false }).retire 4).haltStrand
  | _ => s.idle.haltStrand

/-- Pilot has requested pre-emption of the focused strand, or may request it of its flotilla, a victim for the top candidate
of its berth and die that does not fit (R343). -/
def State.mayPreempt (s : State) : Bool :=
  s.strand.cutReq.isSome ||
    (let u := s.unfocus
     let berth := tagBerth s.strand.tag
     let die := coreDie s.core.id
     let cls := turned ((u.berthAt berth).clustersOn die) s.inp.num
     (u.victimsFor berth cls (u.unfit berth die cls)).contains s.strand.flot)

/-- A pre-emption request reaches the focused strand's flotilla (R46, R343): the strand halts before its next
instruction, or with a cut lets the next length-bearing instruction make good that much; the others are requested too. A request
that is pending keeps its cut (R47). -/
def execPreemptHalt (cut : BitVec 16) (s : State) : Out :=
  if s.priv || s.strand.status ≠ .running || !s.mayPreempt then .next s.idle
  else
    let s' := s.requestFlot s.strand.flot
    if cut = 0 || s.hart.wait ≠ .running then .next s'.haltWaiting
    else .next ((s'.setStrand { s'.strand with cutReq := some (s.strand.cutReq.getD cut.toNat) }).idle)

/-- yield (R343): the flotilla halts after it when a candidate of its priority or more would fit in its slots. -/
def execYield (s : State) : Out :=
  s.strandOnly .yield [] <|
    let u := s.unfocus
    let ex := (u.pop.crew s.strand.flot).map (·.strand.tag)
    let berth := tagBerth s.strand.tag
    let die := coreDie s.strand.core
    let cls := (u.berthAt berth).clustersOn die
    let fits := (u.cands berth die).any fun c => u.flotEff s.flot ≤ c.eff && (u.fit ex cls c).isSome
    let t := s.retire 4
    if fits then .next ((t.requestFlot s.strand.flot).haltStrand) else .next t

/-! Barriers (R337). -/

/-- The bound that the grant sets on FGR. -/
def Launch.fgrBound (l : Launch) : Nat :=
  let g := if l.grant = 0 then l.grec.toNat else l.grant.toNat
  if g = 0 then 1 else min 64 (ceilDiv g 64)

/-- The focused strand's bound. -/
def State.fgrBound (s : State) : Nat :=
  match s.pilot.launchAt s.strand.launch with
  | some l => l.fgrBound
  | none => 1

/-- bar (R337), after every copy of the strand (R347): the strand arrives and waits; a flotilla of one passes at once,
with an FGR that Pilot may have changed. -/
def execBar (d : BitVec 6) (s : State) : Out :=
  s.strandOnly (.bar d) [d] <| s.drain <|
    if s.flot.size ≤ 1 then
      let lo := s.fgrBound
      let f := if s.choose 12 0 then s.flot.fgr else BitVec.ofNat 7 (lo + s.free 12 1 % (65 - lo))
      .next (((s.setFlot { s.flot with fgr := f }).wr d (f.setWidth 64)).retire 4)
    else
      let i := s.strand.index
      let t := s.setFlot { s.flot with arrived := if s.flot.arrived.contains i then s.flot.arrived else s.flot.arrived ++ [i] }
      let t := t.takeLastd d
      .next ((t.setHart { t.hart with wait := .bar d }).idle)

/-- A waiting bar leaves the barrier with FGR in its register. -/
def Hart.leaveBar (h : Hart) (f : BitVec 7) : Hart :=
  match h.wait with
  | .bar d =>
    let h := h.put d.toNat (f.setWidth 64)
    { h with pc := h.pc + 4, pfxs := 0, insn := h.insn + 1, wait := .running }
  | _ => h

/-- The focused flotilla's barrier opens (R22, R337): every strand has arrived or retired and all that live wait; the
input gives the FGR that Pilot writes, within its bounds, or 0 when it writes none. -/
def execBarrierRelease (s : State) : Out :=
  let waits := fun (c : Ctx) =>
    c.strand.flot ≠ s.flot.id || (c.strand.status = .running && (match c.hart.wait with | .bar _ => true | _ => false))
  if s.priv || s.strand.status = .absent || s.flot.size ≤ 1 || !(s.allCtxs.all waits)
      || s.flot.size > (dedup (s.flot.arrived ++ s.flot.gone)).length then .next s.idle
  else
    let f := if s.inp.num = 0 then s.flot.fgr else BitVec.ofNat 7 (max s.fgrBound (min 64 s.inp.num))
    let t := s.setFlot { s.flot with fgr := f, arrived := [] }
    .next ((t.mapCtxs fun c => if c.strand.flot = s.flot.id then { c with hart := c.hart.leaveBar f } else c).idle)

/-! Tasks (R338 to R341). -/

/-- Tasks that may still be pushed on the focused strand's die (R338). -/
def State.room (s : State) (die : Nat) (l : Launch) : Nat :=
  (4096 - s.pilot.musterLen die)
    + (if l.rlog = 0 then 0 else 2 ^ l.rlog - (s.ringWord l 8 - s.ringWord l 0).toNat)

/-- A read-modify-write of the counter at c. -/
def State.addTo (s : State) (c x : Word) : Except Stop State :=
  match s.check s.aspace Need.rmw c 8 with
  | .error st => .error st
  | .ok ls => .ok ((s.touch c 8).store none (writesOf ls (toBytes 8 (BitVec.ofNat 64 (ofBytes (s.bytes ls)) + x).toNat)))

/-- One push (R338): the increment of the counter at its place, then the task into the muster queue, or into the ring when that
is full. -/
def State.push (s : State) (l : Launch) (die : Nat) (ctr : List Loc) (entry arg c : Word) : State :=
  let s := s.store none (writesOf ctr (toBytes 8 (ofBytes (s.bytes ctr) + 1)))
  let s := s.mapLaunch l.id fun x => { x with live := x.live + 1 }
  let seq := s.pilot.nextPush
  let s := s.setPilot { s.pilot with nextPush := seq + 1 }
  if s.pilot.musterLen die < 4096 then
    s.setPilot { s.pilot with
      muster := s.pilot.muster ++ [{ launch := l.id, entry := entry, arg := arg, ctr := c, die := die, seq := seq }] }
  else
    let tail := s.ringWord l 8
    let at_ := l.ringBase + BitVec.ofNat 64 (64 + 32 * (tail.toNat % 2 ^ l.rlog))
    let s := (((s.pilotWrite l.aspace at_ entry).pilotWrite l.aspace (at_ + 8) arg).pilotWrite l.aspace (at_ + 16) c).pilotWrite
      l.aspace (at_ + 24) 0
    let s := s.pilotWrite l.aspace (l.ringBase + 8) (tail + 1)
    (s.setPilot { s.pilot with ringq := s.pilot.ringq ++ [{ launch := l.id, die := die, seq := seq }] }).showSpnr l.id

/-- The pushes of the active elements of [i, i + m). -/
def State.pushAll (s : State) (l : Launch) (die : Nat) (ctr : List Loc) (entry c : Word) (arg : Nat → Word) (act : Nat → Bool) :
    Nat → Nat → State
  | 0, _ => s
  | m + 1, i => (if act i then s.push l die ctr entry (arg i) c else s).pushAll l die ctr entry c arg act m (i + 1)

/-- spawn (R338), after every copy of the strand (R347). -/
def execSpawn (m : BitVec 3) (d : BitVec 6) (a : BitVec 5) (b : BitVec 6) (s : State) : Out :=
  s.vector (.spawn m d a b) (s.ty.fmt = 0x0B || s.ty.fmt = 0x0F)
    { loanable := false, field := m.toNat, dest := none, others := [s.grp a], regs := [d, b] }
    fun loan _ =>
      let entry := s.g d &&& ~~~(1 : Word)
      let c := s.g b
      if c.toNat % 8 ≠ 0 then s.trap (Trap.mk0 0x03 0 c false)
      else
        s.drain
          (match s.check s.aspace Need.rmw c 8 with
           | .error st => s.trap (Trap.access st)
           | .ok ctr =>
             if s.n = 0 then s.empty
             else
               match s.pilot.launchAt s.strand.launch with
               | none => s.finish s.n .accum (some (VStop.plain 0 6 0)) fun _ => s
               | some l =>
                 let act := s.strand.active m.toNat loan
                 let die := coreDie s.core.id
                 let room := s.room die l
                 let stop := match nthActive act s.n 0 room with
                   | some i => some (VStop.plain i 6 0)
                   | none => none
                 s.finish s.n .accum stop
                   (fun k => (s.touch c 8).pushAll l die ctr entry c (fun i => BitVec.ofNat 64 (s.el a i)) act k 0)
                   fun x => { x with mem := true })

/-- Pilot moves the input die's oldest ring entry into its muster queue, when there is space (R338). -/
def execRingRefill (s : State) : Out :=
  match s.refillOne s.inp.die.toNat with
  | some t => .next t.idle
  | none => .next s.idle

/-- tend (R340), after every copy of the strand (R335, R347): the decrement, then the strand retires as svc 0 does. -/
def execTend (a : BitVec 6) (s : State) : Out :=
  s.strandOnly (.tend a) [a] <| s.drain <|
    if a = 0 then .next ((s.retire 4).retireStrand)
    else
      let c := s.g a
      if c.toNat % 8 ≠ 0 then s.trap (Trap.mk0 0x03 0 c false)
      else
        match s.addTo c (-1) with
        | .error st => s.trap (Trap.access st)
        | .ok t => .next ((t.retire 4).retireStrand)

/-- The read of a join (R341): it ends when it finds 0; else the strand waits with its monitor on the line (log entry
28). `waited` tells that it has waited. -/
def State.joinRead (s : State) (a : BitVec 6) (waited : Bool) : Out :=
  let c := s.g a
  if c.toNat % 8 ≠ 0 then s.trap (Trap.mk0 0x03 0 c false)
  else
    let r := eaBounds c 8
    s.clear false r.1 r.2
      (match s.check s.aspace Need.load c 8 with
       | .error st => s.trap (Trap.access st)
       | .ok ls =>
         let t := s.touch c 8
         if ofBytes (s.bytes ls) = 0 then
           .next ((t.setHart { t.hart with monArmed := t.hart.monArmed && !waited }).retire 4)
         else
           .next ((t.setHart { t.hart with
             wait := .join a, monArmed := true, monFired := false, monLine := ls.head?.map Loc.line }).idle))

/-- join (R341). -/
def execJoin (a : BitVec 6) (s : State) : Out := s.strandOnly (.join a) [a] (s.joinRead a false)

/-- The waiting join of the focused strand reads its counter again (R341). -/
def execJoinWake (s : State) : Out :=
  match s.hart.wait with
  | .join a => if s.priv || s.strand.status ≠ .running then .next s.idle else s.joinRead a true
  | _ => .next s.idle

/-! Beacons (R342). -/

/-- BM and the window after BM passes every iteration posted contiguously from it. -/
def beacon : Nat → Word → BitVec 64 → Word × BitVec 64
  | 0, bm, w => (bm, w)
  | n + 1, bm, w => if w.getLsbD 0 then beacon n (bm + 1) (w >>> 1) else (bm, w)

/-- A post of iteration x (R342). -/
def State.postAt (s : State) (a : BitVec 6) : Out :=
  let x := (s.g a).toNat
  let bm := s.flot.bm.toNat
  if bm + 64 ≤ x then .next ((s.setHart { s.hart with wait := .post a }).idle)
  else if x < bm then .next (s.retire 4)
  else
    let r := beacon 64 s.flot.bm (s.flot.posted ||| (1#64 <<< (x - bm)))
    .next ((s.setFlot { s.flot with bm := r.1, posted := r.2 }).retire 4)

/-- A wait for iteration x (R342). -/
def State.waitAt (s : State) (a : BitVec 6) : Out :=
  if (s.g a).toNat < s.flot.bm.toNat then .next (s.retire 4)
  else .next ((s.setHart { s.hart with wait := .waiti a }).idle)

/-- post (R342), after every copy of the strand (R347). -/
def execPost (a : BitVec 6) (s : State) : Out := s.strandOnly (.post a) [a] (s.drain (s.postAt a))

/-- waiti (R342). -/
def execWaiti (a : BitVec 6) (s : State) : Out := s.strandOnly (.waiti a) [a] (s.waitAt a)

/-- The beacon mark may have moved: the focused strand's waiting waiti or stalled post is tried again (R342). -/
def execBeaconAdvance (s : State) : Out :=
  if s.priv || s.strand.status ≠ .running then .next s.idle
  else
    match s.hart.wait with
    | .post a => s.postAt a
    | .waiti a => s.waitAt a
    | _ => .next s.idle

end Sys2Proof.Machine
end

