-- ==== Sys2Proof/Machine/Tile.lean ====
section
/-!
DEFINITION. Tiles, major 0x27: tld and tst to a vector group or an accumulator (R242 to R251, R256, R304).
-/
namespace Sys2Proof.Machine

/-- A tile instruction at issue (R242): rows, columns, base, row stride, and the accumulator if it names one. -/
structure Tile where
  nr     : Nat
  nc     : Nat
  base   : Word
  stride : Word
  acc    : Option Acc

/-- The tile's fields (R242, R243). -/
def State.tile (s : State) (a c : BitVec 6) (acc : Option Acc) : Tile :=
  { nr := bitsAt s.strand.tshp.toNat 0 9, nc := s.n, base := s.g a
    stride := if c = 0 then BitVec.ofNat 64 (s.n * s.ty.sz) else s.g c, acc := acc }

/-- The address of row-major element i. -/
def Tile.addr (x : Tile) (sz i : Nat) : Word :=
  x.base + BitVec.ofNat 64 (i / x.nc) * x.stride + BitVec.ofNat 64 (i % x.nc * sz)

/-- The tile's elements in row-major order; a padding column is not accessed. -/
def State.tileAccess (s : State) (x : Tile) : Access :=
  { n := x.nr * x.nc, sz := s.ty.sz, nib := false, on := fun i => !s.pad (i % x.nc)
    addr := fun i => .ok (x.addr s.ty.sz i), aux := [] }

/-- The effective line numbers of row r (R244, log entry 21). -/
def Tile.rowLines (x : Tile) (sz r : Nat) : List Nat :=
  let first := (x.addr sz (r * x.nc)).toNat
  buildFrom (fun l => l % 2 ^ 57) ((first + x.nc * sz - 1) / 128 - first / 128 + 1) (first / 128)

/-- Row r fits: the group's vmax or the extent's rows, and at most 256 lines so far. -/
def State.rowFits (s : State) (x : Tile) (r : Nat) (lines : List Nat) : Bool :=
  (match x.acc with
   | some a => r < a.er
   | none => (r + 1) * x.nc ≤ s.ty.vmax) && lines.length ≤ 256

/-- Columns of a row that its elements may fill: an accumulator's extent bounds them. -/
def Tile.cols (x : Tile) : Nat :=
  match x.acc with
  | some a => min x.nc a.ec
  | none => x.nc

/-- The stop that fixes the rectangle, by rows in ascending order (R244): row-major index, kind and address. -/
def State.rectStop (s : State) (x : Tile) (need : Need) : Nat → Nat → List Nat → Option VStop
  | 0, _, _ => none
  | m + 1, r, lines =>
    let lines := dedup (x.rowLines s.ty.sz r ++ lines)
    if !s.rowFits x r lines then some (VStop.plain (r * x.nc) 6 0)
    else
      match firstStop (s.elemStop need false (s.tileAccess x)) x.cols (r * x.nc) with
      | some v => some v
      | none => if x.cols < x.nc then some (VStop.plain (r * x.nc + x.cols) 6 0) else s.rectStop x need m (r + 1) lines

/-- The rows and columns made good by a stop at an index (R53): the elements before it, whole rows when there are any. -/
def Tile.upTo (x : Tile) (e : Nat) : Nat := if x.nc ≤ e then e / x.nc * x.nc else e

/-- The located bytes of element i under the tile's need. -/
def State.tileLocs (s : State) (x : Tile) (need : Need) (i : Nat) : List Loc :=
  if (s.tileAccess x).on i then (s.elemLocs need false (s.tileAccess x) i).toOption.getD [] else []

/-- The first element of the rectangle with a line homed outside the package (R245). -/
def State.tileOutside (s : State) (x : Tile) (need : Need) (k : Nat) : Option Nat :=
  firstIdx (fun i => (s.tileLocs x need i).any fun l => l.space = .cxl || l.space = .pcie) k 0

/-- The first element of the rectangle on the side of the scratchpad window that element (0, 0) is not on (R245). -/
def State.tileSide (s : State) (x : Tile) (k : Nat) : Option Nat :=
  firstIdx (fun i => (s.tileAccess x).on i && inPool (x.addr s.ty.sz i) ≠ inPool x.base) k 0

/-- MGR, MGC and LKIND after elements below k of the rectangle (R53, R243, R244). -/
def State.tileCounts (s : State) (x : Tile) (k kind : Nat) : State :=
  let st := s.strand
  s.setStrand { st with
    mgr := BitVec.ofNat 64 (if x.nc ≤ k then k / x.nc else 0)
    mgc := BitVec.ofNat 64 (if x.nc ≤ k then x.nc else k)
    tshp := BitVec.ofNat 64 (bitsAt st.tshp.toNat 0 9 + 65536 * kind) }

/-- The common shape of tiles: the rectangle, the atomicity fault, the window sides, then the elements (R244 to R248). The
atomicity fault is judged on the rectangle before its window side lowers it and before whole blocks round it (R30), which MG and
MGC show; a tile that traps at (0, 0) leaves LKIND as it was (DESIGN CHOICE, log entry 98). -/
def State.tileRun (s : State) (x : Tile) (need : Need) (line : BitVec 1) (write : Bool) (commit : Nat → State) : Out :=
  if s.n = 0 then
    (s.setStrand { s.strand with mgr := 0, mgc := 0 }).empty
  else
    s.entryRoom true <| s.clearAll write (s.tileAccess x) <|
      let stop := s.rectStop x need x.nr 0 []
      let k := match stop with
        | some v => x.upTo v.elem
        | none => x.nr * x.nc
      match (if line = 0 then s.tileOutside x need k else none) with
      | some i => s.finish 1 .never (some { VStop.plain 0 2 0 with tval := x.addr s.ty.sz i }) fun _ => s
      | none =>
        let stop := match s.tileSide x k with
          | some i => some { VStop.plain i 2 0 with tval := x.addr s.ty.sz i }
          | none => stop
        let stop := stop.map fun v => { v with elem := x.upTo v.elem }
        s.finish (x.nr * x.nc) .never stop fun k =>
          (commit k).tileCounts x k ((stop.map (·.kind)).getD 0)

/-- Issue of a tile: the formats of R225, then for an accumulator its ownership, the AF of R281 and, for a store, the
bank's mark, before any stop of its own (DESIGN CHOICE, log entry 90). -/
def State.tileOp (s : State) (i : Instr) (c a d : BitVec 6) (store : Bool) (go : State → Option (BitVec 1) → Tile → Out) : Out :=
  let onAcc := 32 ≤ d.toNat
  let fmtOk := if onAcc then s.ty.fmt = 0 || s.ty.fmt = 1 || s.ty.fmt = 0x0A else s.ty.byteOk
  s.vector i fmtOk (mxForm 0 none [] [a, c]) fun _ _ =>
    if onAcc then
      let z : BitVec 1 := BitVec.ofNat 1 d.toNat
      s.own z fun s =>
        let ac := s.acc z
        if !s.ty.isAf ac.af then s.illegal i 2
        else
          let run := go s (some z) (s.tile a c (some ac))
          if store && s.n ≠ 0 then s.bankRead ac.work run else run
    else go s none (s.tile a c none)

/-- The code of element i in memory; 0 for padding. -/
def State.tileCode (s : State) (x : Tile) (i : Nat) : Nat :=
  if s.pad (i % x.nc) then 0
  else match s.elemLocs Need.load false (s.tileAccess x) i with
    | .ok ls => ofBytes (s.bytes ls)
    | .error _ => 0

/-- Every line that elements below k read has swatch zero (R249). -/
def State.tileZero (s : State) (x : Tile) (k : Nat) : Bool :=
  (buildFrom id k 0).all fun i =>
    if (s.tileAccess x).on i then
      match s.elemLocs Need.load false (s.tileAccess x) i with
      | .ok ls => ls.all fun l => s.locSw l = swatchZero
      | .error _ => false
    else true

/-- The commitment of a tld to a vector group. -/
def State.tldVec (s : State) (x : Tile) (d k : Nat) : State :=
  let g : Grp := { start := d, size := s.ty.g }
  let n := x.nr * x.nc
  let t := (s.touchAccess (s.tileAccess x) k).writeGroup 10
    { s.dest g s.ty.w n k (fun _ => true) (s.tileCode x) with
      skip := fun i => (s.elemStop Need.load false (s.tileAccess x) i).isSome }
  if k = n && s.tileZero x k then t.groupSw g swatchZero s.ty.w n else t

/-- The commitment of a tld to an accumulator: elements of the rectangle; one beyond it may be old or loaded (R35). A
rectangle that covers the extent clears the bank's mark (R286, R300). -/
def State.tldAcc (s : State) (x : Tile) (z : BitVec 1) (k : Nat) : State :=
  let ac := s.acc z
  let n := x.nr * x.nc
  let read := fun i => (s.elemStop Need.load false (s.tileAccess x) i).isNone
  let b := ac.work.with ac.af fun r c =>
    let i := r * x.nc + c
    if r < x.nr && c < x.nc && r < ac.er && c < ac.ec && (i < k || (read i && s.choose 6 i)) then some (s.tileCode x i)
    else none
  let covers := k / x.nc = ac.er && x.nc = ac.ec
  (s.touchAccess (s.tileAccess x) k).setAcc z { ac with
    work := { b with
      zero := k = n && s.tileZero x k && (covers || ac.work.zero)
      poison := ac.work.poison && !covers } }

/-- tld (R242 to R250). -/
def execTld (pol : BitVec 2) (line : BitVec 1) (scope : BitVec 3) (c a d : BitVec 6) (s : State) : Out :=
  s.tileOp (.tld pol line scope c a d) c a d false fun s z x =>
    s.tileRun x Need.load line false fun k =>
      match z with
      | some z => s.tldAcc x z k
      | none => s.tldVec x d.toNat k

/-- tst (R242 to R251, R304). -/
def execTst (pol : BitVec 2) (line : BitVec 1) (scope : BitVec 3) (c a d : BitVec 6) (s : State) : Out :=
  s.tileOp (.tst pol line scope c a d) c a d true fun s z x =>
    s.tileRun x Need.store line true fun k =>
      let g : Grp := { start := d.toNat, size := s.ty.g }
      let code := fun i =>
        match z with
        | some z => (s.acc z).work.elem (s.acc z).af (i / x.nc) (i % x.nc)
        | none => s.rd g s.ty.w i
      let known := k = x.nr * x.nc && x.base.toNat % s.ty.sz = 0 && x.stride.toNat % s.ty.sz = 0
      (s.touchAccess (s.tileAccess x) k).store (if known then some s.ty.w else none)
        (s.elemWrites (s.tileAccess x) code k)

end Sys2Proof.Machine
end

