-- ==== Sys2Proof/Machine/Tender.lean ====
section
/-!
DEFINITION. Tenders: copies, collectives and messages, majors 0x29 to 0x2B, with the steps of the tenders, their
firmware, the moorings and drift queues, and the scale-up switch (R351 to R372).
-/
namespace Sys2Proof.Machine

/-! Issue (R355, R356). -/

/-- Issue of a tender instruction: a format of 8 bits or more, no loan; one not begun is discarded by a pre-emption
request (R356). -/
def State.tenderIssue (s : State) (i : Instr) (regs : List (BitVec 6)) (body : Out) : Out :=
  s.vector i s.ty.byteOk { loanable := false, field := 0, dest := none, others := [], regs := regs } fun _ _ =>
    if s.strand.cutReq.isSome then .next s.idle.haltStrand else body

/-- Issue of a tender instruction that names a token: a seventeenth pending one stalls (R354, R386). -/
def State.tender (s : State) (i : Instr) (regs : List (BitVec 6)) (body : Out) : Out :=
  s.tenderIssue i regs <|
    match s.strand.tokens with
    | t :: _ => if 16 ≤ s.strand.tokens.length then .next (s.stall t.job) else body
    | [] => body

/-- A tender instruction of effective length 0: its token is written at issue as 0 (R355). -/
def State.tokenZero (s : State) (d : BitVec 6) : Out := (s.setHart (s.hart.put d.toNat 0)).empty

/-- A job begins, and its register is pending until the token is written (R355); the firmware's, for its command, has none. -/
def State.startJob (s : State) (d : BitVec 6) (kind : JobKind) (parent : Option Job) (done : Option Word) : State :=
  let id := s.fabric.next
  let s := s.setFabric { s.fabric with
    next := id + 1
    jobs := s.fabric.jobs ++ [{ id := id, owner := s.strand.tag, reg := d, kind := kind, entered := false, last := 0,
                                parent := parent.map Job.id, done := done, left := parent.bind Job.left }] }
  if parent.isSome then s else s.setStrand { s.strand with tokens := s.strand.tokens ++ [{ reg := d, job := id }] }

/-- A rejected operand: a stop of kind 6 on the leading element (R356). -/
def VStop.reject : VStop := VStop.plain 0 6 0

/-- The end of a tender instruction: the trap on its leading element, or `commit k` and MG (R30, R356). -/
def State.begin (s : State) (stop : Option VStop) (commit : Nat → State) : Out := s.finish s.n .never stop commit

/-! tcopy (R357 to R359). -/

/-- The lowest and highest byte of a copy's side; a range that wraps covers every address (R263). The entry of a remote or host
side holds that side's addresses, and is compared as the entry of a local side is (DEDUCED, log entry 81). -/
def copyRange (a stride : Word) (n sz : Nat) : Nat × Nat :=
  let last : Int := (a.toNat : Int) + ((n - 1 : Nat) : Int) * stride.toInt
  let lo := min (a.toNat : Int) last
  let hi := max (a.toNat : Int) last + ((sz - 1 : Nat) : Int)
  if lo < 0 || ((2 ^ 64 : Nat) : Int) ≤ hi then (0, 2 ^ 64 - 1) else (lo.toNat, hi.toNat)

/-- The stop of a tcopy at its leading elements: the source's, then the destination's, then a peer that is silent (R358). -/
def State.copyStop (s : State) (sides : CopySide × CopySide) (da fa : Word) (sz : Nat) : Option VStop :=
  let src := s.sideAt sides.2 Need.read4 fa sz
  let dst := s.sideAt sides.1 Need.store da sz
  match src, dst with
  | .stop st, _ => some (VStop.mem 0 fa st)
  | _, .stop st => some (VStop.mem 0 da st)
  | .silent, _ => some VStop.reject
  | _, .silent => some VStop.reject
  | _, _ => none

/-- A copy begun: the job, and its two interlock entries (R263). -/
def State.startCopy (s : State) (d : BitVec 6) (n sz : Nat) (da ds fa fs : Word) (r w : Nat × Nat) : State :=
  let id := s.fabric.next
  let t := s.startJob d (.copy n sz da ds fa fs s.strand.tcsp) none none
  t.setStrand { t.strand with
    irt := t.strand.irt ++ [{ owner := id, write := false, lo := r.1, hi := r.2, known := true, bar := false },
                            { owner := id, write := true, lo := w.1, hi := w.2, known := true, bar := false }] }

/-- tcopy (R358). -/
def execTcopy (scope : BitVec 3) (d a b : BitVec 6) (s : State) : Out :=
  s.tender (.tcopy scope d a b) [d, a, a + 1, b, b + 1] <|
    if s.n = 0 then s.tokenZero d
    else
      let sz := s.ty.sz
      let sides := copySides s.strand.tcsp
      let r := copyRange (s.g b) (s.g (b + 1)) s.n sz
      let w := copyRange (s.g a) (s.g (a + 1)) s.n sz
      s.clear false r.1 r.2 <| s.clear true w.1 w.2 <|
        match s.tableFull 2 with
        | some id => .next (s.stall id)
        | none =>
          s.begin (s.copyStop sides (s.g a) (s.g b) sz) fun k =>
            s.startCopy d (if s.ty.blk = 0 then k else min k s.strand.sreq.toNat) sz
              (s.g a) (s.g (a + 1)) (s.g b) (s.g (b + 1)) r w

/-! Reading the elements that a tender instruction sends (R361, R366). -/

/-- Elements at unit stride from an address, padding among them (R226). -/
def State.run (s : State) (n : Nat) (base : Word) : Access :=
  { n := n, sz := s.ty.sz, nib := false, on := fun i => !s.pad i
    addr := fun i => .ok (base + BitVec.ofNat 64 (i * s.ty.sz)), aux := [] }

/-- The bytes of elements [0, k): padding is 0 (R227). -/
def State.runBytes (s : State) (x : Access) (k : Nat) : List Byte :=
  (buildFrom id k 0).flatMap fun i =>
    if x.on i then
      match s.elemLocs Need.read4 false x i with
      | .ok ls => s.bytes ls
      | .error _ => List.replicate x.sz 0
    else List.replicate x.sz 0

/-- The first element of [0, k) that touches a poisoned sector (R361, R366). -/
def State.runPoison (s : State) (x : Access) (k : Nat) : Option Nat :=
  firstIdx (fun i => x.on i &&
    (match s.elemLocs Need.read4 false x i with
     | .ok ls => ls.any s.poisoned
     | .error _ => false)) k 0

/-! Messages (R365 to R370). -/

/-- Fields of an envelope (R365). -/
def envTag (e : Word) : BitVec 32 := BitVec.ofNat 32 e.toNat
def envPeer (e : Word) : BitVec 10 := BitVec.ofNat 10 (e.toNat / 2 ^ 32)
def envCtx (e : Word) : BitVec 12 := BitVec.ofNat 12 (e.toNat / 2 ^ 52)

/-- The reserved bits of an envelope are 0. -/
def envOk (e : Word) : Bool := bitsAt e.toNat 42 10 = 0

/-- An envelope that tsend accepts: neither the tag nor the peer is a pattern. -/
def envSendOk (e : Word) : Bool := envOk e && envTag e ≠ 0xFFFFFFFF && envPeer e ≠ 0x3FF

/-- A pattern matches a message (R365, R368). -/
def envMatch (ctx : BitVec 12) (tag : BitVec 32) (peer : BitVec 10) (m : Msg) : Bool :=
  ctx = m.ctx && (tag = 0xFFFFFFFF || tag = m.tag) && (peer = 0x3FF || peer = m.peer)

/-- The strand's berth is a member (R357). -/
def State.isMember (s : State) : Bool := bitAt s.strand.tmid.toNat 15

/-- The message of elements [0, k), cut short at the first poisoned one. -/
def State.message (s : State) (x : Access) (e : Word) (k : Nat) : JobKind :=
  let p := s.runPoison x k
  let c := p.getD k
  .send c p.isSome { ctx := envCtx e, tag := envTag e, peer := envPeer e, data := s.runBytes x c, job := none }

/-- tsend (R366). -/
def execTsend (scope : BitVec 3) (d a b : BitVec 6) (s : State) : Out :=
  s.tender (.tsend scope d a b) [d, a, b] <|
    if s.n = 0 then s.tokenZero d
    else if !envSendOk (s.g b) || !s.isMember then s.begin (some VStop.reject) fun _ => s
    else
      let x := s.run s.n (s.g a)
      s.clearAll false x <|
        s.begin (s.accessStop Need.read4 false x) fun k =>
          (s.touchAccess x k).startJob d (s.message x (s.g b) k) none none

/-- A change performed with the context of a tag in focus, wherever it is. -/
def State.inCtx (s : State) (tag : BitVec 16) (f : State → State) : State :=
  s.over fun u =>
    match u.pop.ctxAt tag with
    | none => u
    | some _ => f (u.focus tag)

/-- The focus stands for what a retired strand left. -/
def State.standsFor (s : State) (c : Ctx) : Bool :=
  !s.priv && s.strand.status = .retired && s.strand.tag = c.strand.tag && s.strand.casp = c.strand.casp
    && s.strand.croot = c.strand.croot

/-- A change performed in what a strand left. -/
def State.inLeft (s : State) (c : Ctx) (f : State → State) : State :=
  if s.standsFor c then f s
  else
    s.over fun u =>
      let t := f (u.viewCtx c)
      { t with
        priv := u.priv, hart := u.hart, strand := u.strand, flot := u.flot, core := u.core
        pop := { t.pop with cores := putBy Core.id t.core t.pop.cores } }

/-- A change performed in the context of a job's strand, or for a strand that has retired in what it left. -/
def State.inJob (s : State) (j : Job) (f : State → State) : State :=
  match j.left with
  | none => s.inCtx j.owner f
  | some c => s.inLeft c f

/-- A job changed. -/
def State.mapJob (s : State) (id : Nat) (f : Job → Job) : State :=
  s.setFabric { s.fabric with jobs := s.fabric.jobs.map fun j => if j.id = id then f j else j }

/-- A job's work ends with a token; one that a retired strand left has none to report to and is dropped. -/
def State.endJob (s : State) (id : Nat) (token : Word) : State :=
  match s.fabric.jobAt id with
  | none => s
  | some j =>
    if j.left.isSome && j.parent.isNone then s.setFabric (s.fabric.drop id)
    else s.mapJob id fun j => { j with done := some token }

/-- Writing elements of sz bytes at an address in the focused context: the state, and how many were written whole, with
the kind of the stop if one ended the writes (R361, R367). -/
def State.landElems (s : State) (sz : Nat) : Nat → Word → List Byte → Nat → State × Nat × Option Nat
  | 0, _, _, i => (s, i, none)
  | m + 1, a, bs, i =>
    let now := bs.take sz
    if now.isEmpty then (s, i, none)
    else
      match s.check s.aspace Need.store a now.length with
      | .error st => (s, i, some st.kind)
      | .ok ls =>
        (s.store none (writesOf ls now)).landElems sz m (a + BitVec.ofNat 64 sz) (bs.drop sz)
          (if now.length = sz then i + 1 else i)

/-- Where slot `k` of a berth's drift queue stands in device memory: 16 bytes of envelope, with PEER the source, and length,
then the message of at most 16 KiB (R365, R369; log entry 62). -/
def Berth.driftSlot (b : Berth) (k : Nat) : Nat := b.driftAt + 16400 * k

/-- The message in slot `k` of the drift queue of berth `b`, as device memory holds it. -/
def State.driftMsg (s : State) (b k : Nat) : Msg :=
  let a := (s.berthAt b).driftSlot k
  let e := s.phys8 a
  { ctx := envCtx e, tag := envTag e, peer := envPeer e, data := memRead s.ms.dram (a + 16) (min 16384 (s.phys8 (a + 8)).toNat)
    job := none }

/-- The oldest message of the drift queue that a pattern matches: its slot and the message (R369, R370). -/
def State.drifting (s : State) (b : Nat) (e : Word) : Option (Nat × Msg) :=
  (s.berthAt b).drift.findSome? fun k =>
    let m := s.driftMsg b k
    if envMatch (envCtx e) (envTag e) (envPeer e) m then some (k, m) else none

/-- A message appended to the drift queue, in its lowest free slot; none when the queue is full (R369). -/
def State.appendDrift (s : State) (b : Nat) (m : Msg) : Option State :=
  let bb := s.berthAt b
  ((buildFrom id bb.driftCap 0).find? fun k => !bb.drift.contains k).map fun k =>
    let e := m.tag.toNat + 2 ^ 32 * m.peer.toNat + 2 ^ 52 * m.ctx.toNat
    (s.putBerth b { bb with drift := bb.drift ++ [k] }).writePhys (bb.driftSlot k)
      (toBytes 8 e ++ toBytes 8 m.data.length ++ m.data)

/-- A tender without the staged bytes of `n` effective addresses from one. -/
def TCore.unstage (k : TCore) (a : Word) (n : Nat) : TCore :=
  { k with staged := k.staged.filter fun e => n ≤ (BitVec.ofNat 64 e.1 - a).toNat }

/-- The tender of a command no longer holds the staged bytes that a receive of its firmware has written over (R364). -/
def State.unstage (s : State) (cmd : Option Nat) (a : Word) (n : Nat) : State :=
  if cmd.isNone then s
  else s.setPop { s.pop with tenders := s.pop.tenders.map fun k => if k.cmd = cmd then k.unstage a n else k }

/-- A matched message lands in the receive's buffer, in the posting context as it stands, and the receive ends (R367). -/
def State.landMsg (s : State) (id : Nat) (m : Msg) : State :=
  match s.fabric.jobAt id with
  | some j =>
    match j.kind with
    | .recv addr cap sz =>
      let bs := m.data.take (cap * sz)
      s.inJob j fun s =>
        let r := s.landElems sz (cap + 1) addr bs 0
        let cause := if cap * sz < m.data.length then 3 else 0
        (r.1.unstage j.parent addr bs.length).endJob id (tokenWord r.2.1 (r.2.2.getD 0) cause false)
    | _ => s
  | none => s

/-- The send that a message came from has been accepted: COUNT, with KIND 3 after poison (R366). -/
def State.accepted (s : State) (m : Msg) : State :=
  match m.job with
  | none => s
  | some id =>
    match s.fabric.jobAt id with
    | some { kind := .send count poison _, .. } => s.endJob id (tokenWord count (if poison then 3 else 0) 0 false)
    | _ => s

/-- A message at a member: matched against the moorings, else appended to the drift queue, else refused (R368, R369). -/
def State.arrive (s : State) (b : Nat) (m : Msg) : State :=
  let bb := s.berthAt b
  match bb.moor.find? fun e => envMatch e.ctx e.tag e.peer m with
  | some e =>
    let s := s.putBerth b { bb with moor := bb.moor.filter fun x => x.job ≠ e.job }
    (s.landMsg e.job m).accepted m
  | none =>
    match s.appendDrift b m with
    | some t => t.accepted m
    | none => s.putBerth b { bb with refused := bb.refused ++ [m] }

/-- A receive posted: the oldest matching message of the drift queue, or a mooring (R367, R369). -/
def State.post (s : State) (id : Nat) (e : Word) : State :=
  let b := s.berthNo
  let bb := s.berthAt b
  match s.drifting b e with
  | some (k, m) => (s.putBerth b { bb with drift := bb.drift.erase k }).landMsg id m
  | none =>
    s.putBerth b { bb with moor := bb.moor ++ [{ job := id, ctx := envCtx e, tag := envTag e, peer := envPeer e }] }

/-- trecv (R367). -/
def execTrecv (scope : BitVec 3) (d a b : BitVec 6) (s : State) : Out :=
  s.tender (.trecv scope d a b) [d, a, b] <|
    if s.n = 0 then s.tokenZero d
    else if !envOk (s.g b) || !s.isMember then s.begin (some VStop.reject) fun _ => s
    else if 4096 ≤ (s.berthAt s.berthNo).moor.length then s.begin (some VStop.reject) fun _ => s
    else
      let x := s.run s.n (s.g a)
      s.clearAll true x <|
        s.begin (s.accessStop Need.store false x) fun k =>
          ((s.touchAccess x k).startJob d (.recv (s.g a) k s.ty.sz) none none).post s.fabric.next (s.g b)

/-- What tprobe finds (R370). -/
def State.probe (s : State) (e : Word) : Word :=
  match s.drifting s.berthNo e with
  | some (_, m) => BitVec.ofNat 64 (2 ^ 63 + 2 ^ 42 * m.data.length + 2 ^ 32 * m.peer.toNat + m.tag.toNat)
  | none => 0

/-- tprobe (R370). -/
def execTprobe (d b : BitVec 6) (s : State) : Out :=
  s.tenderIssue (.tprobe d b) [d, b] <|
    let t := s.takeLastd d
    if s.n = 0 then t.empty
    else if !envOk (s.g b) then s.begin (some VStop.reject) fun _ => s
    else t.begin none fun _ => t.setHart (t.hart.put d.toNat (s.probe (s.g b)))

/-- The token of a send whose destination is unreachable (R354, R366). -/
def unreachableToken : Word := tokenWord 0 6 4 true

/-- The message of a send as its destination sees it: the source is the sender's member number (R365). -/
def State.sentMsg (s : State) (j : Job) (m : Msg) : Msg :=
  { m with peer := BitVec.ofNat 10 (s.berthAt (tagBerth j.owner)).tmid.toNat, job := some j.id }

/-- No earlier message of the same strand to the same member is still on its way (R368, R369). -/
def State.inOrder (s : State) (j : Job) (m : Msg) : Bool :=
  s.fabric.jobs.all fun e =>
    match e.kind with
    | .send _ _ m' => !(e.id < j.id && e.owner = j.owner && e.left = j.left && m'.peer = m.peer && e.done.isNone)
    | _ => true

/-- A refused message holds back a later one of its sender (R369); an outside one says with `behind` that it is of the
strand of an earlier refused one of its member. -/
def Berth.heldBack (b : Berth) (m : Msg) (behind : Bool) : Bool :=
  b.refused.any fun r => r.job = m.job && (m.job.isSome || (behind && r.peer = m.peer))

/-- A message arrives (R368): the one of the input's job, sent within the package, or one from another package. -/
def execMessageArrival (s : State) : Out :=
  match s.fabric.jobAt s.inp.job with
  | some j =>
    match j.kind, j.done with
    | .send _ _ m, none =>
      match s.memberBerth m.peer.toNat with
      | some b =>
        let m' := s.sentMsg j m
        if s.reaching (tagBerth j.owner) m.peer.toNat && s.inOrder j m && !(s.berthAt b).heldBack m' false then
          .next ((s.arrive b m').idle)
        else .next s.idle
      | none => .next s.idle
    | _, _ => .next s.idle
  | none =>
    let b := s.inp.berth.toNat
    let m : Msg := { ctx := s.inp.ctx, tag := s.inp.mtag, peer := s.inp.peer, data := s.inp.data.take 16384, job := none }
    if !bitAt (s.berthAt b).tmid.toNat 15 then .next s.idle
    else if (s.berthAt b).heldBack m s.inp.flag then
      .next ((s.putBerth b { s.berthAt b with refused := (s.berthAt b).refused ++ [m] }).idle)
    else .next ((s.arrive b m).idle)

/-- A refused message is still its sender's to deliver: its send has not ended (R371), or it comes from outside. -/
def State.stillSent (s : State) (m : Msg) : Bool :=
  match m.job with
  | none => true
  | some id => match s.fabric.jobAt id with | some j => j.done.isNone | none => false

/-- The send that a refused message belongs to, when its destination is no longer reachable (R371). -/
def State.lostSend (s : State) (m : Msg) : Option Nat :=
  (m.job.bind s.fabric.jobAt).bind fun j =>
    match j.kind, j.done with
    | .send _ _ k, none => if s.reaching (tagBerth j.owner) k.peer.toNat then none else some j.id
    | _, _ => none

/-- The sender of the input's number among the refused messages of a berth tries again (R369); an earlier one of the
same sender goes first, one whose send has ended is gone, and one that no port reaches ends its send (R366, R371). -/
def execMessageRetry (s : State) : Out :=
  let b := s.inp.berth.toNat
  let bb := s.berthAt b
  match bb.refused[s.inp.num]? with
  | none => .next s.idle
  | some m =>
    if (bb.refused.take s.inp.num).any fun r => r.job.isNone && m.job.isNone && r.peer = m.peer then .next s.idle
    else
      let t := s.putBerth b { bb with refused := bb.refused.eraseIdx s.inp.num }
      match s.lostSend m with
      | some j => .next (t.endJob j unreachableToken).idle
      | none => .next ((if s.stillSent m then t.arrive b m else t).idle)

/-! tcoll (R360 to R364). -/

/-- The switch reduces this format by this operation (R362). -/
def isrOk (fmt op : Nat) : Bool :=
  if fmt = 0x0A || fmt = 0x0B || fmt = 0x0E || fmt = 0x0F then op ≤ 5 else (fmt = 1 || fmt = 2 || fmt = 3) && op ≤ 2

/-- A collective descriptor that tcoll rejects (R360). -/
def descBad (f : Nat → Nat) (fmt : Nat) : Bool :=
  f 2 = 0 || 2 ^ 32 ≤ f 2
    || bitsAt (f 3) 48 16 ≠ 0 || bitsAt (f 3) 32 16 = 0 || 1024 < bitsAt (f 3) 32 16
    || bitsAt (f 3) 32 16 ≤ bitsAt (f 3) 16 16
    || 5 < bitsAt (f 4) 0 4 || bitsAt (f 4) 9 7 ≠ 0 || bitsAt (f 4) 32 32 ≠ 0
    || f 5 % 128 ≠ 0 || bitsAt (f 6) 0 32 = 0 || bitsAt (f 6) 32 32 ≠ 0 || f 7 ≠ 0
    || (bitAt (f 4) 8 && !isrOk fmt (bitsAt (f 4) 0 4))

/-- A group of the switch. -/
def Fabric.groupAt (f : Fabric) (gid : Nat) : Group :=
  (f.groups.find? fun g => g.gid = gid).getD { gid := gid, closed := false, first := none, members := [], areas := [] }

/-- A group replaced. -/
def Fabric.putGroup (f : Fabric) (g : Group) : Fabric := { f with groups := putBy Group.gid g f.groups }

/-- The contribution of elements [o, o + k), which poison ends early (R361). -/
def State.contribution (s : State) (desc : Word) (f : Nat → Nat) (o : Nat) (x : Access) (k : Nat) : Coll :=
  let p := s.runPoison x k
  let c := p.getD k
  { gid := bitsAt (f 3) 0 16, rank := bitsAt (f 3) 16 16, nmem := bitsAt (f 3) 32 16, op := bitsAt (f 4) 0 4,
    fmt := s.ty.fmt, sz := s.ty.sz, total := f 2, o := o, n := c, mg := k, into := BitVec.ofNat 64 (f 1),
    stat := BitVec.ofNat 64 (f 5), poison := p.isSome, done := [], fail := none, isr := bitAt (f 4) 8,
    img := bitsAt (f 4) 4 4, code := (s.pilot.launchAt s.strand.launch).map (·.code)
    base := BitVec.ofNat 64 (f 0 + o * s.ty.sz), desc := desc, type := s.strand.type, fcmd := bitsAt (f 4) 16 16,
    data := s.runBytes x c }

/-- A contribution handed over: at once ended when its group is closed, or the berth's ports have failed (R363, R371), or
poison left it empty; else the first of its group fixes the format and operation (R362), and its STAT is its member's (R363). -/
def State.handOver (s : State) (d : BitVec 6) (c : Coll) : State :=
  let g := s.fabric.groupAt c.gid
  if g.closed || (c.isr && s.cutOff s.berthNo) then s.startJob d (.coll c) none (some (tokenWord 0 0 1 false))
  else if c.isr && c.n = 0 then s.startJob d (.coll c) none (some (tokenWord 0 3 0 false))
  else
    let s := if c.isr then s.setFabric (s.fabric.putGroup { g with
        first := some (g.first.getD (c.fmt, c.op)), members := insertNat s.berthNo g.members
        areas := { berth := s.berthNo, addr := c.stat, ctx := (Ctx.mk s.hart s.strand).remains }
          :: g.areas.filter fun a => a.berth ≠ s.berthNo }) else s
    s.startJob d (.coll c) none none

/-- tcoll (R360, R361). -/
def execTcoll (scope : BitVec 3) (d a b : BitVec 6) (s : State) : Out :=
  s.tender (.tcoll scope d a b) [d, a, b] <|
    let ea := s.g a
    let q := eaBounds ea 64
    if s.n = 0 then s.tokenZero d
    else if ea.toNat % 64 ≠ 0 then s.begin (some VStop.reject) fun _ => s
    else
      s.clear false q.1 q.2 <|
        match s.words s.aspace 8 ea with
        | .error st => s.begin (some (VStop.mem 0 ea st)) fun _ => s
        | .ok ws =>
          let f := fun j : Nat => (ws.getD j 0).toNat
          let o := (s.g b).toNat
          if descBad f s.ty.fmt || f 2 ≤ o then s.begin (some VStop.reject) fun _ => s
          else
            let m := min s.n (f 2 - o)
            let x := s.run m (BitVec.ofNat 64 (f 0 + o * s.ty.sz))
            let stop :=
              match s.accessStop Need.read4 false x with
              | some v => some v
              | none => if m < s.n then some (VStop.plain m 6 0) else none
            s.clearAll false x <|
              s.begin stop fun k => (s.touchAccess x k).handOver d (s.contribution ea f o x k)

/-! The scale-up switch (R362, R363). -/

/-- One step of a reduction in rank order (R362): floating sums accumulate in f32. -/
def reduceStep (op fmt : Nat) (acc x : Nat) : Nat :=
  let w := fmtWidth fmt
  let sgn := fmt < 12
  match op with
  | 0 =>
    if fmt ≤ 3 then (fpAdd ffF32 .rne (decodeNum ffF32 acc) (decodeNum (ffOf fmt) x)).code else (acc + x) % 2 ^ w
  | 1 =>
    if fmt ≤ 3 then (fpMinMax (ffOf fmt) true (decodeNum (ffOf fmt) acc) (decodeNum (ffOf fmt) x)).code
    else if (if sgn then decide (signedOf w acc < signedOf w x) else decide (acc < x)) then x else acc
  | 2 =>
    if fmt ≤ 3 then (fpMinMax (ffOf fmt) false (decodeNum (ffOf fmt) acc) (decodeNum (ffOf fmt) x)).code
    else if (if sgn then decide (signedOf w x < signedOf w acc) else decide (x < acc)) then x else acc
  | 3 => acc &&& x
  | 4 => acc ||| x
  | _ => acc ^^^ x

/-- The result of one element over the ranks' codes in rank order: a NaN among the operands of a floating reduction is
the result, the first one made quiet; the total of a floating sum is rounded once (R362). -/
def reduceCodes (op fmt : Nat) (cs : List Nat) : Nat :=
  match cs with
  | [] => 0
  | c :: t =>
    let f := ffOf fmt
    if fmt ≤ 3 then
      match firstNan f (cs.map (decodeNum f)) with
      | some q => q
      | none =>
        if op = 0 then
          let a := t.foldl (reduceStep 0 fmt) (roundNum ffF32 .rne (decodeNum f c)).code
          (roundNum f .rne (decodeNum ffF32 a)).code
        else t.foldl (reduceStep op fmt) c
    else t.foldl (reduceStep op fmt) c

/-- The contributions to a group that the switch holds, of every member berth of this package. -/
def Fabric.colls (f : Fabric) (gid : Nat) : List (Job × Coll) :=
  f.jobs.filterMap fun j =>
    match j.kind with
    | .coll c => if c.isr && j.done.isNone && c.gid = gid then some (j, c) else none
    | _ => none

/-- Elements of a chunk (R362). -/
def chunkFirst (sz k : Nat) : Nat := k * (256 / sz)
def chunkLast (sz total k : Nat) : Nat := min ((k + 1) * (256 / sz)) total

/-- The code that rank r contributed for element e: that of a member of this package, or another member's from its bytes of
the chunk. -/
def elemFrom (cs : List (Job × Coll)) (others : List (Nat × List Byte)) (sz k r e : Nat) : Option Nat :=
  match cs.find? fun x => x.2.rank = r && x.2.o ≤ e && e < x.2.o + x.2.n with
  | some (_, c) => some (ofBytes ((c.data.drop ((e - c.o) * sz)).take sz))
  | none =>
    match others.find? fun x => x.1 = r with
    | some (_, bs) =>
      let at_ := (e - chunkFirst sz k) * sz
      if at_ + sz ≤ bs.length then some (ofBytes ((bs.drop at_).take sz)) else none
    | none => none

/-- Every rank's code of an element, in rank order; none while a member is missing. -/
def rankCodes (f : Nat → Option Nat) (n : Nat) : Option (List Nat) :=
  (buildFrom id n 0).foldr (fun r acc =>
    match f r, acc with
    | some c, some l => some (c :: l)
    | _, _ => none) (some [])

/-- The results of a chunk, first element first; none while a contribution is missing. -/
def chunkResult (cs : List (Job × Coll)) (others : List (Nat × List Byte)) (c : Coll) (k : Nat) : Option (List Nat) :=
  let lo := chunkFirst c.sz k
  let n := chunkLast c.sz c.total k - lo
  (buildFrom id n lo).foldr (fun e acc =>
    match rankCodes (fun r => elemFrom cs others c.sz k r e) c.nmem, acc with
    | some l, some rs => some (reduceCodes c.op c.fmt l :: rs)
    | _, _ => none) (some [])

/-- The chunk's place among those a contribution covers. -/
def Coll.covers (c : Coll) (k : Nat) : Bool :=
  c.o < chunkLast c.sz c.total k && chunkFirst c.sz k < c.o + c.n

/-- The chunks that a contribution covers. -/
def Coll.chunks (c : Coll) : List Nat :=
  let per := 256 / c.sz
  if c.n = 0 then [] else buildFrom id ((c.o + c.n - 1) / per + 1 - c.o / per) (c.o / per)

/-- Elements from o whose results have landed (R361). -/
def Coll.landed (c : Coll) : Nat :=
  let top := c.chunks.foldl (fun acc k =>
    if acc = min (c.o + c.n) (max c.o (chunkFirst c.sz k)) && c.done.contains k
    then min (c.o + c.n) (chunkLast c.sz c.total k) else acc) c.o
  match c.fail with
  | some (e, _) => min top e - c.o
  | none => top - c.o

/-- One contribution's part of a chunk's result lands at INTO (R361, R362); the token follows when all has landed, or
when a landing stops (log entry 31). -/
def State.landChunk (s : State) (x : Job × Coll) (k : Nat) (rs : List Nat) : State :=
  let c := x.2
  let lo := max c.o (chunkFirst c.sz k)
  let hi := min (c.o + c.n) (chunkLast c.sz c.total k)
  let bs := (((rs.drop (lo - chunkFirst c.sz k)).take (hi - lo)).map fun r => toBytes c.sz r).flatten
  let done := fun (s : State) (c' : Coll) =>
    let s := s.mapJob x.1.id fun j => { j with kind := .coll c' }
    if c'.fail.isSome || c'.chunks.all c'.done.contains then
      s.endJob x.1.id (tokenWord c'.landed (match c'.fail with | some (_, kd) => kd | none => if c'.poison then 3 else 0) 0
        c'.fail.isSome)
    else s
  let c' := { c with done := c.done ++ [k] }
  s.inJob x.1 fun s =>
    let r := s.landElems c.sz (hi - lo) (c.into + BitVec.ofNat 64 (lo * c.sz)) bs 0
    done r.1 (match r.2.2 with
      | some kd => { c' with fail := some (lo + r.2.1, kd) }
      | none => c')

/-- The switch sends the result of the input's chunk to the members (R362): once every member has contributed it, in one
format and operation. The input gives the contributions of the members of other packages. -/
def execChunkComplete (s : State) : Out :=
  let cs := s.fabric.colls s.inp.num
  let k := s.inp.addr
  match cs.filter fun x => x.2.covers k && !x.2.done.contains k with
  | [] => .next s.idle
  | (j, c) :: t =>
    let g := s.fabric.groupAt s.inp.num
    let like := fun (x : Job × Coll) => g.first = some (x.2.fmt, x.2.op) && x.2.nmem = c.nmem && x.2.total = c.total
    if !(cs.all like) then .next s.idle
    else
      match chunkResult cs s.inp.others c k with
      | none => .next s.idle
      | some rs => .next ((((j, c) :: t).foldl (fun s x => s.landChunk x k rs) s).idle)

/-- A rank of this package has contributed the whole of a chunk. -/
def contributed (cs : List (Job × Coll)) (sz total k r : Nat) : Bool :=
  (buildFrom id (chunkLast sz total k - chunkFirst sz k) (chunkFirst sz k)).all fun e =>
    cs.any fun x => x.2.rank = r && x.2.o ≤ e && e < x.2.o + x.2.n

/-- The 128 bytes of a status area (R363). -/
def statBytes (f : Nat → Bool) : List Byte :=
  buildFrom (fun i => BitVec.ofNat 8 ((buildFrom (fun k => if f (8 * i + k) then 2 ^ k else 0) 8 0).foldl (· + ·) 0)) 128 0

/-- The group fails (R363): incomplete chunks are discarded, STAT is written through the tenders of the members that survive
(all but those of the berth `dead`), outstanding tcolls end with the cause, GID is closed. A member with no tcoll outstanding has
the STAT of its last contribution written; that of one that has contributed nothing yet is known to no tender (DESIGN CHOICE, log
entry 70). The input gives the ranks of other packages that had contributed to the lowest discarded chunk, and with `flag2` that
chunk where no contribution of this package reaches it. -/
def State.groupFail (s : State) (dead : Option Nat) (gid cause : Nat) : State :=
  let cs := s.fabric.colls gid
  let open_ := cs.flatMap fun x => x.2.chunks.filter fun k => !x.2.done.contains k
  let low := open_.foldl min (if s.inp.flag2 then s.inp.addr else open_.headD 0)
  let ranks := s.inp.ranks
  let bits := fun (c : Coll) => statBytes fun r => contributed cs c.sz c.total low r || ranks.contains r
  let quiet := (s.fabric.groupAt gid).areas.filter fun a =>
    dead ≠ some a.berth && !cs.any fun x => tagBerth x.1.owner = a.berth
  let s := cs.foldl (fun s x =>
    let c := x.2
    let s := if dead = some (tagBerth x.1.owner) then s else s.inJob x.1 fun s => (s.landElems 128 1 c.stat (bits c) 0).1
    s.endJob x.1.id (tokenWord c.landed (if c.poison then 3 else 0) cause false)) s
  let all := match cs with
    | [] => statBytes ranks.contains
    | x :: _ => bits x.2
  let s := quiet.foldl (fun s a => s.inLeft a.ctx fun s => (s.landElems 128 1 a.addr all 0).1) s
  s.setFabric (s.fabric.putGroup { gid := gid, closed := true, first := none, members := [], areas := [] })

/-- TMO passes on an incomplete chunk of the input's group (R363), to which a member of this or another package
contributed. -/
def execCollectiveTimeout (s : State) : Out := .next ((s.groupFail none (s.inp.num % 65536) 2).idle)

/-- The port of a member of another package fails or its berth is reset (R363). -/
def execMemberFailure (s : State) : Out := .next ((s.groupFail none (s.inp.num % 65536) 1).idle)

/-- A contribution differs from its group's first in format or operation (R362): one of this package, or with the input
flag another member's. -/
def execContributionMismatch (s : State) : Out :=
  let cs := s.fabric.colls s.inp.num
  let g := s.fabric.groupAt s.inp.num
  if s.inp.flag || cs.any fun x => g.first ≠ some (x.2.fmt, x.2.op) then
    .next ((s.groupFail none (s.inp.num % 65536) 5).idle)
  else .next s.idle

/-! Tokens (R354, R355). -/

/-- A token delivered into the save area of a saved context (R355, R386). -/
def State.saveToken (s : State) (c : Ctx) (j : Job) (x : Word) : State :=
  let k := c.strand.tokens.findIdx fun t => t.job = j.id
  let s := s.writePhys (c.strand.saveAt + 0xA20 + 16 * k) (wordBytes (tokenSlot j.reg 2 x))
  s.setFabric (s.fabric.drop j.id)

/-- A job's token delivered where its owner's context is. -/
def State.deliver (s : State) (id : Nat) : State :=
  match s.fabric.jobAt id with
  | none => s
  | some j =>
    s.over fun u =>
      match u.pop.ctxAt j.owner with
      | none => u.setFabric (u.fabric.drop id)
      | some c =>
        if c.strand.status = .saved || c.strand.status = .parked then
          match j.done with
          | some x => u.saveToken c j x
          | none => u
        else (u.focus j.owner).finishJob id

/-- A job's token delivered to its strand; a send or receive of firmware has none (R353), nor has a job that a retired strand
left (R355). -/
def State.handToken (s : State) (j : Job) : State := if j.parent.isSome || j.left.isSome then s else s.deliver j.id

/-- The work of the input's job ends and its token is written (R355): a copy is performed; a send to a member outside the
package has been accepted, or its member is unreachable, which the input flag tells of a member outside (R366, R371); any
other job's token is written once its outcome is known. -/
def execTokenDelivery (s : State) : Out :=
  match s.fabric.jobAt s.inp.job with
  | none => .next s.idle
  | some j =>
    match j.kind, j.done with
    | .send count poison m, none =>
      let far := (s.memberBerth m.peer.toNat).isNone
      if !s.reaching (tagBerth j.owner) m.peer.toNat || (far && s.inp.flag) then
        .next (((s.endJob j.id unreachableToken).handToken j).idle)
      else if !far || !s.inOrder j m then .next s.idle
      else .next (((s.endJob j.id (tokenWord count (if poison then 3 else 0) 0 false)).handToken j).idle)
    | _, _ => .next ((s.handToken j).idle)

/-- A copy ended by a peer that stops answering: some elements were copied (R358, R371). -/
def State.breakCopy (s : State) (j : Job) : State :=
  match j.kind with
  | .copy n sz da ds fa fs tcsp =>
    let sides := copySides tcsp
    s.inCtx j.owner fun s =>
      let m := s.free 13 j.id % (n + 1)
      let r := s.copyLoop sides sz ds fs m 0 da fa
      let x := if r.2.kind ≠ 0 || m = n then tokenWord r.2.count r.2.kind r.2.cause r.2.side
               else tokenWord r.2.count 6 4 (sides.1.space = 1)
      r.1.endJob j.id x
  | _ => s

/-- The groups that berth `b` is a member of, once it has contributed, or as the input tells of one that it has still to
contribute to (R363). -/
def State.groupsOf (s : State) (b : Nat) : List Nat :=
  dedup (((s.fabric.groups.filter fun g => !g.closed && g.members.contains b).map Group.gid)
    ++ s.inp.others.map fun e => e.1 % 65536)

/-- Port `p` of berth `b` fails (R371): the Bridge has the event, every group of the berth fails (R363), and the operations
that need the port, which the input names, and with the last port all of them, end as R358 and R366 give. Word 2 of the event is
the port's number and word 3 is 0, where R415 names CCAUSE and CTVAL (DESIGN CHOICE, log entry 100). -/
def State.failPort (s : State) (b p : Nat) : State :=
  let bb := s.berthAt b
  if !bitAt bb.ports p || s.fabric.failed.contains p then s
  else
    let s := s.setFabric { s.fabric with failed := insertNat p s.fabric.failed }
    let s := s.putBerth b (bb.event { kind := 4, tag := 0, queue := 0, die := 0, w2 := BitVec.ofNat 64 p, w3 := 0 })
    let s := (s.groupsOf b).foldl (fun s g => s.groupFail (some b) g 1) s
    let last := (buildFrom id 12 0).all fun q => !bitAt bb.ports q || s.fabric.failed.contains q
    let js := s.fabric.jobs.filter fun j => tagBerth j.owner = b && j.done.isNone && (last || s.inp.ranks.contains j.id)
    (js.foldl (fun s j =>
      match j.kind with
      | .copy _ _ _ _ _ _ tcsp =>
        let sides := copySides tcsp
        if sides.1.space = 1 || sides.2.space = 1 then s.breakCopy j else s
      | .send .. => s.endJob j.id unreachableToken
      | _ => s) s).postEvents b

/-- A port of the input's berth fails (R371). -/
def execPortFailure (s : State) : Out := .next (s.failPort s.inp.berth.toNat s.inp.num).idle

end Sys2Proof.Machine
end

