-- ==== Sys2Proof/Machine/Firmware.lean ====
section
/-!
DEFINITION. The tender cores and their firmware (R351 to R353, R364): loading an image, the RV64IMAC instructions that it
runs, and the registers TFDONE, TFSEND, TFRECV and TFWAIT. The instructions are those of the RISC-V unprivileged manual,
which this manual names and does not repeat (PRESUMED, log entry 61).
-/
namespace Sys2Proof.Machine

/-! Tender cores (R351). -/

/-- A tender core by its number; one never used is at reset. -/
def Pop.tenderAt (p : Pop) (id : Nat) : TCore := (p.tenders.find? fun c => c.id = id).getD (TCore.reset id)

/-- A tender core changed; it takes its turn after the others. -/
def State.putTender (s : State) (c : TCore) : State :=
  s.setPop { s.pop with tenders := (s.pop.tenders.filter fun x => x.id ≠ c.id) ++ [c] }

/-- The firmware command of a job, until its token is known. -/
def Fabric.command (f : Fabric) (id : Nat) : Option (Job × Coll) :=
  match f.jobAt id with
  | some j =>
    match j.kind with
    | .coll c => if !c.isr && j.done.isNone then some (j, c) else none
    | _ => none
  | none => none

/-- The command that a tender serves. -/
def State.serving (s : State) (c : TCore) : Option (Job × Coll) := c.cmd.bind s.fabric.command

/-- The tenders of the berth of a job on the die of its strand that can take a command (R351). -/
def State.freeTenders (s : State) (j : Job) : List Nat :=
  match j.left <|> s.allCtxs.find? fun c => c.strand.tag = j.owner with
  | none => []
  | some c =>
    (buildFrom id 16 (16 * coreDie c.strand.core)).filter fun t =>
      bitAt (s.berthAt (tagBerth j.owner)).tenders t
        && (let k := s.pop.tenderAt t
            !k.stopped && (s.serving k).isNone)

/-- A command ended with CAUSE 6 (R352, R353). -/
def State.firmwareEnd (s : State) (j : Job) (c : Coll) (kind : Nat) : State :=
  s.endJob j.id (tokenWord (min (bitsAt j.last.toNat 0 32) c.mg) kind 6 false)

/-- Image `img` of a code object, that of the issuing launch (R72, R80, R81, R352): its bytes, none when the object does not
hold it, or the stop of a read. Of an entry whose LEN is above 65,536, which R81 does not allow, the first 65,536 bytes are
loaded (DESIGN CHOICE, log entry 94). -/
def State.tenderImage (s : State) (object : Option Word) (img : Nat) : Except Stop (Option (Word × List Byte)) :=
  match object with
  | none => .ok none
  | some code =>
    match s.words s.aspace 2 (code + 0x28) with
    | .error st => .error st
    | .ok h =>
      if (h.getD 1 0).toNat ≤ img then .ok none
      else
        match s.words s.aspace 2 (code + h.getD 0 0 + BitVec.ofNat 64 (16 * img)) with
        | .error st => .error st
        | .ok e =>
          match s.check s.aspace Need.load (code + e.getD 0 0) (min 65536 (e.getD 1 0).toNat) with
          | .error st => .error st
          | .ok ls => .ok (some (code, s.bytes ls))

/-- Bytes by the effective addresses that they were read at, from one on. -/
def stagedAt (a : Word) : List Byte → List Host.Cell
  | [] => []
  | b :: t => (a.toNat, b) :: stagedAt (a + 1) t

/-- A tender enters a command at image offset 0 with the registers of R353; its image is loaded unless it holds it. The
elements contributed are at hand as they were read at issue (R364). The other registers and the data half of the SRAM keep what
they held, 0 at reset (DESIGN CHOICE, log entry 95). -/
def TCore.enter (k : TCore) (j : Job) (c : Coll) (tmid : Word) (image : Word × Word × Word × Nat) (bytes : List Byte) : TCore :=
  { k with
    x := mkVec 32 fun r =>
      match r with
      | 10 => c.desc
      | 11 => BitVec.ofNat 64 c.o
      | 12 => BitVec.ofNat 64 c.mg
      | 13 => c.type.setWidth 64
      | 14 => BitVec.ofNat 64 c.fcmd
      | 15 => tmid
      | r => vget k.x r 0
    pc := 0
    sram := if k.image = some image then k.sram else memWrite k.sram 0 bytes
    image := some image, cmd := some j.id, sent := 0, posted := 0, rsv := none
    staged := stagedAt c.base c.data }

/-- A tender takes the input's collective command: the one that `num` picks among those free. Firmware enters, or the command
ends at once with CAUSE 6 when the object lacks the image or a read of it fails (R351 to R353). -/
def execTenderCommandEntry (s : State) : Out :=
  match s.fabric.command s.inp.job with
  | none => .next s.idle
  | some (j, c) =>
    let free := s.freeTenders j
    if j.entered || free.isEmpty then .next s.idle
    else
      .next ((s.inJob j fun s =>
        match s.tenderImage c.code c.img with
        | .error st => s.firmwareEnd j c st.kind
        | .ok none => s.firmwareEnd j c 0
        | .ok (some (code, bytes)) =>
          let k := s.pop.tenderAt (free.getD (s.inp.num % free.length) 0)
          let k := k.enter j c s.strand.tmid (s.strand.casp, s.strand.croot, code, c.img) bytes
          (s.putTender k).mapJob j.id fun j => { j with entered := true }).idle)

/-! What firmware's registers do (R353). These steps come about only in a tender's turn, which gives them their input. -/

/-- The tender that serves a job. -/
def Pop.server (p : Pop) (job : Nat) : Option TCore := p.tenders.find? fun k => k.cmd = some job

/-- A change by the firmware that serves the input's job, in the issuing context. -/
def State.firmware (s : State) (f : State → TCore → Job → Coll → State) : Out :=
  match s.fabric.command s.inp.job, s.pop.server s.inp.job with
  | some (j, c), some k => .next ((s.inJob j fun s => f s k j c).idle)
  | _, _ => .next s.idle

/-- A write of TFDONE ends the command: bits 40:0 become the token, its COUNT limited to MG (R353, R364). -/
def execTfdone (s : State) : Out :=
  s.firmware fun s _ j c =>
    let x := s.inp.value.toNat % 2 ^ 41
    s.endJob j.id (BitVec.ofNat 64 (x / 2 ^ 32 * 2 ^ 32 + min (x % 2 ^ 32) c.mg))

/-- A firmware fault, an illegal instruction or an access that fails a check ends the command with the KIND of the check, or 0
(R353). -/
def execFirmwareFault (s : State) : Out := s.firmware fun s _ j c => s.firmwareEnd j c s.inp.num

/-- The bytes that a load at an effective address gives: the elements contributed as they were read at issue, else what memory
holds (R364; DEDUCED, log entry 84). -/
def TCore.staging (k : TCore) (a : Word) : List Byte → List Byte
  | [] => []
  | b :: t => ((k.staged.find? fun e => e.1 = a.toNat).map (·.2)).getD b :: k.staging (a + 1) t

/-- Words of memory at an address as the tender's loads give them. -/
def TCore.stagedWords (k : TCore) (a : Word) : List Word → List Word
  | [] => []
  | w :: t => BitVec.ofNat 64 (ofBytes (k.staging a (toBytes 8 w.toNat))) :: k.stagedWords (a + 8) t

/-- The block of a send or receive that firmware names, and the state it is used in; a failed read or a rejected operand ends
the command. -/
def State.block (s : State) (k : TCore) (j : Job) (c : Coll) (go : Word → Nat → Word → State) : State :=
  match s.words s.aspace 4 (BitVec.ofNat 64 s.inp.addr) with
  | .error st => s.firmwareEnd j c st.kind
  | .ok read =>
    let ws := k.stagedWords (BitVec.ofNat 64 s.inp.addr) read
    if ws.getD 3 0 ≠ 0 || 16384 < (ws.getD 1 0).toNat || !s.isMember then s.firmwareEnd j c 6
    else go (ws.getD 0 0) (ws.getD 1 0).toNat (ws.getD 2 0)

/-- Bytes at an address, for firmware's sends and receives. -/
def byteRun (n : Nat) (base : Word) : Access :=
  { n := n, sz := 1, nib := false, on := fun _ => true, addr := fun i => .ok (base + BitVec.ofNat 64 i), aux := [] }

/-- How many bytes of a block its checks let through; none when the first stops, with its kind. -/
def State.blockLen (s : State) (n : Need) (x : Access) : Except Nat Nat :=
  match s.accessStop n false x with
  | none => .ok x.n
  | some v => if v.elem = 0 then .error v.kind else .ok v.elem

/-- The message of `m` of the `n` bytes of a buffer, as the tender's loads give them; the bytes contributed are not read again,
and so meet no poison (R364, R366). -/
def State.firmwareMessage (s : State) (k : TCore) (n : Nat) (buf e : Word) (m : Nat) : JobKind :=
  let x := { byteRun n buf with on := fun i => !k.staged.any fun b => b.1 = (buf + BitVec.ofNat 64 i).toNat }
  match s.message x e m with
  | .send c p msg => .send c p { msg with data := k.staging buf msg.data }
  | other => other

/-- A write of TFSEND: the block's bytes are sent as a tsend of bytes would (R353, R366). -/
def execTfsend (s : State) : Out :=
  s.firmware fun s k j c =>
    s.block k j c fun buf n e =>
      if !envSendOk e then s.firmwareEnd j c 6
      else
        let t := s.putTender { k with sent := s.fabric.next }
        if n = 0 then t.startJob 0 (.send 0 false { ctx := 0, tag := 0, peer := 0, data := [], job := none }) (some j) (some 0)
        else
          match s.blockLen Need.read4 (byteRun n buf) with
          | .error kind => s.firmwareEnd j c kind
          | .ok m => t.startJob 0 (s.firmwareMessage k n buf e m) (some j) none

/-- A write of TFRECV: the block is posted as a trecv of bytes would (R353, R367). -/
def execTfrecv (s : State) : Out :=
  s.firmware fun s k j c =>
    s.block k j c fun buf n e =>
      if !envOk e || 4096 ≤ (s.berthAt s.berthNo).moor.length then s.firmwareEnd j c 6
      else
        let t := s.putTender { k with posted := s.fabric.next }
        if n = 0 then t.startJob 0 (.recv buf 0 1) (some j) (some 0)
        else
          match s.blockLen Need.store (byteRun n buf) with
          | .error kind => s.firmwareEnd j c kind
          | .ok m => (t.startJob 0 (.recv buf m 1) (some j) none).post s.fabric.next e

/-- The handle of a send or receive of a command: its number after the command's (log entry 61). -/
def handleOf (parent id : Nat) : Nat := (id - parent) % 65536

/-- A read of TFWAIT into register `num` (R353): a completed send or receive of the command, a free choice of them, is
forgotten and its handle and token are the value; until one has completed firmware waits at the read. -/
def execTfwait (s : State) : Out :=
  s.firmware fun s k j _ =>
    let ended := s.fabric.jobs.filter fun h => h.parent = some j.id && h.done.isSome
    match ended[s.free 24 0 % max 1 ended.length]? with
    | none => s
    | some h =>
      let v : Word := BitVec.ofNat 64 (handleOf j.id h.id * 2 ^ 48 + (h.done.getD 0).toNat % 2 ^ 41)
      (s.putTender { k with
        x := if s.inp.num % 32 = 0 then k.x else vset k.x (s.inp.num % 32) v
        pc := k.pc + 4 }).setFabric (s.fabric.drop h.id)

/-! RV64IMAC (PRESUMED, log entry 61). -/

/-- An operation of the integer and multiply instructions. -/
inductive RvAlu where
  | add | sub | sll | slt | sltu | xor | srl | sra | or | and
  | mul | mulh | mulhsu | mulhu | div | divu | rem | remu
  deriving DecidableEq, Repr

/-- An instruction of a tender, compressed ones as what they expand to; `word` marks the 32-bit forms. -/
inductive Rv where
  | lui (rd : Nat) (imm : Word)
  | auipc (rd : Nat) (imm : Word)
  | jal (rd : Nat) (off : Word)
  | jalr (rd rs : Nat) (off : Word)
  | branch (c rs rt : Nat) (off : Word)
  | load (f rd rs : Nat) (off : Word)
  | store (f rs rt : Nat) (off : Word)
  | imm (op : RvAlu) (word : Bool) (rd rs : Nat) (imm : Word)
  | op (op : RvAlu) (word : Bool) (rd rs rt : Nat)
  | fence
  | csr (f rd rs num : Nat)
  | amo (f sz rd rs rt : Nat)
  deriving DecidableEq, Repr

/-- A field of n bits read as a signed number. -/
def sext (n v : Nat) : Word := BitVec.ofInt 64 (signedOf n v)

/-- The operation of a funct3 among the register and immediate forms. -/
def rvAlu (f : Nat) (alt : Bool) : RvAlu :=
  match f with
  | 0 => if alt then .sub else .add
  | 1 => .sll
  | 2 => .slt
  | 3 => .sltu
  | 4 => .xor
  | 5 => if alt then .sra else .srl
  | 6 => .or
  | _ => .and

/-- The operation of a funct3 among the multiply and divide instructions. -/
def rvMul (f : Nat) : RvAlu :=
  match f with
  | 0 => .mul
  | 1 => .mulh
  | 2 => .mulhsu
  | 3 => .mulhu
  | 4 => .div
  | 5 => .divu
  | 6 => .rem
  | _ => .remu

/-- The instruction of a 32-bit word; none when it is illegal in RV64IMA. -/
def rvDecode32 (w : Nat) : Option Rv :=
  let rd := bitsAt w 7 5
  let f := bitsAt w 12 3
  let rs := bitsAt w 15 5
  let rt := bitsAt w 20 5
  let g := bitsAt w 25 7
  let i := sext 12 (bitsAt w 20 12)
  let u := sext 32 (bitsAt w 12 20 * 4096)
  match bitsAt w 0 7 with
  | 0x37 => some (.lui rd u)
  | 0x17 => some (.auipc rd u)
  | 0x6F => some (.jal rd (sext 21 (bitsAt w 31 1 * 2 ^ 20 + bitsAt w 12 8 * 2 ^ 12 + bitsAt w 20 1 * 2 ^ 11 + bitsAt w 21 10 * 2)))
  | 0x67 => if f = 0 then some (.jalr rd rs i) else none
  | 0x63 =>
    if f = 2 || f = 3 then none
    else some (.branch f rs rt
      (sext 13 (bitsAt w 31 1 * 2 ^ 12 + bitsAt w 7 1 * 2 ^ 11 + bitsAt w 25 6 * 2 ^ 5 + bitsAt w 8 4 * 2)))
  | 0x03 => if f = 7 then none else some (.load f rd rs i)
  | 0x23 => if 4 ≤ f then none else some (.store f rs rt (sext 12 (g * 32 + rd)))
  | 0x13 =>
    if f = 1 then (if bitsAt w 26 6 = 0 then some (.imm .sll false rd rs (BitVec.ofNat 64 (bitsAt w 20 6))) else none)
    else if f = 5 then
      (if bitsAt w 26 6 = 0 || bitsAt w 26 6 = 16 then
        some (.imm (rvAlu 5 (bitsAt w 26 6 = 16)) false rd rs (BitVec.ofNat 64 (bitsAt w 20 6)))
       else none)
    else some (.imm (rvAlu f false) false rd rs i)
  | 0x1B =>
    if f = 0 then some (.imm .add true rd rs i)
    else if f = 1 && g = 0 then some (.imm .sll true rd rs (BitVec.ofNat 64 rt))
    else if f = 5 && (g = 0 || g = 32) then some (.imm (rvAlu 5 (g = 32)) true rd rs (BitVec.ofNat 64 rt))
    else none
  | 0x33 =>
    if g = 1 then some (.op (rvMul f) false rd rs rt)
    else if g = 0 || (g = 32 && (f = 0 || f = 5)) then some (.op (rvAlu f (g = 32)) false rd rs rt)
    else none
  | 0x3B =>
    if g = 1 && (f = 0 || 4 ≤ f) then some (.op (rvMul f) true rd rs rt)
    else if (f = 0 || f = 5) && (g = 0 || g = 32) then some (.op (rvAlu f (g = 32)) true rd rs rt)
    else if f = 1 && g = 0 then some (.op .sll true rd rs rt)
    else none
  | 0x0F => if f = 0 then some .fence else none
  | 0x73 => if f = 0 || f = 4 then none else some (.csr f rd rs (bitsAt w 20 12))
  | 0x2F =>
    let k := bitsAt w 27 5
    if (f = 2 || f = 3) && ([0, 1, 3, 4, 8, 12, 16, 20, 24, 28].contains k || (k = 2 && rt = 0)) then
      some (.amo k (if f = 2 then 4 else 8) rd rs rt)
    else none
  | _ => none

/-- The instruction of a 16-bit word; none when it is illegal in RV64C without floating point. -/
def rvDecode16 (h : Nat) : Option Rv :=
  let b := fun (n : Nat) => bitsAt h n 1
  let rd := bitsAt h 7 5
  let rt := bitsAt h 2 5
  let ra := bitsAt h 7 3 + 8
  let rb := bitsAt h 2 3 + 8
  let i := sext 6 (b 12 * 32 + rt)
  let shamt : Word := BitVec.ofNat 64 (b 12 * 32 + rt)
  let n := fun (v : Nat) => (BitVec.ofNat 64 v : Word)
  let wOff := n (bitsAt h 10 3 * 8 + b 6 * 4 + b 5 * 64)
  let dOff := n (bitsAt h 10 3 * 8 + bitsAt h 5 2 * 64)
  match h % 4, bitsAt h 13 3 with
  | 0, 0 =>
    let v := bitsAt h 11 2 * 16 + bitsAt h 7 4 * 64 + b 6 * 4 + b 5 * 8
    if v = 0 then none else some (.imm .add false rb 2 (n v))
  | 0, 2 => some (.load 2 rb ra wOff)
  | 0, 3 => some (.load 3 rb ra dOff)
  | 0, 6 => some (.store 2 ra rb wOff)
  | 0, 7 => some (.store 3 ra rb dOff)
  | 1, 0 => some (.imm .add false rd rd i)
  | 1, 1 => if rd = 0 then none else some (.imm .add true rd rd i)
  | 1, 2 => some (.imm .add false rd 0 i)
  | 1, 3 =>
    if b 12 = 0 && rt = 0 then none
    else if rd = 2 then
      some (.imm .add false 2 2 (sext 10 (b 12 * 512 + b 6 * 16 + b 5 * 64 + bitsAt h 3 2 * 128 + b 2 * 32)))
    else some (.lui rd (sext 18 (b 12 * 2 ^ 17 + rt * 4096)))
  | 1, 4 =>
    match bitsAt h 10 2, b 12, bitsAt h 5 2 with
    | 0, _, _ => some (.imm .srl false ra ra shamt)
    | 1, _, _ => some (.imm .sra false ra ra shamt)
    | 2, _, _ => some (.imm .and false ra ra i)
    | _, 0, 0 => some (.op .sub false ra ra rb)
    | _, 0, 1 => some (.op .xor false ra ra rb)
    | _, 0, 2 => some (.op .or false ra ra rb)
    | _, 0, _ => some (.op .and false ra ra rb)
    | _, _, 0 => some (.op .sub true ra ra rb)
    | _, _, 1 => some (.op .add true ra ra rb)
    | _, _, _ => none
  | 1, 5 =>
    some (.jal 0 (sext 12 (b 12 * 2048 + b 11 * 16 + bitsAt h 9 2 * 256 + b 8 * 1024 + b 7 * 64 + b 6 * 128
      + bitsAt h 3 3 * 2 + b 2 * 32)))
  | 1, f =>
    some (.branch (f - 6) ra 0 (sext 9 (b 12 * 256 + bitsAt h 10 2 * 8 + bitsAt h 5 2 * 64 + bitsAt h 3 2 * 2 + b 2 * 32)))
  | 2, 0 => some (.imm .sll false rd rd shamt)
  | 2, 2 => if rd = 0 then none else some (.load 2 rd 2 (n (b 12 * 32 + bitsAt h 4 3 * 4 + bitsAt h 2 2 * 64)))
  | 2, 3 => if rd = 0 then none else some (.load 3 rd 2 (n (b 12 * 32 + bitsAt h 5 2 * 8 + bitsAt h 2 3 * 64)))
  | 2, 4 =>
    if rt = 0 then (if rd = 0 then none else some (.jalr (b 12) rd 0))
    else some (.op .add false rd (if b 12 = 0 then 0 else rd) rt)
  | 2, 6 => some (.store 2 2 rt (n (bitsAt h 9 4 * 4 + bitsAt h 7 2 * 64)))
  | 2, 7 => some (.store 3 2 rt (n (bitsAt h 10 3 * 8 + bitsAt h 7 3 * 64)))
  | _, _ => none

/-- The result of an operation at width w, of operands of that width. -/
def rvResult (op : RvAlu) (w : Nat) (a b : Nat) : Nat :=
  let sa := signedOf w a
  let sb := signedOf w b
  let sh := b % w
  let wrap := fun (x : Int) => (x % ((2 ^ w : Nat) : Int)).toNat
  match op with
  | .add => (a + b) % 2 ^ w
  | .sub => wrap ((a : Int) - b)
  | .sll => a * 2 ^ sh % 2 ^ w
  | .slt => if sa < sb then 1 else 0
  | .sltu => if a < b then 1 else 0
  | .xor => a ^^^ b
  | .srl => a / 2 ^ sh
  | .sra => wrap (sa / ((2 ^ sh : Nat) : Int))
  | .or => a ||| b
  | .and => a &&& b
  | .mul => a * b % 2 ^ w
  | .mulh => wrap (sa * sb / ((2 ^ w : Nat) : Int))
  | .mulhsu => wrap (sa * b / ((2 ^ w : Nat) : Int))
  | .mulhu => a * b / 2 ^ w
  | .div => if b = 0 then 2 ^ w - 1 else wrap (Int.tdiv sa sb)
  | .divu => if b = 0 then 2 ^ w - 1 else a / b
  | .rem => if b = 0 then a else wrap (Int.tmod sa sb)
  | .remu => if b = 0 then a else a % b

/-- The result in a register: a 32-bit form works on the low halves and extends the sign. -/
def rvAluWord (op : RvAlu) (word : Bool) (a b : Word) : Word :=
  if word then sext 32 (rvResult op 32 (a.toNat % 2 ^ 32) (b.toNat % 2 ^ 32))
  else BitVec.ofNat 64 (rvResult op 64 a.toNat b.toNat)

/-- Whether a branch is taken, by its funct3. -/
def rvTaken (f : Nat) (a b : Word) : Bool :=
  match f with
  | 0 => a = b
  | 1 => a ≠ b
  | 4 => a.toInt < b.toInt
  | 5 => b.toInt ≤ a.toInt
  | 6 => a.toNat < b.toNat
  | _ => b.toNat ≤ a.toNat

/-- What an amo of funct5 `f` writes over `old`. -/
def rvAmo (f w old x : Nat) : Nat :=
  match f with
  | 0 => rvResult .add w old x
  | 1 => x
  | 4 => old ^^^ x
  | 8 => old ||| x
  | 12 => old &&& x
  | 16 => if signedOf w x < signedOf w old then x else old
  | 20 => if signedOf w old < signedOf w x then x else old
  | 24 => min old x
  | _ => max old x

/-- Register r of a tender; x0 reads 0. -/
def TCore.get (k : TCore) (r : Nat) : Word := if r = 0 then 0 else vget k.x r 0

/-- Register r written; a write of x0 is discarded. -/
def TCore.put (k : TCore) (r : Nat) (v : Word) : TCore := if r = 0 then k else { k with x := vset k.x r v }

/-- What an instruction of firmware leads to: it goes on, or one of the steps of R353. -/
inductive RvEnd where
  | go (k : TCore) (writes : List (Loc × Byte))
  | done (v : Word)
  | send (k : TCore) (addr : Word)
  | recv (k : TCore) (addr : Word)
  | wait (rd : Nat)
  | fault (kind : Nat)

/-- A read-modify-write instruction, of the A extension: load-reserved, store-conditional, or an amo; a misaligned one is a
fault. A load-reserved gives what a load gives (R364), and reserves only where memory still holds it, so that no write falls
within its pair (R98, R99). An amo reads what it replaces (R99), and the elements there are no longer as contributed. -/
def State.rvAtomic (s : State) (k : TCore) (f sz rd rs rt : Nat) : RvEnd :=
  let ea := k.get rs
  let ext := fun (bs : List Byte) => sext (8 * sz) (ofBytes bs)
  if ea.toNat % sz ≠ 0 then .fault 0
  else
    match s.check s.aspace (if f = 2 then Need.load else if f = 3 then Need.store else Need.rmw) ea sz with
    | .error st => .fault st.kind
    | .ok ls =>
      let line := ls.head?.map Loc.line
      let own := k.unstage ea sz
      if f = 2 then
        let bs := k.staging ea (s.bytes ls)
        .go { k.put rd (ext bs) with rsv := if bs = s.bytes ls then line else none } []
      else if f = 3 then
        if k.rsv.isSome && k.rsv = line then .go { own.put rd 0 with rsv := none } (writesOf ls (toBytes sz (k.get rt).toNat))
        else .go { k.put rd 1 with rsv := none } []
      else
        let old := ofBytes (s.bytes ls)
        .go (own.put rd (ext (s.bytes ls))) (writesOf ls (toBytes sz (rvAmo f (8 * sz) old ((k.get rt).toNat % 2 ^ (8 * sz)))))

/-- An access to a register of R353, by the CSR instructions; a read of TFDONE, to which R353 gives no value, is a free one,
and a write of TFWAIT is ignored. -/
def State.rvCsr (s : State) (k : TCore) (job f rd rs num : Nat) : RvEnd :=
  let src := if 4 ≤ f then BitVec.ofNat 64 rs else k.get rs
  let reads := !(f % 4 = 1 && rd = 0)
  let writes := f % 4 = 1 || rs ≠ 0
  let handle := fun (id : Nat) => (BitVec.ofNat 64 (if id = 0 then 0 else handleOf job id) : Word)
  let mix := fun (old : Word) => if f % 4 = 1 then src else if f % 4 = 2 then old ||| src else old &&& ~~~src
  match num with
  | 0x800 =>
    let old : Word := BitVec.ofNat 64 (s.free 25 0)
    if writes then .done (mix old) else .go (k.put rd old) []
  | 0x801 =>
    let old := handle k.sent
    if writes then .send (k.put rd old) (mix old) else .go (k.put rd old) []
  | 0x802 =>
    let old := handle k.posted
    if writes then .recv (k.put rd old) (mix old) else .go (k.put rd old) []
  | 0x803 => if reads then .wait rd else .go k []
  | _ => .fault 0

/-- An instruction of `len` bytes at the tender's pc; loads and stores use the issuing context's effective addresses
(R353). -/
def State.rvStep (s : State) (k : TCore) (job : Nat) (len : Word) (i : Rv) : RvEnd :=
  let n := { k with pc := k.pc + len }
  match i with
  | .lui rd v => .go (n.put rd v) []
  | .auipc rd v => .go (n.put rd (k.pc + v)) []
  | .jal rd off => .go { n.put rd n.pc with pc := k.pc + off } []
  | .jalr rd rs off => .go { n.put rd n.pc with pc := (k.get rs + off) &&& ~~~(1 : Word) } []
  | .branch f rs rt off => .go { k with pc := if rvTaken f (k.get rs) (k.get rt) then k.pc + off else n.pc } []
  | .load f rd rs off =>
    match s.check s.aspace Need.load (k.get rs + off) (2 ^ (f % 4)) with
    | .error st => .fault st.kind
    | .ok ls =>
      let v := ofBytes (k.staging (k.get rs + off) (s.bytes ls))
      .go (n.put rd (if 4 ≤ f then BitVec.ofNat 64 v else sext (8 * 2 ^ f) v)) []
  | .store f rs rt off =>
    match s.check s.aspace Need.store (k.get rs + off) (2 ^ f) with
    | .error st => .fault st.kind
    | .ok ls => .go (n.unstage (k.get rs + off) (2 ^ f)) (writesOf ls (toBytes (2 ^ f) (k.get rt).toNat))
  | .imm op word rd rs v => .go (n.put rd (rvAluWord op word (k.get rs) v)) []
  | .op op word rd rs rt => .go (n.put rd (rvAluWord op word (k.get rs) (k.get rt))) []
  | .fence => .go n []
  | .csr f rd rs num => s.rvCsr n job f rd rs num
  | .amo f sz rd rs rt => s.rvAtomic n f sz rd rs rt

/-- The instruction at a tender's pc in its image, with its length; none when it is illegal, or beyond the image's half. -/
def TCore.fetch (k : TCore) : Option (Rv × Word) :=
  let a := k.pc.toNat
  let h := ofBytes (memRead k.sram a 2)
  if 65536 < a + 2 then none
  else if h % 4 ≠ 3 then (rvDecode16 h).map fun i => (i, 2)
  else if 65536 < a + 4 then none
  else (rvDecode32 (ofBytes (memRead k.sram a 4))).map fun i => (i, 4)

/-- The next instruction of the firmware that tender `id` runs (R353): what it leads to, as the step of the machine and its
input; none when the step is the instruction's own. -/
def State.firmwareStep (s : State) (id : Nat) : State × Option (Instr × Input) :=
  let k := s.pop.tenderAt id
  match s.serving k with
  | none => (s.idle, none)
  | some (j, _) =>
    let on := { Input.none with job := j.id }
    let u := s.unfocus
    let e : RvEnd :=
      match k.fetch, j.left <|> u.pop.ctxAt j.owner with
      | some (i, len), some c => (u.viewCtx c).rvStep k j.id len i
      | _, _ => .fault 0
    match e with
    | .go k' ws =>
      ((s.inJob j fun s => (s.putTender k').store none ws).idle, none)
    | .done v => (s, some (.tfdone, { on with value := v }))
    | .send k' a => (s.putTender k', some (.tfsend, { on with addr := a.toNat }))
    | .recv k' a => (s.putTender k', some (.tfrecv, { on with addr := a.toNat }))
    | .wait rd => (s, some (.tfwait, { on with num := rd }))
    | .fault kind => (s, some (.firmwareFault, { on with num := kind }))

end Sys2Proof.Machine
end

