-- ==== Sys2Proof/Machine/System.lean ====
section
/-!
DEFINITION. Fences, cache operations, cresz, the monitor, svc, prefixes, breakpoints, the return from a handler, and
the two events of a fetch that finds no instruction (R64, R76, R77, R121, R127 to R145).
-/
namespace Sys2Proof.Machine

/-! Fences and cache operations (R127 to R132). -/

/-- A fence: it waits for the copies of the strand (R127, R372); its ordering and the coherence work of R91 act
between agents only (log entry 5). -/
def State.fence (s : State) (i : Instr) : Out := s.alone i [] (s.drain (.next (s.retire 4)))

/-- fence.acq (R127). -/
def execFenceAcq (scope : BitVec 3) (s : State) : Out := s.fence (.fenceAcq scope)

/-- fence.rel (R127). -/
def execFenceRel (scope : BitVec 3) (s : State) : Out := s.fence (.fenceRel scope)

/-- fence.acqrel (R127). -/
def execFenceAcqrel (scope : BitVec 3) (s : State) : Out := s.fence (.fenceAcqrel scope)

/-- The bytes [ga, ga + gb), which end at 2^64 − 1 (R128). -/
def rangeEnd (a b : Word) : Nat := min (a.toNat + b.toNat - 1) (2 ^ 64 - 1)

/-- A cache operation over a range: the interlock table compares it (R264), as a read; no rule makes it a read or a write (DESIGN
CHOICE, log entry 89). -/
def State.overRange (s : State) (i : Instr) (a b : BitVec 6) (done : State) : Out :=
  s.alone i [a, b]
    (if s.g b = 0 then .next (s.retire 4)
     else s.clear false (s.g a).toNat (rangeEnd (s.g a) (s.g b)) (.next (done.retire 4)))

/-- cwb (R128): it writes back copies and changes no value. -/
def execCwb (scope : BitVec 3) (a b : BitVec 6) (s : State) : Out := s.overRange (.cwb scope a b) a b s

/-- cinv (R129): it invalidates copies and discards no data. -/
def execCinv (scope : BitVec 3) (a b : BitVec 6) (s : State) : Out := s.overRange (.cinv scope a b) a b s

/-- Some number of [i, i + n) satisfies a predicate. -/
def anyFrom (p : Nat → Bool) : Nat → Nat → Bool
  | 0, _ => false
  | n + 1, i => p i || anyFrom p n (i + 1)

/-- A parcel lies in the lines that overlap effective addresses [lo, hi], on pages that translate (R128, R130). -/
def State.parcelIn (s : State) (lo hi k : Nat) : Bool :=
  let lo := lo / 128 * 128
  let hi := hi / 128 * 128 + 127
  anyFrom (fun p =>
    let first := max lo (p * 65536)
    let last := min hi (p * 65536 + 65535)
    !inPool (BitVec.ofNat 64 first) &&
    (match s.xlat s.aspace (BitVec.ofNat 64 first) with
     | .leaf pte lvl =>
       let l := locOf s.ms.seen s.aspace.berth [(BitVec.ofNat 64 first, .leaf pte lvl)] (BitVec.ofNat 64 first)
       l.parcel ≤ k && k ≤ l.parcel + (last - first) / 2
     | .stop .. => false)) (hi / 65536 - lo / 65536 + 1) (lo / 65536)

/-- iinv (R130): the old parcels of the range leave the core's instruction cache. -/
def execIinv (scope : BitVec 3) (a b : BitVec 6) (s : State) : Out :=
  s.overRange (.iinv scope a b) a b
    (s.setCore { s.core with
      icache := s.core.icache.filter fun e => !(s.parcelIn (s.g a).toNat (rangeEnd (s.g a) (s.g b)) e.1) })

/-- fbar (R130): the strand fetches again from its successor. -/
def execFbar (s : State) : Out := s.alone .fbar [] (.next ((s.setStrand { s.strand with fetchd := [] }).retire 4))

/-- prefi (R131): a hint without architectural effect. -/
def execPrefi (a b : BitVec 6) (s : State) : Out := s.alone (.prefi a b) [a, b] (.next (s.retire 4))

/-- cresz (R132, R133): PSPL := min(ga, 14). A Bridge core has no memory pool and gets 0 (log entry 16). -/
def execCresz (d a : BitVec 6) (s : State) : Out :=
  s.alone (.cresz d a) [d, a]
    (if s.priv then .next ((s.wr d 0).retire 4)
     else s.drain
      (let n := min (s.g a).toNat 14
       .next (((s.setWays n).wr d (BitVec.ofNat 64 n)).retire 4)))

/-! System instructions (R134 to R139). -/

/-- nop (R134). -/
def execNop (s : State) : Out := s.alone .nop [] (.next (s.retire 4))

/-- The trap of svc n (R136): CPC is the address after it. A Bridge core takes it at its own vector (R375). No rule says
whether svc counts in INSN as an instruction retired: the model does not count it (DESIGN CHOICE, log entry 76). -/
def State.svc (s : State) (i : Instr) (n : Nat) : Out :=
  s.alone i [] (s.trap { Trap.mk0 0x07 0 (BitVec.ofNat 64 n) true with next := 4 })

/-- svc 0 (R136); the Bridge retires the strand when it services the trap (R381). -/
def execSvcRetire (s : State) : Out := s.svc .svcRetire 0

/-- svc 1 (R136). -/
def execSvcAbort (s : State) : Out := s.svc .svcAbort 1

/-- svc 2 (R136). -/
def execSvcReserve (s : State) : Out := s.svc .svcReserve 2

/-- svc 3 (R136). -/
def execSvcRelease (s : State) : Out := s.svc .svcRelease 3

/-- svc 4 (R136). -/
def execSvcFork (s : State) : Out := s.svc .svcFork 4

/-- svc 5 (R136). -/
def execSvcShootdown (s : State) : Out := s.svc .svcShootdown 5

/-- svc 6 (R136). -/
def execSvcExportWindow (s : State) : Out := s.svc .svcExportWindow 6

/-- svc 7 (R136). -/
def execSvcReopenGroup (s : State) : Out := s.svc .svcReopenGroup 7

/-- svc 8 to 511 (R136). -/
def execSvcUnknown (n : BitVec 9) (s : State) : Out := s.svc (.svcUnknown n) n.toNat

/-- mon (R137): the word, the monitor armed on its line, FIRED cleared. -/
def execMon (d a : BitVec 6) (s : State) : Out :=
  s.alone (.mon d a) [d, a] <|
    let ea := s.g a
    if ea.toNat % 8 ≠ 0 then s.trap (Trap.mk0 0x03 0 ea false)
    else
      let r := eaBounds ea 8
      s.clear false r.1 r.2
        (match s.check s.aspace Need.load ea 8 with
         | .error st => s.trap (Trap.access st)
         | .ok ls =>
           let t := (s.touch ea 8).wr d (BitVec.ofNat 64 (ofBytes (s.bytes ls)))
           .next ((t.setHart { t.hart with monArmed := true, monFired := false, monLine := ls.head?.map Loc.line }).retire 4))

/-- mwait ends with a reason: gd is written, the monitor is disarmed (R138). LASTD took d when mwait issued. -/
def State.mwaitEnd (s : State) (d : BitVec 6) (reason : Word) : State :=
  let h := s.hart.put d.toNat reason
  (s.setHart { h with monArmed := false }).retire 4

/-- The cycles that the focused agent's core has run, whatever CYC was set to. -/
def State.cycles (s : State) : Word := if s.priv then s.bcore.ran else s.core.ran

/-- mwait (R138): it ends at once for a monitor that had fired (0) or is not armed (2); where both hold, freely with
either; else the agent waits. -/
def execMwait (d a : BitVec 6) (s : State) : Out :=
  s.alone (.mwait d a) [d, a] <|
    let t := s.takeLastd d
    if s.hart.monFired && (s.hart.monArmed || s.choose 2 0) then .next (t.mwaitEnd d 0)
    else if !s.hart.monArmed then .next (t.mwaitEnd d 2)
    else
      let timeout := if s.g a = 0 then none else some (s.cycles, s.g a)
      .next ((t.setHart { t.hart with wait := .mwait d timeout }).idle)

/-- A fired monitor (0), a monitor no longer armed (2), or with the input flag a pre-emption request that is pending (2, and
the halt after it, R344) ends the waiting mwait; otherwise nothing happens (R138). -/
def execMwaitWake (s : State) : Out :=
  match s.hart.wait with
  | .mwait d _ =>
    if s.inp.flag && !s.priv && s.strand.cutReq.isSome then .next (s.mwaitEnd d 2).haltStrand
    else if s.hart.monFired then .next (s.mwaitEnd d 0)
    else if !s.hart.monArmed then .next (s.mwaitEnd d 2)
    else .next s.idle
  | _ => .next s.idle

/-- The core cycles of the waiting mwait have passed since its issue, whatever is written to CYC (R138): reason 1; before that
nothing happens. -/
def execMwaitTimeout (s : State) : Out :=
  match s.hart.wait with
  | .mwait d (some (start, n)) => if n ≤ s.cycles - start then .next (s.mwaitEnd d 1) else .next s.idle
  | _ => .next s.idle

/-- The monitor fires for no write, or with the input flag is lost (R137, R138). -/
def execSpuriousMonitorFire (s : State) : Out :=
  if !s.hart.monArmed then .next s.idle
  else if s.inp.flag then .next ((s.setHart { s.hart with monArmed := false }).idle)
  else .next ((s.setHart { s.hart with monFired := true }).idle)

/-- halt (R139): a Bridge core stops until a bit of BINT becomes 1; with a bit already 1 it may go on at once. -/
def execHalt (s : State) : Out :=
  if !s.priv then s.illegal .halt 6
  else
    s.alone .halt []
      (if s.bcore.bint ≠ 0 && s.choose 3 0 then .next (s.retire 4)
       else .next ((s.setHart { s.hart with wait := .halt }).idle))

/-- A bit of BINT ends the halt of the focused Bridge core; otherwise nothing happens (R139, R376). -/
def execHaltWake (s : State) : Out :=
  if s.priv && s.hart.wait = .halt && s.bcore.bint ≠ 0 then .next (s.retire 4) else .next s.idle

/-- rtn in a strand (R143): detail 6 when no handler runs. A Bridge core's rtn is `execRtnBridge` (R379). -/
def execRtn (s : State) : Out :=
  if s.priv || !s.strand.inh then s.illegal .rtn 6
  else
    s.alone .rtn []
      (let t := s.returnHandler
       .next ((t.setHart { t.hart with insn := t.hart.insn + 1 }).idle))

/-! The prefix and breakpoints (R64 to R67, R77). -/

/-- A pfx retires and its word stands in PFXS (R67); a pfx is no successor of a pfx (R65). -/
def State.lend (s : State) (i : Instr) : Out :=
  s.alone i []
    (let t := s.retire 4
     .next (t.setHart { t.hart with pfxs := BitVec.ofNat 32 (wordOf i) }))

/-- pfx with a mask loan (R64). -/
def execPfxMask (ce : BitVec 1) (copy : BitVec 6) (pred : BitVec 3) (neg : BitVec 1) (s : State) : Out :=
  s.lend (.pfxMask ce copy pred neg)

/-- pfx with a condition loan (R64). -/
def execPfxCond (ce : BitVec 1) (copy : BitVec 6) (cond : BitVec 3) (pred : BitVec 6) (s : State) : Out :=
  s.lend (.pfxCond ce copy cond pred)

/-- pfx.copy (R64). -/
def execPfxCopy (copy : BitVec 6) (s : State) : Out := s.lend (.pfxCopy copy)

/-- Major 0x3F: detail 4, to the Bridge in every case (R77); on a Bridge core detail 1, as R373 says, where R76's order would
give 4 (DEDUCED, log entry 74). -/
def execBreakpoint (tag : BitVec 25) (s : State) : Out := s.illegal (.breakpoint tag) (if s.priv then 1 else 4)

/-! A fetch without an instruction. -/

/-- The illegal-instruction trap of a word or parcel outside the assignments (R76). -/
def execIllegalInstruction (word : BitVec 32) (detail : BitVec 8) (s : State) : Out :=
  s.trap (Trap.illegal word.toNat detail.toNat)

/-- The fetch fault (R55, R112, R121, R145): TVAL is the parcel that could not be fetched. -/
def execFetchFault (kind : BitVec 4) (addr : BitVec 64) (s : State) : Out :=
  let t := Trap.mk0 0x06 kind.toNat addr true
  match s.check s.aspace Need.fetch addr 2 with
  | .error st => s.trap { t with lvl := st.lvl, mal := st.mal, rsv := st.rsv }
  | .ok _ => s.trap t

end Sys2Proof.Machine
end

