-- ==== Sys2Proof/Machine/Services.lean ====
section
/-!
DEFINITION. What the Bridge firmware does: page tables, the services of `svc`, the service of each trap, aborting a
launch, code shootdown (R271, R378 to R384, R393, R394).
-/
namespace Sys2Proof.Machine

/-! Pages and page tables (R383, R388 to R391). -/

/-- A page written whole with the contents of another, in DRAM or host memory, or with zeros (R383, R394); poison travels
with its sectors, and the page's lines stand under the key of the access that reaches them first. -/
def State.fillPage (s : State) (a : Nat) (src : Option Loc) : State :=
  let within := fun (p x : Nat) => p ≤ x && x < p + 65536
  let old := s.ms.dram.filter fun c => within a c.1
  let cells := fun (l : Loc) =>
    match l.space with
    | .cxl => s.ms.cxl
    | .pcie => s.ms.pcie
    | _ => s.ms.dram
  let new := match src with
    | none => []
    | some p => ((cells p).filter fun c => within p.addr c.1).map fun c => (c.1 - p.addr + a, c.2)
  let marks := match src with
    | some { space := .dram, addr := p } => (s.ms.poison.filter fun x => within p (16 * x)).map fun x => x - p / 16 + a / 16
    | _ => []
  let s := s.mayFetch (s.parcels ((old ++ new).map fun c => { space := .dram, addr := c.1 }))
  let m := s.ms
  let s := s.setMs { m with
    dram := new.foldl (fun d c => memSet d c.1 c.2) (m.dram.filter fun c => !within a c.1)
    poison := marks.foldl (fun l x => insertNat x l) (m.poison.filter fun x => !within a (16 * x))
    swatch := m.swatch.filter fun e => !within a (128 * e.1)
    hostLn := m.hostLn.filter fun x => !within a (128 * x)
    seen := { m.seen with keys := m.seen.keys.filter fun e => !within a (128 * e.1) } }
  s.snoop (buildFrom (fun l => { space := .dram, addr := l }) 512 (a / 128))

/-- A page of the berth taken and filled. -/
def State.newPage (s : State) (b : Nat) (src : Option Loc) : Option (Nat × State) :=
  (s.berthAt b).allocPage.map fun r => (r.1, (s.putBerth b r.2).fillPage r.1 src)

/-- Where the entry of a page is: a level 0 slot, a table that is missing above it, or a larger leaf. -/
inductive PEntry where
  | slot (at_ : Nat)
  | missing
  | big
  deriving DecidableEq, Repr

/-- The entry of a virtual address, over the levels still to descend. -/
def findEntry (m : List Host.Cell) (va : Nat) : List Nat → Nat → PEntry
  | [], _ => .missing
  | lvl :: rest, t =>
    let a := t + 8 * levelIndex va lvl
    if lvl = 0 then .slot a
    else
      let e := (memWord m a).toNat
      if !bitAt e 0 then .missing else if bitAt e 1 then .big else findEntry m va rest (bitsAt e 16 40 * 2 ^ 16)

/-- The entry of an effective address in an address space. -/
def State.entryOf (s : State) (sp : ASpace) (ea : Nat) : PEntry :=
  findEntry s.ms.dram (sp.va ea) [4, 3, 2, 1, 0] sp.root

/-- The slot of a page's entry, with the tables above it made where they are missing. -/
def State.makeFrom (s : State) (b va : Nat) : List Nat → Nat → Option (Nat × State)
  | [], _ => none
  | lvl :: rest, t =>
    let a := t + 8 * levelIndex va lvl
    if lvl = 0 then some (a, s)
    else
      let e := (s.phys8 a).toNat
      if !bitAt e 0 then
        match s.newPage b none with
        | none => none
        | some (p, s) => (s.writePhys a (toBytes 8 (p + 1))).makeFrom b va rest p
      else if bitAt e 1 then none
      else s.makeFrom b va rest (bitsAt e 16 40 * 2 ^ 16)

/-- The slot of an effective address's entry, made where it is missing. -/
def State.makeEntry (s : State) (sp : ASpace) (ea : Nat) : Option (Nat × State) :=
  s.makeFrom sp.berth (sp.va ea) [4, 3, 2, 1, 0] sp.root

/-- A larger leaf on the way to an effective address replaced by a table of leaves that map the same pages, at every level
down to pages of 64 KiB; none when memory is exhausted. -/
def State.splitFrom (s : State) (b va : Nat) : List Nat → Nat → Option State
  | [], _ => some s
  | lvl :: rest, t =>
    let a := t + 8 * levelIndex va lvl
    let e := (s.phys8 a).toNat
    if lvl = 0 || !bitAt e 0 then some s
    else if bitAt e 1 then
      match s.newPage b none with
      | none => none
      | some (p, s) =>
        let table := (buildFrom (fun j => toBytes 8 (e + j * leafSize (lvl - 1))) 8192 0).flatten
        ((s.writePhys p table).writePhys a (toBytes 8 (p + 1))).splitFrom b va rest p
    else s.splitFrom b va rest (bitsAt e 16 40 * 2 ^ 16)

/-- The larger leaf over a page split (R382). -/
def State.split (s : State) (sp : ASpace) (ea : Nat) : Option State :=
  s.splitFrom sp.berth (sp.va ea) [4, 3, 2, 1, 0] sp.root

/-- An entry written. -/
def State.putEntry (s : State) (at_ e : Nat) : State := s.writePhys at_ (toBytes 8 e)

/-- A valid leaf: permissions R, W, X in bits 4:2, SW, key slot, device DRAM (R389). -/
def leafWord (pa perms sw slot : Nat) : Nat := 3 + 4 * perms + 32 * sw + 256 * slot + pa

/-- Permissions and key slot of an entry. -/
def entryPerms (e : Nat) : Nat := bitsAt e 2 3
def entrySlot (e : Nat) : Nat := bitsAt e 8 6
def entryPa (e : Nat) : Nat := bitsAt e 16 40 * 2 ^ 16
def entrySw (e : Nat) : Nat := bitsAt e 5 2

/-- A reserved entry with its backing page, 0 for zero fill (R389). -/
def reservedEntry (backing perms slot : Nat) : Nat := 2 ^ 63 + backing + 4 * perms + 256 * slot

/-- The page holds a valid or a reserved entry. -/
def State.pageTaken (s : State) (sp : ASpace) (ea : Nat) : Bool :=
  match s.entryOf sp ea with
  | .slot a => bitAt (s.phys8 a).toNat 0 || bitAt (s.phys8 a).toNat 63
  | .missing => false
  | .big => true

/-- Translations dropped everywhere in a berth: leaves of the TLBs of cores, clusters and Bridge cores, and table entries of
the walker caches (R391, R392). -/
def State.dropTlb (s : State) (b : Nat) (p : TlbEntry → Bool) (q : WalkEntry → Bool) : State :=
  let keep := fun (l : List TlbEntry) => l.filter fun e => !(e.berth.toNat = b && p e)
  let s := s.mapCores fun c => { c with tlb := keep c.tlb }
  s.setMs { s.ms with seen := { s.ms.seen with
    units := s.ms.seen.units.map fun u =>
      { u with tlb := keep u.tlb, walks := u.walks.filter fun e => !(e.berth.toNat = b && q e) } } }

/-- tlbi.page, tlbi.asid and tlbi.berth as the firmware runs them. -/
def State.dropPage (s : State) (sp : ASpace) (ea : Nat) : State :=
  s.dropTlb sp.berth (fun e => e.maps sp (sp.va ea)) fun e => e.covers sp (sp.va ea)
def State.dropAsid (s : State) (b asid : Nat) : State := s.dropTlb b (fun e => e.asid = asid) fun e => e.asid = asid
def State.dropBerth (s : State) (b : Nat) : State := s.dropTlb b (fun _ => true) fun _ => true

/-- The base and length are multiples of 64 KiB, and the range ends at or below 2^64 (R382). -/
def rangeOk (base len : Nat) : Bool := base % 65536 = 0 && len % 65536 = 0 && base + len ≤ 2 ^ 64

/-- A change for each of `n` pages from an effective address; none when one fails. -/
def overPages (f : Nat → State → Option State) : Nat → Nat → State → Option State
  | 0, _, s => some s
  | n + 1, ea, s =>
    match f ea s with
    | none => none
    | some s => overPages f n (ea + 65536) s

/-- Some page of `n` from an effective address has a property. -/
def somePage (p : Nat → Bool) : Nat → Nat → Bool
  | 0, _ => false
  | n + 1, ea => p ea || somePage p n (ea + 65536)

/-! Sharing (R393, R394). -/

/-- What names the page that a leaf maps among the shared pages: its physical address, apart for each ATTR (R389). -/
def shareKey (e : Nat) : Nat := 2 ^ 56 * bitsAt e 14 2 + bitsAt e 16 40 * 2 ^ 16

/-- Sharers of a page; 1 unless recorded. -/
def Berth.shares (b : Berth) (pa : Nat) : Nat := ((b.sharers.find? fun e => e.1 = pa).map (·.2)).getD 1

/-- Sharers recorded; a page without other sharers has no record. -/
def Berth.setShares (b : Berth) (pa n : Nat) : Berth :=
  let rest := b.sharers.filter fun e => e.1 ≠ pa
  { b with sharers := if n ≤ 1 then rest else (pa, n) :: rest }

/-- One share of the page of a leaf given up; the last frees a page of device DRAM. -/
def Berth.unshare (b : Berth) (e : Nat) : Berth :=
  if 1 < b.shares (shareKey e) then b.setShares (shareKey e) (b.shares (shareKey e) - 1)
  else if bitsAt e 14 2 = 0 then b.freePage (entryPa e) else b

/-- A page released (R382, R394): invalidated, its page freed or its share dropped; a larger leaf over it is split first. -/
def State.releasePage (s : State) (sp : ASpace) (ea : Nat) : Option State :=
  (s.split sp ea).map fun s =>
    match s.entryOf sp ea with
    | .slot a =>
      let e := (s.phys8 a).toNat
      let s := if bitAt e 0 then s.putBerth sp.berth ((s.berthAt sp.berth).unshare e) else s
      if e = 0 then s else s.putEntry a 0
    | _ => s

/-- svc 3, and UNMAP: a range released, with its tlbi; status 2, and nothing changed, when memory for a table is exhausted. -/
def State.release (s : State) (sp : ASpace) (base len : Nat) : State × Nat :=
  if !rangeOk base len then (s, 1)
  else
    match overPages (fun ea s => s.releasePage sp ea) (len / 65536) base s with
    | some t => (t.dropAsid sp.berth sp.asid, 0)
    | none => (s, 2)

/-- Reserved entries written over a range, their backing given by page; status 1 when a page is taken, 2 when memory is
exhausted, and then nothing has changed (R382). -/
def State.reserve (s : State) (sp : ASpace) (base len perms slot : Nat) (backing : Nat → Option Nat) : State × Nat :=
  if !rangeOk base len || somePage (s.pageTaken sp) (len / 65536) base
      || somePage (fun ea => (backing (ea - base)).isNone) (len / 65536) base then (s, 1)
  else
    match overPages (fun ea s => (s.makeEntry sp ea).map fun r =>
        r.2.putEntry r.1 (reservedEntry ((backing (ea - base)).getD 0) perms slot)) (len / 65536) base s with
    | some t => (t, 0)
    | none => (s, 2)

/-- The source leaf that a fork leaves behind (R393, step 1). -/
def forkedLeaf (e : Nat) : Nat :=
  let sw := if entrySw e ≠ 0 then entrySw e else if bitAt e 3 then 1 else 2
  e - (if bitAt e 3 then 8 else 0) - 32 * entrySw e + 32 * sw

/-- One page forked (R393); a larger leaf over the source is split first. -/
def State.forkPage (s : State) (sp : ASpace) (src dst : Nat) : Option State :=
  (s.split sp src).bind fun s =>
  match s.entryOf sp src with
  | .slot a =>
    let e := (s.phys8 a).toNat
    if bitAt e 0 then
      let b := sp.berth
      let s := s.putEntry a (forkedLeaf e)
      (s.makeEntry sp dst).map fun r =>
        let t := r.2.putEntry r.1 (forkedLeaf e)
        t.putBerth b ((t.berthAt b).setShares (shareKey e) ((t.berthAt b).shares (shareKey e) + 1))
    else if bitAt e 63 then (s.makeEntry sp dst).map fun r => r.2.putEntry r.1 e
    else some s
  | .missing => some s
  | .big => none

/-- svc 4 (R393): status 2 leaves everything as it was (log entry 32). -/
def State.fork (s : State) (sp : ASpace) (src len dst : Nat) : State × Nat :=
  if !rangeOk src len || !rangeOk dst len || (src < dst + len && dst < src + len)
      || somePage (s.pageTaken sp) (len / 65536) dst then (s, 1)
  else
    match overPages (fun ea s => s.forkPage sp ea (ea - src + dst)) (len / 65536) src s with
    | some t => (t.dropAsid sp.berth sp.asid, 0)
    | none => (s, 2)

/-- The pages that `n` bytes from an effective address lie on. -/
def pageBases (ea n : Nat) : List Nat :=
  if ea / 65536 = (ea + n - 1) / 65536 then [ea] else [ea, (ea + n - 1) / 65536 * 65536 % 2 ^ 64]

/-- The entry of a page, 0 where there is none. -/
def State.pageEntry (s : State) (sp : ASpace) (ea : Nat) : Nat :=
  match s.entryOf sp ea with
  | .slot a => (s.phys8 a).toNat
  | _ => 0

/-- A reserved page installed (R383): none when the entry is neither valid nor reserved, or memory is exhausted. -/
def State.install (s : State) (sp : ASpace) (ea : Nat) : Option State :=
  match s.entryOf sp ea with
  | .slot a =>
    let e := (s.phys8 a).toNat
    if bitAt e 0 then some s
    else if bitAt e 63 then
      (s.newPage sp.berth (if entryPa e = 0 then none else some { space := .dram, addr := entryPa e })).map fun r =>
        r.2.putEntry a (leafWord r.1 (entryPerms e) 0 (entrySlot e))
    else none
  | _ => none

/-- The pages of an access of `n` bytes that met a reserved entry (R252, R383): the first that is reserved is installed; when
none is any more, the access returns at once to a page that has become valid. -/
def State.installAt (s : State) (sp : ASpace) (ea n : Nat) : Option State :=
  match (pageBases ea n).find? fun p => !bitAt (s.pageEntry sp p) 0 && bitAt (s.pageEntry sp p) 63 with
  | some p => s.install sp p
  | none => if (s.walk sp (sp.va ea)) matches .leaf .. then some s else none

/-- A write that stopped on a shared page (R394): a copy on a page of the berth's memory when the page has other sharers, or
W set in place; none when the leaf is not one with SW 0b01. -/
def State.copyOnWrite (s : State) (sp : ASpace) (ea : Nat) : Option State :=
  match s.entryOf sp ea with
  | .slot a =>
    let e := (s.phys8 a).toNat
    if bitAt e 0 && entrySw e = 1 && !bitAt e 3 then
      let bb := s.berthAt sp.berth
      let pa := entryPa e
      if 1 < bb.shares (shareKey e) then
        let space := leafSpace e
        let src : Loc := { space := space, addr := if space = .pcie then fnAddr (sp.berth + 1) pa else pa }
        (s.newPage sp.berth (some src)).map fun r =>
          let t := r.2.putBerth sp.berth ((r.2.berthAt sp.berth).setShares (shareKey e) (bb.shares (shareKey e) - 1))
          (t.putEntry a (leafWord r.1 (entryPerms e ||| 2) 0 (entrySlot e))).dropPage sp ea
      else some ((s.putEntry a (e - 32 + 8)).dropPage sp ea)
    else none
  | _ => none

/-! Aborting, resuming (R379, R384). -/

/-- A launch aborted (R384): its strands and tasks retire, its unplaced flotillas are discarded, no completion signal is
written, its queue is HELD, and the event goes to the berth's ring. -/
def State.abortLaunch (s : State) (lid : Nat) (tag : BitVec 16) (ccause ctval : Word) : State :=
  match s.pilot.launchAt lid with
  | none => s.retireAll fun c => c.strand.launch = lid
  | some l =>
    let s := s.retireAll fun c => c.strand.launch = lid
    let q := (l.die, l.qid % 64)
    let p := s.pilot
    let s := s.setPilot { p with
      launches := p.launches.filter fun x => x.id ≠ lid
      muster := p.muster.filter fun t => t.launch ≠ lid
      ringq := p.ringq.filter fun t => t.launch ≠ lid
      held := if p.held.contains q then p.held else p.held ++ [q] }
    let s := s.putBerth l.berth ((s.berthAt l.berth).event
      { kind := 1, tag := tag, queue := l.qid % 64, die := BitVec.ofNat 2 l.die |>.toNat, w2 := ccause, w3 := ctval })
    s.advance.refillAll.postEvents l.berth

/-- A context resumes at CPC with its record as it stands, and a strip opens (R28, R379); one saved by SYNC is restored, or is
Pilot's to place again when its slot is free (R378, R380). -/
def State.resume (s : State) (tag : BitVec 16) : State :=
  match s.pop.ctxAt tag with
  | none => s
  | some c =>
    if c.strand.status = .trapped || c.strand.status = .saved then
      let was := c.strand.status
      let c := if was = .saved then s.restoreCtx c else c
      let c : Ctx :=
        { hart := { c.hart with pc := c.strand.cpc, wait := .running }
          strand := { c.strand with status := .running, held := 0, rfmet := none }.openStrip }
      let s := (s.putCtx c).actLate c
      if was = .saved then s.showSpnr c.strand.launch else s
    else if c.strand.held = 3 then
      s.putCtx { hart := { c.hart with pc := s.phys8 (c.strand.saveAt + 0xB40) }, strand := { c.strand with held := 0 } }
    else s

/-! Code shootdown and breakpoints (R271, R381). -/

/-- The parcel at an effective address of a context, when it translates. -/
def State.codeParcel (s : State) (sp : ASpace) (ea : Word) : Option (BitVec 16) :=
  let w := s.walk sp (sp.va ea.toNat)
  if !inPool ea && (w matches .leaf ..) then some (s.parcelAt (locOf s.ms.seen sp.berth [(ea, w)] ea)) else none

/-- The parcel holds a breakpoint: major 0x3F (R77, R270). -/
def State.breakAt (s : State) (sp : ASpace) (ea : Word) : Bool :=
  match s.codeParcel sp ea with
  | some p => p.toNat % 128 = 127
  | none => false

/-- The range leaves every core's instruction cache and every strand's fetched parcels, in the berth (R271). -/
def State.shootdown (s : State) (c : Ctx) (base len : Word) : State :=
  if len = 0 then s
  else
    let b := tagBerth c.strand.tag
    let v := s.viewCtx c
    let hi := rangeEnd base len
    let keep := fun (e : Nat × BitVec 16) => !v.parcelIn base.toNat hi e.1
    let mine := fun (id : Nat) => bitAt (s.berthAt b).clusters (id / 8)
    s.setPop { s.pop with
      cores := s.pop.cores.map fun k => if mine k.id then { k with icache := k.icache.filter keep } else k
      ctxs := s.pop.ctxs.map fun x =>
        if tagBerth x.strand.tag = b then { x with strand := { x.strand with fetchd := x.strand.fetchd.filter keep } } else x }

/-- The places of a range that hold a breakpoint: its parcels are read from the first, whose framing bit gives the next
instruction's place (R55, R271). -/
def State.breaks (s : State) (sp : ASpace) (hi : Nat) : Nat → Nat → List Nat
  | 0, _ => []
  | m + 1, ea =>
    if hi ≤ ea then []
    else
      (if s.breakAt sp (BitVec.ofNat 64 ea) then [ea] else [])
        ++ s.breaks sp hi m (ea + if ((s.codeParcel sp (BitVec.ofNat 64 ea)).getD 0).toNat % 2 = 1 then 4 else 2)

/-- What a range keeps outside [lo, hi). -/
def outside (lo hi : Nat) (r : Word × Nat × Nat) : List (Word × Nat × Nat) :=
  [(r.1, r.2.1, min r.2.2 lo), (r.1, max r.2.1 hi, r.2.2)].filter fun p => p.2.1 < p.2.2

/-- A shootdown in flight over an address of an address space. -/
def Berth.shooting (b : Berth) (asp : Word) (pc : Nat) : Bool :=
  b.shoot.any fun r => r.1 = asp && r.2.1 ≤ pc && pc < r.2.2

/-- svc 5 (R271, R382): the shootdown. A word of the range that still holds a breakpoint is in flight until a svc 5 over it, of
whatever base and length, finds none there; the strands held for one that is in flight no longer resume. -/
def State.codeShootdown (s : State) (c : Ctx) (base len : Word) : State :=
  let b := tagBerth c.strand.tag
  let s := s.shootdown c base len
  let sp := aspaceOf b c.strand.casp c.strand.croot
  let hi := base.toNat + len.toNat
  let first := base.toNat / 2 * 2
  let found := (s.breaks sp hi (ceilDiv (hi - first) 2) first).map fun ea => (c.strand.casp, ea, ea + 4)
  let bb := s.berthAt b
  let rest := bb.shoot.flatMap fun r => if r.1 = c.strand.casp then outside base.toNat hi r else [r]
  let bb := { bb with shoot := found ++ rest }
  let s := s.putBerth b bb
  let go := s.pop.ctxs.filter fun x =>
    x.strand.held = 1 && tagBerth x.strand.tag = b && !bb.shooting x.strand.casp x.strand.cpc.toNat
  go.foldl (fun s x => s.resume x.strand.tag) s

/-- A context of the population held at a breakpoint. -/
def State.holdAt (s : State) (c : Ctx) (why : Nat) : State := s.putCtx { c with strand := { c.strand with held := why } }

/-- The service of a breakpoint (R381). -/
def State.breakpoint (s : State) (c : Ctx) : State :=
  let b := tagBerth c.strand.tag
  let bb := s.berthAt b
  let sp := aspaceOf b c.strand.casp c.strand.croot
  if bb.shooting c.strand.casp c.strand.cpc.toNat then s.holdAt c 1
  else if !s.breakAt sp c.strand.cpc then (s.shootdown c c.strand.cpc 4).resume c.strand.tag
  else if bb.debugger then
    let q := ((s.pilot.launchAt c.strand.launch).map Launch.qid).getD 0
    let s := (s.holdAt c 2).putBerth b (bb.event
      { kind := 3, tag := c.strand.tag, queue := q % 64, die := q / 64, w2 := c.strand.ccause, w3 := c.strand.ctval })
    s.postEvents b
  else s.abortLaunch c.strand.launch c.strand.tag c.strand.ccause c.strand.ctval

/-! Services of svc (R382). -/

/-- A service's status in g1, in the save area too for a context that SYNC has saved (R380, R382). -/
def State.answer (s : State) (c : Ctx) (x : Word) : State :=
  let s := s.putCtx { c with hart := c.hart.put 1 x }
  if c.strand.status = .saved then s.writePhys (c.strand.saveAt + 8) (toBytes 8 x.toNat) else s

/-- A service of `svc n` for a context, n from 2: the state and the status. -/
def State.svcRun (s : State) (c : Ctx) (n : Nat) : State × Nat :=
  let b := tagBerth c.strand.tag
  let sp := aspaceOf b c.strand.casp c.strand.croot
  let g1 := (c.hart.get 1).toNat
  let g2 := (c.hart.get 2).toNat
  let g3 := (c.hart.get 3).toNat
  let member := bitAt c.strand.tmid.toNat 15
  match n with
  | 2 =>
    if g3 - 4 * bitsAt g3 2 3 - 256 * bitsAt g3 8 6 ≠ 0 then (s, 1)
    else s.reserve sp g1 g2 (bitsAt g3 2 3) (bitsAt g3 8 6) fun _ => some 0
  | 3 => s.release sp g1 g2
  | 4 => s.fork sp g1 g2 g3
  | 5 => (s.codeShootdown c (c.hart.get 1) (c.hart.get 2), 0)
  | 6 =>
    if !member then (s, 3)
    else if !rangeOk g1 g2 then (s, 1)
    else (s.putBerth b { s.berthAt b with
            xwin := some (c.hart.get 1, c.hart.get 2, bitsAt c.strand.casp.toNat 0 24, sp.root) }, 0)
  | 7 =>
    if !member then (s, 3)
    else if 65536 ≤ g1 then (s, 1)
    else (s.setFabric { s.fabric with groups := s.fabric.groups.filter fun g => !(g.closed && g.gid = g1) }, 0)
  | _ => (s, 1)

/-- The accumulator that the instruction at CPC names (R283): the tile's, or Z of the matrix layouts. -/
def State.accAt (s : State) (c : Ctx) : BitVec 1 :=
  let sp := aspaceOf (tagBerth c.strand.tag) c.strand.casp c.strand.croot
  let lo := ((s.codeParcel sp c.strand.cpc).getD 0).toNat
  let hi := ((s.codeParcel sp (c.strand.cpc + 2)).getD 0).toNat
  if bitsAt lo 1 6 = 0x27 then BitVec.ofNat 1 (bitsAt lo 7 6) else BitVec.ofNat 1 (hi / 2 ^ 15)

/-- The instruction at CPC, as the firmware reads it. -/
def State.instrAt (s : State) (c : Ctx) : Option Instr :=
  let sp := aspaceOf (tagBerth c.strand.tag) c.strand.casp c.strand.croot
  match decode ((s.codeParcel sp c.strand.cpc).getD 0).toNat ((s.codeParcel sp (c.strand.cpc + 2)).getD 0).toNat with
  | .ok i => some i
  | .error _ => none

/-- What the access that an instruction stopped at needs, and its bytes: `sz` those of an element (R117, R119, R226, R234,
R252, R338, R340, R358, R367). -/
def accessOf (i : Instr) (sz : Nat) : Need × Nat :=
  match i with
  | .sts w _ _ _ => (Need.store, 2 ^ w.toNat)
  | .stsC _ _ => (Need.store, 8)
  | .amoSwap w .. | .amoCas w .. | .amoAdd w .. | .amoAnd w .. | .amoOr w .. | .amoXor w .. | .amoMin w .. | .amoMax w ..
  | .amoMinn w .. | .amoMaxn w .. => (Need.rmw, amoSize w)
  | .spawn .. | .tend .. => (Need.rmw, 8)
  | .vst .. | .vstx .. | .vstc .. | .tst .. | .trecv .. => (Need.store, sz)
  | .vstxAdd .. | .vamoSwap .. | .vamoCas .. | .vamoAdd .. | .vamoAnd .. | .vamoOr .. | .vamoXor .. | .vamoMin ..
  | .vamoMax .. | .vamoMinn .. | .vamoMaxn .. => (Need.rmw, sz)
  | .tcopy .. => (Need.store, sz)
  | _ => (Need.load, sz)

/-- A stop of kind 2 that no leaf makes: a vamo element that is not aligned (R252), a tile that is not atomic (R245). -/
def State.structural (s : State) (i : Instr) (sp : ASpace) (sz : Nat) (ea : Word) : Bool :=
  match i with
  | .vamoSwap .. | .vamoCas .. | .vamoAdd .. | .vamoAnd .. | .vamoOr .. | .vamoXor .. | .vamoMin .. | .vamoMax ..
  | .vamoMinn .. | .vamoMaxn .. => ea.toNat % sz ≠ 0
  | .tst _ line .. =>
    line = 0 && (match s.walk sp (sp.va ea.toNat) with
      | .leaf pte _ => leafSpace pte ≠ .dram
      | .stop .. => false)
  | _ => false

/-- A tcopy stopped on the write of a local destination: its source passes the checks that come first (R357, R358). -/
def State.copyWrote (s : State) (c : Ctx) (i : Instr) (sz : Nat) : Bool :=
  match i with
  | .tcopy _ _ _ b =>
    let v := s.viewCtx c
    let sides := copySides c.strand.tcsp
    sides.1.space = 0 &&
      (match v.sideAt sides.2 Need.read4 (c.hart.get b.toNat) sz with
       | .stop _ => false
       | _ => true)
  | _ => true

/-- The bytes of the read of its own that stopped a chart instruction of a context at CTVAL: the chart, or the table entry of
its leading element's block, which is read before the element (R239, R240). -/
def State.chartRead (s : State) (c : Ctx) (i : Instr) : Option Nat :=
  let of := fun (m : BitVec 3) (sel a : BitVec 6) =>
    let v := s.viewCtx c
    match v.readChart (c.hart.get a.toNat) with
    | .error _ => some 64
    | .ok x =>
      match firstIdx (fun e => v.strand.active m.toNat .none e && !v.pad e) v.n 0 with
      | none => none
      | some e =>
        let entry := x.entryAt (c.hart.get sel.toNat) e
        if c.strand.ctval = entry && (v.load8 v.aspace entry matches .error _) then some 8 else none
  match i with
  | .vldc _ _ m sel a _ | .vstc _ _ m sel a _ => of m sel a
  | _ => none

/-- The service of a stop of kind 2 (R381, R394): a write whose first page that denies it has a leaf with SW 0b01 has the page
copied or made writable; one that nothing stops with kind 2 any more returns at once, as R383 gives of an installed page; none
aborts. -/
def State.serveWrite (s : State) (c : Ctx) (sz : Nat) : Option State :=
  let sp := aspaceOf (tagBerth c.strand.tag) c.strand.casp c.strand.croot
  let ea := c.strand.ctval
  match s.instrAt c with
  | none => none
  | some i =>
    let x := accessOf i sz
    if !x.1.w || inPool ea || s.structural i sp sz ea || !s.copyWrote c i sz || (s.chartRead c i).isSome then none
    else
      let denied := (pageBases ea.toNat x.2).find? fun p =>
        match s.walk sp (sp.va p) with
        | .leaf pte lvl => leafDenies s.ms.addrMap (s.berthAt sp.berth) x.1 pte lvl (BitVec.ofNat 64 p)
        | .stop .. => true
      match denied with
      | none =>
        -- a read of host memory that the host refuses (R407)
        match s.check sp x.1 ea x.2 with
        | .error st => if st.kind = 2 then none else some s
        | .ok _ => some s
      | some p => if x.1.r && !bitAt (s.pageEntry sp p) 2 then none else s.copyOnWrite sp p

/-- An instruction whose KIND 3 stop is an accumulator bank's (R286): one of the matrix unit, or a tst, whose stores meet no
poison. -/
def readsBank (i : Instr) : Bool :=
  match i with
  | .tst .. => true
  | i => let m := wordOf i / 2 % 64
    0x2C ≤ m && m ≤ 0x2F

/-- The report of an unrecoverable error that a strand met (R381, R436, R437): of the register file that trapped, of the
accumulator bank or the gazetteer that stopped the instruction, else of the DRAM or pool sector that its access at CTVAL met. -/
def State.poisonReport (s : State) (c : Ctx) (sz : Nat) : State :=
  let tag := c.strand.tag
  let b := tagBerth tag
  let sp := aspaceOf b c.strand.casp c.strand.croot
  let v := s.viewCtx c
  let ea := c.strand.ctval
  let inst := c.strand.core % 384 % 256
  let unit := fun (u : Nat) => s.report (reportWord u inst (coreDie c.strand.core) false 1 2 b true false) 0
    (BitVec.ofNat 64 (tag.toNat + 2 ^ 32)) (some tag) (some b)
  let i := s.instrAt c
  let size := (i.bind (s.chartRead c)).getD sz
  let places := (eaRange ea size).map fun a => locOf s.ms.seen b [(a, s.walk sp (sp.va a.toNat))] a
  match c.strand.rfmet with
  | some u => unit u
  | none =>
    if (i.map readsBank).getD false then unit 5
    else if c.strand.gpois && (i.map fun i => wordOf i / 2 % 64) = some 0x30 then unit 6
    else
      match (places.find? v.poisoned <|> places.head?).map Loc.plain with
      | some { space := .dram, addr := pa } => s.dramReport none 1 2 pa 1 (some tag)
      | _ => unit 3

/-- The firmware's service of an attached context's trap (R381), ending in its return, its retirement or the abort of its
launch. -/
def State.service (s : State) (c : Ctx) : State :=
  let cc := c.strand.ccause.toNat
  let cause := bitsAt cc 0 8
  let detail := bitsAt cc 8 8
  let tag := c.strand.tag
  let sp := aspaceOf (tagBerth tag) c.strand.casp c.strand.croot
  let sz := max 1 (vtypeOf c.strand.type).sz
  let stop := fun (s : State) => s.abortLaunch c.strand.launch tag c.strand.ccause c.strand.ctval
  let done := fun (r : Option State) => match r with
    | some t => t.resume tag
    | none => stop s
  if cause = 7 then
    match c.strand.ctval.toNat with
    | 0 => s.retireAll fun x => x.strand.tag = tag
    | 1 => stop s
    | n =>
      let r := s.svcRun c n
      match r.1.pop.ctxAt tag with
      | some c' => (r.1.answer c' (BitVec.ofNat 64 r.2)).resume tag
      | none => r.1
  else if cause = 8 then
    let z := s.accAt c
    let t := s.spillAcc c.strand.core z
    match t.pop.ctxAt tag with
    | some c' => (t.loadAcc c.strand.core z c').resume tag
    | none => t
  else if cause = 1 && detail = 4 then s.breakpoint c
  else if cause = 4 || cause = 5 || cause = 6 then
    if detail = 1 && bitAt cc 28 then done (s.installAt sp c.strand.ctval.toNat (if cause = 4 then sz else 1))
    else if detail = 2 && cause ≠ 6 then done (s.serveWrite c sz)
    else if detail = 3 then stop (s.poisonReport c (if cause = 4 then sz else 1))
    else stop s
  else stop s

end Sys2Proof.Machine
end

