-- ==== Sys2Proof/Machine/Bridge.lean ====
section
/-!
DEFINITION. Bridge cores: system registers, attached contexts, commands, the return, tlbi, kslot, interrupts, heartbeat
and failover, and resetting and starting a berth (R135, R373 to R380, R392, R395 to R403). The steps of a Bridge core
that have no encoding act on the Bridge core in focus, and without one nothing happens.
-/
namespace Sys2Proof.Machine

/-! The attached context (R376, R377). -/

/-- The context attached to the focused Bridge core, while it lives. -/
def State.attached (s : State) : Option Ctx := if s.bcore.att then s.pop.ctxAt s.bcore.bctx else none

/-- The Bridge core lets go of its context. -/
def State.detach (s : State) : State := s.setBcore { s.bcore with att := false, bctx := 0 }

/-- The events of a trapped context's copies perform before the service that attaches it (R403). -/
def State.settle (s : State) (tag : BitVec 16) : State :=
  match s.pop.ctxAt tag with
  | some c => if c.strand.status = .trapped && !c.strand.irt.isEmpty then s.over fun u => (u.focus tag).endCopies else s
  | none => s

/-- A write of BCTX (R376): a live context of this berth is attached; any other tag is ignored and ATT becomes 0. -/
def State.attach (s : State) (tag : BitVec 16) : State :=
  if tagBerth tag = s.bcore.berth.toNat && (s.pop.ctxAt tag).isSome then
    (s.setBcore { s.bcore with att := true, bctx := tag }).settle tag
  else s.setBcore { s.bcore with att := false }

/-- The first of the dies whose trap queue of a berth holds an entry, with that queue. -/
def Berth.waiting (b : Berth) (dies : List Nat) : Option (Nat × BitVec 16 × List (BitVec 16)) :=
  dies.findSome? fun d =>
    match vget b.trapq d [] with
    | [] => none
    | tag :: t => some (d, tag, t)

/-- A read of BTAKE (R376): the oldest tag of the trap queue for the berth that the core serves, its die's, or C0's
for the lead after a failover, is taken and attached (R402). -/
def State.takeTag (s : State) : State × Word :=
  let b := s.bcore.berth.toNat
  let bb := s.berthAt b
  match bb.waiting s.bcore.queueDies with
  | none => (s, 0)
  | some (die, tag, t) =>
    (((s.putBerth b { bb with trapq := vset bb.trapq die t }).setBcore { s.bcore with att := true, bctx := tag }).settle tag,
     BitVec.ofNat 64 (2 ^ 63 + tag.toNat))

/-- A saved context as its save area holds it, another as it stands (R377). -/
def State.ctxNow (s : State) (c : Ctx) : Ctx :=
  if c.strand.status = .saved || c.strand.status = .parked then s.restoreCtx c else c

/-- A context stands in its save area. -/
def Strand.away (st : Strand) : Bool := st.status = .saved || st.status = .parked

/-- The registers that a core or a flotilla holds: CYC, PSPL, FGR, FID, AOWN, MXE0, MXE1 and BM (R17). -/
def sharedReg (r : Nat) : Bool := [0x00, 0x18, 0x46, 0x48, 0x6A, 0x6B, 0x6C, 0x79].contains r

/-- A context with the writes of registers of its core and flotilla that wait until it next runs. -/
def State.viewLate (s : State) (c : Ctx) : State := c.strand.late.foldl (fun v x => v.writeReg false x.1 x.2) (s.viewCtx c)

/-- The register of a context that BSEL names, its saved word for one that stands in its save area, or what a write that waits
gives it; none for an index that R377 does not map. -/
def State.winRead (s : State) (c : Ctx) (r : Nat) : Option Word :=
  let away := c.strand.away && !(c.strand.late.any fun x => x.1 = r)
  let c := s.ctxNow c
  let st := c.strand
  if r < 0x100 then ((s.viewLate c).readReg r).map fun x => if away then s.phys8 (st.saveAt + 0x200 + 8 * r) else x
  else if 0x200 ≤ r && r < 0x240 then some (c.hart.get (r - 0x200))
  else
    match r with
    | 0x240 => some st.casp
    | 0x241 => some st.croot
    | 0x242 => some st.csav
    | 0x243 => some st.ccause
    | 0x244 => some st.ctval
    | 0x245 => some st.cpc
    | 0x246 => some (st.tag.setWidth 64)
    | _ => none

/-- A context's register written (R377): what the core or the flotilla of a running one holds changes at once, that of any
other when the context next runs. -/
def State.winSet (s : State) (c : Ctx) (r : Nat) (x : Word) : Ctx × State :=
  let st := c.strand
  let run := st.status = .running
  if r < 0x100 then
    let t := (s.viewCtx c).writeReg run r x
    if run then
      ({ hart := t.hart, strand := t.strand },
       s.setPop { t.pop with
         cores := putBy Core.id t.core t.pop.cores
         flots := t.pop.flots.map fun f => if f.id = t.flot.id then t.flot else f })
    else
      ({ hart := t.hart, strand := if sharedReg r then { t.strand with late := t.strand.late ++ [(r, x)] } else t.strand }, s)
  else if 0x200 ≤ r && r < 0x240 then ({ c with hart := c.hart.put (r - 0x200) x }, s)
  else
    ({ c with strand := match r with
        | 0x240 => { st with casp := keepBits x 0 24 }
        | 0x241 => { st with croot := keepBits x 7 49 }
        | 0x242 => { st with csav := x >>> 12 <<< 12 }
        | 0x243 => { st with ccause := keepBits x 0 21 + keepBits x 24 5 }
        | 0x244 => { st with ctval := x }
        | 0x245 => { st with cpc := x &&& ~~~(1 : Word) }
        | _ => st }, s)

/-- A write of a context that stands in its save area, which takes the change; what its core or flotilla holds is written when
the context next runs (R377). -/
def State.winSaved (s : State) (c : Ctx) (r : Nat) (x : Word) : State :=
  let c := s.ctxNow c
  let at_ := c.strand.saveAt
  if r < 0x100 then
    let v := (s.viewCtx c).writeReg false r x
    let st := if sharedReg r then { v.strand with late := v.strand.late ++ [(r, x)] } else v.strand
    let s := s.putCtx { hart := v.hart, strand := st }
    match v.readReg r with
    | none => s
    | some w =>
      let s := s.writePhys (at_ + 0x200 + 8 * r) (toBytes 8 w.toNat)
      if r = 0x70 then s.writePhys (at_ + 0x39000) (wordBytes (st.gents.flatMap fun e => [e.1, e.2])) else s
  else
    let w := (s.winSet c r x).1
    let s := s.putCtx w
    if 0x200 ≤ r && r < 0x240 then s.writePhys (at_ + 8 * (r - 0x200)) (toBytes 8 (w.hart.get (r - 0x200)).toNat)
    else if 0x240 ≤ r && r ≤ 0x245 && r ≠ 0x242 then s.writePhys (at_ + 0xB20) (wordBytes (w.strand.recordWords.take 5))
    else s

/-- A write through BWIN; CSAV itself only names another area. -/
def State.winWrite (s : State) (c : Ctx) (r : Nat) (x : Word) : State :=
  if c.strand.away && r ≠ 0x242 then s.winSaved c r x else (s.winSet c r x).2.putCtx (s.winSet c r x).1

/-- BWIN's value; none where it raises detail 2 (R376). -/
def State.window (s : State) : Option Word :=
  match s.attached with
  | some c => s.winRead c s.bcore.bsel.toNat
  | none => none

/-- BWIN written. -/
def State.setWindow (s : State) (x : Word) : State :=
  match s.attached with
  | some c => s.winWrite c s.bcore.bsel.toNat x
  | none => s

/-! Commands (R380). -/

/-- SYNC: the attached context is saved if it is resident, and stays saved until rtn; its copies end first (R266). One
that was running, or that Pilot has halted and saved, resumes where it stands (log entry 33). -/
def State.sync (s : State) (c : Ctx) : State :=
  if c.strand.status = .saved then s
  else if c.strand.status = .parked then
    (s.putCtx { c with strand := { c.strand with cpc := c.hart.pc, held := 3 } }).writePhys (c.strand.saveAt + 0xB40)
      (toBytes 8 c.hart.pc.toNat)
  else
    let tag := c.strand.tag
    let s := s.over fun u => (u.focus tag).endCopies
    match s.pop.ctxAt tag with
    | some c =>
      let st := { c.strand with irt := [], cpc := if c.strand.status = .trapped then c.strand.cpc else c.hart.pc }
      let c := { hart := { c.hart with monArmed := false, wait := .running }, strand := st }
      (s.saveCtx c).putCtx { c with strand := { st with status := .saved } }
    | none => s

/-- A command that is done on the attached context; refused without one (R380). -/
def State.onAttached (s : State) (f : State → Ctx → State) : State :=
  match s.attached with
  | some c =>
    let t := f s c
    t.setBcore { t.bcore with bcmd := false }
  | none => s.setBcore { s.bcore with bcmd := true }

/-- Command 1. -/
def State.cmdSync (s : State) : State := s.onAttached State.sync

/-- Command 2: the context retires as by svc 0, and is detached. -/
def State.cmdRetire (s : State) : State :=
  s.onAttached fun s c => (s.retireAll fun x => x.strand.tag = c.strand.tag).detach

/-- Command 3: the context's launch is aborted, and it is detached. -/
def State.cmdAbort (s : State) : State :=
  s.onAttached fun s c => (s.abortLaunch c.strand.launch c.strand.tag c.strand.ccause c.strand.ctval).detach

/-- Commands 4 and 5: step 2 of R284 on the context's core. -/
def State.cmdSpill (s : State) (z : BitVec 1) : State := s.onAttached fun s c => s.spillAcc c.strand.core z

/-- Commands 6 and 7: steps 3 and 4 of R284 for the context. -/
def State.cmdLoad (s : State) (z : BitVec 1) : State := s.onAttached fun s c => s.loadAcc c.strand.core z c

/-- A write of BCMD. -/
def State.command_ (s : State) (x : Word) : State :=
  match x.toNat with
  | 1 => s.cmdSync
  | 2 => s.cmdRetire
  | 3 => s.cmdAbort
  | 4 => s.cmdSpill 0
  | 5 => s.cmdSpill 1
  | 6 => s.cmdLoad 0
  | 7 => s.cmdLoad 1
  | _ => s.setBcore { s.bcore with bcmd := true }

/-- BINT with written bits cleared (R376). -/
def State.clearBint (s : State) (x : Word) : State :=
  s.setBcore { s.bcore with bint := s.bcore.bint &&& ~~~(BitVec.ofNat 3 x.toNat) }

/-- A write of BMSI (R376, R397). -/
def State.msi (s : State) (x : Word) : State := s.raiseMsix (s.bcore.berth.toNat + 1) (bitsAt x.toNat 0 11)

/-! mfs and mts (R135, R376, R411). -/

/-- mfs (R109, R135): a strand reads its unprivileged view, a Bridge core its own registers. -/
def execMfs (reg : BitVec 9) (d : BitVec 6) (s : State) : Out :=
  let r := reg.toNat
  let i := Instr.mfs reg d
  if s.mfsDetail r ≠ 0 then s.illegal i (s.mfsDetail r)
  else if !s.priv then s.alone i [d] (.next ((s.wr d ((s.readUser r).getD 0)).retire 4))
  else if r = 0x102 then s.alone i [d] (.next ((s.takeTag.1.wr d s.takeTag.2).retire 4))
  else if r = 0x105 then
    match s.window with
    | none => s.illegal i 2
    | some x => s.alone i [d] (.next ((s.wr d x).retire 4))
  else s.alone i [d] (.next ((s.wr d ((s.readBridge r).getD 0)).retire 4))

/-- mts (R109, R135): the write follows the counts of its own instruction. -/
def execMts (reg : BitVec 9) (a : BitVec 6) (s : State) : Out :=
  let r := reg.toNat
  let i := Instr.mts reg a
  let x := s.g a
  if s.mtsDetail r ≠ 0 then s.illegal i (s.mtsDetail r)
  else if !s.priv then s.alone i [a] (.next ((s.retire 4).writeUser r x))
  else if r = 0x105 && s.window.isNone then s.illegal i 2
  else
    s.alone i [a]
      (let t := s.retire 4
       .next (match r with
         | 0x101 => t.attach (BitVec.ofNat 16 x.toNat)
         | 0x103 => t.command_ x
         | 0x105 => t.setWindow x
         | 0x115 => t.clearBint x
         | 0x116 => t.msi x
         | _ => (t.writeBridge r x).getD t))

/-- A step of the Bridge core in focus. -/
def State.onBridge (s : State) (f : State → State) : Out := .next (if s.priv then (f s).idle else s.idle)

/-- BCTX is written (R376). -/
def execBctxWrite (tag : BitVec 16) (s : State) : Out := s.onBridge fun s => s.attach tag

/-- BTAKE is read (R376); with the input flag the firmware also services the trap that it took (R381) and lets go. -/
def execBtake (s : State) : Out :=
  s.onBridge fun s =>
    let t := s.takeTag.1
    if s.inp.flag && s.takeTag.2 ≠ 0 then
      match t.attached with
      | some c => (t.service c).detach
      | none => t.detach
    else t

/-- BCMD is read (R376): every command has ended. -/
def execBcmdRead (d : BitVec 6) (s : State) : Out := s.onBridge fun s => s.wr d (if s.bcore.bcmd then 1 else 0)

/-- BWIN is read (R376, R377). -/
def execBwinRead (d : BitVec 6) (s : State) : Out :=
  if s.priv && s.window.isNone then s.illegal (.mfs 0x105 d) 2
  else s.onBridge fun s => s.wr d (s.window.getD 0)

/-- BWIN is written (R376, R377). -/
def execBwinWrite (a : BitVec 6) (s : State) : Out :=
  if s.priv && s.window.isNone then s.illegal (.mts 0x105 a) 2
  else s.onBridge fun s => s.setWindow (s.g a)

/-- A 1 written to BINT clears the bit (R376). -/
def execBintClear (value : BitVec 64) (s : State) : Out := s.onBridge fun s => s.clearBint value

/-- BMSI is written (R376). -/
def execBmsi (value : BitVec 64) (s : State) : Out := s.onBridge fun s => s.msi value

/-- BCMD 1 (R380). -/
def execSync (s : State) : Out := s.onBridge State.cmdSync

/-- BCMD 2 (R380). -/
def execRetire (s : State) : Out := s.onBridge State.cmdRetire

/-- BCMD 3 (R380, R384). -/
def execAbort (s : State) : Out := s.onBridge State.cmdAbort

/-- BCMD 4 (R284, R380). -/
def execSpillAcc0 (s : State) : Out := s.onBridge fun s => s.cmdSpill 0

/-- BCMD 5. -/
def execSpillAcc1 (s : State) : Out := s.onBridge fun s => s.cmdSpill 1

/-- BCMD 6 (R284, R380). -/
def execLoadAcc0 (s : State) : Out := s.onBridge fun s => s.cmdLoad 0

/-- BCMD 7. -/
def execLoadAcc1 (s : State) : Out := s.onBridge fun s => s.cmdLoad 1

/-- Bridge rtn (R379): the attached context resumes, or the core returns from its own handler; the core's monitor is disarmed
(R138). -/
def execRtnBridge (s : State) : Out :=
  if !s.priv then .next s.idle
  else
    s.alone .rtn [] <|
      let s := s.setHart { s.hart with monArmed := false }
      if s.bcore.att then .next (((s.resume s.bcore.bctx).detach).retire 4)
      else
        let t := s.setBcore { s.bcore with intr := false }
        .next ((t.setHart { t.hart with pc := s.bcore.bepc, insn := t.hart.insn + 1 }).idle)

/-! tlbi and kslot (R392, R400). -/

/-- A privileged instruction: detail 6 in a strand. -/
def State.privileged (s : State) (i : Instr) (regs : List (BitVec 6)) (go : Out) : Out :=
  if !s.priv then s.illegal i 6 else s.alone i regs go

/-- tlbi.page (R392). -/
def execTlbiPage (a d : BitVec 6) (s : State) : Out :=
  s.privileged (.tlbiPage a d) [a, d] <|
    let x := (s.g d).toNat
    let sp : ASpace := { berth := s.bcore.berth.toNat, asid := bitsAt x 0 16, vxt := bitsAt x 16 8, root := 0 }
    .next ((s.dropPage sp (s.g a).toNat).retire 4)

/-- tlbi.asid (R392). -/
def execTlbiAsid (d : BitVec 6) (s : State) : Out :=
  s.privileged (.tlbiAsid d) [d] (.next ((s.dropAsid s.bcore.berth.toNat (bitsAt (s.g d).toNat 0 16)).retire 4))

/-- tlbi.berth (R392). -/
def execTlbiBerth (s : State) : Out :=
  s.privileged .tlbiBerth [] (.next ((s.dropBerth s.bcore.berth.toNat).retire 4))

/-- The code of a slot's state (R400). -/
def KeyState.code : KeyState → Nat
  | .empty => 0
  | .active => 1
  | .revoking => 2
  | .revoked => 3

/-- A slot of a berth revoked: 0 when it was active, else 1 and nothing changes (R400). -/
def State.revokeSlot (s : State) (b : Nat) (x : Word) : State × Word :=
  let bb := s.berthAt b
  if 64 ≤ x.toNat then (s, 1)
  else if vget bb.keys x.toNat .empty = .active then
    (s.putBerth b { bb with keys := vset bb.keys x.toNat .revoked }, 0)
  else (s, 1)

/-- kslot (R400). -/
def execKslot (d a : BitVec 6) (s : State) : Out :=
  s.privileged (.kslot d a) [d, a] <|
    let r := s.revokeSlot s.bcore.berth.toNat (s.g a)
    .next ((r.1.wr d r.2).retire 4)

/-- kslot.stat (R400). -/
def execKslotStat (d a : BitVec 6) (s : State) : Out :=
  s.privileged (.kslotStat d a) [d, a] <|
    let x := s.g a
    let v : Word := if 64 ≤ x.toNat then 1
      else BitVec.ofNat 64 (vget (s.berthAt s.bcore.berth.toNat).keys x.toNat .empty).code
    .next ((s.wr d v).retire 4)

/-! Interrupts, heartbeat (R397, R401, R402). -/

/-- The IOD sends the oldest MSI-X message, or discards it when its count is not the berth's (R397). -/
def execMsixDelivery (s : State) : Out :=
  match s.iod.msix with
  | [] => .next s.idle
  | m :: t =>
    let keep := m.fn = 0 || m.count = (s.berthAt (m.fn - 1)).brcnt
    .next ((s.setIod { s.iod with msix := t, sent := if keep then s.iod.sent ++ [m] else s.iod.sent }).idle)

/-- The standby of the input's berth requests a heartbeat (R401); the lead answers with the input flag, and after four
misses in a row failover begins (R402). -/
def execHeartbeat (s : State) : Out :=
  let b := s.inp.berth.toNat
  let bb := s.berthAt b
  if !bb.started || bb.stby.isNone then .next s.idle
  else if s.inp.flag then .next ((s.putBerth b { bb with missed := 0 }).idle)
  else if bb.missed + 1 < 4 then .next ((s.putBerth b { bb with missed := bb.missed + 1 }).idle)
  else .next (((s.failover b).postEvents b).idle)

/-! Resetting and starting a berth (R374, R395, R398). -/

/-- Earlier contents of lines can no longer be read (R398, R399): each becomes free bytes, general, and stands under
the key of the access that reaches it first. -/
def State.scramble (s : State) (lines : List Nat) : State :=
  let gone := fun (a : Nat) => lines.contains (a / 128)
  let base := s.ms.dram.filter fun c => !gone c.1
  s.setMs { s.ms with
    dram := (lines.flatMap fun l => buildFrom id 128 (128 * l)).foldl
      (fun d a => memSet d a (Config.scrambledByte s.fresh a)) base
    swatch := s.ms.swatch.filter fun e => !lines.contains e.1
    seen := { s.ms.seen with keys := s.ms.seen.keys.filter fun e => !lines.contains e.1 } }

/-- The lines that stand under a key, zeros among them (R399). -/
def State.keyLines (s : State) (key : Nat) : List Nat := (s.ms.seen.keys.filter fun e => e.2 = key).map (·.1)

/-- The lines of a berth that hold a byte written or that an access has reached (log entry 52). -/
def State.berthLines (s : State) (b : Nat) : List Nat :=
  (dedup (s.ms.dram.map (fun c => c.1 / 128) ++ s.ms.seen.keys.map (·.1))).filter fun l =>
    (s.berthAt b).ownsDram s.ms.addrMap (128 * l)

/-- The berth's Bridge cores, by number (R395). -/
def Berth.bcoreList (b : Berth) : List Nat := (buildFrom id 64 0).filter (bitAt b.bcores)

/-- The Bridge cores of a berth at the start of the verified firmware (R374, R398). -/
def State.startBridge (s : State) (b : Nat) : State :=
  let bb := s.berthAt b
  bb.bcoreList.foldl (fun s id =>
    let h : Hart := { Hart.reset with pc := Config.bvecEntry &&& ~~~(1 : Word) }
    let c : BCore := { BCore.reset id with berth := BitVec.ofNat 4 b, lead := id = bb.lead, stby := bb.stby = some id }
    s.setPop { s.pop with bcores := putBy (fun x => x.bcore.id) { hart := h, bcore := c } s.pop.bcores }) s

/-- The aperture that the lead core keeps (R406): its first 512 MiB are the second 512 MiB of the berth's memory,
under slot 0 (log entry 34), so no backing page is at physical address 0, which a reserved entry cannot name (R389);
and the drift queue that it places in the berth's memory, 1,025 pages of slots (R369, R395). -/
def State.startAperture (s : State) (b : Nat) : State :=
  let bb := { s.berthAt b with nextPage := 16384 }
  match bb.pageAddr 8192, bb.pageAddr 16384, bb.pageAddr 16385, bb.pageAddr 16386, bb.pageAddr 16387 with
  | some base, some root, some t3, some t2, some t1 =>
    let s := s.putBerth b { bb with nextPage := 17413, spaces := [(0, root)], driftAt := (bb.pageAddr 16388).getD 0 }
    let s := [root, t3, t2, t1].foldl (fun s p => s.fillPage p none) s
    let s := ((s.putEntry root (t3 + 1)).putEntry t3 (t2 + 1)).putEntry t2 (t1 + 1)
    s.putEntry t1 (leafWord base 3 0 0)
  | _, _, _, _, _ => s

/-- A configured berth starts (R374, R395, R411, R427): its Bridge cores run, its lead core makes the aperture and checks
ENABLE; a member of the fabric takes the number given. -/
def State.startBerth (s : State) (b member : Nat) : State :=
  let bb := s.berthAt b
  let c1 := (bb.bcoreList.filter fun id => 16 ≤ id && id < 32).head?
  let s := s.putBerth b { bb with
    started := true
    lead := bb.bcoreList.headD 0
    stby := match bb.stby with | some x => some x | none => c1
    tmid := if bb.ports = 0 then 0 else BitVec.ofNat 64 (2 ^ 15 + member % 1023) }
  ((s.startBridge b).startAperture b).checkEnable b

/-- A berth as a function-level reset leaves it, its resources kept (R398, R411); of one that no command has configured, the
link registers and the reset count alone. -/
def Berth.renewed (b : Berth) : Berth :=
  if !b.used then { Berth.reset with brcnt := b.brcnt + 1 }
  else
  { Berth.reset with
    used := b.used, clusters := b.clusters, groups := b.groups, queues := b.queues, ports := b.ports, qm := b.qm,
    qp := b.qp, bcores := b.bcores, tenders := b.tenders, stby := b.stby,
    keys := mkVec 64 fun _ => .active, brcnt := b.brcnt + 1, tmid := b.tmid }

/-- A transfer of another berth that is in flight to berth `b` (R398). -/
def State.bound (s : State) (b : Nat) (j : Job) : Bool :=
  tagBerth j.owner ≠ b && j.done.isNone &&
    (match j.kind with
     | .send _ _ m => s.memberBerth m.peer.toNat = some b
     | .copy _ _ _ _ _ _ tcsp =>
       let sides := copySides tcsp
       (sides.1.space = 1 && s.memberBerth sides.1.peer = some b) || (sides.2.space = 1 && s.memberBerth sides.2.peer = some b)
     | _ => false)

/-- The switch discards every transfer in flight to or from berth `b`, and fails every group that includes it (R363, R371,
R398): a message of the berth that another refused is cancelled too; a transfer that another berth has in flight to it ends as
one to a member that does not answer (log entry 52). -/
def State.cancelBerth (s : State) (b : Nat) : State :=
  let s := (s.groupsOf b).foldl (fun s g => s.groupFail (some b) g 1) s
  let s := (s.fabric.jobs.filter (s.bound b)).foldl (fun s j =>
    match j.kind with
    | .copy .. => s.breakCopy j
    | _ => s.endJob j.id unreachableToken) s
  let ended := (s.fabric.jobs.filter fun j => tagBerth j.owner = b || j.done.isSome).map (·.id)
  let s := s.setBerths (s.berths.map fun x =>
    { x with refused := x.refused.filter fun m => match m.job with | some id => !ended.contains id | none => true })
  s.setFabric { s.fabric with jobs := s.fabric.jobs.filter fun j => tagBerth j.owner ≠ b }

/-- The function-level reset of berth `b` alone, with every agent in the population (R398): the muster queues that its tasks
leave are refilled from the rings of the other berths (R338); after a fatal error every queue stays HELD (R441). -/
def State.resetBerth (s : State) (b : Nat) : State :=
  let bb := s.berthAt b
  let s := (s.dropAll fun c => tagBerth c.strand.tag = b).cancelBerth b
  let p := s.pilot
  let alive := fun (id : Nat) => match p.launchAt id with | some l => l.berth ≠ b | none => false
  let s := s.setPilot { p with
    launches := p.launches.filter fun l => l.berth ≠ b
    muster := p.muster.filter fun t => alive t.launch
    ringq := p.ringq.filter fun t => alive t.launch
    lostTask := p.lostTask.filter fun e => e.1 / 4 ≠ b
    held := if s.mgmt.fatal then p.held else p.held.filter fun q => !bitAt bb.queues (64 * q.1 + q.2) }
  let s := s.refillAll
  let s := (s.scramble (s.berthLines b)).dropBerth b
  let s := s.setMs { s.ms with swatch := s.ms.swatch.filter fun e => !bb.ownsDram s.ms.addrMap (128 * e.1) }
  let s := s.setIod { s.iod with pieces := s.iod.pieces.filter fun q => q.berth ≠ b }
  let s := s.setPop { s.pop with tenders := s.pop.tenders.filter fun k => !bitAt bb.tenders k.id }
  let s := s.putBerth b bb.renewed
  if bb.started then s.startBerth b (bitsAt bb.tmid.toNat 0 10) else s

/-- A function-level reset of the VF of the input's berth (R398, R405). -/
def execFunctionLevelReset (s : State) : Out := .next ((s.over fun s => s.resetBerth s.inp.berth.toNat).idle)

end Sys2Proof.Machine
end

