-- ==== Sys2Proof/Machine/Fetch.lean ====
section
/-!
DEFINITION. Fetching an instruction: the parcels at the pc, decoding, and what a fetch that finds no instruction raises
(R55, R76, R83, R84, R121, R144, R268, R373); and what a pending pre-emption makes of the next instruction (R46, R345).
-/
namespace Sys2Proof.Machine

/-- Old parcels of an aligned place that the agent may still fetch (R83, R268). -/
def State.oldParcels (s : State) (l : Loc) : List (BitVec 16) :=
  if s.priv then []
  else ((s.strand.fetchd ++ s.core.icache).filter fun e => e.1 = l.parcel).map (·.2)

/-- The parcel at an effective address: memory's, or freely an old one (R83); none is fetched from the scratchpad window
(R268). `k` numbers the parcel of the instruction. -/
def State.fetchParcel (s : State) (ea : Word) (k : Nat) : Except Stop (BitVec 16) :=
  if inPool ea then .error (Stop.plain 2 ea)
  else
    match s.check s.aspace Need.fetch ea 2 with
    | .error st => .error st
    | .ok ls =>
      let l := ls.headD { space := .dram, addr := 0 }
      let now := s.parcelAt l
      match s.oldParcels l with
      | [] => .ok now
      | old => .ok ((now :: old).getD (s.free 20 k % (old.length + 1)) now)

/-- What a fetch finds. -/
inductive Fetched where
  | instr (i : Instr)
  | bad (word : Nat) (detail : Nat)
  | stop (kind : Nat) (addr : Word)
  deriving DecidableEq, Repr

/-- The detail of a word or parcel that is no instruction (R76). -/
def State.badDetail (s : State) (e : DecodeError) : Nat :=
  match e with
  | .unassigned => 1
  | .reserved => 2
  | .futureMajor => 3
  | .privilegedReserved => if s.priv then 2 else 6
  | .mfsReserved r => if s.mfsDetail r.toNat = 6 then 6 else 2
  | .mtsReserved r => if s.mtsDetail r.toNat = 6 then 6 else 2
  | .rtnReserved => if s.priv || s.strand.inh then 2 else 6

/-- The majors that a Bridge core runs: 0x01 to 0x14, and launch (R373). -/
def bridgeMajor (w : Nat) : Bool :=
  let m := w / 2 % 64
  (1 ≤ m && m ≤ 0x14) || (m = 0x16 && bitsAt w 28 4 = 0)

/-- The instruction of a word or parcel in its place. On a Bridge core every encoding outside R373's majors has detail
1, majors 0x33 to 0x3F included: R373 says so of every other encoding, while R76's order of details would give 3 or 4
there (DEDUCED, log entry 74). -/
def State.decoded (s : State) (w : Nat) (d : Decoded) (runs : Bool) : Fetched :=
  if s.priv && !runs then .bad w 1
  else
    match d with
    | .ok i => .instr i
    | .error e => .bad w (s.badDetail e)

/-- The instruction at the pc. -/
def State.fetch (s : State) : Fetched :=
  match s.fetchParcel s.hart.pc 0 with
  | .error st => .stop st.kind s.hart.pc
  | .ok p0 =>
    if isWide p0.toNat then
      match s.fetchParcel (s.hart.pc + 2) 1 with
      | .error st => .stop st.kind (s.hart.pc + 2)
      | .ok p1 =>
        let w := p0.toNat + 65536 * p1.toNat
        s.decoded w (decode p0.toNat p1.toNat) (bridgeMajor w)
    else s.decoded p0.toNat (decode p0.toNat 0) false

/-- The step that a fetch leads to: the instruction, rtn on a Bridge core being its own row; or the trap. -/
def State.fetchStep (s : State) : Instr :=
  match s.fetch with
  | .instr i => if s.priv && i = .rtn then .rtnBridge else i
  | .bad w detail => .illegalInstruction (BitVec.ofNat 32 w) (BitVec.ofNat 8 detail)
  | .stop kind addr => .fetchFault (BitVec.ofNat 4 kind) addr

/-- The state in which a fetched instruction runs: its parcels have filled the caches of translations, as any access does (R391). -/
def State.fetched (s : State) : State :=
  match s.fetchParcel s.hart.pc 0 with
  | .error _ => s
  | .ok p0 =>
    let t := s.fillTlb s.aspace s.hart.pc
    if !isWide p0.toNat then t
    else
      match s.fetchParcel (s.hart.pc + 2) 1 with
      | .error _ => t
      | .ok _ => t.fillTlb t.aspace (s.hart.pc + 2)

/-- An instruction that a pending pre-emption may cut rather than keep from starting (R27, R46). -/
def cuttable (i : Instr) : Bool :=
  let m := wordOf i / 2 % 64
  match encode i with
  | some (true, _) => 0x18 ≤ m || (match i with | .spawn .. => true | _ => false)
  | _ => false

/-- A length-bearing instruction that begins only once every earlier one of its strip has ended, or that a pre-emption never
cuts: behind one that was cut it has not begun (R52, R248, R291, R317, R356). -/
def neverCut (i : Instr) : Bool :=
  let m := wordOf i / 2 % 64
  match i with
  | .gclr | .gcnt _ => true
  | _ => m = 0x27 || (0x29 ≤ m && m ≤ 0x2F)

/-- A register that an mfs reads without waiting for the instructions of a cut strip in flight: all but MG to MGC (R25), VFCS
(R172), ACH (R212) and, behind a gazetteer instruction, the gazetteer's registers (R311). -/
def finalNow (x : Cut) (r : Nat) : Bool :=
  !((0x40 ≤ r && r ≤ 0x44) || r = 0x51 || r = 0x68 || (x.gaz && 0x70 ≤ r && r ≤ 0x74))

/-- A register that an mts writes without waiting for them: all but VFCS, the spares and the palettes (R172), ACH (R212) and,
behind a gazetteer instruction, GOVB and GOVL (R311). -/
def writtenNow (x : Cut) (r : Nat) : Bool :=
  !(r = 0x51 || (0x54 ≤ r && r ≤ 0x68) || (x.gaz && (r = 0x71 || r = 0x72)))

/-- The order bits of an atomic that is a release (R118). -/
def releasesFirst (i : Instr) : Bool :=
  match i with
  | .amoSwap _ _ ord _ _ | .amoCas _ _ ord _ _ | .amoAdd _ _ ord _ _ | .amoAnd _ _ ord _ _ | .amoOr _ _ ord _ _
  | .amoXor _ _ ord _ _ | .amoMin _ _ ord _ _ | .amoMax _ _ ord _ _ | .amoMinn _ _ ord _ _ | .amoMaxn _ _ ord _ _ => isRelease ord
  | _ => false

/-- A scalar instruction that the scalar unit can have issued before the request, between instructions of a strip in flight,
where `x` is what those cut leave of it (R49, R73): arithmetic, a branch, a loan, nop; an mfs or mts whose register does not
wait for them; an access, mon or a cache operation unless one of them accesses memory with SO 0 (R95, R147); a fence or a
release unless one accesses memory at all (R127). A pending register and a conflict with an interlock entry stop it as they
do elsewhere (R147, R264). -/
def runsAhead (x : Cut) (i : Instr) : Bool :=
  let m := wordOf i / 2 % 64
  match i with
  | .nop | .prefi .. => true
  | .mts r _ => writtenNow x r.toNat
  | .mfs r _ => finalNow x r.toNat
  | .fenceAcq _ | .fenceRel _ | .fenceAcqrel _ => !x.mem
  | .cwb .. | .cinv .. | .iinv .. | .mon .. | .ldsC .. | .stsC .. => !x.so
  | _ =>
    match encode i with
    | some (true, _) =>
      if 0x0A ≤ m && m ≤ 0x0C then !x.so && !(x.mem && releasesFirst i) else (1 ≤ m && m ≤ 0x10) || m = 0x13 || m = 0x14
    | some (false, _) => true
    | none => false

/-- A spawn, or a vamo above core scope, starts after every event before it (R235, R347): behind a cut instruction that
accesses memory it has not begun. -/
def waitsBehind (x : Cut) (i : Instr) : Bool :=
  x.mem &&
    (match i with
     | .spawn .. => true
     | .vamoSwap sc _ _ _ | .vamoCas sc _ _ _ | .vamoAdd sc _ _ _ | .vamoAnd sc _ _ _ | .vamoOr sc _ _ _ | .vamoXor sc _ _ _
     | .vamoMin sc _ _ _ | .vamoMax sc _ _ _ | .vamoMinn sc _ _ _ | .vamoMaxn sc _ _ _ => sc ≠ 0
     | _ => false)

/-- What an issue behind a cut meets of the instructions in flight: a register that they will write is pending, and their
interlock entries stand, as does the wait for [GOVB, GOVB + 16·GOVL) behind a gazetteer instruction (R147, R264, R319). A
token with no job, 0, and the entries of owner 0 stand for them. -/
def State.withCut (s : State) (x : Cut) (i : Instr) : State :=
  let r := eaBounds s.strand.govb (16 * s.strand.govl.toNat)
  let table := if x.gaz && s.strand.govl ≠ 0 && wordOf i / 2 % 64 ≠ 0x30 then
      [{ owner := 0, write := true, lo := r.1, hi := r.2, known := true, bar := false : Interlock }]
    else []
  s.setStrand { s.strand with
    tokens := s.strand.tokens ++ x.regs.map fun d => { reg := d, job := 0 }
    irt := s.strand.irt ++ x.held ++ table }

/-- Without them again. -/
def State.withoutCut (s : State) : State :=
  s.setStrand { s.strand with
    tokens := s.strand.tokens.filter fun t => t.job ≠ 0
    irt := s.strand.irt.filter fun e => e.owner ≠ 0 }

/-- A tile instruction. -/
def isTile (i : Instr) : Bool :=
  match i with
  | .tld .. | .tst .. => true
  | _ => false

/-- A home refuses the lock batch of the focused strand's tile (R345): timing only, but under a pending pre-emption the tile,
which has not begun, is discarded and the strand halts before it. -/
def execLockBatchRefusal (s : State) : Out :=
  if !s.priv && s.strand.status = .running && s.hart.wait = .running && s.strand.cutReq.isSome && isTile s.fetchStep then
    .next s.idle.haltStrand
  else .next s.idle

end Sys2Proof.Machine
end

