-- ==== Sys2Proof/Machine/Gazetteer.lean ====
section
/-!
DEFINITION. The gazetteer, major 0x30 (R309 to R322). The core entries stand in ordinal order; the summary of R312 holds
the keys and values that the gazetteer has written to its table, but for the entries that a restore could not read.
-/
namespace Sys2Proof.Machine

/-! The overflow table (R310, R312). -/

/-- The effective address of overflow entry e. -/
def Strand.entryAt (st : Strand) (e : Nat) : Word := st.govb + BitVec.ofNat 64 (16 * e)

/-- Overflow entry e in memory, after the checks of `need`: its key and value. -/
def State.tableEntry (s : State) (need : Need) (e : Nat) : Except Stop (Word × Word) :=
  match s.check s.aspace need (s.strand.entryAt e) 16 with
  | .error st => .error { st with addr := s.strand.entryAt e }
  | .ok ls =>
    let bs := s.bytes ls
    .ok (BitVec.ofNat 64 (ofBytes (bs.take 8)), BitVec.ofNat 64 (ofBytes (bs.drop 8)))

/-- What the summary knows of an entry: nothing of one that a restore could not read (R312, R321). -/
def Strand.summary (st : Strand) (e : Nat) : Option (Word × Word) := if st.gunk.contains e then none else st.gsum[e]?

/-- Another agent has written over what the gazetteer wrote to an entry. -/
def Strand.foreign (st : Strand) (e : Nat) (kv : Word × Word) : Bool :=
  match st.summary e with
  | some x => x ≠ kv
  | none => false

/-- A value of the table; one that another agent has written over is unpredictable (R312). -/
def State.tableValue (s : State) (e : Nat) (kv : Word × Word) (v : Word) : Word :=
  if s.strand.foreign e kv then BitVec.ofNat 64 (s.free 8 e) else v

/-- The use number of the free choices of the lookup for element `q` of an instruction. -/
def lookupUse (q : Nat) : Nat := 2 ^ 20 + q

/-- The first of `m` overflow entries from e that holds key k, in the lookup for element `q`. The summary makes the gazetteer
read an entry that it appended with k; each lookup may read any other (R312). Under a foreign write the match is
unpredictable. No rule orders the reads: the model reads in rising order, and none beyond a hit (DESIGN CHOICE, log entry 91). -/
def State.findTable (s : State) (q : Nat) (k : Word) : Nat → Nat → Except Stop (Option (Nat × Word))
  | 0, _ => .ok none
  | m + 1, e =>
    let known := (s.strand.summary e).map (·.1)
    if known = some k || known.isNone || s.choose (lookupUse q) e then
      match s.tableEntry Need.load e with
      | .error st => .error st
      | .ok kv =>
        let hit := kv.1 = k
        let hit := if s.strand.foreign e kv && (hit || known = some k) then s.choose 9 e else hit
        if hit then .ok (some (e, s.tableValue e kv kv.2)) else s.findTable q k m (e + 1)
    else s.findTable q k m (e + 1)

/-- Where find(k) finds a key: its ordinal and value (R310, R314). -/
def State.find (s : State) (q : Nat) (k : Word) : Except Stop (Option (Nat × Word)) :=
  match (s.strand.gents.zipIdx.find? fun x => x.1.1 = k) with
  | some (kv, o) => .ok (some (o, kv.2))
  | none =>
    match s.findTable q k s.strand.govc.toNat 0 with
    | .error st => .error st
    | .ok none => .ok none
    | .ok (some (e, v)) => .ok (some (4096 + e, v))

/-- GFLT after a stop: its kind and the entry's address, or 0 for capacity (R311). -/
def gfltWord (st : Stop) : Word := (st.addr >>> 4 <<< 4) + BitVec.ofNat 64 st.kind

/-- Writing over part of overflow entry e at located places, as one event after another (R312). -/
def State.putTable (s : State) (e : Nat) (ls : List Loc) (bs : List Byte) : State :=
  (s.touch (s.strand.entryAt e) 16).store none (writesOf ls bs)

/-- The summary after an append as entry e; nothing is known of the entries that it did not hold below e. -/
def Strand.append (st : Strand) (e : Nat) (kv : Word × Word) : Strand :=
  let gap := e - st.gsum.length
  { st with
    govc := st.govc + 1
    gsum := (st.gsum ++ List.replicate gap (0, 0)).take e ++ [kv]
    gunk := st.gunk.filter (· < e) ++ buildFrom id gap st.gsum.length }

/-- Appending to the table (R314): capacity, the checks, then two writes. -/
def State.append (s : State) (k add : Word) : Except Word (State × Nat) :=
  let e := s.strand.govc.toNat
  if s.strand.govl.toNat ≤ e then .error 0
  else
    match s.check s.aspace Need.store (s.strand.entryAt e) 16 with
    | .error st => .error (gfltWord { st with addr := s.strand.entryAt e })
    | .ok ls =>
      let t := s.putTable e ls (toBytes 8 k.toNat ++ toBytes 8 add.toNat)
      .ok (t.setStrand (t.strand.append e (k, add)), 4096 + e)

/-- The value of the entry with an ordinal replaced; a table entry is read, then its value written (R314). -/
def State.putValue (s : State) (o : Nat) (k x : Word) : Except Word State :=
  if o < 4096 then
    .ok (s.setStrand { s.strand with gents := s.strand.gents.set o (k, x) })
  else
    let e := o - 4096
    match s.check s.aspace Need.rmw (s.strand.entryAt e) 16 with
    | .error st => .error (gfltWord { st with addr := s.strand.entryAt e })
    | .ok ls =>
      let t := s.putTable e (ls.drop 8) (toBytes 8 x.toNat)
      .ok (t.setStrand { t.strand with gsum := t.strand.gsum.set e (k, x) })

/-- Element `q` of gins and gacc: the state and the ordinal, or GFLT of its stop (R314). -/
def State.insert (s : State) (acc : Bool) (q : Nat) (k add : Word) : Except Word (State × Nat) :=
  match s.find q k with
  | .error st => .error (gfltWord st)
  | .ok (some (o, v)) =>
    if acc then
      match s.putValue o k (v + add) with
      | .error g => .error g
      | .ok t => .ok (t, o)
    else .ok (s, o)
  | .ok none =>
    let z := s.strand.gents.length
    if z < 4096 then .ok (s.setStrand { s.strand with gents := s.strand.gents ++ [(k, add)] }, z)
    else s.append k add

/-- What a run over elements gives: the state, the ordinals with their elements, and the first stop with its GFLT. -/
structure GRun where
  s    : State
  ords : List (Nat × Nat)
  stop : Option (Nat × Word)

/-- `m` elements from i in order; one that stops changes nothing, and the run goes on to what would be produced (R35). -/
def insertRun (acc : Bool) (key add : Nat → Word) (act : Nat → Bool) : Nat → Nat → GRun → GRun
  | 0, _, r => r
  | m + 1, i, r =>
    if act i then
      match r.s.insert acc i (key i) (add i) with
      | .ok (t, o) => insertRun acc key add act m (i + 1) { r with s := t, ords := (i, o) :: r.ords }
      | .error g => insertRun acc key add act m (i + 1) { r with stop := r.stop <|> some (i, g) }
    else insertRun acc key add act m (i + 1) r

/-! Issue (R313, R322). -/

/-- Formats i64 and n64. -/
def VType.gazOk (t : VType) : Bool := t.fmt = 0x0B || t.fmt = 0x0F

/-- GFLT written by a stop that no pre-emption cut comes before and no halt discards (R46, R314). -/
def State.gazStop (s : State) (cuts : Cuts) (stop : Option (Nat × Word)) : State :=
  match stop with
  | some (i, g) =>
    if (s.cutAt cuts i).isSome || (i = 0 && s.strand.cutReq.isSome) then s else s.setStrand { s.strand with gflt := g }
  | none => s

/-- An instruction of a poisoned half traps (R322), with TVAL 0 as no address failed (DEDUCED, log entry 42). -/
def State.gazPoison (s : State) (go : Out) : Out :=
  if s.strand.gpois then s.finish 1 .never (some (VStop.plain 0 3 0)) fun _ => s else go

/-- Waiting for the interlock entries that accesses to the table conflict with (R98, R264, R319): the entries in use, read or
under gacc written, and for an insertion that the core may not hold those that are free. -/
def State.clearTable (s : State) (ins acc : Bool) (go : Out) : Out :=
  let used := s.strand.govc.toNat
  let room := if ins && 4096 < s.strand.gents.length + s.n then s.strand.govl.toNat - used else 0
  let part := fun (write : Bool) (e n : Nat) (go : Out) =>
    if n = 0 then go
    else
      let r := eaBounds (s.strand.entryAt e) (16 * n)
      s.clear write r.1 r.2 go
  part acc 0 used (part true used room go)

/-- A gazetteer instruction after issue: the poison mark traps it (R322), n = 0 performs nothing, then `run` gives the
first stop and what elements below k commit. The table's translations may be cached from then on (R391). -/
def State.gaz (s : State) (ins acc : Bool) (stop : Option (Nat × Word)) (commit : State → Nat → State) : Out :=
  s.gazPoison <|
  if s.n = 0 then s.empty
  else s.clearTable ins acc <|
    let cuts : Cuts := if ins then .accum else .elems
    let t := s.gazStop cuts stop
    t.finish t.n cuts (stop.map fun x => VStop.plain x.1 6 0)
      (fun k => (commit t k).touchAll (buildFrom (fun e => (s.strand.entryAt e, 16)) s.strand.govc.toNat 0))
      fun x => { x with mem := true, gaz := true }

/-- gins and gacc (R314). -/
def State.gazInsert (s : State) (i : Instr) (acc : Bool) (m : BitVec 3) (d a b : BitVec 5) : Out :=
  let dg := s.grp d
  let sg := if acc then [s.grp a, s.grp b] else [s.grp a]
  s.vector i (s.ty.gazOk && allSameOr (dg :: sg))
    { loanable := true, field := m.toNat, dest := some dg, others := sg, regs := [] }
    fun loan copy =>
      let act := s.strand.active m.toNat loan
      let key := fun i => BitVec.ofNat 64 (s.el a i)
      let add := fun i => if acc then BitVec.ofNat 64 (s.el b i) else 0
      let whole := insertRun acc key add act s.n 0 { s := s, ords := [], stop := none }
      s.gaz true acc whole.stop fun t k =>
        let r := insertRun acc key add act k 0 { s := t, ords := [], stop := none }
        let ord := fun e => (whole.ords.find? fun p => p.1 = e).map (·.2)
        r.s.writeDest 10 copy { s.dest dg 64 s.n k act (fun e => (ord e).getD 0) with
                                skip := fun e => act e && (ord e).isNone }

/-- gins (R314). -/
def execGins (m : BitVec 3) (d a : BitVec 5) (s : State) : Out := s.gazInsert (.gins m d a) false m d a 0

/-- gacc (R314). -/
def execGacc (m : BitVec 3) (d a b : BitVec 5) (s : State) : Out := s.gazInsert (.gacc m d a b) true m d a b

/-- The first of `m` elements from i whose reading stops, with its GFLT. -/
def readStop (act : Nat → Bool) (f : Nat → Except Stop (Word × Word)) : Nat → Nat → Option (Nat × Word)
  | 0, _ => none
  | m + 1, i =>
    match (if act i then f i else .ok (0, 0)) with
    | .error st => some (i, gfltWord st)
    | .ok _ => readStop act f m (i + 1)

/-- A reading's destination: one word of each pair. -/
def State.readDest (s : State) (g : Grp) (k : Nat) (act : Nat → Bool) (f : Nat → Except Stop Word) : Dest :=
  { s.dest g 64 s.n k act (fun e => match f e with | .ok x => x.toNat | .error _ => 0) with
    skip := fun e => act e && (match f e with | .ok _ => false | .error _ => true) }

/-- glkp in its two forms (R315). -/
def State.gazLookup (s : State) (i : Instr) (ord : Bool) (m : BitVec 3) (d a : BitVec 5) : Out :=
  let dg := s.grp d
  s.vector i (s.ty.gazOk && dg.sameOr (s.grp a))
    { loanable := true, field := m.toNat, dest := some dg, others := [s.grp a], regs := [] }
    fun loan copy =>
      let act := s.strand.active m.toNat loan
      let f := fun e =>
        match s.find e (BitVec.ofNat 64 (s.el a e)) with
        | .error st => Except.error st
        | .ok none => .ok (if ord then (-1 : Word) else 0)
        | .ok (some (o, v)) => .ok (if ord then BitVec.ofNat 64 o else v)
      s.gaz false false (readStop act (fun e => (f e).map fun x => (x, 0)) s.n 0) fun t k =>
        t.writeDest 10 copy (s.readDest dg k act f)

/-- glkp (R315). -/
def execGlkp (m : BitVec 3) (d a : BitVec 5) (s : State) : Out := s.gazLookup (.glkp m d a) false m d a

/-- glkp.o (R315). -/
def execGlkpO (m : BitVec 3) (d a : BitVec 5) (s : State) : Out := s.gazLookup (.glkpO m d a) true m d a

/-- The key and value of the entry with an ordinal, zeros when there is none (R310, R316). -/
def State.entry (s : State) (o : Nat) : Except Stop (Word × Word) :=
  match s.strand.gents[o]? with
  | some kv => .ok kv
  | none =>
    if 4096 ≤ o && o - 4096 < s.strand.govc.toNat then
      match s.tableEntry Need.load (o - 4096) with
      | .error st => .error st
      | .ok kv =>
        if s.strand.foreign (o - 4096) kv then .ok (BitVec.ofNat 64 (s.free 9 o), s.tableValue (o - 4096) kv kv.2) else .ok kv
    else .ok (0, 0)

/-- gdrn (R316); a copy loan is refused, since it writes two groups (R65). -/
def execGdrn (m : BitVec 3) (d : BitVec 5) (a : BitVec 6) (s : State) : Out :=
  let kg := s.grp d
  let vg : Grp := { start := (d.toNat + s.ty.g) % 32, size := s.ty.g }
  s.vector (.gdrn m d a) s.ty.gazOk { loanable := true, field := m.toNat, dest := none, others := [], regs := [a] }
    fun loan _ =>
      let act := s.strand.active m.toNat loan
      let f := fun e => s.entry ((s.g a).toNat + e)
      s.gaz false false (readStop act f s.n 0) fun t k =>
        (t.writeGroup 10 (s.readDest kg k act fun e => (f e).map (·.1))).writeGroup 12
          (s.readDest vg k act fun e => (f e).map (·.2))

/-- A mask loan is pending: R65 admits it before major 0x30, and it acts as if the mask field named it (R66), which R313 makes
detail 2 for gclr and gcnt (DEDUCED, log entry 23). -/
def State.maskLoan (s : State) : Bool :=
  match loanOf s.hart.pfxs with
  | .mask .. => true
  | _ => false

/-- gclr (R317): every key of the strand is removed, and the poison mark cleared (R322). -/
def execGclr (s : State) : Out :=
  s.vector .gclr (s.ty.gazOk && !s.maskLoan) { loanable := true, field := 0, dest := none, others := [], regs := [] } fun _ _ =>
    if s.n = 0 then s.empty
    else s.finish s.n .never none fun _ =>
      s.setStrand { s.strand with gents := [], govc := 0, gsum := [], gunk := [], gpois := false }

/-- gcnt (R317). -/
def execGcnt (d : BitVec 6) (s : State) : Out :=
  s.vector (.gcnt d) (s.ty.gazOk && !s.maskLoan) { loanable := true, field := 0, dest := none, others := [], regs := [d] } fun _ _ =>
    s.gazPoison <|
    if s.n = 0 then (s.takeLastd d).empty
    else s.finish s.n .never none fun _ => s.wr d (BitVec.ofNat 64 s.strand.gents.length + s.strand.govc)

end Sys2Proof.Machine
end

