-- ==== Sys2Proof/Machine/HostLink.lean ====
section
/-!
DEFINITION. The host's side: link registers, the aperture, the ordering point, CXL, outbound reads, and the calls of a
berth's ring (R401, R402, R405 to R424).
-/
namespace Sys2Proof.Machine

/-! The aperture (R406). -/

/-- An address space that the lead core keeps, by its ASID (R406, R413): its CASP word and top table. -/
def Berth.space (b : Berth) (asid : Nat) : Option (Nat × Nat) := b.spaces.find? fun e => e.1 % 65536 = asid

/-- The address space of an ASID of berth `b`. -/
def State.spaceOf (s : State) (b asid : Nat) : Option ASpace :=
  ((s.berthAt b).space asid).map fun e => { berth := b, asid := asid, vxt := e.1 / 65536, root := e.2 }

/-- The located bytes of a range of BAR2 that lies in one line, and its key slot; none where it does not translate with
the permission, or its slot is not active (R406). -/
def State.aperture (s : State) (b : Nat) (n : Need) (o size : Nat) : Option (List Loc × Nat) :=
  match s.spaceOf b 0 with
  | none => none
  | some sp =>
    if 2 ^ 36 < o + size then none
    else
      match s.walk sp o with
      | .leaf pte lvl =>
        let ea : Word := BitVec.ofNat 64 o
        let slot := bitsAt pte 8 6
        if leafDenies s.ms.addrMap (s.berthAt b) n pte lvl ea || leafSpace pte ≠ .dram || vget (s.berthAt b).keys slot .empty ≠ .active
        then none
        else some ((locRange .dram (leafPa pte lvl ea) size).map (s.ms.seen.view (slotKey b slot)), slot)
      | .stop .. => none

/-- Bytes of one line written through the aperture; dropped where it does not translate. -/
def State.apertureWrite (s : State) (b o : Nat) (bs : List Byte) : State :=
  match s.aperture b Need.store o bs.length with
  | some (l :: _, slot) => s.writeKeyed (slotKey b slot) l.addr bs
  | _ => s

/-- A range split at line boundaries: offsets and bytes (R416). -/
def splitLines : Nat → Nat → List Byte → List (Nat × List Byte)
  | 0, _, _ => []
  | m + 1, o, bs =>
    if bs.isEmpty then [] else
    let k := 128 - o % 128
    (o, bs.take k) :: splitLines m (o + k) (bs.drop k)

/-- An error of an inbound request, on the VF (R406); the fields of its report are a DESIGN CHOICE (log entries 59, 85). -/
def State.linkError (s : State) (b : Nat) : State :=
  s.report (reportWord 13 0 0 true 1 0 b true false) 0 (BitVec.ofNat 64 (2 ^ 32)) none (some b)

/-! The ordering point (R416, R417, R420). -/

/-- Posted writes of a requester that await acknowledgement. -/
def Iod.waiting (i : Iod) (req : BitVec 16) : List Nat := dedup ((i.pieces.filter fun p => p.req = req).map (·.seq))

/-- A piece taken to wait for its home, or dropped and reported. -/
def State.takePiece (s : State) (b : Nat) (x : Nat × List Byte) : State :=
  match s.aperture b Need.store x.1 x.2.length with
  | some (l :: _, slot) =>
    s.setIod { s.iod with pieces := s.iod.pieces ++
      [{ req := s.inp.req, seq := s.iod.seq, ro := s.inp.flag, addr := l.addr, berth := b, slot := slot, data := x.2 }] }
  | _ => s.linkError b

/-- An inbound posted write through BAR2 of the input's berth (R406, R417): at most 512 bytes, with Relaxed Ordering
as the input flag says; with 512 writes of the requester waiting it is not accepted yet. A berth that has not started
has no aperture. -/
def execInboundPostedWrite (s : State) : Out :=
  let b := s.inp.berth.toNat
  let data := s.inp.data.take 512
  if data.isEmpty || 512 ≤ (s.iod.waiting s.inp.req).length then .next s.idle
  else
    let t := (splitLines 6 s.inp.addr data).foldl (fun s x => s.takePiece b x) s
    .next ((t.setIod { t.iod with seq := t.iod.seq + 1 }).idle)

/-- The home of the input's piece performs and acknowledges it (R416), when R417 allows; under a slot that is no longer
active it is dropped and reported. -/
def execPieceAcknowledgement (s : State) : Out :=
  match s.iod.pieces[s.inp.num]? with
  | none => .next s.idle
  | some p =>
    if !p.ro && s.iod.pieces.any fun q => q.req = p.req && q.seq < p.seq then .next s.idle
    else
      let t := s.setIod { s.iod with pieces := s.iod.pieces.eraseIdx s.inp.num }
      let live := vget (t.berthAt p.berth).keys p.slot .empty = .active
      .next ((if live then t.writeKeyed (slotKey p.berth p.slot) p.addr p.data else t.linkError p.berth).idle)

/-- A completion returned to the host: its bytes and how it completed, 0 with data, 1 poisoned, 2 Unsupported Request. -/
def State.reply (s : State) (bs : List Byte) (how : Nat) : State :=
  s.setIod { s.iod with reads := s.iod.reads ++ [bs], flags := s.iod.flags ++ [how] }

/-- The located bytes of a read that translates whole (R406). -/
def State.readable (s : State) (b : Nat) : List (Nat × List Byte) → Option (List Loc)
  | [] => some []
  | x :: t =>
    match s.aperture b Need.read4 x.1 x.2.length, s.readable b t with
    | some (ls, _), some r => some (ls ++ r)
    | _, _ => none

/-- An inbound read through BAR2 (R406, R417): it waits for every earlier posted write of its requester. -/
def execInboundRead (s : State) : Out :=
  let b := s.inp.berth.toNat
  let n := min s.inp.num 4096
  if n = 0 || !(s.iod.waiting s.inp.req).isEmpty then .next s.idle
  else
    match s.readable b (splitLines 34 s.inp.addr (List.replicate n 0)) with
    | none => .next ((s.reply [] 2).idle)
    | some ls =>
      match ls.find? s.poisoned with
      | none => .next ((s.reply (s.bytes ls) 0).idle)
      | some l => .next (((s.reply (s.bytes ls) 1).dramReport none 1 2 l.addr 1 none).idle)

/-- A read of FLUSH completes after every earlier posted write of the requester is acknowledged (R420). -/
def execFlush (s : State) : Out :=
  if !(s.iod.waiting s.inp.req).isEmpty then .next s.idle else .next ((s.reply (toBytes 8 0) 0).idle)

/-! Link registers (R411, R434). -/

/-- A link register as the VF's driver reads it; an offset that R411 does not map reads 0 (log entry 35). -/
def Berth.linkRead (b : Berth) (off : Nat) : Word :=
  match off with
  | 0x00 => b.crbase
  | 0x08 => b.cqbase
  | 0x10 => b.evbase
  | 0x18 => b.cqhead
  | 0x20 => b.evhead
  | 0x28 => b.enable
  | 0x38 => b.lstat
  | _ => 0

/-- MSTAT (R434). -/
def Mgmt.mstat (m : Mgmt) : Word :=
  BitVec.ofNat 64 (m.stage.toNat + 16 * m.fail.toNat + (if m.fatal then 256 else 0) + 2 ^ 16 * m.drdy.toNat)

/-- A register of the management window as the PF's driver reads it (R434); an offset that R434 does not map reads 0 (log
entry 35). -/
def Mgmt.windowRead (m : Mgmt) (off : Nat) : Word :=
  match off with
  | 0x00 => 0x01000FF9
  | 0x08 => m.mstat
  | 0x10 => BitVec.ofNat 64 (m.status.toNat + (if m.busy then 2 ^ 63 else 0))
  | 0x18 => m.melb
  | 0x20 => m.melh
  | 0x28 => m.melen
  | 0x30 => m.mpwr
  | 0x38 => m.mtemp
  | n => if 0x100 ≤ n && n + 8 ≤ 0x200 then BitVec.ofNat 64 (ofBytes (buildFrom (fun i => vget m.mbuf i 0) 8 (n - 0x100))) else 0

/-- PCI Express reaches the window: from stage 2, or after a failure before it (R427, R428). -/
def Mgmt.reachable (m : Mgmt) : Bool := 2 ≤ m.stage.toNat || m.fail ≠ 0

/-- The host reads LSTAT, which clears FAILED (R411), or with the input flag the link register at `addr`, or with `flag2` that
of the management window, where PCI Express reaches it; a read waits for every earlier posted write of its requester (R417). -/
def execLstatRead (s : State) : Out :=
  let b := s.inp.berth.toNat
  let bb := s.berthAt b
  if !(s.iod.waiting s.inp.req).isEmpty || (s.inp.flag2 && !s.mgmt.reachable) then .next s.idle
  else if s.inp.flag2 then .next ((s.reply (toBytes 8 (s.mgmt.windowRead s.inp.addr).toNat) 0).idle)
  else
    let off := if s.inp.flag then s.inp.addr else 0x38
    let t := s.reply (toBytes 8 (bb.linkRead off).toNat) 0
    .next ((if off = 0x38 then t.putBerth b { bb with failed := false } else t).idle)

/-- A host write of a link register at an offset of BAR0. -/
def State.linkWrite (s : State) (b off : Nat) (x : Word) : State :=
  let bb := s.berthAt b
  let off_ := bb.enable = 0
  match off with
  | 0x00 => if off_ then s.putBerth b { bb with crbase := keepBits x 0 4 + keepBits x 12 24 } else s
  | 0x08 => if off_ then s.putBerth b { bb with cqbase := keepBits x 0 4 + keepBits x 12 52 } else s
  | 0x10 => if off_ then s.putBerth b { bb with evbase := keepBits x 0 4 + keepBits x 12 52 } else s
  | 0x18 => s.putBerth b { bb with cqhead := x }
  | 0x20 => (s.putBerth b { bb with evhead := x }).postEvents b
  | 0x28 => s.putBerth b { bb with enable := keepBits x 0 1 }
  | _ => s

/-- The lead core of a berth runs (R374). -/
def State.leadRuns (s : State) (b : Nat) : Bool :=
  let id := (s.berthAt b).lead
  if s.priv && s.bcore.id = id then !s.bcore.stopped
  else s.pop.bcores.any fun x => x.bcore.id = id && x.bcore.berth.toNat = b && !x.bcore.stopped

/-- The lead core checks ENABLE (R411). -/
def execEnableCheck (s : State) : Out :=
  let b := s.inp.berth.toNat
  let bb := s.berthAt b
  if !bb.started || !s.leadRuns b then .next s.idle
  else .next (s.checkEnable b).idle

/-! Calls (R401, R402, R412 to R414). -/

/-- What a call does: the state, STATUS, VALUE. -/
structure CallEnd where
  s      : State
  status : Nat
  value  : Word

/-- The entry that the lead core would take next: its bytes; none while it does not run, the ring is not ready, holds
no entry, or too many completions wait (R374, R412). -/
def State.nextCall (s : State) (b : Nat) : Option (List Byte) :=
  let bb := s.berthAt b
  let base := bitsAt bb.bases.1.toNat 12 24 * 4096
  if !bb.ready || !s.leadRuns b || bb.cqhead.toNat + 2 ^ bitsAt bb.bases.2.1.toNat 0 4 ≤ bb.cposted then none
  else
    match s.aperture b Need.read4 base 8 with
    | some (ls, _) =>
      if ofBytes (s.bytes ls) ≤ bb.chead then none
      else
        (s.aperture b Need.read4 (base + 0x100 + 128 * (bb.chead % 2 ^ bitsAt bb.bases.1.toNat 0 4)) 128).map fun r =>
          s.bytes r.1
    | none => none

/-- A word of a call entry. -/
def entryWord (e : List Byte) (o : Nat) : Word := BitVec.ofNat 64 (ofBytes ((e.drop o).take 8))

/-- The entry is taken: CHEAD counts it, and the log has it. -/
def State.takeEntry (s : State) (b seq : Nat) : State :=
  let bb := s.berthAt b
  let base := bitsAt bb.bases.1.toNat 12 24 * 4096
  (s.putBerth b { bb with chead := bb.chead + 1, log := bb.log ++ [.taken seq] }).apertureWrite b (base + 0x80)
    (toBytes 8 (bb.chead + 1))

/-- A call of the input's berth, when the next entry's OP is one of `op`: taken, performed, completed. With the input's
`flag2` the lead core's machine check interrupts it after as much as `num` says: 0 nothing committed, and the call is
failed back with status 4; else its effect is committed and the new lead posts the completion (R402). -/
def State.call (s : State) (op : Nat → Bool) (f : State → Nat → (Nat → Word) → List Byte → CallEnd) : Out :=
  let b := s.inp.berth.toNat
  match s.nextCall b with
  | none => .next s.idle
  | some e =>
    let hdr := (entryWord e 0).toNat
    let seq := hdr / 2 ^ 32
    if !op (hdr % 256) then .next s.idle
    else
      .next ((s.over fun s =>
        let bb := s.berthAt b
        let t := s.takeEntry b seq
        let perform := fun (t : State) =>
          let r : CallEnd := if bitsAt hdr 8 24 ≠ 0 then { s := t, status := 1, value := 0 }
                   else f t b (fun k => entryWord e (8 + 8 * k)) (e.drop 0x40)
          let rb := r.s.berthAt b
          { r with s := r.s.putBerth b { rb with log := rb.log ++ [LogRec.effect seq r.status r.value] } }
        if s.inp.flag2 then
          if s.inp.num = 0 then
            let t := t.machineCheckBridge bb.lead b true
            if bb.stby.isSome then (t.complete b seq 4 0).postAll b else t
          else
            let r := perform t
            let t := r.s.machineCheckBridge bb.lead b true
            if bb.stby.isSome then (t.complete b seq r.status r.value).postAll b else t
        else
          let r := perform t
          r.s.complete b seq r.status r.value) |>.idle)

/-- A call's end with nothing changed. -/
def State.ends (s : State) (status : Nat) : CallEnd := { s := s, status := status, value := 0 }

/-- NOP (R413). -/
def execCallNop (s : State) : Out := s.call (· = 0) fun s _ _ _ => s.ends 0

/-- SPACE (R413): a new ASID with an empty top table. -/
def execCallSpace (s : State) : Out :=
  s.call (· = 1) fun s b arg _ =>
    let bb := s.berthAt b
    if 255 < (arg 0).toNat then s.ends 1
    else if 65535 < bb.nextAsid then s.ends 2
    else
      match s.newPage b none with
      | none => s.ends 2
      | some (p, t) =>
        let tb := t.berthAt b
        { s := t.putBerth b { tb with nextAsid := tb.nextAsid + 1,
                                      spaces := tb.spaces ++ [(tb.nextAsid + 65536 * (arg 0).toNat, p)] }
          status := 0, value := BitVec.ofNat 64 bb.nextAsid }

/-- The backing page of an aperture offset (R413). -/
def State.backing (s : State) (b o : Nat) : Option Nat :=
  match s.spaceOf b 0 with
  | none => none
  | some sp =>
    match s.walk sp o with
    | .leaf pte lvl => if 2 ^ 36 ≤ o then none else some (leafPa pte lvl (BitVec.ofNat 64 o))
    | .stop .. => none

/-- MAP (R413): reserved entries backed by aperture pages or zeros. -/
def execCallMap (s : State) : Out :=
  s.call (· = 2) fun s b arg _ =>
    match s.spaceOf b (arg 0).toNat with
    | none => s.ends 1
    | some sp =>
      let p := (arg 3).toNat
      let zero := arg 4 = 0xFFFFFFFFFFFFFFFF
      if p - 4 * bitsAt p 2 3 - 256 * bitsAt p 8 6 ≠ 0 || (!zero && (arg 4).toNat % 65536 ≠ 0) then s.ends 1
      else
        let r := s.reserve sp (arg 1).toNat (arg 2).toNat (bitsAt p 2 3) (bitsAt p 8 6) fun o =>
          if zero then some 0 else s.backing b ((arg 4).toNat + o)
        { s := r.1, status := r.2, value := 0 }

/-- UNMAP (R413): svc 3 in the named space. -/
def execCallUnmap (s : State) : Out :=
  s.call (· = 3) fun s b arg _ =>
    match s.spaceOf b (arg 0).toNat with
    | none => s.ends 1
    | some sp =>
      let r := s.release sp (arg 1).toNat (arg 2).toNat
      { s := r.1, status := r.2, value := 0 }

/-- The lead core's launch traps at its own vector (R375, R413), and its handler returns: BEPC, BECAUSE and BETVAL
hold the trap; a second trap within the handler would be a machine check (log entry 47). -/
def State.leadTrap (s : State) (b : Nat) (st : Stop) : State :=
  s.over fun s =>
    let u := s.focusBridge (s.berthAt b).lead
    let t := u.trapBridgeCore (Trap.access st)
    if u.bcore.intr then t.unfocus
    else ((t.setBcore { t.bcore with intr := false }).setHart { u.hart with monArmed := false }).unfocus

/-- LAUNCH (R413): launch on a copy of REC, through the named space. -/
def execCallLaunch (s : State) : Out :=
  s.call (· = 4) fun s b arg rec_ =>
    match (s.berthAt b).space (arg 0).toNat, s.spaceOf b (arg 0).toNat with
    | some e, some sp =>
      let asp : Word := BitVec.ofNat 64 e.1
      let root : Word := BitVec.ofNat 64 e.2
      let lead := (s.berthAt b).lead
      let t := s.mapBcores fun c => if c.id = lead then { c with basp := asp, broot := root } else c
      match t.submitRec sp asp root none (buildFrom (fun j => entryWord rec_ (8 * j)) 8 0) with
      | .ok (v, u) => { s := u, status := 0, value := BitVec.ofNat 64 v }
      | .error st => { s := t.leadTrap b st, status := 0, value := 4 }
    | _, _ => s.ends 1

/-- RELEASE (R413): a queue of the berth leaves HELD. -/
def execCallRelease (s : State) : Out :=
  s.call (· = 5) fun s b arg _ =>
    let q := (arg 0).toNat
    let d := (arg 1).toNat
    if 63 < q || 3 < d then s.ends 1
    else if !bitAt (s.berthAt b).queues (64 * d + q) then s.ends 3
    else (s.setPilot { s.pilot with held := s.pilot.held.filter (· ≠ (d, q)) }).advance.ends 0

/-- REVOKE (R413): kslot by the lead core. -/
def execCallRevoke (s : State) : Out :=
  s.call (· = 6) fun s b arg _ =>
    if 63 < (arg 0).toNat then s.ends 1
    else
      let r := s.revokeSlot b (arg 0)
      { s := r.1, status := 0, value := r.2 }

/-- DEBUG (R413). -/
def execCallDebug (s : State) : Out :=
  s.call (· = 7) fun s b arg _ =>
    if 1 < (arg 0).toNat then s.ends 1
    else (s.putBerth b { s.berthAt b with debugger := arg 0 = 1 }).ends 0

/-- RESUME (R413): a strand held at a breakpoint runs at the PC given, which takes CPC's place in the save area of one that
SYNC has saved. -/
def execCallResume (s : State) : Out :=
  s.call (· = 8) fun s b arg _ =>
    let tag : BitVec 16 := BitVec.ofNat 16 (arg 0).toNat
    match s.pop.ctxAt tag with
    | some c =>
      if 65535 < (arg 0).toNat || tagBerth tag ≠ b || !(c.strand.held = 1 || c.strand.held = 2) || bitAt (arg 1).toNat 0 then s.ends 1
      else
        let t := s.putCtx { c with strand := { c.strand with cpc := arg 1 } }
        ((if c.strand.status = .saved then t.writePhys (c.strand.saveAt + 0xB40) (toBytes 8 (arg 1).toNat) else t).resume tag).ends 0
    | none => s.ends 1

/-- HWIN (R407, R413): at most 16 host windows, each a multiple of 64 KiB. -/
def execCallHwin (s : State) : Out :=
  s.call (· = 9) fun s b arg _ =>
    let bb := s.berthAt b
    if !rangeOk (arg 0).toNat (arg 1).toNat then s.ends 1
    else if 16 ≤ bb.wins.length then s.ends 3
    else
      { s := s.putBerth b { bb with wins := bb.wins ++ [((arg 0).toNat, (arg 1).toNat)] }
        status := 0, value := BitVec.ofNat 64 bb.wins.length }

/-- An OP that R413 does not give: status 1. -/
def execCallUnknownOp (s : State) : Out := s.call (fun o => 10 ≤ o) fun s _ _ _ => s.ends 1

/-! CXL and outbound requests (R407, R409, R410, R419, R423). -/

/-- The key under which the host reaches an address of an HDM granule; none when the granule is not assigned or its slot not
active (R409). -/
def State.hdmKey (s : State) (a : Nat) : Option Nat :=
  (s.iod.hdm.find? fun h => h.1 = a / 2 ^ 30 && vget (s.berthAt h.2.1).keys h.2.2 .empty = .active).map fun h =>
    slotKey h.2.1 h.2.2

/-- A CXL.mem request of the host at an address of an HDM granule (R409, R419): a write with the input flag, else a read
of 64 bytes, of which the host keeps a copy with `flag2`; under the granule's slot. Through a granule or slot that is not in
use a write is dropped and a read returns poison. -/
def execCxlMemRequest (s : State) : Out :=
  let a := s.inp.addr / 64 * 64
  match s.hdmKey a with
  | none => if s.inp.flag then .next s.idle else .next ((s.reply (List.replicate 64 0) 1).idle)
  | some key =>
    if s.inp.flag then .next ((s.writeKeyed key a (s.inp.data.take 64)).idle)
    else
      let ls := (locRange .dram a 64).map (s.ms.seen.view key)
      let t := if s.inp.flag2 then s.setMs { s.ms with hostLn := insertNat (a / 128) s.ms.hostLn } else s
      .next ((t.reply (s.bytes ls) (if ls.any s.poisoned then 1 else 0)).idle)

/-- What host memory holds on a function becomes the input's bytes. -/
def State.hostHolds (s : State) (fn a : Nat) (bs : List Byte) : State :=
  let t := (s.setMs { s.ms with dropped := [] }).hostWrite fn a bs
  t.setMs { t.ms with dropped := s.ms.dropped }

/-- A completion of an outbound read of the input's berth arrives (R407): with the data that host memory holds, or Unsupported
Request (`num` 1) or Completer Abort (any other), which stop reads of that line. With the input flag the host refuses the
berth's writes to the line from now on, and without it takes them. -/
def execOutboundCompletion (s : State) : Out :=
  let fn := s.inp.berth.toNat + 1
  let line := fnAddr fn s.inp.addr / 128
  let rest := s.ms.refused.filter fun e => e.1 ≠ line
  let keep := s.ms.dropped.filter fun l => l ≠ line
  let s := s.setMs { s.ms with dropped := if s.inp.flag then line :: keep else keep }
  if s.inp.num = 0 then
    .next (((s.setMs { s.ms with refused := rest }).hostHolds fn s.inp.addr (s.inp.data.take (128 - s.inp.addr % 128))).idle)
  else .next ((s.setMs { s.ms with refused := (line, if s.inp.num = 1 then 1 else 2) :: rest }).idle)

/-- No completion within 2^24 IOD cycles: reads of the line by the input's berth stop with KIND 2 (R407). -/
def execOutboundReadTimeout (s : State) : Out :=
  let line := fnAddr (s.inp.berth.toNat + 1) s.inp.addr / 128
  .next ((s.setMs { s.ms with refused := (line, 2) :: s.ms.refused.filter fun e => e.1 ≠ line }).idle)

/-- A CXL.cache snoop of the host is answered from the clusters' state (R423): the host may then have written its own
memory, which the input gives. -/
def execHostSnoop (s : State) : Out :=
  .next ((s.store none ((locRange .cxl s.inp.addr s.inp.data.length).zip s.inp.data)).idle)

end Sys2Proof.Machine
end

