-- ==== Sys2Proof/Machine/Mgmt.lean ====
section
/-!
DEFINITION. Staged start, measurement, the management window and its commands, soft errors and scrubbing, machine checks
and fatal errors, power (R405, R427 to R442).
-/
namespace Sys2Proof.Machine

/-! Measurement (R429 to R431). -/

/-- The SM3 digest of a body (log entry 11). -/
def sm3 (body : List Byte) : List Byte := buildFrom (Config.sm3Byte body) 32 0

/-- FM after an image has verified (R430), and the image at its destination (R429). -/
def Mgmt.extend (m : Mgmt) (body : List Byte) : Mgmt :=
  { m with fm := sm3 (m.fm ++ sm3 body), images := m.images + 1, loaded := m.loaded ++ [body] }

/-- The parts of an image's header and the image key, in the order that the input's `others` gives them: digest, signature,
public key (R429; the header's layout is not the manual's, log entry 11). -/
structure ImageHead where
  version   : Nat
  digest    : List Byte
  signature : List Byte
  key       : List Byte
  deriving DecidableEq, Repr

/-- The FAIL code of the next image or table, 0 when it verifies (R428, R429): the key, the digest and the signature, then the
fused minimum version of the kind, the decode tables being one kind; `table` makes a failed decode table 4. -/
def verifyCode (n : Nat) (table : Bool) (h : ImageHead) (body : List Byte) : Nat :=
  if sm3 h.key ≠ Config.imageKeyDigest || h.digest ≠ sm3 body || !Config.sm2Verifies h.key h.digest h.signature then
    if table then 4 else 1
  else if h.version < Config.minVersion (min n 3) then (if table then 4 else 2)
  else 0

/-- The 128-byte record of a berth (R435). -/
def Berth.record (b : Berth) (n : Nat) : List Byte :=
  toBytes 8 n ++ toBytes 24 b.clusters ++ toBytes 8 b.groups ++ toBytes 32 b.queues ++ toBytes 8 b.ports
    ++ [b.qm, b.qp] ++ toBytes 6 0 ++ toBytes 8 b.bcores ++ toBytes 8 b.tenders ++ toBytes 24 0

/-- BM of a berth (R431). -/
def State.berthMeasure (s : State) (b : Nat) : List Byte :=
  let bb := s.berthAt b
  sm3 (bb.record b ++ buildFrom (fun k => BitVec.ofNat 8 (vget bb.keys k .empty).code) 64 0)

/-! Fatal errors (R441). -/

/-- Every queue of every berth. -/
def allQueues : List (Nat × Nat) := buildFrom (fun q => (q / 64, q % 64)) 256 0

/-- A fatal error of an instance of a unit: FATAL is set, every queue enters HELD, and it is reported with CLASS 3 (R436, R441). -/
def State.fatalError (s : State) (unit inst die synd : Nat) (iod : Bool) : State :=
  let s := s.setMgmt { s.mgmt with fatal := true }
  let s := s.setPilot { s.pilot with held := allQueues }
  s.report (reportWord unit inst die iod 3 synd 0 false false) 0 (BitVec.ofNat 64 (2 ^ 32)) none none

/-- Loss of a die-to-die link, one of the three of the input's die, or with `flag2` of the die, which no UNIT names; or with the
input flag of the security controller (R1, R437, R441). A lost die is reported as its link 0 (DESIGN CHOICE, log entry 59). -/
def execFatalError (s : State) : Out :=
  .next ((if s.inp.flag then s.fatalError 15 0 0 0 true
    else s.fatalError 12 (if s.inp.flag2 then 0 else s.inp.num % 3) s.inp.die.toNat 5 false).idle)

/-- The supply is below 44 V for 1 ms, or with the input flag a junction is at 115 °C (R442). -/
def execSupplyFault (s : State) : Out := .next ((s.fatalError 16 0 0 (if s.inp.flag then 6 else 7) true).idle)

/-! Staged start (R427, R428). -/

/-- Reset is released, and staged start begins. -/
def execResetRelease (s : State) : Out := .next ((s.setMgmt { s.mgmt with started := true }).idle)

/-- A hot reset or link disable resets the package (R405); host memory is not the package's. -/
def execHotReset (s : State) : Out :=
  .next { State.reset with
    ms := { State.reset.ms with cxl := s.ms.cxl, pcie := s.ms.pcie }
    turns := s.turns, fresh := s.fresh + 1 }

/-- Bridge core 0 of C0 runs (R427, stage 2). -/
def State.startFirst (s : State) : State :=
  s.over fun s =>
    let h : Hart := { Hart.reset with pc := Config.bvecEntry &&& ~~~(1 : Word) }
    s.setPop { s.pop with bcores := putBy (fun x => x.bcore.id) { hart := h, bcore := BCore.reset 0 } s.pop.bcores }

/-- The configured berths start (R427, stage 5). -/
def State.startAll (s : State) (member : Nat) : State :=
  s.over fun s => (buildFrom id 16 0).foldl (fun s b => if (s.berthAt b).used then s.startBerth b (member + b) else s) s

/-- The image that the input carries: its version in `num`, its other parts in `others` (R429). -/
def Input.image (x : Input) : ImageHead :=
  let part := fun (k : Nat) => (x.others.getD k (0, [])).2
  { version := x.num, digest := part 0, signature := part 1, key := part 2 }

/-- The next step of staged start (R427 to R430): an image or table is verified and copied to its destination, FM is extended
and the stage it completes is reached; or its verification fails, or with the input flag a die does not answer. -/
def execStageAdvance (s : State) : Out :=
  let m := s.mgmt
  if !m.started || m.fail ≠ 0 || m.fatal || m.stage = 5 then .next s.idle
  else if s.inp.flag then .next ((s.setMgmt { m with fail := 5 }).idle)
  else if m.stage = 2 then .next s.idle
  else if m.stage = 4 then .next (((s.setMgmt { m with stage := 5 }).startAll s.inp.addr).idle)
  else
    match verifyCode m.images (m.stage = 3) s.inp.image s.inp.data with
    | 0 =>
      let m' := m.extend s.inp.data
      let n := m'.images
      let t := s.setMgmt { m' with
        stage := if n = 1 then 1 else if n = 3 then 2 else if n = 7 then 4 else m.stage
        tables := m.tables || n = 7 }
      .next ((if n = 3 then t.startFirst else t).idle)
    | code => .next ((s.setMgmt { m with fail := BitVec.ofNat 4 code }).idle)

/-- A die's DRAM training ends (R427): its DRDY bit, after a failure too; with all four at stage 2 and no failure,
stage 3. With the input flag it fails, or with `flag2` the die does not answer (R428). -/
def execDramTrainingDone (s : State) : Out :=
  let m := s.mgmt
  if !m.started || m.fatal || m.stage ≠ 2 then .next s.idle
  else if s.inp.flag then
    .next ((s.setMgmt { m with fail := if m.fail ≠ 0 then m.fail else if s.inp.flag2 then 5 else 3 }).idle)
  else
    let d := m.drdy ||| (1#4 <<< s.inp.die.toNat)
    .next ((s.setMgmt { m with drdy := d, stage := if d = 15#4 && m.fail = 0 then 3 else m.stage }).idle)

/-! The management window (R434, R435). -/

/-- Argument bytes of the command that runs: MBUF is not read again once BUSY is set (R435). -/
def Mgmt.arg (m : Mgmt) (o n : Nat) : Nat := ofBytes (buildFrom (fun i => vget m.args i 0) n o)

/-- MBUF with bytes written from an offset. -/
def Mgmt.result (m : Mgmt) (o : Nat) (bs : List Byte) : Mgmt :=
  { m with mbuf := mkVec 256 fun i => if o ≤ i && i < o + bs.length then bs.getD (i - o) 0 else vget m.mbuf i 0 }

/-- A command has ended: its status, and PF MSI-X vector 1 (R434, R435). -/
def State.ended (s : State) (status : Nat) : State :=
  (s.setMgmt { s.mgmt with busy := false, status := BitVec.ofNat 8 status }).raiseMsix 0 1

/-- A PF driver's write of the management window (R434); a CAP below the average power sets THR (R442). A command code
that R435 does not give ends at once with status 1. -/
def State.windowSet (s : State) (off : Nat) (x : Word) : State :=
  let m := s.mgmt
  if !m.reachable then s
  else
    match off with
    | 0x10 =>
      if m.busy then s
      else
        let t := s.setMgmt { m with busy := true, cmd := BitVec.ofNat 8 x.toNat, args := m.mbuf }
        if x.toNat % 256 = 0 || 7 < x.toNat % 256 then t.ended 1 else t
    | 0x18 => if m.melen = 0 then s.setMgmt { m with melb := keepBits x 0 4 + keepBits x 12 52 } else s
    | 0x20 => (s.setMgmt { m with melh := x }).postReports
    | 0x28 => (s.setMgmt { m with melen := keepBits x 0 1 }).postReports
    | 0x30 =>
      let cap := bitsAt x.toNat 0 16
      if cap < 1000 || 3000 < cap then s
      else s.setMgmt { m with
        mpwr := keepBits m.mpwr 16 16 + BitVec.ofNat 64 cap
        mtemp := if cap < bitsAt m.mpwr.toNat 16 16 then m.mtemp ||| 256#64 else m.mtemp }
    | n => if 0x100 ≤ n && n + 8 ≤ 0x200 then s.setMgmt (m.result (n - 0x100) (toBytes 8 x.toNat)) else s

/-- The host writes a link register of the input's berth, or with the input flag the management window (R411, R434): a posted
write, which without Relaxed Ordering, `flag2`, waits for every earlier one of its requester (R417). Link registers are there
from stage 5 on, until a fatal error (R427, R428, R441). -/
def execRegisterWrite (s : State) : Out :=
  if !s.inp.flag2 && !(s.iod.waiting s.inp.req).isEmpty then .next s.idle
  else if s.inp.flag then .next ((s.windowSet s.inp.addr s.inp.value).idle)
  else if s.mgmt.stage ≠ 5 || s.mgmt.fatal then .next s.idle
  else .next ((s.linkWrite s.inp.berth.toNat s.inp.addr s.inp.value).idle)

/-- A command that MCMD has started runs and ends: status 2 before stage 2 (R435). -/
def State.manage (s : State) (code : Nat) (f : State → State × Nat) : Out :=
  if !s.mgmt.busy || s.mgmt.cmd.toNat ≠ code then .next s.idle
  else if s.mgmt.stage.toNat < 2 then .next ((s.ended 2).idle)
  else
    let r := f s
    .next ((r.1.ended r.2).idle)

/-- IDENT (R432, R435): the public key, the chain's length, and chain bytes from the offset at 0x48 (their place, 0x50, is
a DESIGN CHOICE, log entry 36). -/
def execIdent (s : State) : Out :=
  s.manage 1 fun s =>
    let m := s.mgmt
    let off := m.arg 0x48 8
    let m := (m.result 0 (buildFrom Config.identKeyByte 64 0)).result 0x40 (toBytes 8 Config.certLength)
    (s.setMgmt (m.result 0x50 (buildFrom Config.certByte (min 176 (Config.certLength - off)) off)), 0)

/-- ATTEST (R433): a report of a berth, or of the package for 0xF; status 1 for an unused berth (DESIGN CHOICE, log entry 57). -/
def execAttest (s : State) : Out :=
  s.manage 2 fun s =>
    let m := s.mgmt
    let b := m.arg 0x20 1
    if 15 < b || (b < 15 && !(s.berthAt b).used) then (s, 1)
    else
      let bm := if b = 15 then List.replicate 32 0 else s.berthMeasure b
      let count := if b = 15 then 0 else (s.berthAt b).brcnt.toNat
      let body := toBytes 32 (m.arg 0 32) ++ m.fm ++ bm ++ toBytes 8 0x01000FF9
        ++ toBytes 8 (b + 256 * count + 2 ^ 16 * m.stage.toNat + 2 ^ 20 * m.fail.toNat) ++ toBytes 16 0
      (s.setMgmt (m.result 0 (body ++ buildFrom (Config.sm2Byte (sm3 body)) 64 0)), 0)

/-- The resources that a BERTH record names (R435). -/
def recordBerth (m : Mgmt) : Berth :=
  { Berth.reset with
    used := true, clusters := m.arg 0x08 24, groups := m.arg 0x20 8, queues := m.arg 0x28 32, ports := m.arg 0x48 8,
    qm := BitVec.ofNat 8 (m.arg 0x50 1), qp := BitVec.ofNat 8 (m.arg 0x51 1), bcores := m.arg 0x58 8,
    tenders := m.arg 0x60 8 }

/-- A berth holds what R374 and R395 ask of it. -/
def Berth.complete (b : Berth) : Bool :=
  b.clusters ≠ 0 && b.groups ≠ 0 && bitsAt b.bcores 0 16 ≠ 0 && bitsAt b.bcores 16 16 ≠ 0 && b.ports < 4096
    && (buildFrom id 4 0).all fun d =>
      bitsAt b.clusters (48 * d) 48 = 0
        || (bitsAt b.queues (64 * d) 64 ≠ 0 && bitsAt b.bcores (16 * d) 16 ≠ 0 && bitsAt b.tenders (16 * d) 16 ≠ 0)

/-- Two berths name a common resource. -/
def Berth.clash (x y : Berth) : Bool :=
  (x.clusters &&& y.clusters) ≠ 0 || (x.groups &&& y.groups) ≠ 0 || (x.queues &&& y.queues) ≠ 0
    || (x.ports &&& y.ports) ≠ 0 || (x.bcores &&& y.bcores) ≠ 0 || (x.tenders &&& y.tenders) ≠ 0

/-- BERTH (R435): status 2 for a running berth, 1 for a record that is not right, 3 for a resource of another berth; at
stage 5 the berth starts, but not after a fatal error, when only the window works (R441). The link registers stand as the host wrote them (R411). -/
def execBerth (s : State) : Out :=
  s.manage 3 fun s =>
    let m := s.mgmt
    let b := m.arg 0 1
    let x := recordBerth m
    if 15 < b || m.arg 1 7 ≠ 0 || m.arg 0x52 6 ≠ 0 || m.arg 0x68 24 ≠ 0 || !x.complete then (s, 1)
    else if (s.berthAt b).started then (s, 2)
    else if (buildFrom id 16 0).any fun k => k ≠ b && (s.berthAt k).used && x.clash (s.berthAt k) then (s, 3)
    else
      let old := s.berthAt b
      let t := s.putBerth b { x with
        brcnt := old.brcnt, crbase := old.crbase, cqbase := old.cqbase, evbase := old.evbase, cqhead := old.cqhead
        evhead := old.evhead, enable := old.enable }
      (if m.stage = 5 && !m.fatal then t.over fun t => t.startBerth b s.inp.num else t, 0)

/-- KEYSET (R399, R435): a wrapped key pair is installed, and what the slot held before cannot be read any more. -/
def execKeyset (s : State) : Out :=
  s.manage 4 fun s =>
    let m := s.mgmt
    let b := m.arg 0 1
    let k := m.arg 1 1
    let bb := s.berthAt b
    let wrapped := buildFrom (fun i => vget m.args i 0) 240 0x10
    let st := vget bb.keys k .empty
    if 15 < b || 63 < k || !bb.used || st = .active || st = .revoking || !Config.unwrapOk m.spdm wrapped then (s, 1)
    else
      let t := s.scramble (s.keyLines (slotKey b k))
      let mat := buildFrom (Config.unwrapByte m.spdm wrapped) 32 0
      (t.putBerth b { bb with keys := vset bb.keys k .active, keyMat := (k, mat) :: bb.keyMat.filter fun e => e.1 ≠ k }, 0)

/-- Addresses of a 1 GiB granule in every channel group that it can lie in, on one die or striped over four (R2, R395). -/
def granulePlaces (g : Nat) : List Nat :=
  (buildFrom id 4 0).flatMap fun i => [g * 2 ^ 30 + 2048 * i, (g + 1) * 2 ^ 30 - 2048 * (i + 1)]

/-- HDM (R409, R435): the granule, its berth and its slot; status 3 for a granule in another berth's channel groups, or that
another berth was assigned. -/
def execHdm (s : State) : Out :=
  s.manage 5 fun s =>
    let m := s.mgmt
    let g := m.arg 0 8
    let b := m.arg 8 1
    let k := m.arg 9 1
    if 15 < b || 63 < k || !(s.berthAt b).used then (s, 1)
    else if (s.iod.hdm.any fun h => h.1 = g && h.2.1 ≠ b) || (buildFrom id 16 0).any (fun o => o ≠ b && (s.berthAt o).used
        && (granulePlaces g).any ((s.berthAt o).ownsDram s.ms.addrMap)) then (s, 3)
    else if !(s.berthAt b).ownsDram s.ms.addrMap (g * 2 ^ 30) then (s, 1)
    else (s.setIod { s.iod with hdm := (g, b, k) :: s.iod.hdm.filter fun h => h.1 ≠ g }, 0)

/-- STBY (R402, R435): a Bridge core of the berth on C1 becomes its standby; status 3 for another berth's. -/
def execStby (s : State) : Out :=
  s.manage 6 fun s =>
    let m := s.mgmt
    let b := m.arg 0 1
    let id := 16 + m.arg 1 1
    let bb := s.berthAt b
    if 15 < b || 31 < id || !bb.used then (s, 1)
    else if (buildFrom (fun o => o) 16 0).any fun o => o ≠ b && (s.berthAt o).used && bitAt (s.berthAt o).bcores id then (s, 3)
    else if !bitAt bb.bcores id || bb.lead = id && bb.started then (s, 1)
    else
      ((s.putBerth b { bb with stby := some id }).mapBcores fun c =>
        if c.berth.toNat = b then { c with stby := c.id = id } else c, 0)

/-- RELEASE (R398, R435): the berth is reset, then its resources are free. -/
def execMgmtRelease (s : State) : Out :=
  s.manage 7 fun s =>
    let b := s.mgmt.arg 0 1
    let bb := s.berthAt b
    if 15 < b || !bb.used then (s, 1)
    else
      (s.over fun s =>
        let s := s.resetBerth b
        let s := s.setPop { s.pop with bcores := s.pop.bcores.filter fun x => !bitAt bb.bcores x.bcore.id }
        let s := s.setIod { s.iod with hdm := s.iod.hdm.filter fun h => h.2.1 ≠ b }
        s.putBerth b { Berth.reset with brcnt := (s.berthAt b).brcnt }, 0)

/-- An SPDM message of the host reaches the controller, from stage 2 on (R405, R427, R435): what it establishes is outside the
manual. -/
def execSpdmMessage (s : State) : Out :=
  .next ((if s.mgmt.stage.toNat < 2 then s else s.setMgmt { s.mgmt with spdm := s.mgmt.spdm ++ s.inp.data }).idle)

/-! Soft errors, scrubbing, machine checks (R436 to R441). -/

/-- A sector of device DRAM poisoned (R255, R439): its line is general. -/
def State.poisonDram (s : State) (pa : Nat) : State :=
  s.setMs { s.ms with
    poison := insertNat (pa / 16) s.ms.poison
    swatch := s.ms.swatch.filter fun e => e.1 ≠ pa / 128 }

/-- Where unit `n` of a kind stands (R436, R437): its instance, its die, and whether that is the IOD. Cores count from
0 over a die's 384, of which INST shows the low 8 bits, and die-to-die links over the three of a die (R1; log entry 70). -/
def unitPlace (unit n : Nat) : Nat × Nat × Bool :=
  if unit = 2 then (n % 48, n / 48 % 4, false)
  else if unit ≤ 8 && unit ≠ 1 then (n % 384 % 256, n / 384 % 4, false)
  else if unit = 12 then (n % 3, n / 3 % 4, false)
  else if unit ≤ 11 then (n % 16, n / 16 % 4, false)
  else (n % 256, 0, true)

/-- A report of unit number `n` of a kind (R436), with a context tag or a berth when one is given. -/
def State.unitReport (s : State) (unit n cls synd : Nat) (tag : Option (BitVec 16)) (berth : Option Nat) : State :=
  let p := unitPlace unit n
  let b := berth <|> tag.map tagBerth
  s.report (reportWord unit p.1 p.2.1 p.2.2 cls synd (b.getD 0) b.isSome false)
    0 (BitVec.ofNat 64 ((tag.getD 0).toNat + 2 ^ 32 * max 1 s.inp.mtag.toNat)) tag b

/-- An uncorrectable error in a register file, the vector or mask file (UNIT 4) or the scalar one (7), R439: a running strand
traps with cause 0x04 and KIND 3 to the Bridge; another does so when it next runs. -/
def State.registerError (s : State) (tag : BitVec 16) (unit : Nat) : State :=
  s.inCtx tag fun s =>
    if s.strand.status = .running then (s.setStrand { s.strand with rfmet := some unit }).takeTrap (Trap.leading 3 0 0 none)
    else s.setStrand { s.strand with rfpois := some unit }

/-- A bank marked: it is poisoned and general (R286). -/
def Bank.mark (b : Bank) : Bank := { b with poison := true, zero := false }

/-- One accumulator bank of a core marked (R286, R439): the input's queue field gives the accumulator in bit 0 and the bank
in bit 1. -/
def Core.markBank (k : Core) (which : Nat) : Core :=
  let z : BitVec 1 := BitVec.ofNat 1 which
  let a := k.acc z
  k.withAcc z (if which / 2 % 2 = 0 then { a with work := a.work.mark } else { a with vis := a.vis.mark })

/-- The core that a context runs on, or last ran on. -/
def State.coreOf (s : State) (tag : BitVec 16) : Nat :=
  ((s.allCtxs.find? fun c => c.strand.tag = tag).map (·.strand.core)).getD 0

/-- A machine check of Bridge core `id` (R441). -/
def State.checkBridge (s : State) (id : Nat) : State :=
  s.over fun s =>
    match s.pop.bcores.find? fun x => x.bcore.id = id with
    | some x => s.machineCheckBridge x.bcore.id x.bcore.berth.toNat x.bcore.lead
    | none => s

/-- A machine check of tender `id` (R441): it stops, and so does the command that it serves (log entry 61). -/
def State.checkTender (s : State) (id : Nat) : State :=
  (s.putTender { s.pop.tenderAt id with stopped := true }).unitReport 10 id 2 0 none
    ((buildFrom (fun b => b) 16 0).find? fun b => bitAt (s.berthAt b).tenders id)

/-- An uncorrectable error in the memory pool of core `n` at a byte of its 16 ways (R221, R439): a scratchpad sector
is poisoned; of the cache ways a clean sector is refetched, and with `flag2` a dirty one is poisoned at its home, the
physical address that `value` gives. -/
def State.poolError (s : State) (n a : Nat) : State :=
  let k := if !s.priv && s.strand.status ≠ .absent && s.core.id = n then s.core else s.pop.coreAt n
  if a < k.pspl.toNat * 16384 then
    (s.mapCores fun c => if c.id = n then { c with poolP := insertNat (a / 16) c.poolP } else c).unitReport 3 n 1 2 none none
  else if s.inp.flag2 then (s.poisonDram s.inp.value.toNat).unitReport 3 n 1 2 none none
  else s.unitReport 3 n 0 2 none none

/-- A parity error in the caches of translations that a cluster holds with its walker, number `n` from 0, or a Bridge core, 192
and its number (R3, R439): the leaf or the table entry in the place given is dropped, and the next walk finds it anew. -/
def State.unitParity (s : State) (n : Nat) (walk : Bool) (at_ : Nat) : State :=
  let s := s.setMs { s.ms with seen := { s.ms.seen with
    units := s.ms.seen.units.map fun u =>
      if u.id ≠ n then u
      else if walk then { u with walks := u.walks.eraseIdx at_ } else { u with tlb := u.tlb.eraseIdx at_ } } }
  let p := if n < 192 then (n % 48, n / 48 % 4) else ((n - 192) % 16, (n - 192) / 16 % 4)
  s.report (reportWord 8 p.1 p.2 false 0 3 0 false false) 0 (BitVec.ofNat 64 (2 ^ 32 * max 1 s.inp.mtag.toNat)) none none

/-- A parity error in a core's instruction cache, or its TLB (R439): the entry in the place given is dropped, which in the
instruction cache is a line. -/
def Core.parity (k : Core) (code : Bool) (at_ : Nat) : Core :=
  if code then
    match k.icache[at_]? with
    | some e => { k with icache := k.icache.filter fun x => x.1 / 64 ≠ e.1 / 64 }
    | none => k
  else { k with tlb := k.tlb.eraseIdx at_ }

/-- An uncorrectable error by the kind of storage, the input's UNIT, in unit number `job` or in what a context holds (R437,
R439): of the TLBs and walker caches, the core's or with `flag2` those of `unitParity`. An error of a die-to-die link loses it,
of a scale-up port stops the port (R371, R441); of a home agent, a host link or power and cooling R439 gives no outcome: it is
reported with CLASS 1 and changes nothing else (DESIGN CHOICE, log entry 85). -/
def State.softError (s : State) : State :=
  let n := s.inp.job
  let tag := s.inp.tag
  match s.inp.num with
  | 1 => (s.poisonDram s.inp.addr).dramReport none 1 2 s.inp.addr 1 none
  | 2 =>
    if s.inp.flag2 then (s.poisonDram s.inp.addr).dramReport (some n) 1 2 s.inp.addr 1 none else s.unitReport 2 n 0 2 none none
  | 3 => s.poolError n (s.inp.addr % 262144)
  | 4 => (s.registerError tag 4).unitReport 4 (s.coreOf tag) 1 2 (some tag) none
  | 5 => (s.mapCores fun k => if k.id = n then k.markBank s.inp.queue.toNat else k).unitReport 5 n 1 2 none none
  | 6 => (s.mapCtxs fun c => if c.strand.tag = tag then { c with strand := { c.strand with gpois := true } } else c).unitReport
           6 (s.coreOf tag) 1 2 (some tag) none
  | 7 => (s.registerError tag 7).unitReport 7 (s.coreOf tag) 1 2 (some tag) none
  | 8 =>
    if s.inp.flag2 then s.unitParity n (s.inp.value ≠ 0) s.inp.addr
    else (s.mapCores fun k => if k.id = n then k.parity (s.inp.value ≠ 0) s.inp.addr else k).unitReport 8 n 0 3 none none
  | 9 => s.checkBridge n
  | 10 => s.checkTender n
  | 12 => s.fatalError 12 (n % 3) (n / 3 % 4) 2 false
  | 14 =>
    match (buildFrom id 16 0).find? fun b => bitAt (s.berthAt b).ports n with
    | some b => (s.unitReport 14 n 2 2 none (some b)).failPort b n
    | none => s.unitReport 14 n 2 2 none none
  | 15 => (s.unitReport 15 0 2 2 none none).fatalError 15 0 0 2 true
  | u => s.unitReport u n 1 2 none none

/-- A soft error (R439): corrected without effect, or with the input flag uncorrectable. A Bridge core, a tender and the
controller report a machine check instead. -/
def execErrorDetected (s : State) : Out :=
  .next ((if s.inp.flag then s.softError else s.unitReport s.inp.num s.inp.job 0 1 none none).idle)

/-- A scrub of one line (R440): with the input flag an uncorrectable sector is poisoned and reported; with `flag2` a
corrected symbol is reported; otherwise nothing happens. -/
def execScrub (s : State) : Out :=
  let pa := s.inp.addr
  if s.inp.flag then .next (((s.poisonDram pa).dramReport none 1 2 pa 1 none).idle)
  else if s.inp.flag2 then .next ((s.dramReport none 0 1 pa (max 1 s.inp.mtag.toNat) none).idle)
  else .next s.idle

/-- A machine check (R375, R441) of the Bridge core that the input numbers, or with the input flag of the tender. -/
def execMachineCheck (s : State) : Out :=
  .next ((if s.inp.flag then s.checkTender (s.inp.num % 64) else s.checkBridge s.inp.num).idle)

/-! Power and cooling (R442). -/

/-- The input's module power in bits 15:0 of `num` and hottest junction in `addr`. -/
def State.measured (s : State) (thr : Bool) : State :=
  s.setMgmt { s.mgmt with
    mpwr := keepBits s.mgmt.mpwr 0 16 + BitVec.ofNat 64 (s.inp.num % 65536 * 65536)
    mtemp := BitVec.ofNat 64 (s.inp.addr % 256 + (if thr then 256 else 0)) }

/-- The measured power is above CAP, or the junction is at 105 °C or more. -/
def State.tooHot (s : State) : Bool := bitsAt s.mgmt.mpwr.toNat 0 16 < s.inp.num % 65536 || 105 ≤ s.inp.addr % 256

/-- Power above CAP, or a junction at 105 °C: THR is set (R442), timing only; a junction at 115 °C is fatal. -/
def execThrottle (s : State) : Out :=
  .next ((if 115 ≤ s.inp.addr % 256 then (s.measured true).fatalError 16 0 0 6 true
          else if s.tooHot then s.measured true else s).idle)

/-- Power is back at CAP and the junction below 105 °C: THR clears (R442). -/
def execThrottleEnd (s : State) : Out := .next ((if s.tooHot then s else s.measured false).idle)

end Sys2Proof.Machine
end

