-- ==== Sys2Proof/Machine/Reduce.lean ====
section
/-!
DEFINITION. Reductions, scans, segmented reductions and the attention chain, majors 0x1C and 0x31 (R196 to R216).
-/
namespace Sys2Proof.Machine

/-! Sums on the lane tree and in order (R200 to R204). -/

/-- A value present at a node of the lane tree with the exceptions raised below it; `made` tells a default NaN that an
operation made without a NaN operand. -/
structure Part where
  x    : Num
  fl   : Flags
  made : Bool
  deriving DecidableEq, Repr

/-- A leaf's value. -/
def Part.leaf (x : Num) : Part := { x := x, fl := 0, made := false }

/-- The sum of two present values, rounded once. A NaN sum is the first operand's that is a leaf's or the carry's, before one
that an operation made (R164, R204). -/
def sumParts (f : FF) (rm : Rnd) (a b : Part) : Part :=
  let r := fpAdd f rm a.x b.x
  let fl := r.fl ||| (a.fl ||| b.fl)
  if a.x.isNan && a.made && b.x.isNan && !b.made then
    { x := decodeNum f (nanOr f [b.x] 0).code, fl := fl, made := false }
  else
    { x := decodeNum f r.code, fl := fl, made := if a.x.isNan then a.made else if b.x.isNan then b.made else true }

/-- Two children of a node: their sum rounded once, the present one, or absent (R202). -/
def addParts (f : FF) (rm : Rnd) (a b : Option Part) : Option Part :=
  match a, b with
  | some x, some y => some (sumParts f rm x y)
  | some x, none => some x
  | none, y => y

/-- A block's value times its factor, rounded once (R203). The node that spans a block has rounded its sum before:
R203 says that the node rounds once, and this reading takes it of the product (DEDUCED, log entry 78). Under code 255
every leaf has read as the default NaN (R165), which passes up. -/
def scalePart (f : FF) (rm : Rnd) (code : Nat) (p : Option Part) : Option Part :=
  p.map fun x =>
    if x.x.isNan then x
    else
      let r := roundNum f rm (scaleBy code x.x)
      { x := decodeNum f r.code, fl := r.fl ||| x.fl, made := false }

/-- The node at a level over positions [base × 2^level, (base + 1) × 2^level), with leaves present below j; a node of
`blk` positions, unless 0, is scaled by `scale` of its block number (R202, R203). -/
def laneTree (f : FF) (rm : Rnd) (leaf : Nat → Option Part) (blk : Nat) (scale : Nat → Nat) (j : Nat) :
    Nat → Nat → Option Part
  | 0, base => if base < j then leaf base else none
  | l + 1, base =>
    if base * 2 ^ (l + 1) < j then
      let v := addParts f rm (laneTree f rm leaf blk scale j l (2 * base)) (laneTree f rm leaf blk scale j l (2 * base + 1))
      if blk = 2 ^ (l + 1) then scalePart f rm (scale base) v else v
    else none

/-- The sum of `m` leaves from `i` in index order, from what stands (R202). -/
def orderedSum (f : FF) (rm : Rnd) (leaf : Nat → Option Part) : Nat → Nat → Option Part → Option Part
  | 0, _, acc => acc
  | m + 1, i, acc => orderedSum f rm leaf m (i + 1) (addParts f rm acc (leaf i))

/-- Block sums in order, each scaled and added to what stands (R203). -/
def orderedBlocks (f : FF) (rm : Rnd) (leaf : Nat → Option Part) (blk : Nat) (scale : Nat → Nat) (j : Nat) :
    Nat → Nat → Option Part → Option Part
  | 0, _, acc => acc
  | m + 1, b, acc =>
    let v := orderedSum f rm leaf (min blk (j - b * blk)) (b * blk) none
    orderedBlocks f rm leaf blk scale j m (b + 1) (addParts f rm acc (scalePart f rm (scale b) v))

/-- The carry plus a total (R202): the carry itself when nothing is present. -/
def plusCarry (f : FF) (rm : Rnd) (carry : Nat) (total : Option Part) : FRes :=
  match total with
  | none => .pure carry
  | some p =>
    let r := fpAdd f rm (decodeNum f carry) p.x
    { code := r.code, fl := r.fl ||| p.fl }

/-- Integer leaves summed with the carry modulo 2^64 (R200). -/
def intSum (leaf : Nat → Int) (act : Nat → Bool) : Nat → Nat → Int → Int
  | 0, _, acc => acc
  | m + 1, i, acc => intSum leaf act m (i + 1) (if act i then acc + leaf i else acc)

/-- The accumulation width and format of a sum (R200). -/
def sumWidth (t : VType) : Nat := if (t.isInt && t.blk = 0) || t.fmt = 0 then 64 else 32
def sumFF (t : VType) : FF := if t.fmt = 0 then ffF64 else ffF32

/-- An ordered sum that began with the carry: the carry itself when nothing is present. -/
def orderedRes (f : FF) (rm : Rnd) (carry : Nat) (any : Bool) (p : Option Part) : FRes :=
  match p with
  | some x => if any then { code := (roundNum f rm x.x).code, fl := x.fl } else .pure carry
  | none => .pure carry

/-- P(j) of vrsum, or of vrsum.o in index order; the scale group starts at register `scaleAt` (R201 to R203). -/
def State.sumPrefix (s : State) (ordered : Bool) (act : Nat → Bool) (a : BitVec 5) (carry scaleAt j : Nat) : FRes :=
  let t := s.ty
  let rm := fcsRm s.strand.vfcs
  if t.isInt && t.blk = 0 then
    let leaf := fun i => if t.isI then signedOf t.w (s.el a i) else ((s.el a i : Nat) : Int)
    .pure (wrapTo 64 (intSum leaf act j 0 (carry : Int)))
  else
    let f := sumFF t
    let scale := fun b => s.strand.elem scaleAt 8 b
    let leaf := fun i =>
      if act i then
        some (Part.leaf (if t.blk ≠ 0 && scale (i / t.blk) = 255 then .nan false true (2 ^ 51) else s.paddedValue i (s.el a i)))
      else none
    let any := countBits act j 0 ≠ 0
    let start : Option Part := some (Part.leaf (decodeNum f carry))
    if !ordered then plusCarry f rm carry (laneTree f rm leaf t.blk scale j (Nat.log2 t.vmax) 0)
    else if t.blk = 0 then orderedRes f rm carry any (orderedSum f rm leaf j 0 start)
    else orderedRes f rm carry any (orderedBlocks f rm leaf t.blk scale j (ceilDiv j t.blk) 0 start)

/-- The stop of a reduction: the first element whose prefix raises an enabled exception (R201). -/
def State.prefixStop (s : State) (n : Nat) (p : Nat → FRes) : Option VStop :=
  let en := fcsEn s.strand.vfcs
  if en = 0 then none
  else
    match firstIdx (fun i => ((p (i + 1)).fl &&& en) ≠ 0) n 0 with
    | some i => some (VStop.plain i 4 ((p (i + 1)).fl &&& en).toNat)
    | none => none

/-- A reduction: element 0 of vd receives P(MG) at width `w` (R199 to R201). `p` gives P(j) from the active bits. -/
def State.reduce (s : State) (i : Instr) (legal : Bool) (m : BitVec 3) (d a b : BitVec 5) (w : Nat) (extra : List Grp)
    (p : (Nat → Bool) → Nat → FRes) : Out :=
  let dg : Grp := { start := d.toNat, size := 1 }
  let cg : Grp := { start := b.toNat, size := 1 }
  let ag := s.grp a
  s.vector i (legal && ag.disjoint dg && ag.disjoint cg
      && extra.all fun x => x.disjoint ag && x.disjoint dg && x.disjoint cg)
    { loanable := true, field := m.toNat, dest := some dg, others := ag :: cg :: extra, regs := [] }
    fun loan copy =>
      let n := s.n
      if n = 0 then s.empty
      else
        let act := s.strand.active m.toNat loan
        s.finish n .accum (s.prefixStop n (p act)) fun k =>
          let r := p act k
          (s.writeSingles copy d.toNat w (fun e => if e = 0 then some r.code else none) 1).orFlags r.fl

/-- The scale group of a sum under a block length (R165, R203): by R165's formula from the G of the strip's setvl, no register
at all when that is 0 (DEDUCED, log entry 78). -/
def State.sumScales (s : State) (b : BitVec 5) : List Grp :=
  if s.ty.blk = 0 then []
  else [{ start := (b.toNat + 1) % 32, size := ceilDiv s.strand.grant (2048 * s.ty.blk) }]

/-- vrsum and vrsum.o (R199 to R204). -/
def State.sum (s : State) (i : Instr) (ordered : Bool) (m : BitVec 3) (d a b : BitVec 5) : Out :=
  let w := sumWidth s.ty
  s.reduce i true m d a b w (s.sumScales b) fun act j =>
    s.sumPrefix ordered act a (s.strand.elem b.toNat w 0) ((b.toNat + 1) % 32) j

/-- vrsum: addition on the lane tree (R199, R202). -/
def execVrsum (m : BitVec 3) (d a b : BitVec 5) (s : State) : Out := s.sum (.vrsum m d a b) false m d a b

/-- vrsum.o: addition in index order (R199, R202). -/
def execVrsumO (m : BitVec 3) (d a b : BitVec 5) (s : State) : Out := s.sum (.vrsumO m d a b) true m d a b

/-- A fold of the active elements of [i, i + m) from a code, with its exceptions. -/
def foldCodes (step : Nat → Nat → FRes) (x : Nat → Nat) (act : Nat → Bool) : Nat → Nat → FRes → FRes
  | 0, _, acc => acc
  | m + 1, i, acc =>
    foldCodes step x act m (i + 1)
      (if act i then { code := (step acc.code (x i)).code, fl := acc.fl ||| (step acc.code (x i)).fl } else acc)

/-- The combining step of vrmax, vrmin and the scans' maxima and minima (R205). -/
def extremeStep (t : VType) (mx : Bool) (a b : Nat) : FRes :=
  if t.isFloat then fpMinMax (ffOf t.fmt) mx (decodeNum (ffOf t.fmt) a) (decodeNum (ffOf t.fmt) b)
  else .pure (extremeCode t.isI mx t.w a b)

/-- vrmax and vrmin (R199, R205). -/
def State.extreme (s : State) (i : Instr) (mx : Bool) (m : BitVec 3) (d a b : BitVec 5) : Out :=
  let t := s.ty
  s.reduce i t.arith m d a b t.w [] fun act j =>
    foldCodes (extremeStep t mx) (s.el a) act j 0 (.pure (s.strand.elem b.toNat t.w 0))

/-- vrmax (R199). -/
def execVrmax (m : BitVec 3) (d a b : BitVec 5) (s : State) : Out := s.extreme (.vrmax m d a b) true m d a b

/-- vrmin (R199). -/
def execVrmin (m : BitVec 3) (d a b : BitVec 5) (s : State) : Out := s.extreme (.vrmin m d a b) false m d a b

/-- vrbit (R199, R205). -/
def State.bits (s : State) (i : Instr) (f : Nat → Nat → Nat) (m : BitVec 3) (d a b : BitVec 5) : Out :=
  s.reduce i s.ty.isInt8 m d a b s.ty.w [] fun act j =>
    foldCodes (fun x y => .pure (f x y)) (s.el a) act j 0 (.pure (s.strand.elem b.toNat s.ty.w 0))

/-- vrbit.and (R199). -/
def execVrbitAnd (m : BitVec 3) (d a b : BitVec 5) (s : State) : Out := s.bits (.vrbitAnd m d a b) (· &&& ·) m d a b

/-- vrbit.or (R199). -/
def execVrbitOr (m : BitVec 3) (d a b : BitVec 5) (s : State) : Out := s.bits (.vrbitOr m d a b) (· ||| ·) m d a b

/-- vrbit.xor (R199). -/
def execVrbitXor (m : BitVec 3) (d a b : BitVec 5) (s : State) : Out := s.bits (.vrbitXor m d a b) (· ^^^ ·) m d a b

/-! Scans (R206). -/

/-- The first element whose step raises an enabled exception, with those exceptions (R206). -/
def stepStop (en : Flags) (step : Nat → Nat → FRes) (x : Nat → Nat) (act : Nat → Bool) : Nat → Nat → Nat → Option VStop
  | 0, _, _ => none
  | m + 1, i, acc =>
    if act i then
      let r := step acc (x i)
      if (r.fl &&& en) ≠ 0 then some (VStop.plain i 4 (r.fl &&& en).toNat)
      else stepStop en step x act m (i + 1) r.code
    else stepStop en step x act m (i + 1) acc

/-- The running values after each of `m` elements from `i`. -/
def running (step : Nat → Nat → FRes) (x : Nat → Nat) (act : Nat → Bool) : Nat → Nat → Nat → List Nat
  | 0, _, _ => []
  | m + 1, i, acc =>
    let acc' := if act i then (step acc (x i)).code else acc
    acc' :: running step x act m (i + 1) acc'

/-- A scan: elements and the carry in element 0 of vb (R206); a copy loan is refused, since it writes the carry (R65). -/
def State.scan (s : State) (i : Instr) (step : Nat → Nat → FRes) (m : BitVec 3) (d a b : BitVec 5) : Out :=
  let t := s.ty
  let dg := s.grp d
  let ag := s.grp a
  let cg : Grp := { start := b.toNat, size := 1 }
  s.vector i (t.arith && dg.sameOr ag && cg.disjoint dg && cg.disjoint ag)
    { loanable := true, field := m.toNat, dest := none, others := [], regs := [] }
    fun loan _ =>
      let n := s.n
      if n = 0 then s.empty
      else
        let act := s.strand.active m.toNat loan
        let c0 := s.strand.elem b.toNat t.w 0
        s.finish n .accum (stepStop (fcsEn s.strand.vfcs) step (s.el a) act n 0 c0) fun k =>
          let vals := running step (s.el a) act n 0 c0
          let r := foldCodes step (s.el a) act k 0 (.pure c0)
          ((s.writeGroup 10 (s.dest dg t.w n k act fun e => vals.getD e 0)).writeElems b.toNat t.w
            (fun e => if e = 0 then some r.code else none) 1).orFlags r.fl

/-- The combining step of vscan.add (R206). -/
def addStep (t : VType) (rm : Rnd) (a b : Nat) : FRes :=
  if t.isFloat then fpAdd (ffOf t.fmt) rm (decodeNum (ffOf t.fmt) a) (decodeNum (ffOf t.fmt) b) else .pure (addCode t.w a b)

/-- vscan.add (R206). -/
def execVscanAdd (m : BitVec 3) (d a b : BitVec 5) (s : State) : Out :=
  s.scan (.vscanAdd m d a b) (addStep s.ty (fcsRm s.strand.vfcs)) m d a b

/-- vscan.max (R206). -/
def execVscanMax (m : BitVec 3) (d a b : BitVec 5) (s : State) : Out :=
  s.scan (.vscanMax m d a b) (extremeStep s.ty true) m d a b

/-- vscan.min (R206). -/
def execVscanMin (m : BitVec 3) (d a b : BitVec 5) (s : State) : Out :=
  s.scan (.vscanMin m d a b) (extremeStep s.ty false) m d a b

/-! Segmented maxima and sums (R207). -/

/-- What vsegr has folded: the elements touched with their maxima and sums, and the exceptions raised. -/
structure Segs where
  mx : List (Nat × Nat)
  sm : List (Nat × Nat)
  fl : Flags
  deriving DecidableEq, Repr

/-- An element's value: the latest written, or the register's. -/
def segVal (l : List (Nat × Nat)) (old : Nat → Nat) (h : Nat) : Nat :=
  match l.find? (fun e => e.1 = h) with
  | some e => e.2
  | none => old h

/-- The fold of R207 over `m` elements from `i`; under enables `en` it stops at the first that raises one. -/
def segFold (f : FF) (rm : Rnd) (en : Flags) (seg x : Nat → Nat) (act : Nat → Bool) (omx osm : Nat → Nat) :
    Nat → Nat → Segs → Segs × Option VStop
  | 0, _, acc => (acc, none)
  | m + 1, i, acc =>
    if act i then
      let h := seg i
      let v := decodeNum f (x i)
      let a := fpMinMax f true (decodeNum f (segVal acc.mx omx h)) v
      let b := fpAdd f rm (decodeNum f (segVal acc.sm osm h)) v
      let fl := a.fl ||| b.fl
      if (fl &&& en) ≠ 0 then (acc, some (VStop.plain i 4 (fl &&& en).toNat))
      else segFold f rm en seg x act omx osm m (i + 1)
        { mx := (h, a.code) :: acc.mx, sm := (h, b.code) :: acc.sm, fl := acc.fl ||| fl }
    else segFold f rm en seg x act omx osm m (i + 1) acc

/-- vsegr (R207); a copy loan is refused, since it writes a pair (R65). -/
def execVsegr (m : BitVec 3) (d a b : BitVec 5) (s : State) : Out :=
  let t := s.ty
  let dm := d.toNat
  let ds := (d.toNat + 1) % 32
  let pair : Grp := { start := dm, size := 2 }
  s.vector (.vsegr m d a b) (t.isFloat && pair.disjoint (s.grp a) && pair.disjoint (s.grp b))
    { loanable := true, field := m.toNat, dest := none, others := [], regs := [] }
    fun loan _ =>
      let n := s.n
      if n = 0 then s.empty
      else
        let act := s.strand.active m.toNat loan
        let fold := fun (en : Flags) (k : Nat) =>
          segFold (ffOf t.fmt) (fcsRm s.strand.vfcs) en (fun i => s.el b i % perReg t.w) (s.el a) act
            (s.strand.elem dm t.w) (s.strand.elem ds t.w) k 0 { mx := [], sm := [], fl := 0 }
        s.finish n .accum (fold (fcsEn s.strand.vfcs) n).2 fun k =>
          let r := (fold 0 k).1
          let put := fun (l : List (Nat × Nat)) (e : Nat) => (l.find? fun x => x.1 = e).map (·.2)
          let top := (r.mx.map fun e => e.1 + 1).foldl max 0
          ((s.writeElems dm t.w (put r.mx) top).writeElems ds t.w (put r.sm) top).orFlags r.fl

/-! The attention chain (R212 to R216). -/

/-- D (R212). -/
def State.segLen (s : State) : Nat := 2 ^ s.strand.ach.toNat

/-- The chain accepts f32 and bf16, and at most 512 segments (R213). -/
def State.chainOk (s : State) : Bool := (s.ty.fmt = 1 || s.ty.fmt = 3) && s.ty.vmax / s.segLen ≤ 512

/-- The first segment of [j, j + m) whose results raise an enabled exception stops at its first element (R214). -/
def segStop (en : Flags) (d : Nat) (act : Nat → Bool) (fl : Nat → Flags) : Nat → Nat → Option VStop
  | 0, _ => none
  | m + 1, j =>
    if act j && (fl j &&& en) ≠ 0 then some (VStop.plain (j * d) 4 (fl j &&& en).toNat)
    else segStop en d act fl m (j + 1)

/-- A chain instruction of segments of D would raise the granule of a strip that was cut within one of its segments: it had
not issued when the pre-emption was requested, so it is at the halt point (R43, R46, R213). -/
def State.cutInside (s : State) (dl : Nat) : Bool :=
  s.behindCut && (s.strand.cutReq.getD 0) % max s.strand.gran dl ≠ 0

/-- The issue and the counts of a chain instruction (R213): the granule takes its D, an effective length that is no
multiple of D stops with kind resource after its whole segments. `stop` gives the arithmetic stop over m segments,
`commit` performs the first segments. -/
def State.chain (s : State) (i : Instr) (cuts : Cuts) (legal : Bool) (m : BitVec 3) (d : BitVec 5) (others : List Grp)
    (stop : (Nat → Bool) → Nat → Option VStop) (commit : State → (Nat → Bool) → Option Nat → Nat → State) : Out :=
  s.vector i (s.chainOk && legal)
    { loanable := true, field := m.toNat, dest := some { start := d.toNat, size := 1 }, others := others, regs := [] }
    fun loan copy =>
      let n := s.n
      if n = 0 then s.empty
      else
        let dl := s.segLen
        if s.cutInside dl then .next s.idle.haltStrand
        else
        let act := s.strand.active m.toNat loan
        let t := s.setStrand { s.strand with gran := max s.strand.gran dl }
        let whole := n / dl
        let st :=
          match stop act whole with
          | some v => some v
          | none => if n % dl = 0 then none else some (VStop.plain (whole * dl) 6 0)
        t.finish n cuts st fun k => commit t act copy (k / dl)

/-- A result register of a chain instruction: f32 element j for segment j (R214, R215). -/
def State.segDest (s : State) (d : BitVec 5) (k : Nat) (act : Nat → Bool) (res : Nat → FRes) : Dest :=
  s.dest { start := d.toNat, size := 1 } 32 (s.n / s.segLen) k act fun j => (res j).code

/-- The exact product of two values; infinity times zero raises invalid (R164, R214). R214 states no order of NaN
operands: the product takes K before q, and the tree the lower leaf (DEDUCED, log entry 79). -/
def exactProduct (a b : Num) : Part :=
  if a.isNan || b.isNan then
    { x := if a.isNan then (match a with | .nan n _ f => .nan n true f | y => y)
           else (match b with | .nan n _ f => .nan n true f | y => y)
      fl := snanFlag [a, b], made := false }
  else if infZero a b then { x := .nan false true (2 ^ 51), fl := fInvalid, made := true }
  else Part.leaf (mulNum a b)

/-- A score (R214): the lane tree of D products, a lone product rounded once. -/
def State.score (s : State) (a b : BitVec 5) (j : Nat) : FRes :=
  let t := s.ty
  let d := s.segLen
  let rm := fcsRm s.strand.vfcs
  let leaf := fun c => some (exactProduct (s.strand.value t.fmt (s.el a (j * d + c))) (s.strand.value t.fmt (s.strand.elem b.toNat t.w c)))
  match laneTree ffF32 rm leaf 0 (fun _ => 0) d s.strand.ach.toNat 0 with
  | some p =>
    let r := roundNum ffF32 rm p.x
    { code := r.code, fl := r.fl ||| p.fl }
  | none => .pure 0

/-- vdotseg (R214). -/
def execVdotseg (m : BitVec 3) (d a b : BitVec 5) (s : State) : Out :=
  let dg : Grp := { start := d.toNat, size := 1 }
  let qg : Grp := { start := b.toNat, size := 1 }
  s.chain (.vdotseg m d a b) .elems (dg.disjoint (s.grp a) && dg.disjoint qg) m d [s.grp a, qg]
    (fun act w => segStop (fcsEn s.strand.vfcs) s.segLen act (fun j => (s.score a b j).fl) w 0)
    fun t act copy k =>
      (t.writeDest 10 copy (t.segDest d k act (s.score a b))).orFlags (activeFlags act (fun j => (s.score a b j).fl) k)

/-- A weight (R215): vexp2 of c × score − m, both steps' flags together. R215 states no order of NaN operands: the model takes
c, score, m (DEDUCED, log entry 79). The product of an infinity and a zero raises invalid beside a quiet NaN m too, as no rule
says of vexpm (DESIGN CHOICE, log entry 97). -/
def State.weight (s : State) (a b : BitVec 5) (j : Nat) : FRes :=
  let f := fun (v : BitVec 5) e => decodeNum ffF32 (s.strand.elem v.toNat 32 e)
  let t := fpFma ffF32 (fcsRm s.strand.vfcs) false true (f b 1) (f a j) (f b 0)
  let p := fpExp2 ffF32 (decodeNum ffF32 t.code)
  { code := p.code, fl := t.fl ||| p.fl }

/-- vexpm (R215). -/
def execVexpm (m : BitVec 3) (d a b : BitVec 5) (s : State) : Out :=
  let dg : Grp := { start := d.toNat, size := 1 }
  let ag : Grp := { start := a.toNat, size := 1 }
  let bg : Grp := { start := b.toNat, size := 1 }
  s.chain (.vexpm m d a b) .elems (bg.disjoint dg && bg.disjoint ag) m d [ag, bg]
    (fun act w => segStop (fcsEn s.strand.vfcs) s.segLen act (fun j => (s.weight a b j).fl) w 0)
    fun t act copy k =>
      (t.writeDest 10 copy (t.segDest d k act (s.weight a b))).orFlags (activeFlags act (fun j => (s.weight a b j).fl) k)

/-- o + w × v, rounded once to f32; a NaN is the first of o, w, v (DEDUCED, log entry 18). -/
def macc (rm : Rnd) (o w v : Num) : FRes :=
  if o.isNan || w.isNan || v.isNan then nanOr ffF32 [o, w, v] (if infZero w v then fInvalid else 0)
  else fpFma ffF32 rm false false w v o

/-- What vaccw has folded: o[0] to o[D−1] and L as f32 codes, the exceptions, and whether a segment was folded. -/
structure AccW where
  o   : List Nat
  l   : Nat
  fl  : Flags
  any : Bool
  deriving DecidableEq, Repr

/-- The codes of a list of results with the union of their flags. -/
def resCodes (rs : List FRes) : List Nat × Flags := (rs.map (·.code), rs.foldl (fun f r => f ||| r.fl) 0)

/-- The fold of R216 over `m` segments from `j`; under enables `en` it stops before the first that raises one. -/
def accFold (rm : Rnd) (en : Flags) (d : Nat) (w v : Nat → Num) (act : Nat → Bool) : Nat → Nat → AccW → AccW × Option VStop
  | 0, _, acc => (acc, none)
  | m + 1, j, acc =>
    if act j then
      let rs := buildFrom (fun c => macc rm (decodeNum ffF32 (acc.o.getD c 0)) (w j) (v (j * d + c))) d 0
      let r := resCodes rs
      let l := fpAdd ffF32 rm (decodeNum ffF32 acc.l) (w j)
      let fl := r.2 ||| l.fl
      if (fl &&& en) ≠ 0 then (acc, some (VStop.plain (j * d) 4 (fl &&& en).toNat))
      else accFold rm en d w v act m (j + 1) { o := r.1, l := l.code, fl := acc.fl ||| fl, any := true }
    else accFold rm en d w v act m (j + 1) acc

/-- vaccw (R216). -/
def execVaccw (m : BitVec 3) (d a b : BitVec 5) (s : State) : Out :=
  let dg : Grp := { start := d.toNat, size := 1 }
  let bg : Grp := { start := b.toNat, size := 1 }
  let ag := s.grp a
  let dl := s.segLen
  let start : AccW := { o := buildFrom (s.strand.elem d.toNat 32) dl 0, l := s.strand.elem d.toNat 32 dl, fl := 0, any := false }
  let fold := fun (en : Flags) (act : Nat → Bool) (k : Nat) =>
    accFold (fcsRm s.strand.vfcs) en dl (fun j => decodeNum ffF32 (s.strand.elem b.toNat 32 j))
      (fun i => s.strand.value s.ty.fmt (s.el a i)) act k 0 start
  s.chain (.vaccw m d a b) .accum (dg.disjoint bg && dg.disjoint ag && bg.disjoint ag) m d [ag, bg]
    (fun act w => (fold (fcsEn s.strand.vfcs) act w).2)
    fun t act copy k =>
      let r := (fold 0 act k).1
      if r.any then
        (t.writeSingles copy d.toNat 32
          (fun e => if e < dl then some (r.o.getD e 0) else if e = dl then some r.l else none) (dl + 1)).orFlags r.fl
      else t

end Sys2Proof.Machine
end

