-- ==== Sys2Proof/Machine/Dispatch.lean ====
section
/-!
DEFINITION. One arm per constructor of Instr: a direct call of its meaning, or a rejection by name.
-/
namespace Sys2Proof.Machine

def exec (i : Instr) (s : State) : Host.Outcome State Fault Refusal :=
  match i with
  | .add d a b => Sys2Proof.Machine.execAdd d a b s
  | .sub d a b => Sys2Proof.Machine.execSub d a b s
  | .and d a b => Sys2Proof.Machine.execAnd d a b s
  | .or d a b => Sys2Proof.Machine.execOr d a b s
  | .xor d a b => Sys2Proof.Machine.execXor d a b s
  | .shl d a b => Sys2Proof.Machine.execShl d a b s
  | .shr d a b => Sys2Proof.Machine.execShr d a b s
  | .sra d a b => Sys2Proof.Machine.execSra d a b s
  | .mul d a b => Sys2Proof.Machine.execMul d a b s
  | .mulh d a b => Sys2Proof.Machine.execMulh d a b s
  | .mulhn d a b => Sys2Proof.Machine.execMulhn d a b s
  | .div d a b => Sys2Proof.Machine.execDiv d a b s
  | .divn d a b => Sys2Proof.Machine.execDivn d a b s
  | .rem d a b => Sys2Proof.Machine.execRem d a b s
  | .remn d a b => Sys2Proof.Machine.execRemn d a b s
  | .min d a b => Sys2Proof.Machine.execMin d a b s
  | .max d a b => Sys2Proof.Machine.execMax d a b s
  | .minn d a b => Sys2Proof.Machine.execMinn d a b s
  | .maxn d a b => Sys2Proof.Machine.execMaxn d a b s
  | .slt d a b => Sys2Proof.Machine.execSlt d a b s
  | .sltn d a b => Sys2Proof.Machine.execSltn d a b s
  | .clz d a => Sys2Proof.Machine.execClz d a s
  | .ctz d a => Sys2Proof.Machine.execCtz d a s
  | .popc d a => Sys2Proof.Machine.execPopc d a s
  | .sel d a b => Sys2Proof.Machine.execSel d a b s
  | .addi d a imm => Sys2Proof.Machine.execAddi d a imm s
  | .andi d a imm => Sys2Proof.Machine.execAndi d a imm s
  | .ori d a imm => Sys2Proof.Machine.execOri d a imm s
  | .xori d a imm => Sys2Proof.Machine.execXori d a imm s
  | .shiShl d a n => Sys2Proof.Machine.execShiShl d a n s
  | .shiShr d a n => Sys2Proof.Machine.execShiShr d a n s
  | .shiSra d a n => Sys2Proof.Machine.execShiSra d a n s
  | .slti d a imm => Sys2Proof.Machine.execSlti d a imm s
  | .ldhi d imm => Sys2Proof.Machine.execLdhi d imm s
  | .adr d imm => Sys2Proof.Machine.execAdr d imm s
  | .ldsI w d a imm => Sys2Proof.Machine.execLdsI w d a imm s
  | .ldsN w d a imm => Sys2Proof.Machine.execLdsN w d a imm s
  | .sts w d a imm => Sys2Proof.Machine.execSts w d a imm s
  | .amoSwap w scope ord d a => Sys2Proof.Machine.execAmoSwap w scope ord d a s
  | .amoCas w scope ord d a => Sys2Proof.Machine.execAmoCas w scope ord d a s
  | .amoAdd w scope ord d a => Sys2Proof.Machine.execAmoAdd w scope ord d a s
  | .amoAnd w scope ord d a => Sys2Proof.Machine.execAmoAnd w scope ord d a s
  | .amoOr w scope ord d a => Sys2Proof.Machine.execAmoOr w scope ord d a s
  | .amoXor w scope ord d a => Sys2Proof.Machine.execAmoXor w scope ord d a s
  | .amoMin w scope ord d a => Sys2Proof.Machine.execAmoMin w scope ord d a s
  | .amoMax w scope ord d a => Sys2Proof.Machine.execAmoMax w scope ord d a s
  | .amoMinn w scope ord d a => Sys2Proof.Machine.execAmoMinn w scope ord d a s
  | .amoMaxn w scope ord d a => Sys2Proof.Machine.execAmoMaxn w scope ord d a s
  | .bz cond a off => Sys2Proof.Machine.execBz cond a off s
  | .bc cond a b off => Sys2Proof.Machine.execBc cond a b off s
  | .jal off => Sys2Proof.Machine.execJal off s
  | .jr d a imm => Sys2Proof.Machine.execJr d a imm s
  | .fenceAcq scope => Sys2Proof.Machine.execFenceAcq scope s
  | .fenceRel scope => Sys2Proof.Machine.execFenceRel scope s
  | .fenceAcqrel scope => Sys2Proof.Machine.execFenceAcqrel scope s
  | .cwb scope a b => Sys2Proof.Machine.execCwb scope a b s
  | .cinv scope a b => Sys2Proof.Machine.execCinv scope a b s
  | .iinv scope a b => Sys2Proof.Machine.execIinv scope a b s
  | .prefi a b => Sys2Proof.Machine.execPrefi a b s
  | .cresz d a => Sys2Proof.Machine.execCresz d a s
  | .svcUnknown n => Sys2Proof.Machine.execSvcUnknown n s
  | .mfs reg d => Sys2Proof.Machine.execMfs reg d s
  | .mts reg a => Sys2Proof.Machine.execMts reg a s
  | .mon d a => Sys2Proof.Machine.execMon d a s
  | .mwait d a => Sys2Proof.Machine.execMwait d a s
  | .tlbiPage a d => Sys2Proof.Machine.execTlbiPage a d s
  | .tlbiAsid d => Sys2Proof.Machine.execTlbiAsid d s
  | .kslot d a => Sys2Proof.Machine.execKslot d a s
  | .kslotStat d a => Sys2Proof.Machine.execKslotStat d a s
  | .pfxMask ce copy pred neg => Sys2Proof.Machine.execPfxMask ce copy pred neg s
  | .pfxCond ce copy cond pred => Sys2Proof.Machine.execPfxCond ce copy cond pred s
  | .pfxCopy copy => Sys2Proof.Machine.execPfxCopy copy s
  | .fadd fmt var d a b => Sys2Proof.Machine.execFadd fmt var d a b s
  | .fsub fmt var d a b => Sys2Proof.Machine.execFsub fmt var d a b s
  | .fmul fmt var d a b => Sys2Proof.Machine.execFmul fmt var d a b s
  | .fdiv fmt var d a b => Sys2Proof.Machine.execFdiv fmt var d a b s
  | .fma fmt d a b => Sys2Proof.Machine.execFma fmt d a b s
  | .fmaSub fmt d a b => Sys2Proof.Machine.execFmaSub fmt d a b s
  | .fmaNeg fmt d a b => Sys2Proof.Machine.execFmaNeg fmt d a b s
  | .fminmaxMin fmt d a b => Sys2Proof.Machine.execFminmaxMin fmt d a b s
  | .fminmaxMax fmt d a b => Sys2Proof.Machine.execFminmaxMax fmt d a b s
  | .fminmaxMinnum fmt d a b => Sys2Proof.Machine.execFminmaxMinnum fmt d a b s
  | .fminmaxMaxnum fmt d a b => Sys2Proof.Machine.execFminmaxMaxnum fmt d a b s
  | .fcvtFloat fmt src d a => Sys2Proof.Machine.execFcvtFloat fmt src d a s
  | .fcvtFromInt fmt uns d a => Sys2Proof.Machine.execFcvtFromInt fmt uns d a s
  | .fcvtToInt fmt uns rtz d a => Sys2Proof.Machine.execFcvtToInt fmt uns rtz d a s
  | .fcmpEq fmt d a b => Sys2Proof.Machine.execFcmpEq fmt d a b s
  | .fcmpLt fmt d a b => Sys2Proof.Machine.execFcmpLt fmt d a b s
  | .fcmpLe fmt d a b => Sys2Proof.Machine.execFcmpLe fmt d a b s
  | .fcmpUn fmt d a b => Sys2Proof.Machine.execFcmpUn fmt d a b s
  | .setvl blk mpol tail grp fmt d a => Sys2Proof.Machine.execSetvl blk mpol tail grp fmt d a s
  | .advmg sh d a => Sys2Proof.Machine.execAdvmg sh d a s
  | .launch d a => Sys2Proof.Machine.execLaunch d a s
  | .spawn m d a b => Sys2Proof.Machine.execSpawn m d a b s
  | .join a => Sys2Proof.Machine.execJoin a s
  | .tend a => Sys2Proof.Machine.execTend a s
  | .bar d => Sys2Proof.Machine.execBar d s
  | .post a => Sys2Proof.Machine.execPost a s
  | .waiti a => Sys2Proof.Machine.execWaiti a s
  | .vadd m d a b => Sys2Proof.Machine.execVadd m d a b s
  | .vsub m d a b => Sys2Proof.Machine.execVsub m d a b s
  | .vmul m d a b => Sys2Proof.Machine.execVmul m d a b s
  | .vdiv m d a b => Sys2Proof.Machine.execVdiv m d a b s
  | .vsqrt m d a => Sys2Proof.Machine.execVsqrt m d a s
  | .vmin m d a b => Sys2Proof.Machine.execVmin m d a b s
  | .vmax m d a b => Sys2Proof.Machine.execVmax m d a b s
  | .vabs m d a => Sys2Proof.Machine.execVabs m d a s
  | .vneg m d a => Sys2Proof.Machine.execVneg m d a s
  | .vfma m d a b => Sys2Proof.Machine.execVfma m d a b s
  | .vfms m d a b => Sys2Proof.Machine.execVfms m d a b s
  | .vfnma m d a b => Sys2Proof.Machine.execVfnma m d a b s
  | .vand m d a b => Sys2Proof.Machine.execVand m d a b s
  | .vor m d a b => Sys2Proof.Machine.execVor m d a b s
  | .vxor m d a b => Sys2Proof.Machine.execVxor m d a b s
  | .vnot m d a => Sys2Proof.Machine.execVnot m d a s
  | .vshl m d a b => Sys2Proof.Machine.execVshl m d a b s
  | .vshr m d a b => Sys2Proof.Machine.execVshr m d a b s
  | .vsra m d a b => Sys2Proof.Machine.execVsra m d a b s
  | .vcmpEq m d a b => Sys2Proof.Machine.execVcmpEq m d a b s
  | .vcmpNe m d a b => Sys2Proof.Machine.execVcmpNe m d a b s
  | .vcmpLt m d a b => Sys2Proof.Machine.execVcmpLt m d a b s
  | .vcmpLe m d a b => Sys2Proof.Machine.execVcmpLe m d a b s
  | .vcmpGt m d a b => Sys2Proof.Machine.execVcmpGt m d a b s
  | .vcmpGe m d a b => Sys2Proof.Machine.execVcmpGe m d a b s
  | .vcmpUn m d a b => Sys2Proof.Machine.execVcmpUn m d a b s
  | .vsel m d a b => Sys2Proof.Machine.execVsel m d a b s
  | .vmov m d a => Sys2Proof.Machine.execVmov m d a s
  | .vbrd m d a => Sys2Proof.Machine.execVbrd m d a s
  | .vidx m d a b => Sys2Proof.Machine.execVidx m d a b s
  | .vcvt m sr dfmt d a => Sys2Proof.Machine.execVcvt m sr dfmt d a s
  | .mand m d a b => Sys2Proof.Machine.execMand m d a b s
  | .mor m d a b => Sys2Proof.Machine.execMor m d a b s
  | .mxor m d a b => Sys2Proof.Machine.execMxor m d a b s
  | .mnot m d a => Sys2Proof.Machine.execMnot m d a s
  | .mpop m d a => Sys2Proof.Machine.execMpop m d a s
  | .mfirst m d a => Sys2Proof.Machine.execMfirst m d a s
  | .mbef m d a => Sys2Proof.Machine.execMbef m d a s
  | .minc m d a => Sys2Proof.Machine.execMinc m d a s
  | .mtos m d a b => Sys2Proof.Machine.execMtos m d a b s
  | .vrsum m d a b => Sys2Proof.Machine.execVrsum m d a b s
  | .vrsumO m d a b => Sys2Proof.Machine.execVrsumO m d a b s
  | .vrmax m d a b => Sys2Proof.Machine.execVrmax m d a b s
  | .vrmin m d a b => Sys2Proof.Machine.execVrmin m d a b s
  | .vrbitAnd m d a b => Sys2Proof.Machine.execVrbitAnd m d a b s
  | .vrbitOr m d a b => Sys2Proof.Machine.execVrbitOr m d a b s
  | .vrbitXor m d a b => Sys2Proof.Machine.execVrbitXor m d a b s
  | .vscanAdd m d a b => Sys2Proof.Machine.execVscanAdd m d a b s
  | .vscanMax m d a b => Sys2Proof.Machine.execVscanMax m d a b s
  | .vscanMin m d a b => Sys2Proof.Machine.execVscanMin m d a b s
  | .vsegr m d a b => Sys2Proof.Machine.execVsegr m d a b s
  | .vslup m d a b => Sys2Proof.Machine.execVslup m d a b s
  | .vsldn m d a b => Sys2Proof.Machine.execVsldn m d a b s
  | .vperm m d a b => Sys2Proof.Machine.execVperm m d a b s
  | .vcomp m d a => Sys2Proof.Machine.execVcomp m d a s
  | .vexpd m d a => Sys2Proof.Machine.execVexpd m d a s
  | .vzip m d a b => Sys2Proof.Machine.execVzip m d a b s
  | .vunzipEv m d a => Sys2Proof.Machine.execVunzipEv m d a s
  | .vunzipOd m d a => Sys2Proof.Machine.execVunzipOd m d a s
  | .vconf m d a => Sys2Proof.Machine.execVconf m d a s
  | .vld pol so eo m c a d => Sys2Proof.Machine.execVld pol so eo m c a d s
  | .vst pol so eo m c a d => Sys2Proof.Machine.execVst pol so eo m c a d s
  | .vldx pol so eo m c a d => Sys2Proof.Machine.execVldx pol so eo m c a d s
  | .vstx pol so eo m c a d => Sys2Proof.Machine.execVstx pol so eo m c a d s
  | .vstxAdd pol so eo m c a d => Sys2Proof.Machine.execVstxAdd pol so eo m c a d s
  | .vldc pol so m c a d => Sys2Proof.Machine.execVldc pol so m c a d s
  | .vstc pol so m c a d => Sys2Proof.Machine.execVstc pol so m c a d s
  | .vpref pol m c a lvl => Sys2Proof.Machine.execVpref pol m c a lvl s
  | .tld pol line scope c a d => Sys2Proof.Machine.execTld pol line scope c a d s
  | .tst pol line scope c a d => Sys2Proof.Machine.execTst pol line scope c a d s
  | .vamoSwap scope c a d => Sys2Proof.Machine.execVamoSwap scope c a d s
  | .vamoCas scope c a d => Sys2Proof.Machine.execVamoCas scope c a d s
  | .vamoAdd scope c a d => Sys2Proof.Machine.execVamoAdd scope c a d s
  | .vamoAnd scope c a d => Sys2Proof.Machine.execVamoAnd scope c a d s
  | .vamoOr scope c a d => Sys2Proof.Machine.execVamoOr scope c a d s
  | .vamoXor scope c a d => Sys2Proof.Machine.execVamoXor scope c a d s
  | .vamoMin scope c a d => Sys2Proof.Machine.execVamoMin scope c a d s
  | .vamoMax scope c a d => Sys2Proof.Machine.execVamoMax scope c a d s
  | .vamoMinn scope c a d => Sys2Proof.Machine.execVamoMinn scope c a d s
  | .vamoMaxn scope c a d => Sys2Proof.Machine.execVamoMaxn scope c a d s
  | .tcopy scope d a b => Sys2Proof.Machine.execTcopy scope d a b s
  | .tcoll scope d a b => Sys2Proof.Machine.execTcoll scope d a b s
  | .tsend scope d a b => Sys2Proof.Machine.execTsend scope d a b s
  | .trecv scope d a b => Sys2Proof.Machine.execTrecv scope d a b s
  | .tprobe d b => Sys2Proof.Machine.execTprobe d b s
  | .opadd z mb ma b a sf => Sys2Proof.Machine.execOpadd z mb ma b a sf s
  | .opsub z mb ma b a sf => Sys2Proof.Machine.execOpsub z mb ma b a sf s
  | .mzero z => Sys2Proof.Machine.execMzero z s
  | .mswap z => Sys2Proof.Machine.execMswap z s
  | .mext z a => Sys2Proof.Machine.execMext z a s
  | .mgang z d a => Sys2Proof.Machine.execMgang z d a s
  | .mcls z d a => Sys2Proof.Machine.execMcls z d a s
  | .mrowRead z m a d => Sys2Proof.Machine.execMrowRead z m a d s
  | .mrowWrite z m a d => Sys2Proof.Machine.execMrowWrite z m a d s
  | .mcolRead z m a d => Sys2Proof.Machine.execMcolRead z m a d s
  | .mcolWrite z m a d => Sys2Proof.Machine.execMcolWrite z m a d s
  | .gins m d a => Sys2Proof.Machine.execGins m d a s
  | .glkp m d a => Sys2Proof.Machine.execGlkp m d a s
  | .glkpO m d a => Sys2Proof.Machine.execGlkpO m d a s
  | .gacc m d a b => Sys2Proof.Machine.execGacc m d a b s
  | .gdrn m d a => Sys2Proof.Machine.execGdrn m d a s
  | .gcnt d => Sys2Proof.Machine.execGcnt d s
  | .vdotseg m d a b => Sys2Proof.Machine.execVdotseg m d a b s
  | .vexpm m d a b => Sys2Proof.Machine.execVexpm m d a b s
  | .vaccw m d a b => Sys2Proof.Machine.execVaccw m d a b s
  | .vrcp m d a => Sys2Proof.Machine.execVrcp m d a s
  | .vrsq m d a => Sys2Proof.Machine.execVrsq m d a s
  | .vexp2 m d a => Sys2Proof.Machine.execVexp2 m d a s
  | .vdraw m d a b => Sys2Proof.Machine.execVdraw m d a b s
  | .vclass m d a => Sys2Proof.Machine.execVclass m d a s
  | .breakpoint tag => Sys2Proof.Machine.execBreakpoint tag s
  | .addC b d => Sys2Proof.Machine.execAddC b d s
  | .subC b d => Sys2Proof.Machine.execSubC b d s
  | .andC b d => Sys2Proof.Machine.execAndC b d s
  | .orC b d => Sys2Proof.Machine.execOrC b d s
  | .xorC b d => Sys2Proof.Machine.execXorC b d s
  | .shlC b d => Sys2Proof.Machine.execShlC b d s
  | .shrC b d => Sys2Proof.Machine.execShrC b d s
  | .sraC b d => Sys2Proof.Machine.execSraC b d s
  | .mulC b d => Sys2Proof.Machine.execMulC b d s
  | .minC b d => Sys2Proof.Machine.execMinC b d s
  | .maxC b d => Sys2Proof.Machine.execMaxC b d s
  | .minnC b d => Sys2Proof.Machine.execMinnC b d s
  | .maxnC b d => Sys2Proof.Machine.execMaxnC b d s
  | .sltC b d => Sys2Proof.Machine.execSltC b d s
  | .sltnC b d => Sys2Proof.Machine.execSltnC b d s
  | .addiC imm d => Sys2Proof.Machine.execAddiC imm d s
  | .andiC imm d => Sys2Proof.Machine.execAndiC imm d s
  | .shliC imm d => Sys2Proof.Machine.execShliC imm d s
  | .shriC imm d => Sys2Proof.Machine.execShriC imm d s
  | .sraiC imm d => Sys2Proof.Machine.execSraiC imm d s
  | .movC b d => Sys2Proof.Machine.execMovC b d s
  | .liC imm d => Sys2Proof.Machine.execLiC imm d s
  | .ldsC imm d => Sys2Proof.Machine.execLdsC imm d s
  | .stsC imm d => Sys2Proof.Machine.execStsC imm d s
  | .illegalInstruction word detail => Sys2Proof.Machine.execIllegalInstruction word detail s
  | .fetchFault kind addr => Sys2Proof.Machine.execFetchFault kind addr s
  | .preemptHalt cut => Sys2Proof.Machine.execPreemptHalt cut s
  | .bctxWrite tag => Sys2Proof.Machine.execBctxWrite tag s
  | .bcmdRead d => Sys2Proof.Machine.execBcmdRead d s
  | .bwinRead d => Sys2Proof.Machine.execBwinRead d s
  | .bwinWrite a => Sys2Proof.Machine.execBwinWrite a s
  | .bintClear value => Sys2Proof.Machine.execBintClear value s
  | .bmsi value => Sys2Proof.Machine.execBmsi value s
  | .fbar => Sys2Proof.Machine.execFbar s
  | .nop => Sys2Proof.Machine.execNop s
  | .svcRetire => Sys2Proof.Machine.execSvcRetire s
  | .svcAbort => Sys2Proof.Machine.execSvcAbort s
  | .svcReserve => Sys2Proof.Machine.execSvcReserve s
  | .svcRelease => Sys2Proof.Machine.execSvcRelease s
  | .svcFork => Sys2Proof.Machine.execSvcFork s
  | .svcShootdown => Sys2Proof.Machine.execSvcShootdown s
  | .svcExportWindow => Sys2Proof.Machine.execSvcExportWindow s
  | .svcReopenGroup => Sys2Proof.Machine.execSvcReopenGroup s
  | .rtn => Sys2Proof.Machine.execRtn s
  | .rtnBridge => Sys2Proof.Machine.execRtnBridge s
  | .halt => Sys2Proof.Machine.execHalt s
  | .tlbiBerth => Sys2Proof.Machine.execTlbiBerth s
  | .yield => Sys2Proof.Machine.execYield s
  | .gclr => Sys2Proof.Machine.execGclr s
  | .nopC => Sys2Proof.Machine.execNopC s
  | .mwaitWake => Sys2Proof.Machine.execMwaitWake s
  | .mwaitTimeout => Sys2Proof.Machine.execMwaitTimeout s
  | .contextSave => Sys2Proof.Machine.execContextSave s
  | .pilotPlace => Sys2Proof.Machine.execPilotPlace s
  | .dependenceCheck => Sys2Proof.Machine.execDependenceCheck s
  | .hostDependencePoll => Sys2Proof.Machine.execHostDependencePoll s
  | .launchSignal => Sys2Proof.Machine.execLaunchSignal s
  | .towExchange => Sys2Proof.Machine.execTowExchange s
  | .barrierRelease => Sys2Proof.Machine.execBarrierRelease s
  | .joinWake => Sys2Proof.Machine.execJoinWake s
  | .beaconAdvance => Sys2Proof.Machine.execBeaconAdvance s
  | .ringRefill => Sys2Proof.Machine.execRingRefill s
  | .lockBatchRefusal => Sys2Proof.Machine.execLockBatchRefusal s
  | .tenderCommandEntry => Sys2Proof.Machine.execTenderCommandEntry s
  | .tfdone => Sys2Proof.Machine.execTfdone s
  | .tfsend => Sys2Proof.Machine.execTfsend s
  | .tfrecv => Sys2Proof.Machine.execTfrecv s
  | .tfwait => Sys2Proof.Machine.execTfwait s
  | .tokenDelivery => Sys2Proof.Machine.execTokenDelivery s
  | .messageArrival => Sys2Proof.Machine.execMessageArrival s
  | .messageRetry => Sys2Proof.Machine.execMessageRetry s
  | .chunkComplete => Sys2Proof.Machine.execChunkComplete s
  | .collectiveTimeout => Sys2Proof.Machine.execCollectiveTimeout s
  | .portFailure => Sys2Proof.Machine.execPortFailure s
  | .btake => Sys2Proof.Machine.execBtake s
  | .sync => Sys2Proof.Machine.execSync s
  | .retire => Sys2Proof.Machine.execRetire s
  | .abort => Sys2Proof.Machine.execAbort s
  | .spillAcc0 => Sys2Proof.Machine.execSpillAcc0 s
  | .spillAcc1 => Sys2Proof.Machine.execSpillAcc1 s
  | .loadAcc0 => Sys2Proof.Machine.execLoadAcc0 s
  | .loadAcc1 => Sys2Proof.Machine.execLoadAcc1 s
  | .msixDelivery => Sys2Proof.Machine.execMsixDelivery s
  | .haltWake => Sys2Proof.Machine.execHaltWake s
  | .heartbeat => Sys2Proof.Machine.execHeartbeat s
  | .enableCheck => Sys2Proof.Machine.execEnableCheck s
  | .functionLevelReset => Sys2Proof.Machine.execFunctionLevelReset s
  | .callNop => Sys2Proof.Machine.execCallNop s
  | .callSpace => Sys2Proof.Machine.execCallSpace s
  | .callMap => Sys2Proof.Machine.execCallMap s
  | .callUnmap => Sys2Proof.Machine.execCallUnmap s
  | .callLaunch => Sys2Proof.Machine.execCallLaunch s
  | .callRelease => Sys2Proof.Machine.execCallRelease s
  | .callRevoke => Sys2Proof.Machine.execCallRevoke s
  | .callDebug => Sys2Proof.Machine.execCallDebug s
  | .callResume => Sys2Proof.Machine.execCallResume s
  | .callHwin => Sys2Proof.Machine.execCallHwin s
  | .flush => Sys2Proof.Machine.execFlush s
  | .lstatRead => Sys2Proof.Machine.execLstatRead s
  | .registerWrite => Sys2Proof.Machine.execRegisterWrite s
  | .inboundPostedWrite => Sys2Proof.Machine.execInboundPostedWrite s
  | .pieceAcknowledgement => Sys2Proof.Machine.execPieceAcknowledgement s
  | .inboundRead => Sys2Proof.Machine.execInboundRead s
  | .cxlMemRequest => Sys2Proof.Machine.execCxlMemRequest s
  | .outboundCompletion => Sys2Proof.Machine.execOutboundCompletion s
  | .outboundReadTimeout => Sys2Proof.Machine.execOutboundReadTimeout s
  | .hostSnoop => Sys2Proof.Machine.execHostSnoop s
  | .ident => Sys2Proof.Machine.execIdent s
  | .attest => Sys2Proof.Machine.execAttest s
  | .berth => Sys2Proof.Machine.execBerth s
  | .keyset => Sys2Proof.Machine.execKeyset s
  | .hdm => Sys2Proof.Machine.execHdm s
  | .stby => Sys2Proof.Machine.execStby s
  | .mgmtRelease => Sys2Proof.Machine.execMgmtRelease s
  | .resetRelease => Sys2Proof.Machine.execResetRelease s
  | .stageAdvance => Sys2Proof.Machine.execStageAdvance s
  | .dramTrainingDone => Sys2Proof.Machine.execDramTrainingDone s
  | .scrub => Sys2Proof.Machine.execScrub s
  | .errorDetected => Sys2Proof.Machine.execErrorDetected s
  | .machineCheck => Sys2Proof.Machine.execMachineCheck s
  | .fatalError => Sys2Proof.Machine.execFatalError s
  | .throttle => Sys2Proof.Machine.execThrottle s
  | .supplyFault => Sys2Proof.Machine.execSupplyFault s
  | .callUnknownOp => Sys2Proof.Machine.execCallUnknownOp s
  | .hotReset => Sys2Proof.Machine.execHotReset s
  | .spuriousMonitorFire => Sys2Proof.Machine.execSpuriousMonitorFire s
  | .throttleEnd => Sys2Proof.Machine.execThrottleEnd s
  | .firmwareFault => Sys2Proof.Machine.execFirmwareFault s
  | .contributionMismatch => Sys2Proof.Machine.execContributionMismatch s
  | .memberFailure => Sys2Proof.Machine.execMemberFailure s
  | .spdmMessage => Sys2Proof.Machine.execSpdmMessage s

end Sys2Proof.Machine
end

