-- ==== Sys2Proof/Machine/Schedule.lean ====
section
/-!
DEFINITION. Whose step comes next: the turns of the schedule, and what happens when it is empty (log entry 4).
-/
namespace Sys2Proof.Machine

/-- Full function: stage 5, and no fatal error (R427, R441). -/
def State.live (s : State) : Bool := s.mgmt.stage = 5 && !s.mgmt.fatal

/-- Bridge cores that run: core 0 of C0 from stage 2, the others from stage 5 (R427). -/
def State.bridgeLive (s : State) (id : Nat) : Bool :=
  s.live || (id = 0 && 2 ≤ s.mgmt.stage.toNat && !s.mgmt.fatal)

/-- The focused agent issues its next instruction. -/
def State.issue (s : State) : Out := exec s.fetchStep s.fetched

/-- The focused agent waits: its wait ends when it can. -/
def State.wake (s : State) : Out :=
  let s := { s with inp := Input.none }
  match s.hart.wait with
  | .mwait _ _ => if s.hart.monFired || !s.hart.monArmed then exec .mwaitWake s else exec .mwaitTimeout s
  | .join _ => exec .joinWake s
  | .bar _ => exec .barrierRelease s
  | .post _ => exec .beaconAdvance s
  | .waiti _ => exec .beaconAdvance s
  | .halt => exec .haltWake s
  | .running => s.issue

/-- Whether a pending pre-emption halts the strand before the next instruction (R46): one that is not length-bearing, or,
behind an instruction of the strip that was cut, one that has not begun then; but behind a cut a scalar instruction freely had
issued before the request, where it waits for no instruction in flight (R49, R147). -/
def State.haltsHere (s : State) : Bool :=
  match s.strand.cutReq, s.strand.cut with
  | none, _ => false
  | some _, none => !cuttable s.fetchStep
  | some _, some x =>
    !(cuttable s.fetchStep && !neverCut s.fetchStep && !waitsBehind x s.fetchStep)
      && !(s.choose 14 2 && runsAhead x s.fetchStep)

/-- The focused strand issues its next instruction. Behind an instruction that was cut, one that would trap, or that waits for
one in flight, is at the halt point: the strand halts before it (R46, R147, R148). -/
def State.issueStrand (s : State) : Out :=
  match s.strand.cutReq, s.strand.cut with
  | some _, some x =>
    match (s.withCut x s.fetchStep).issue with
    | .next t => if t.hart.insn = s.hart.insn then .next s.idle.haltStrand else .next t.withoutCut
    | o => o
  | _, _ => s.issue

/-- The focused strand's step: an error in its registers traps (R439), a pre-emption request halts it at its halt
point (R46, R344), a wait goes on, else the next instruction issues. Once an instruction of the strip has been cut,
those of the strip that freely were in flight with it are still performed, up to the cut (R46). -/
def State.runStrand (s : State) : Out :=
  if s.strand.status ≠ .running then .next s.idle
  else if s.strand.rfpois.isSome then
    .next ((s.setStrand { s.strand with rfpois := none, rfmet := s.strand.rfpois }).takeTrap (Trap.leading 3 0 0 none))
  else if s.hart.wait ≠ .running then (if s.strand.cutReq.isSome then .next s.haltWaiting else s.wake)
  else if s.haltsHere then .next (s.idle.haltStrand)
  else s.issueStrand

/-- The focused agent's step. -/
def State.runFocus (s : State) : Out :=
  if s.priv then (if s.bcore.stopped then .next s.idle else if s.hart.wait ≠ .running then s.wake else s.issue)
  else s.runStrand

/-- Steps that come about without an instruction of a strand, a Bridge core or a tender's firmware. -/
def isEvent (i : Instr) : Bool :=
  match i with
  | .illegalInstruction .. | .fetchFault .. | .rtnBridge | .tfdone | .tfsend | .tfrecv | .tfwait | .firmwareFault => false
  | i => !i.encoded

/-- Events that still come about after a fatal error: the management window and a package reset (R441). -/
def afterFatal (i : Instr) (inp : Input) : Bool :=
  match i with
  | .registerWrite => inp.flag
  | .lstatRead => inp.flag2
  | .ident | .attest | .berth | .keyset | .hdm | .stby | .mgmtRelease | .msixDelivery | .hotReset | .spdmMessage => true
  | _ => false

/-- Events of the package before its cores are released: those that need DRAM from stage 3, the reset of a function, which PCI
Express brings, from stage 2 (R427). -/
def beforeRunning (stage : Nat) (i : Instr) (inp : Input) : Bool :=
  match i with
  | .resetRelease | .stageAdvance | .dramTrainingDone | .fatalError | .supplyFault | .throttle | .throttleEnd
  | .machineCheck | .errorDetected => true
  | .functionLevelReset => 2 ≤ stage
  | .cxlMemRequest | .scrub => 3 ≤ stage
  | i => afterFatal i inp

/-- A tender's step: the next instruction of the firmware that it runs (R353). -/
def State.runTender (s : State) (id : Nat) : Out :=
  if !s.live || (s.pop.tenderAt id).stopped then .next s.idle
  else
    match s.firmwareStep id with
    | (t, some (i, inp)) => exec i { t with inp := inp }
    | (t, none) => .next t

/-- A turn of the schedule. -/
def State.turn (s : State) (t : Turn) : Out :=
  match t with
  | .strand tag =>
    let f := s.focus tag
    if s.live && !f.priv && f.strand.tag = tag then f.runFocus else .next s.idle
  | .bridge id =>
    if s.bridgeLive id && (s.bcore.id = id && s.priv || s.pop.bcores.any fun b => b.bcore.id = id) then
      (s.focusBridge id).runFocus
    else .next s.idle
  | .tender id => s.runTender id
  | .event i inp =>
    if !isEvent i then .next s.idle
    else if s.mgmt.fatal && !afterFatal i inp then .next s.idle
    else if s.mgmt.stage ≠ 5 && !beforeRunning s.mgmt.stage.toNat i inp then .next s.idle
    else exec i { s with inp := inp }

/-! What comes next with an empty schedule. -/

/-- The next step of staged start, with the image or table that the part's store holds. -/
def State.startEvent (s : State) : Turn :=
  let die := if !s.mgmt.drdy.getLsbD 0 then 0 else if !s.mgmt.drdy.getLsbD 1 then 1 else if !s.mgmt.drdy.getLsbD 2 then 2 else 3
  let x := Config.storedImage s.mgmt.images
  if !s.mgmt.started then .event .resetRelease Input.none
  else if s.mgmt.stage = 2 then .event .dramTrainingDone { Input.none with die := die }
  else if s.mgmt.stage = 4 then .event .stageAdvance Input.none
  else .event .stageAdvance
    { Input.none with num := x.1, others := [(0, x.2.1), (0, x.2.2.1), (0, x.2.2.2.1)], data := x.2.2.2.2 }

/-- A Bridge core that can serve a queued trap: of the tag's berth, serving the queue's die, running (R374, R402). -/
def State.server (s : State) : Option Nat :=
  (s.pop.bcores.find? fun b =>
    !b.bcore.stopped && ((s.berthAt b.bcore.berth.toNat).waiting b.bcore.queueDies).isSome).map (·.bcore.id)

/-- A launch that can signal. -/
def State.signaller (s : State) : Option Launch :=
  s.pilot.launches.find? fun l => l.state = .draining && l.live = 0 && !s.pilot.held.contains (l.die, l.qid % 64)
    && (s.pilot.launches.find? fun e => e.qid = l.qid).map (·.id) = some l.id

/-- A waiting launch with a dependence that a read now satisfies. -/
def State.waiter (s : State) : Option Launch :=
  s.pilot.launches.find? fun l => l.state = .waiting && !s.pilot.held.contains (l.die, l.qid % 64)
    && l.deps.any fun d => !d.sat && [false, true].any fun h => (s.readDep l h d).sat

/-- An event on a launch's queue. -/
def onQueue (i : Instr) (l : Launch) : Turn :=
  .event i { Input.none with die := BitVec.ofNat 2 l.die, queue := BitVec.ofNat 6 l.qid }

/-- A berth and die at which Pilot can place a candidate or has a flotilla to pre-empt. -/
def State.placer (s : State) : Option (Nat × Nat) :=
  (buildFrom (fun k => (k / 4, k % 4)) 64 0).find? fun k =>
    (s.berthAt k.1).started &&
      (let cls := (s.berthAt k.1).clustersOn k.2
       ((s.cands k.1 k.2).any fun c => (s.fit [] cls c).isSome) || !(s.victimsFor k.1 cls (s.unfit k.1 k.2 cls)).isEmpty)

/-- A halted context to save, when a candidate of its die fits only in slots of halted contexts (R344, R387). -/
def State.saver (s : State) : Option Ctx :=
  let halted := s.pop.ctxs.filter fun c => c.strand.status = .halted
  let ex := halted.map (·.strand.tag)
  halted.find? fun c => c.strand.irt.isEmpty &&
    (let b := tagBerth c.strand.tag
     let die := coreDie c.strand.core
     let cls := (s.berthAt b).clustersOn die
     (s.cands b die).any fun x => (s.fit [] cls x).isNone && (s.fit ex cls x).isSome)

/-- A die whose oldest ring entry can move into its muster queue (R338). -/
def State.refiller (s : State) : Option Nat := (buildFrom id 4 0).find? fun d => (s.refillOne d).isSome

/-- What Pilot does before the next strand issues: a signal, a dependence, towing, a refill, a save, a placement. -/
def State.pilotTurn (s : State) : Option Turn :=
  match s.signaller with
  | some l => some (onQueue .launchSignal l)
  | none =>
    match s.waiter with
    | some l => some (onQueue (if l.deps.any fun d => !d.sat && (s.readDep l false d).sat then .dependenceCheck
        else .hostDependencePoll) l)
    | none =>
      if towed s.pilot.held s.pilot.launches ≠ s.pilot.launches then some (.event .towExchange Input.none)
      else
        match s.refiller with
        | some d => some (.event .ringRefill { Input.none with die := BitVec.ofNat 2 d })
        | none =>
        match s.saver with
        | some c => some (.event .contextSave { Input.none with tag := c.strand.tag })
        | none => s.placer.map fun k =>
            .event .pilotPlace { Input.none with berth := BitVec.ofNat 4 k.1, die := BitVec.ofNat 2 k.2 }

/-- The event of a call by its OP (R413). -/
def callEvent (op : Nat) : Instr :=
  match op with
  | 0 => .callNop
  | 1 => .callSpace
  | 2 => .callMap
  | 3 => .callUnmap
  | 4 => .callLaunch
  | 5 => .callRelease
  | 6 => .callRevoke
  | 7 => .callDebug
  | 8 => .callResume
  | 9 => .callHwin
  | _ => .callUnknownOp

/-- A berth whose host has asked for its rings, or has entered a call. -/
def State.caller (s : State) : Option Turn :=
  (buildFrom id 16 0).findSome? fun b =>
    let bb := s.berthAt b
    let on := { Input.none with berth := BitVec.ofNat 4 b }
    let due := if bb.enable = 0 || !bb.ringsOk then bb.ready
      else !bb.ready || bb.bases ≠ (bb.crbase, bb.cqbase, bb.evbase)
    if bb.started && s.leadRuns b && due then some (.event .enableCheck on)
    else (s.nextCall b).map fun e => .event (callEvent ((entryWord e 0).toNat % 256)) on

/-- What the I/O die and the lead cores do before the next strand issues: a home performs a piece (R416), an MSI-X message
leaves (R397), a call is taken (R412). -/
def State.linkTurn (s : State) : Option Turn :=
  if !s.iod.pieces.isEmpty then some (.event .pieceAcknowledgement Input.none)
  else if !s.iod.msix.isEmpty then some (.event .msixDelivery Input.none)
  else s.caller

/-- A collective command that a free tender can take, or the tender with firmware to run whose turn is longest ago. -/
def State.tenderTurn (s : State) : Option Turn :=
  match s.fabric.jobs.find? fun j => !j.entered && (s.fabric.command j.id).isSome && !(s.freeTenders j).isEmpty with
  | some j => some (.event .tenderCommandEntry { Input.none with job := j.id })
  | none => (s.pop.tenders.find? fun k => !k.stopped && (s.serving k).isSome).map fun k => .tender k.id

/-- The running strand whose turn is longest ago. -/
def State.longest (s : State) : Option Turn :=
  (s.pop.ctxs.find? fun c => c.strand.status = .running).map fun c => .strand c.strand.tag

/-- The oldest trap served by a Bridge core, with no agent left in focus. -/
def State.serve (s : State) (id : Nat) : Out :=
  match exec .btake { s.focusBridge id with inp := { Input.none with flag := true } } with
  | .next t => .next t.unfocus
  | o => o

/-- The running agents take turns: a tender and a strand by turns. -/
def State.agentTurn (s : State) : Option Turn :=
  if s.fresh % 2 = 0 then s.tenderTurn <|> s.longest else s.longest <|> s.tenderTurn

/-- The step with an empty schedule: staged start; then queued traps are served, the links and Pilot do what is due, and
the running agents take turns. -/
def State.default (s : State) : Out :=
  if s.mgmt.stage ≠ 5 then (if s.mgmt.fail ≠ 0 then .next s.idle else s.turn s.startEvent)
  else
    let u := s.unfocus
    match u.server with
    | some id => u.serve id
    | none =>
      match u.linkTurn <|> u.pilotTurn <|> u.agentTurn with
      | some t => u.turn t
      | none => .next s.idle

end Sys2Proof.Machine
end

