-- ==== Sys2Proof/Machine/Step.lean ====
section
/-!
DEFINITION. One step of the machine, and the state in which the next step fetches a given instruction.
-/
namespace Sys2Proof.Machine

/-- One step: the next turn of the schedule, or with an empty one the step that comes next; after a fatal error only the
schedule moves the package (R441). -/
def step (s : State) : Host.Outcome State Fault Refusal :=
  match s.turns with
  | t :: rest => State.turn { s with turns := rest } t
  | [] => if s.mgmt.fatal then .fault .packageFatal else s.default

/-- Bytes written to device DRAM alone. -/
def withDram (m : List Host.Cell) (ws : List (Nat × Nat × Nat)) : List Host.Cell :=
  ws.foldl (fun m w => memWrite m w.1 (toBytes w.2.1 w.2.2)) m

/-- The state with an instruction where the next step fetches it: stage 5, a running strand of berth 0 in focus at pc 0,
its page tables from 0x1_0000 and its code page at 0x6_0000 of DRAM under key slot 0 (log entry 4). -/
def State.withFetchWord (s : State) (nbits w : Nat) : State :=
  let b := s.berthAt 0
  { s with
    priv := false
    hart := { s.hart with pc := 0, pfxs := 0, wait := .running }
    strand := { s.strand with
      status := .running, tag := 0, casp := 0, croot := 0x10000, rfpois := none, cutReq := none, cut := none, fetchd := [] }
    core := { s.core with icache := [], tlb := [] }
    ms := { s.ms with
      dram := withDram s.ms.dram [(0x10000, 8, 0x20001), (0x20000, 8, 0x30001), (0x30000, 8, 0x40001),
        (0x40000, 8, 0x50001), (0x50000, 8, 0x6001F), (0x60000, 4, if nbits ≤ 16 then w % 65536 else w % 2 ^ 32)]
      poison := s.ms.poison.filter (· ≠ 0x6000)
      seen := { units := [], keys := s.ms.seen.keys.filter (·.1 ≠ 0xC00) } }
    berths := vset s.berths 0 { b with groups := b.groups ||| 1, keys := vset b.keys 0 .active }
    mgmt := { s.mgmt with started := true, stage := 5, fail := 0, fatal := false }
    turns := [.strand 0] }

end Sys2Proof.Machine
end

