-- ==== Sys2Proof/Safety.lean ====
section
/-!
DEFINITION. The terms that statements about a run use: when an instruction may issue, what it leaves alone, how a trap
is entered, and the invariants of a safe run. Each frame gives the whole state after an instruction, so that a field it
does not name is unchanged.
-/
namespace Sys2Proof.Machine

/-! Before an instruction. -/

/-- No loan is pending (R67), and no register of the list awaits a token (R147, R355). -/
def State.Ready (s : State) (rs : List (BitVec 6)) : Prop := s.hart.pfxs = 0 ∧ s.pendingOn rs = none

/-- The same, for a strand. -/
def State.StrandReady (s : State) (rs : List (BitVec 6)) : Prop := s.priv = false ∧ s.Ready rs

/-- A strand may issue a length-bearing instruction: no pre-emption of it is pending (R46). -/
def State.VectorReady (s : State) (rs : List (BitVec 6)) : Prop := s.StrandReady rs ∧ s.strand.cutReq = none

/-- Nothing is pending, or for mask field 0 a mask or its complement that a pfx without a copy lends: its word has kind 0, N in
bit 9 and pred in bits 15:10 (R57, R64, R65). -/
def State.Lent (s : State) (m : BitVec 3) : Prop :=
  s.hart.pfxs = 0 ∨ (m = 0 ∧ ∃ k neg : Nat, k < 8 ∧ neg < 2 ∧ s.hart.pfxs = BitVec.ofNat 32 (0x27 + 2 ^ 9 * neg + 2 ^ 10 * k))

/-- A strand may issue a length-bearing instruction of mask field `m`, with or without a mask that a pfx lends it. -/
def State.LentReady (s : State) (m : BitVec 3) (rs : List (BitVec 6)) : Prop :=
  s.priv = false ∧ s.pendingOn rs = none ∧ s.strand.cutReq = none ∧ s.Lent m

/-- No copy of the strand conflicts with an access of `n` bytes at `ea` (R263, R264). -/
def State.Clear (s : State) (write : Bool) (ea : Word) (n : Nat) : Prop :=
  s.conflict write (eaBounds ea n).1 (eaBounds ea n).2 = none

/-- No copy of the strand is in flight, so that what waits for them all waits for nothing (R95, R372). -/
def State.NoCopies (s : State) : Prop := s.priv = true ∨ s.strand.irt = []

/-- An instruction of a strand waits for the copies in flight (R127, R264): it does not retire, and the copy that holds the oldest
interlock entry `q` is brought to its end, which writes its token, releases its entries and lets the instruction issue again. -/
def State.Stalls (s : State) (i : Instr) (q : Interlock) : Prop :=
  ∃ t, exec i s = .next t ∧ t.hart.pc = s.hart.pc ∧ t.hart.pfxs = s.hart.pfxs ∧ t.hart.insn = s.hart.insn ∧ t.hart.lastd = s.hart.lastd
    ∧ t.strand.mg = s.strand.mg ∧ t.strand.mgs = s.strand.mgs ∧ t.strand.v = s.strand.v
    ∧ ∀ j, s.fabric.jobAt q.owner = some j →
        (∀ x, j.done = some x → t.strand.irt = s.strand.irt.filter (fun e => e.owner ≠ q.owner)
          ∧ ∀ r, t.g r = if r = j.reg ∧ r ≠ 0 then x else s.g r)
        ∧ (∀ n sz da ds fa fs tcsp, j.done = none → j.kind = .copy n sz da ds fa fs tcsp →
            t.strand.irt = s.strand.irt.filter (fun e => e.owner ≠ q.owner) ∧ ∀ r, r ≠ j.reg → t.g r = s.g r)

/-! What an instruction leaves alone. -/

/-- `s` after the retirement of an instruction of `len` bytes: the pc, PFXS, INSN, the end of a wait; CYC and the use of
free values as in `t`; nothing else. -/
def State.moved (s t : State) (len : Word) : State :=
  { s with
    hart := { s.hart with pc := s.hart.pc + len, pfxs := 0, insn := s.hart.insn + 1, wait := .running }
    core := { s.core with cyc := t.core.cyc, ran := t.core.ran }
    bcore := { s.bcore with cyc := t.bcore.cyc, ran := t.bcore.ran }
    fresh := t.fresh }

/-- `s` after a step in which the focused agent does not retire. -/
def State.waited (s t : State) : State :=
  { s with
    core := { s.core with cyc := t.core.cyc, ran := t.core.ran }
    bcore := { s.bcore with cyc := t.bcore.cyc, ran := t.bcore.ran }
    fresh := t.fresh }

/-- A place of memory itself: DRAM, the pool or the host's, not DRAM as a key other than its line's reads it (R399). -/
def Loc.Real (l : Loc) : Prop := l.plain = l

/-- Every line that has a key still has it: what another key makes of it stays too (R399, log entry 71). -/
def SameKeys (s t : State) : Prop := ∀ line k, s.ms.seen.keyOf line = some k → t.ms.seen.keyOf line = some k

/-- Every byte of memory reads as before. -/
def SameMemory (s t : State) : Prop := (∀ l, l.Real → t.byte l = s.byte l) ∧ SameKeys s t

/-- The instruction retires and does nothing else. -/
def Moved (s t : State) (len : Word) : Prop := t = s.moved t len ∧ SameMemory s t

/-- The event changes nothing of the focused agent but its cycle count. -/
def Waited (s t : State) : Prop := t = s.waited t ∧ SameMemory s t

/-- Registers after a write of `d`: g0 is never written (R107). -/
def RegsAfter (s t : State) (d : BitVec 6) (x : Word) : Prop := ∀ r, t.g r = if r = d ∧ d ≠ 0 then x else s.g r

/-- `s` with the registers of `t`, and LASTD as a destination `d` leaves it (R62). -/
def State.withDest (s t : State) (d : BitVec 6) : State :=
  { s with hart := { s.hart with g := t.hart.g, lastd := if d = 0 then s.hart.lastd else d } }

/-- The instruction writes `x` to `d`, retires, and does nothing else. -/
def Wrote (s t : State) (d : BitVec 6) (x : Word) (len : Word) : Prop :=
  t = (s.withDest t d).moved t len ∧ RegsAfter s t d x ∧ SameMemory s t

/-- The same with exception flags ORed into SFCS (R122). -/
def WroteFp (s t : State) (d : BitVec 6) (x : Word) (fl : Flags) : Prop :=
  t = (let u := s.withDest t d
       { u with hart := { u.hart with sfcs := fcsOr s.hart.sfcs fl } }).moved t 4
    ∧ RegsAfter s t d x ∧ SameMemory s t

/-- `s` with what an access leaves beside its effect: the cached translations and the lines' keys of `t` (R391, R399). -/
def State.withTlb (s t : State) : State :=
  { s with core := { s.core with tlb := t.core.tlb }, ms := { s.ms with seen := t.ms.seen } }

/-- The same with the translations that the access used kept (R391). -/
def Loaded (s t : State) (d : BitVec 6) (x : Word) (len : Word) : Prop :=
  t = ((s.withDest t d).withTlb t).moved t len ∧ RegsAfter s t d x ∧ SameMemory s t

/-- The bytes of a number of whole bytes, the lowest first (R10). -/
def bytesOf {w : Nat} (x : BitVec w) : List Byte := (List.range (w / 8)).map fun i => x.extractLsb' (8 * i) 8

/-- The interlock table has room for the entry that an instruction with SO = 1 takes (R263, R264). -/
def State.HasEntry (s : State) (so : BitVec 1) : Prop := so = 1 → s.strand.irt.length < 16

/-- What a byte reads as after writes in order: the last write of its place, else what it was. -/
def written (ws : List (Loc × Byte)) (l : Loc) (old : Byte) : Byte :=
  match ws with
  | [] => old
  | (k, b) :: t => written t l (if k = l then b else old)

/-- The host takes a write to the place: it refuses none but writes to host memory over PCI Express (R407). -/
def State.takes (s : State) (l : Loc) : Bool := !(l.space = .pcie && s.ms.dropped.contains (l.addr / 128))

/-- A context without what another agent's store may change in it: fetched parcels (R83) and FIRED (R137). -/
def Ctx.core_ (c : Ctx) : Ctx :=
  { c with hart := { c.hart with monFired := false }, strand := { c.strand with fetchd := [] } }

/-- A core without what a store may change: its instruction cache. -/
def Core.core_ (c : Core) : Core := { c with icache := [] }

/-- A Bridge core without FIRED. -/
def BPark.core_ (b : BPark) : BPark := { b with hart := { b.hart with monFired := false } }

/-- A tender core without its load reservation. -/
def TCore.core_ (c : TCore) : TCore := { c with rsv := none }

/-- The agents out of focus are as they were, but for fetched and cached parcels, fired monitors and reservations. -/
def SamePop (p q : Pop) : Prop :=
  q.ctxs.map Ctx.core_ = p.ctxs.map Ctx.core_ ∧ q.cores.map Core.core_ = p.cores.map Core.core_
    ∧ q.bcores.map BPark.core_ = p.bcores.map BPark.core_ ∧ q.flots = p.flots
    ∧ q.tenders.map TCore.core_ = p.tenders.map TCore.core_

/-- `s` with everything of `t` that a store may change: bytes, poison, swatches, host copies, lines' keys, fetched and
cached parcels, cached translations, fired monitors. -/
def State.withStore (s t : State) : State :=
  { s with
    ms := { s.ms with dram := t.ms.dram, cxl := t.ms.cxl, pcie := t.ms.pcie, poison := t.ms.poison,
                      swatch := t.ms.swatch, hostLn := t.ms.hostLn, seen := t.ms.seen }
    core := { s.core with pool := t.core.pool, poolP := t.core.poolP, icache := t.core.icache, tlb := t.core.tlb }
    strand := { s.strand with fetchd := t.strand.fetchd }
    hart := { s.hart with monFired := t.hart.monFired }
    pop := t.pop }

/-- The bytes of `ws` are written in order, but those that the host refuses (R407), and no other byte changes. A DRAM line
that is written under another key than its own comes to stand under that key first: its bytes become what that key makes of
them (`State.rekeys`; R399, log entry 71). Where every place is `Real`, `rekeys` changes nothing. `u` is `s` with what the
access's translation leaves. -/
def Puts (s t : State) (ws : List (Loc × Byte)) : Prop :=
  ∃ u, u = s.withTlb u ∧ SameMemory s u
    ∧ (∀ l, l.Real → t.byte l =
        written ((ws.filter fun w => s.takes w.1).map fun w => (w.1.plain, w.2)) l ((u.rekeys (ws.map (·.1))).byte l))
    ∧ SameKeys (u.rekeys (ws.map (·.1))) t

/-- The same, and no agent out of focus changes but for what such writes change in it. -/
def Stored (s t : State) (ws : List (Loc × Byte)) : Prop := Puts s t ws ∧ SamePop s.pop t.pop

/-- The memories are in their canonical form: the premise of every statement about stored bytes. -/
def State.Canonical (s : State) : Prop :=
  Memory.wf s.ms.dram = true ∧ Memory.wf s.ms.cxl = true ∧ Memory.wf s.ms.pcie = true ∧ Memory.wf s.core.pool = true
    ∧ (∀ c ∈ s.pop.cores, Memory.wf c.pool = true) ∧ ∀ c ∈ s.pop.tenders, Memory.wf c.sram = true

/-! After a length-bearing instruction. -/

/-- `s` after a length-bearing instruction that made good its whole effective length (R30, R31): MG takes it, POS
counts, VFCS takes flags (R34). -/
def State.counted (s : State) (fl : Flags) : State :=
  { s with strand := { s.strand with
      mg := BitVec.ofNat 64 s.n, pos := min (s.strand.pos + 1) 0xFFFF, vfcs := fcsOr s.strand.vfcs fl } }

/-- `s` with the vector registers, tide marks and swatches of `t`. -/
def State.withVec (s t : State) : State :=
  { s with strand := { s.strand with v := t.strand.v, tide := t.strand.tide, sw := t.strand.sw } }

/-- `s` with the mask registers of `t`. -/
def State.withMask (s t : State) : State := { s with strand := { s.strand with m := t.strand.m } }

/-- Register `r` is in the group. -/
def Grp.has (x : Grp) (r : Nat) : Prop := ∃ j < x.size, (x.start + j) % 32 = r

/-- Vector registers outside a group keep image, tide mark and swatch. -/
def OtherRegs (s t : State) (g : Grp) : Prop :=
  ∀ r < 32, ¬ g.has r → t.strand.vreg r = s.strand.vreg r ∧ vget t.strand.tide r 0 = vget s.strand.tide r 0
    ∧ vget t.strand.sw r Swatch.creation = vget s.strand.sw r Swatch.creation

/-- Elements of a destination group after all `n` were made good (R35, R154, R155): an active one has its result; an
inactive one is kept, or under the free mask policy may be all ones; one of the tail is kept, or under the free tail
policy may be all ones or zero. -/
def Elements (s t : State) (g : Grp) (w n : Nat) (act : Nat → Bool) (res : Nat → Nat) : Prop :=
  ∀ i < g.cap w,
    (i < n → act i = true → t.strand.elem g.start w i = res i % 2 ^ w)
    ∧ (i < n → act i = false → t.strand.elem g.start w i = s.strand.elem g.start w i
        ∨ (s.ty.free = true ∧ t.strand.elem g.start w i = ones w))
    ∧ (n ≤ i → t.strand.elem g.start w i = s.strand.elem g.start w i
        ∨ (s.ty.keep = false ∧ (t.strand.elem g.start w i = ones w ∨ t.strand.elem g.start w i = 0)))

/-- Tide marks of the members (R39, R154). -/
def Tides (s t : State) (g : Grp) (w n : Nat) : Prop :=
  ∀ j < g.size, vget t.strand.tide ((g.start + j) % 32) 0 =
    if s.ty.keep then 8 else min 8 (ceilDiv (n - j * perReg w) (perGroup w))

/-- A whole vector instruction with a destination group: elements, tide marks, the counts, and nothing else. -/
def VecWrote (s t : State) (g : Grp) (w : Nat) (act : Nat → Bool) (res : Nat → Nat) (fl : Flags) : Prop :=
  t = ((s.withVec t).counted fl).moved t 4 ∧ Elements s t g w s.n act res ∧ Tides s t g w s.n ∧ OtherRegs s t g
    ∧ SameMemory s t

/-- The code of a register's swatch (R297). -/
def State.swOf (s : State) (r : Nat) : Nat := (vget s.strand.sw (r % 32) Swatch.creation).code.toNat

/-- The KIND of a constant swatch at a width; a unit's is 3 more (R297). -/
def constKind (w : Nat) : Nat := if w = 16 then 2 else if w = 32 then 3 else 4

/-- The swatch of elements of width `w` that all hold one code (R186, R297): zero, constant with its finite bit, or general. -/
def constantSwatch (w c : Nat) : Nat :=
  if c = 0 then 0x201
  else if w = 64 then 4 + (if c / 2 ^ 52 % 2 ^ 11 = 0x7FF then 0 else 512)
  else if w = 32 then 3 + (if c / 2 ^ 23 % 2 ^ 8 = 0xFF then 0 else 512)
  else if w = 16 then 2 + (if c / 2 ^ 10 % 2 ^ 5 = 0x1F ∨ c / 2 ^ 7 % 2 ^ 8 = 0xFF then 0 else 512)
  else 0

/-- The swatch `sw` that a line of bytes `b` takes from a write of all of it with element width `w` (R298). -/
def LineTakes (w : Nat) (b : Nat → Byte) (sw : Nat) : Prop :=
  let sz := w / 8
  let m := 128 / sz
  let el := fun p => ofBytes ((List.range sz).map fun i => b (p * sz + i))
  let const := ∀ p < m, el p = el 0
  let unit := fun u => el u = (if w = 16 then 0x3F80 else if w = 32 then 0x3F800000 else 0x3FF0000000000000) ∧ ∀ p < m, p ≠ u → el p = 0
  let known := w = 16 ∨ w = 32 ∨ w = 64
  (const → el 0 = 0 ∨ known → sw = constantSwatch w (el 0))
  ∧ (known → ∀ u < m, unit u → sw = 512 + 8 * u + constKind w + 3)
  ∧ ((∃ p < m, el p ≠ 0) → ¬ known ∨ (¬ const ∧ ∀ u < m, ¬ unit u) → sw = 0)

/-- A whole vector instruction with a mask destination (R151): active bits have their results, and other mask
registers stay. -/
def MaskWrote (s t : State) (md : BitVec 3) (act : Nat → Bool) (res : Nat → Bool) (fl : Flags) : Prop :=
  t = ((s.withMask t).counted fl).moved t 4
    ∧ (∀ i < 32768, i < s.n → act i = true → t.strand.mbit md.toNat i = res i)
    ∧ (∀ i < 32768, i < s.n → act i = false → t.strand.mbit md.toNat i = s.strand.mbit md.toNat i
        ∨ (s.ty.free = true ∧ t.strand.mbit md.toNat i = true))
    ∧ (∀ i < 32768, s.n ≤ i → s.ty.keep = true → t.strand.mbit md.toNat i = s.strand.mbit md.toNat i)
    ∧ (∀ k, k ≠ md.toNat → ∀ i, t.strand.mbit k i = s.strand.mbit k i) ∧ SameMemory s t

/-- `s` after a length-bearing instruction that made good only its first `k` elements (R30, R31): MG and MGS fall to them, MGF
tells why and where in the strip, POS counts, VFCS takes flags. -/
def State.shortened (s : State) (k kind flg : Nat) (fl : Flags) : State :=
  { s with strand := { s.strand with
      mg := BitVec.ofNat 64 k, mgs := BitVec.ofNat 64 k
      mgf := BitVec.ofNat 64 (kind + 256 * flg + 65536 * min s.strand.pos 0xFFFF)
      pos := min (s.strand.pos + 1) 0xFFFF, vfcs := fcsOr s.strand.vfcs fl } }

/-- Elements before `e` in whole blocks (R30). -/
def State.whole (s : State) (e : Nat) : Nat := if s.ty.blk = 0 then e else s.ty.blk * (e / s.ty.blk)

/-- A whole instruction with a scalar result and the counts of a length-bearing one. -/
def VecScalar (s t : State) (d : BitVec 6) (x : Word) : Prop :=
  t = ((s.withDest t d).counted 0).moved t 4 ∧ RegsAfter s t d x ∧ SameMemory s t

/-- Single elements of one register are written, and the rest of the vector registers stays (R39, R200). -/
def Singles (s t : State) (d w : Nat) (f : Nat → Option Nat) : Prop :=
  (∀ e < perReg w, t.strand.elem d w e = match f e with | some x => x % 2 ^ w | none => s.strand.elem d w e)
    ∧ OtherRegs s t { start := d, size := 1 }

/-- A whole instruction that writes single elements of one register. -/
def VecSingle (s t : State) (d w : Nat) (f : Nat → Option Nat) (fl : Flags) : Prop :=
  t = ((s.withVec t).counted fl).moved t 4 ∧ Singles s t d w f ∧ SameMemory s t

/-- No active element below n raises an exception that VFCS enables (R34). -/
def State.NoTrap (s : State) (act : Nat → Bool) (fl : Nat → Flags) : Prop :=
  ∀ i < s.n, act i = true → fl i &&& fcsEn s.strand.vfcs = 0

/-- The register groups of fields `vs` are pairwise the same or disjoint (R177), there is at least one element and no
more than the type allows (R31), and nothing delays the issue; a mask may be lent. -/
def State.Groups (s : State) (m : BitVec 3) (rs : List (BitVec 6)) (vs : List (BitVec 5)) : Prop :=
  s.LentReady m rs ∧ 0 < s.n ∧ s.n ≤ s.ty.vmax ∧ allSameOr (vs.map s.grp) = true

/-- The elements that a mask field, or the mask lent to field 0, makes active (R66, R151). -/
def State.act (s : State) (m : BitVec 3) (i : Nat) : Bool :=
  if m ≠ 0 then s.strand.mbit m.toNat i
  else decide (s.hart.pfxs = 0) || xor (s.strand.mbit (s.hart.pfxs.toNat / 2 ^ 10 % 8) i) (s.hart.pfxs.getLsbD 9)

/-- Instruction `i` gives the active elements of the group of `d` their results, and VFCS their exceptions, when none of
them is enabled (R34, R179). -/
def State.Vectors (s : State) (i : Instr) (m : BitVec 3) (d : BitVec 5) (op : Nat → FRes) : Prop :=
  s.NoTrap (s.act m) (fun e => (op e).fl) →
    ∃ t, exec i s = .next t ∧ VecWrote s t (s.grp d) s.ty.w (s.act m) (fun e => (op e).code)
      (activeFlags (s.act m) (fun e => (op e).fl) s.n)

/-- The same for a mask destination. -/
def State.Masks (s : State) (i : Instr) (m md : BitVec 3) (res : Nat → Bool) (fl : Nat → Flags) : Prop :=
  s.NoTrap (s.act m) fl →
    ∃ t, exec i s = .next t ∧ MaskWrote s t md (s.act m) res (activeFlags (s.act m) fl s.n)

/-! Accumulators. -/

/-- The check of R283 lets the strand use accumulator z: it is the strand's own, or nobody's and not saved. -/
def State.MayUse (s : State) (z : BitVec 1) : Prop :=
  (s.acc z).mine s.strand.tag = true ∨ ((s.acc z).owned = false ∧ s.savedBit z = false)

/-- Accumulator z as it stands after that check: the strand's own, or the reset one that it claims. -/
def State.accNow (s : State) (z : BitVec 1) : Acc :=
  if (s.acc z).mine s.strand.tag then s.acc z else { Acc.reset with own := s.strand.tag, owned := true }

/-- `s` with that accumulator. -/
def State.owning (s : State) (z : BitVec 1) : State := s.setAcc z (s.accNow z)

/-- A whole matrix instruction: accumulator z becomes `a`; the counts; and nothing else. -/
def AccWrote (s t : State) (z : BitVec 1) (a : Acc) (fl : Flags) : Prop :=
  t = ((s.setAcc z a).counted fl).moved t 4 ∧ SameMemory s t

/-- The elements of a bank under an accumulation format, all 512 bytes of its 64 rows (R279). -/
def BankIs (b : Bank) (af : Nat) (f : Nat → Nat → Nat) : Prop :=
  ∀ r < 64, ∀ c < 512 / esz af, b.elem af r c = f r c % 2 ^ (8 * esz af)

/-! Vector memory. -/

/-- A whole vector load: its group, the translations it used, the counts, and no byte of memory. -/
def VecLoaded (s t : State) (g : Grp) (w : Nat) (act : Nat → Bool) (res : Nat → Nat) : Prop :=
  t = (((s.withVec t).withTlb t).counted 0).moved t 4 ∧ Elements s t g w s.n act res ∧ Tides s t g w s.n ∧ OtherRegs s t g
    ∧ SameMemory s t

/-- A whole vector store: its bytes in order, the counts, and no register. -/
def VecStored (s t : State) (ws : List (Loc × Byte)) : Prop :=
  t = ((s.withStore t).counted 0).moved t 4 ∧ Stored s t ws

/-- The elements that a vector memory instruction performs: active and no padding (R222). -/
def State.performed (s : State) (m : BitVec 3) (i : Nat) : Bool :=
  s.act m i && !(decide (s.ty.blk ≠ 0) && decide (s.strand.sreq.toNat ≤ i))

/-- Every performed element of `sz` bytes at `addr` passes the checks of R252, at the places `L`, and conflicts with no
copy of the strand (R264). -/
def State.Reaches (s : State) (need : Need) (m : BitVec 3) (sz : Nat) (addr : Nat → Word) (L : Nat → List Loc) : Prop :=
  ∀ i < s.n, s.performed m i = true → s.Clear need.w (addr i) sz ∧ s.check s.aspace need (addr i) sz = .ok (L i)

/-- The first of the elements performed under `m` that stops is `k`, with the stop and the address that TVAL takes: an
element's address cannot be found, or it is not aligned where it must be, or one of its checks fails (R222, R240, R252).
None of them conflicts with a copy of the strand (R264). -/
def State.StopsAt (s : State) (need : Need) (aligned : Bool) (m : BitVec 3) (sz : Nat) (addr : Nat → Except Stop Word)
    (k : Nat) (tval : Word) (st : Stop) : Prop :=
  let at_ := fun i => match addr i with
    | .error st => some (st.addr, st)
    | .ok ea =>
      if aligned = true ∧ ea.toNat % sz ≠ 0 then some (ea, Stop.plain 2 ea)
      else match s.check s.aspace need ea sz with
        | .error st => some (ea, st)
        | .ok _ => none
  k < s.n ∧ s.performed m k = true ∧ at_ k = some (tval, st) ∧ (∀ i < k, s.performed m i = true → at_ i = none)
    ∧ ∀ i < s.n, s.performed m i = true → ∀ ea, addr i = .ok ea → s.Clear need.w ea sz

/-- The bytes that a store of the elements below `k` of group `d` writes at the places `L`, in index order: an element of 4
bits changes its own half of its byte (R226, R228). -/
def State.elemBytes (s : State) (m : BitVec 3) (L : Nat → List Loc) (d : BitVec 5) (k : Nat) : List (Loc × Byte) :=
  let w := s.ty.w
  let D := fun i => s.strand.elem d.toNat w i
  let on := fun i => decide (i < k) && s.performed m i
  if w = 4 then
    (List.range ((k + 1) / 2)).flatMap fun j =>
      match (if on (2 * j) then L (2 * j) else if on (2 * j + 1) then L (2 * j + 1) else []) with
      | l :: _ =>
        let old := (s.byte l).toNat
        [(l, BitVec.ofNat 8 ((if on (2 * j) then D (2 * j) else old % 16) + 16 * (if on (2 * j + 1) then D (2 * j + 1) else old / 16)))]
      | [] => []
  else (List.range k).flatMap fun i => if on i then (L i).zip (bytesOf (BitVec.ofNat w (D i))) else []

/-- The state, as far as its bytes go, and the old values after read-modify-writes of the elements `l`, one after another:
`op` gives the new value of an element, if any, from its old one (R232, R234). -/
def State.rmwAll (s : State) (L : Nat → List Loc) (sz : Nat) (op : Nat → Nat → Option Nat) (l : List Nat) :
    State × (Nat → Nat) :=
  l.foldl (fun (r : State × (Nat → Nat)) e =>
    let old := ofBytes (r.1.bytes (L e))
    (match op e old with
     | some x => r.1.store none ((L e).zip (bytesOf (BitVec.ofNat (8 * sz) x)))
     | none => r.1, fun i => if i = e then old else r.2 i)) (s, fun _ => 0)

/-- No copy of the strand conflicts with what a gazetteer instruction accesses of its table: the entries in use, which gacc
writes, and those that an insertion may append to (R98, R264, R319). -/
def State.TableClear (s : State) (ins acc : Bool) : Prop :=
  let used := s.strand.govc.toNat
  let cap := s.strand.govl.toNat
  (0 < used → s.Clear acc (s.strand.entryAt 0) (16 * used))
    ∧ (ins = true → 4096 < s.strand.gents.length + s.n → used < cap → s.Clear true (s.strand.entryAt used) (16 * (cap - used)))

/-! Tenders. -/

/-- `s` after a tender job began: its token register is pending until the token is written (R355). -/
def State.began (s : State) (d : BitVec 6) (kind : JobKind) : State :=
  { s with
    fabric := { s.fabric with
      next := s.fabric.next + 1
      jobs := s.fabric.jobs ++ [{ id := s.fabric.next, owner := s.strand.tag, reg := d, kind := kind, entered := false
                                  last := 0, parent := none, done := none, left := none }] }
    strand := { s.strand with tokens := s.strand.tokens ++ [{ reg := d, job := s.fabric.next }] } }

/-- A tender instruction may begin: nothing delays its issue, and fewer than 16 tokens are pending (R356, R386). -/
def State.TenderReady (s : State) (rs : List (BitVec 6)) : Prop :=
  s.VectorReady rs ∧ 8 ≤ s.ty.w ∧ s.strand.tokens.length < 16

/-- One side of a copied element answers: it is reached here, or at a peer outside the package (R357, R358). -/
def State.Answers (s : State) (sd : CopySide) (n : Need) (ea : Word) (sz : Nat) : Prop :=
  (∃ ls, s.sideAt sd n ea sz = .here ls) ∨ ∃ p a, s.sideAt sd n ea sz = .away p a

/-- The bytes of elements below k at `L`, padding as 0 (R227). -/
def State.carried (s : State) (L : Nat → List Loc) (k : Nat) : List Byte :=
  (List.range k).flatMap fun i => if s.performed 0 i then s.bytes (L i) else List.replicate s.ty.sz 0

/-- The elements below c carry no poison, and c is the first that does when it is below n (R361, R366). -/
def State.SoundTo (s : State) (L : Nat → List Loc) (n c : Nat) : Prop :=
  (∀ i < c, s.performed 0 i = true → ∀ l ∈ L i, s.poisoned l = false)
    ∧ (c = n ∨ (c < n ∧ s.performed 0 c = true ∧ ∃ l ∈ L c, s.poisoned l = true))

/-! Events. -/

/-- No agent is in focus: all of them stand in the population. -/
def State.Unfocused (s : State) : Prop :=
  s.priv = false ∧ s.hart = Hart.reset ∧ s.strand = Strand.reset ∧ s.flot = Flotilla.reset ∧ s.core = Core.reset 0

/-! Taking an exception (R112, R140, R375, R378). -/

/-- TVEC entry of a strand. -/
def AtHandler (s t : State) (cause detail flg : Nat) (tval next : Word) : Prop :=
  t = { s with
    hart := { s.hart with pc := s.strand.tvec, pfxs := 0, monArmed := false, wait := .running }
    strand := { s.strand with
      tpc := s.hart.pc + next, tpfx := s.hart.pfxs.setWidth 64, tcause := causeWord cause detail flg, tval := tval
      kept := { lastd := s.hart.lastd, mg := s.strand.mg, mgs := s.strand.mgs, mgf := s.strand.mgf
                mgr := s.strand.mgr, mgc := s.strand.mgc, sreq := s.strand.sreq, grant := s.strand.grant }
      inh := true, cut := none, fetchd := [] }
    fresh := t.fresh }

/-- A strand's trap to the Bridge: it halts with CCAUSE, CTVAL and CPC, its tag is queued, BINT bit 0 rings. -/
def AtBridge (s t : State) (cause detail flg lvl : Nat) (mal rsv : Bool) (tval next : Word) : Prop :=
  let b := tagBerth s.strand.tag
  let die := coreDie s.core.id
  t.strand = { s.strand with
      status := .trapped
      ccause := causeWord cause detail flg + BitVec.ofNat 64 (2 ^ 24 * (lvl % 8) + (if mal then 2 ^ 27 else 0)
        + (if rsv then 2 ^ 28 else 0))
      ctval := tval, cpc := s.hart.pc + next, cut := none, fetchd := [] }
    ∧ t.hart = { s.hart with monArmed := false, wait := .running }
    ∧ (t.berthAt b).trapq = vset (s.berthAt b).trapq die (vget (s.berthAt b).trapq die [] ++ [s.strand.tag])
    ∧ (∀ k < 16, k ≠ b → t.berthAt k = s.berthAt k)
    ∧ t.pop.bcores = s.pop.bcores.map (fun x =>
        if x.bcore.berth.toNat = b && x.bcore.queueDies.contains die then { x with bcore := { x.bcore with bint := x.bcore.bint ||| 1 } }
        else x)
    ∧ t.ms = s.ms ∧ t.core = s.core ∧ t.flot = s.flot ∧ t.pilot = s.pilot ∧ t.fabric = s.fabric ∧ t.iod = s.iod
    ∧ t.mgmt = s.mgmt ∧ t.pop.ctxs = s.pop.ctxs ∧ t.pop.cores = s.pop.cores ∧ t.pop.flots = s.pop.flots
    ∧ t.pop.tenders = s.pop.tenders

/-- A Bridge core's trap outside its handler: BEPC, BECAUSE, BETVAL, INTR, and the pc at BVEC. -/
def AtVector (s t : State) (cause detail flg : Nat) (tval next : Word) : Prop :=
  t = { s with
    hart := { s.hart with pc := s.bcore.bvec, pfxs := 0, monArmed := false, wait := .running }
    bcore := { s.bcore with bepc := s.hart.pc + next, because := causeWord cause detail flg, betval := tval, intr := true }
    fresh := t.fresh }

/-- What an exception does, by who takes it: a Bridge core at its own vector, or by a machine check when it is already
in its handler; a strand at TVEC, or to the Bridge when the cause asks it, when TVEC is 0, or within a handler with
cause 9 (R50, R77, R112, R140, R375, R378). -/
def Trapped (s t : State) (cause detail flg lvl : Nat) (mal rsv : Bool) (tval next : Word) (bridge : Bool) : Prop :=
  if s.priv then
    if s.bcore.intr then t.bcore.stopped = true else AtVector s t cause detail flg tval next
  else if bridge = true ∨ s.strand.tvec = 0 then AtBridge s t cause detail flg lvl mal rsv tval next
  else if s.strand.inh then AtBridge s t 9 cause 0 lvl mal rsv tval next
  else AtHandler s t cause detail flg tval next

/-- A trap without flags and walk information, at the instruction itself. -/
def Traps (s t : State) (cause detail : Nat) (tval : Word) (bridge : Bool) : Prop :=
  Trapped s t cause detail 0 0 false false tval 0 bridge

end Sys2Proof.Machine
end

