-- ==== Sys2Proof/Certificates/Slice0/Obligations.lean ====
section
/-!
DEFINITION. The statements for the provers. Each docstring names the rules of spec/ that it formalises; OBLIGATIONS.json
lists them.
-/

open Sys2Proof Sys2Proof.Machine

/-! Encodings, steps, reset. -/

/-- R55 to R75: the encoder's word of a well-formed instruction fits the instruction's size, has the framing bit of that
size, and decodes to that instruction, whatever its operands; a Bridge core's rtn has the word of rtn (R379). -/
def Obligations.DecodeEncode : Prop :=
  ∀ i : Instr, i.encoded = true → i.wf = true →
    ∃ wide w, encode i = some (wide, w) ∧ w < (if wide then 2 ^ 32 else 2 ^ 16) ∧ w % 2 = (if wide then 1 else 0)
      ∧ decode (w % 65536) (w / 65536) = .ok (match i with | .rtnBridge => .rtn | i => i)

/-- R55, R76: a word or parcel that decodes decodes to a well-formed instruction whose encoding is that word: no two
words mean the same instruction, and no bit of a word is ignored. -/
def Obligations.EncodeDecode : Prop :=
  ∀ (p0 p1 : Nat) (i : Instr), p0 < 65536 → p1 < 65536 → decode p0 p1 = .ok i →
    i.wf = true ∧ encode i = some (if p0 % 2 = 1 then (true, p0 + 65536 * p1) else (false, p0))

/-- R68 to R75, R88, R92, R99 to R103 and the tables of worked words of the chapters: words written out there, and compact
parcels from the fields of R61, decode to the instructions that they stand for. -/
def Obligations.DecodedWords : Prop :=
  (∀ x ∈ [(0x0238C283, Instr.sub 5 6 7), (0xFFC08205, .addi 4 4 0x1FF8), (0x02308295, .ldsI 2 5 4 8), (0x2468A491, .ldhi 9 0x12345),
      (0xFFFA219B, .bz 1 3 0xFFFA), (0x0290A21D, .bc 2 4 5 10), (0x0000801F, .jal 0x100), (0x0A10E32B, .setvl 0 0 1 1 1 6 7),
      (0x0028822B, .advmg 2 4 4), (0x941840B1, .vfma 2 1 2 3), (0x62594241, .vld 1 1 0 1 11 10 4), (0x2669844F, .tst 0 0 3 13 12 8),
      (0xC638C059, .opadd 1 4 3 7 6 0), (0x208029A5, .mfs 0x41 5), (0x02480E27, .pfxMask 1 9 3 1), (0x1838C2A9, .fma 1 5 6 7),
      (0x05908399, .amoAdd 0 2 3 7 4), (0x1208_4361, .glkpO 1 6 2), (0x123042AD, .spawn 1 5 2 6), (0x063084D3, .tcopy 3 9 4 6),
      (0x00083CA5, .kslot 7 4), (0x300000A3, .fenceAcq 3), (0x0000007F, .breakpoint 0)],
    decode (x.1 % 65536) (x.1 / 65536) = .ok x.2)
  ∧ decode (2 * 0x01 + 64 * 5 + 2048 * 6) 0 = .ok (.addC 6 5) ∧ decode (2 * 0x16 + 64 * 31 + 2048 * 1) 0 = .ok (.liC 1 31)
  ∧ decode 0 0 = .error .unassigned ∧ decode (1 + 2 * 0x33) 0 = .error .futureMajor

/-- R55, R83, R379, R427: at full function, a strand's or a Bridge core's turn executes the instruction that its parcels
decode to, a Bridge core's rtn as its own row, in the state as the fetch leaves it: the caches of translations filled, as any
access fills them, and nothing else (R391); the parcel of a place that has no old one left is memory's. A turn of a
strand that does not run does nothing, which is the model's choice (log entry 4); an event's turn executes the event. At a tender's
turn the RV64 instruction at its pc runs, as R353 says; that instruction set is not the spec's (log entry 61). -/
def Obligations.StepRunsDecoded : Prop :=
  ∀ (s : State) (tag : BitVec 16) (id : Nat) (rest : List Turn) (i : Instr) (inp : Input) (p0 p1 : BitVec 16) (ea : Word) (k : Nat)
    (l : Loc) (ls : List Loc),
    let f := ({ s with turns := rest } : State).focus tag
    let b := ({ s with turns := rest } : State).focusBridge id
    let reads := fun (u : State) => u.fetchParcel u.hart.pc 0 = .ok p0 ∧ (p0.toNat % 2 = 1 → u.fetchParcel (u.hart.pc + 2) 1 = .ok p1)
      ∧ decode p0.toNat p1.toNat = .ok i
    let here := s.turns = .strand tag :: rest ∧ s.live = true ∧ f.priv = false ∧ f.strand.tag = tag
    (here → f.strand.status = .running → f.strand.rfpois = none → f.strand.cutReq = none → f.hart.wait = .running → reads f →
        step s = exec i f.fetched)
    ∧ (here → f.strand.status ≠ .running → ∃ t, step s = .next t ∧ Waited f t)
    ∧ (s.priv = false → s.strand.tag = tag → s.strand.status ≠ .absent → f = { s with turns := rest })
    ∧ (s.turns = .bridge id :: rest → s.bridgeLive id = true → s.priv = true → s.bcore.id = id → s.bcore.stopped = false →
        s.hart.wait = .running → reads b → p0.toNat % 2 = 1 → bridgeMajor (p0.toNat + 65536 * p1.toNat) = true →
        step s = exec (match i with | .rtn => .rtnBridge | i => i) b.fetched ∧ b = { s with turns := rest })
    ∧ (∀ u : State, u.fetched = u.withTlb u.fetched ∧ SameMemory u u.fetched)
    ∧ (s.turns = .event i inp :: rest → s.live = true → isEvent i = true → step s = exec i { s with turns := rest, inp := inp })
    ∧ (s.turns = .tender id :: rest → s.live = true → (s.pop.tenderAt id).stopped = false →
        step s = (match ({ s with turns := rest } : State).firmwareStep id with
          | (t, some (j, inp)) => exec j { t with inp := inp }
          | (t, none) => .next t))
    ∧ (inPool ea = false → s.check s.aspace Need.fetch ea 2 = .ok (l :: ls) → s.oldParcels l = [] →
        s.fetchParcel ea k = .ok (s.parcelAt l)
          ∧ (s.parcelAt l).toNat = ofBytes (s.bytes [{ l with addr := l.addr / 2 * 2 }, { l with addr := l.addr / 2 * 2 + 1 }]))

/-- R25, R39, R62, R67, R110, R151, R157, R160, R161, R167, R212, R243, R280, R283, R299, R311, R338, R342, R357, R376, R377,
R411, R427, R434: right after
reset the memories are in their canonical form, no agent is in focus, staged start has not begun, and every register that
the manual gives a reset value holds it: a strand's, an accumulator's, a core's, a Bridge core's, the link registers of a
berth, the management window. -/
def Obligations.ResetState : Prop :=
  let s := State.reset
  let st := Strand.reset
  let m := s.mgmt
  s.Canonical ∧ s.Unfocused ∧ s.pop.ctxs = [] ∧ s.pilot.launches = [] ∧ s.fabric.jobs = [] ∧ m.started = false
  ∧ m.stage = 0 ∧ m.fail = 0 ∧ m.fatal = false ∧ m.drdy = 0 ∧ m.busy = false ∧ m.status = 0 ∧ m.melb = 0 ∧ m.melh = 0 ∧ m.melen = 0
  ∧ m.mpwr = 0xBB8 ∧ m.mtemp = 0 ∧ m.fm = List.replicate 32 0
  ∧ (∀ r < 64, Hart.reset.get r = 0) ∧ Hart.reset.lastd = 0 ∧ Hart.reset.pfxs = 0 ∧ Hart.reset.insn = 0 ∧ Hart.reset.sfcs = 0 ∧ Hart.reset.monArmed = false ∧ Hart.reset.monFired = false
  ∧ st.type = 0 ∧ st.vfcs = 0 ∧ st.spth = 64 ∧ st.ach = 0 ∧ st.tshp = 1 ∧ st.mg = 0 ∧ st.mgs = 0 ∧ st.mgf = 0 ∧ st.mgr = 0 ∧ st.mgc = 0
  ∧ st.sreq = 0 ∧ st.tvec = 0 ∧ st.tscr = 0 ∧ st.tcause = 0 ∧ st.tpc = 0 ∧ st.tval = 0 ∧ st.tpfx = 0 ∧ st.inh = false
  ∧ (∀ k < 4, vget st.spare k 0 = 0) ∧ (∀ k < 16, vget st.pal k 0 = 0) ∧ (∀ k < 8, ∀ i < 32768, st.mbit k i = false)
  ∧ st.tcsp = 0 ∧ st.spnr = 0 ∧ Flotilla.reset.bm = 0 ∧ st.ccause = 0 ∧ st.ctval = 0 ∧ st.cpc = 0
  ∧ st.govb = 0 ∧ st.govl = 0 ∧ st.govc = 0 ∧ st.gflt = 0 ∧ st.gents = []
  ∧ (∀ r < 32, (∀ i < 2048, vget (st.vreg r) i 0 = 0) ∧ vget st.tide r 0 = 0 ∧ (vget st.sw r { code := 0, len := 0 }).code = 0x201)
  ∧ Flotilla.reset.fgr = 64 ∧ (∀ id, (Core.reset id).cyc = 0 ∧ (Core.reset id).pspl = 8)
  ∧ Acc.reset.mxe = 0x18040 ∧ Acc.reset.owned = false ∧ Acc.reset.work.zero = true ∧ Acc.reset.vis.zero = true
  ∧ (∀ id, let b := BCore.reset id
       b.att = false ∧ b.intr = false ∧ b.bctx = 0 ∧ b.bcmd = false ∧ b.bsel = 0 ∧ b.bvec = Config.bvecEntry &&& ~~~1 ∧ b.bepc = 0 ∧ b.because = 0
       ∧ b.betval = 0 ∧ b.bscr = 0 ∧ b.bint = 0 ∧ b.basp = 0 ∧ b.broot = 0)
  ∧ ∀ k < 16, let b := s.berthAt k
       b.used = false ∧ b.started = false ∧ b.brcnt = 0 ∧ b.crbase = 0 ∧ b.cqbase = 0 ∧ b.evbase = 0 ∧ b.cqhead = 0 ∧ b.evhead = 0
       ∧ b.enable = 0 ∧ b.lstat = 0 ∧ ∀ r < 64, vget b.keys r .active = .empty

/-- Every step keeps the memories in their canonical form: addresses rising, and no entry for a byte that holds what an
unlisted address reads as. The statements about stored bytes have it as their premise. That an unlisted byte reads as 0 is
the model's choice (log entry 3). -/
def Obligations.StepKeepsCanonical : Prop :=
  ∀ (s t : State), s.Canonical → step s = .next t → t.Canonical

/-- R55, R76, R77, R121, R145, R268, R373 (a Bridge core's trap clears PFXS: log entry 10; detail 1 on a Bridge core for every
encoding outside R373's majors: log entry 74): a breakpoint goes to the Bridge with detail 4; a word that is no instruction
traps with its detail; a parcel that cannot be fetched traps with cause 6 and its own address in TVAL, at the address of
the word's first parcel; a Bridge core runs no other major than its own. -/
def Obligations.FetchTraps : Prop :=
  ∀ (s : State) (x : BitVec 25) (w : BitVec 32) (d : BitVec 8) (kind : BitVec 4) (addr : Word) (p0 p1 : BitVec 16) (st : Stop) (ls : List Loc),
    let T := fun (i : Instr) (detail : Nat) (word : Nat) (bridge : Bool) => ∃ t, exec i s = .next t ∧ Traps s t 1 detail (BitVec.ofNat 64 word) bridge
    let F := fun (i : Instr) (kind : Nat) (addr : Word) => ∃ t lvl mal rsv, exec i s = .next t ∧ Trapped s t 6 kind 0 lvl mal rsv addr 0 true
    let pc := s.hart.pc
    let v := p0.toNat + 65536 * p1.toNat
    let major := v / 2 % 64
    (s.priv = false → T (.breakpoint x) 4 (127 + 128 * x.toNat) true)
    ∧ (s.priv = true → T (.breakpoint x) 1 (127 + 128 * x.toNat) false)
    ∧ T (.illegalInstruction w d) d.toNat w.toNat (decide (d = 4))
    ∧ (s.check s.aspace Need.fetch addr 2 = .error st → ∃ t, exec (.fetchFault kind addr) s = .next t
        ∧ Trapped s t 6 kind.toNat 0 st.lvl st.mal st.rsv addr 0 true)
    ∧ (s.check s.aspace Need.fetch addr 2 = .ok ls → ∃ t, exec (.fetchFault kind addr) s = .next t
        ∧ Trapped s t 6 kind.toNat 0 0 false false addr 0 true)
    ∧ (inPool pc = true → F s.fetchStep 2 pc)
    ∧ (s.fetchParcel pc 0 = .error st → st.kind < 16 → F s.fetchStep st.kind pc)
    ∧ (s.fetchParcel pc 0 = .ok p0 → p0.toNat % 2 = 1 → s.fetchParcel (pc + 2) 1 = .error st → st.kind < 16 → F s.fetchStep st.kind (pc + 2))
    ∧ (s.fetchParcel pc 0 = .ok p0 → p0.toNat % 2 = 1 → s.fetchParcel (pc + 2) 1 = .ok p1 →
        (major = 0 ∨ major = 0x17 → T s.fetchStep 1 v false)
        ∧ (s.priv = false → 0x33 ≤ major → major ≤ 0x3E → T s.fetchStep 3 v false)
        ∧ (s.priv = false → major = 0x3F → T s.fetchStep 4 v true)
        ∧ (s.priv = true → 0x14 < major → major ≠ 0x16 ∨ 1 ≤ v / 2 ^ 28 → T s.fetchStep 1 v false))
    ∧ (s.fetchParcel pc 0 = .ok p0 → p0.toNat % 2 = 0 →
        (p0.toNat / 2 % 32 = 0 ∨ 0x1A ≤ p0.toNat / 2 % 32 → T s.fetchStep 1 p0.toNat false)
        ∧ (s.priv = true → T s.fetchStep 1 p0.toNat false))

/-! Scalar integer instructions. -/

/-- R113, R114, R107, R62: the register-register forms. Each writes its result to gd and nothing else: g0 discards it, no
flag, memory byte or system register changes.
R113: the counting forms, by what they count: leading zeros, trailing zeros, ones. -/
def Obligations.IntegerResults : Prop :=
  (∀ (s : State) (d a b : BitVec 6), s.Ready [d, a, b] →
    let x := s.g a
    let y := s.g b
    let R := fun (i : Instr) (r : Word) => ∃ t, exec i s = .next t ∧ Wrote s t d r 4
    R (.add d a b) (x + y) ∧ R (.sub d a b) (x - y) ∧ R (.and d a b) (x &&& y) ∧ R (.or d a b) (x ||| y)
    ∧ R (.xor d a b) (x ^^^ y)
    ∧ R (.shl d a b) (x <<< (y.toNat % 64)) ∧ R (.shr d a b) (x >>> (y.toNat % 64))
    ∧ R (.sra d a b) (x.sshiftRight (y.toNat % 64))
    ∧ R (.mul d a b) (x * y)
    ∧ R (.mulh d a b) (BitVec.ofInt 64 (x.toInt * y.toInt / 2 ^ 64))
    ∧ R (.mulhn d a b) (BitVec.ofNat 64 (x.toNat * y.toNat / 2 ^ 64))
    ∧ R (.div d a b) (if y = 0 then -1 else BitVec.ofInt 64 (Int.tdiv x.toInt y.toInt))
    ∧ R (.divn d a b) (if y = 0 then -1 else BitVec.ofNat 64 (x.toNat / y.toNat))
    ∧ R (.rem d a b) (if y = 0 then x else BitVec.ofInt 64 (Int.tmod x.toInt y.toInt))
    ∧ R (.remn d a b) (if y = 0 then x else BitVec.ofNat 64 (x.toNat % y.toNat))
    ∧ R (.min d a b) (if x.toInt ≤ y.toInt then x else y) ∧ R (.max d a b) (if x.toInt ≤ y.toInt then y else x)
    ∧ R (.minn d a b) (if x.toNat ≤ y.toNat then x else y) ∧ R (.maxn d a b) (if x.toNat ≤ y.toNat then y else x)
    ∧ R (.slt d a b) (if x.toInt < y.toInt then 1 else 0) ∧ R (.sltn d a b) (if x.toNat < y.toNat then 1 else 0)
    ∧ R (.sel d a b) (if s.g d = 0 then y else x))
  ∧ (∀ (s : State) (d a : BitVec 6), s.Ready [d, a] →
    let x := s.g a
    let R := fun (i : Instr) (r : Nat) => r ≤ 64 ∧ ∃ t, exec i s = .next t ∧ Wrote s t d (BitVec.ofNat 64 r) 4
    (∃ n, R (.clz d a) n ∧ x.toNat < 2 ^ (64 - n) ∧ (n < 64 → 2 ^ (63 - n) ≤ x.toNat))
    ∧ (∃ n, R (.ctz d a) n ∧ x.toNat % 2 ^ n = 0 ∧ (n < 64 → x.getLsbD n = true))
    ∧ R (.popc d a) ((List.range 64).countP fun i => x.getLsbD i))

/-- R58, R115: the immediate forms, ldhi and adr.
R62, R63: the compact forms read L, the register that LASTD names, and write the low register gd; the pc moves by 2. -/
def Obligations.ImmediateAndCompactResults : Prop :=
  (∀ (s : State) (d a : BitVec 6) (imm : BitVec 13) (n : BitVec 6) (wide : BitVec 19), s.Ready [d, a] →
    let x := s.g a
    let k := imm.signExtend 64
    let R := fun (i : Instr) (r : Word) => ∃ t, exec i s = .next t ∧ Wrote s t d r 4
    R (.addi d a imm) (x + k) ∧ R (.andi d a imm) (x &&& k) ∧ R (.ori d a imm) (x ||| k) ∧ R (.xori d a imm) (x ^^^ k)
    ∧ R (.slti d a imm) (if x.toInt < k.toInt then 1 else 0)
    ∧ R (.shiShl d a n) (x <<< n.toNat) ∧ R (.shiShr d a n) (x >>> n.toNat) ∧ R (.shiSra d a n) (x.sshiftRight n.toNat)
    ∧ R (.ldhi d wide) (wide.signExtend 64 <<< 13) ∧ R (.adr d wide) (s.hart.pc + wide.signExtend 64))
  ∧ (∀ (s : State) (b d imm : BitVec 5), s.StrandReady [d.setWidth 6, s.hart.lastd, b.setWidth 6] →
    let x := s.g s.hart.lastd
    let y := s.g (b.setWidth 6)
    let k := imm.signExtend 64
    let R := fun (i : Instr) (r : Word) => ∃ t, exec i s = .next t ∧ Wrote s t (d.setWidth 6) r 2
    R (.addC b d) (x + y) ∧ R (.subC b d) (x - y) ∧ R (.andC b d) (x &&& y) ∧ R (.orC b d) (x ||| y)
    ∧ R (.xorC b d) (x ^^^ y) ∧ R (.shlC b d) (x <<< (y.toNat % 64)) ∧ R (.shrC b d) (x >>> (y.toNat % 64))
    ∧ R (.sraC b d) (x.sshiftRight (y.toNat % 64)) ∧ R (.mulC b d) (x * y)
    ∧ R (.minC b d) (if x.toInt ≤ y.toInt then x else y) ∧ R (.maxC b d) (if x.toInt ≤ y.toInt then y else x)
    ∧ R (.minnC b d) (if x.toNat ≤ y.toNat then x else y) ∧ R (.maxnC b d) (if x.toNat ≤ y.toNat then y else x)
    ∧ R (.sltC b d) (if x.toInt < y.toInt then 1 else 0) ∧ R (.sltnC b d) (if x.toNat < y.toNat then 1 else 0)
    ∧ R (.addiC imm d) (x + k) ∧ R (.andiC imm d) (x &&& k) ∧ R (.shliC imm d) (x <<< imm.toNat)
    ∧ R (.shriC imm d) (x >>> imm.toNat) ∧ R (.sraiC imm d) (x.sshiftRight imm.toNat)
    ∧ R (.movC b d) y ∧ R (.liC imm d) k ∧ ∃ t, exec .nopC s = .next t ∧ Moved s t 2)

/-- R58, R59, R120: a branch moves the pc by its offset in parcels when its condition holds, else by 4; jal and jr write
the address of the next instruction; jr's target comes from ga as it stood. That jr drops bit 0 of its target is the
model's choice (log entry 14). -/
def Obligations.BranchesAndJumps : Prop :=
  ∀ (s : State) (d a b : BitVec 6) (off16 : BitVec 16) (off10 : BitVec 10) (off25 : BitVec 25) (imm : BitVec 13),
    s.Ready [63, d, a, b] →
    let x := s.g a
    let y := s.g b
    let next := s.hart.pc + 4
    let Go := fun (i : Instr) (taken : Prop) (by_ : Word) => ∃ t, exec i s = .next t ∧ (taken → Moved s t by_) ∧ (¬ taken → Moved s t 4)
    let z := off16.signExtend 64 * 2
    let c := off10.signExtend 64 * 2
    (Go (.bz 0 a off16) (x = 0) z ∧ Go (.bz 1 a off16) (x ≠ 0) z ∧ Go (.bz 2 a off16) (x.toInt < 0) z
      ∧ Go (.bz 3 a off16) (0 ≤ x.toInt) z ∧ Go (.bz 4 a off16) (0 < x.toInt) z ∧ Go (.bz 5 a off16) (x.toInt ≤ 0) z)
    ∧ (Go (.bc 0 a b off10) (x = y) c ∧ Go (.bc 1 a b off10) (x ≠ y) c ∧ Go (.bc 2 a b off10) (x.toInt < y.toInt) c
      ∧ Go (.bc 3 a b off10) (y.toInt ≤ x.toInt) c ∧ Go (.bc 4 a b off10) (x.toNat < y.toNat) c
      ∧ Go (.bc 5 a b off10) (y.toNat ≤ x.toNat) c)
    ∧ (∃ t, exec (.jal off25) s = .next t ∧ Wrote s t 63 next (off25.signExtend 64 * 2))
    ∧ ∃ t, exec (.jr d a imm) s = .next t ∧ Wrote s t d next (t.hart.pc - s.hart.pc)
        ∧ t.hart.pc = (x + imm.signExtend 64) &&& ~~~(1 : Word)

/-! Scalar memory. -/

/-- R116, R117: a load whose checks pass writes the little-endian value, sign- or zero-extended, and changes no byte. -/
def Obligations.ScalarLoads : Prop :=
  ∀ (s : State) (w : BitVec 2) (d a : BitVec 6) (imm : BitVec 10) (k e : BitVec 5) (ls ls' : List Loc),
    s.Ready [d, a] →
    let n := 2 ^ w.toNat
    let ea := s.g a + (imm.signExtend 64 <<< w.toNat)
    let x := BitVec.ofNat (8 * n) (ofBytes (s.bytes ls))
    (s.Clear false ea n → s.check s.aspace Need.load ea n = .ok ls →
      (∃ t, exec (.ldsI w d a imm) s = .next t ∧ Loaded s t d (x.signExtend 64) 4)
      ∧ ∃ t, exec (.ldsN w d a imm) s = .next t ∧ Loaded s t d (x.setWidth 64) 4)
    ∧ (let ea := s.g s.hart.lastd + 8 * k.setWidth 64
       s.StrandReady [e.setWidth 6, s.hart.lastd] → s.Clear false ea 8 → s.check s.aspace Need.load ea 8 = .ok ls' →
        ∃ t, exec (.ldsC k e) s = .next t ∧ Loaded s t (e.setWidth 6) (BitVec.ofNat 64 (ofBytes (s.bytes ls'))) 2)

/-- R116, R117, R228: a store whose checks pass writes the low bytes of the register at the address, the lowest first,
and no other byte; registers and flags stay. Under another key than its line's a store gives the line that key (R399, log entry
71), which `Stored` says; where every place is the line's own, no byte outside them changes. -/
def Obligations.ScalarStores : Prop :=
  ∀ (s : State) (w : BitVec 2) (d a : BitVec 6) (imm : BitVec 10) (k e : BitVec 5) (ls ls' : List Loc), s.Canonical →
    (let n := 2 ^ w.toNat
     let ea := s.g a + (imm.signExtend 64 <<< w.toNat)
     s.Ready [d, a] → s.Clear true ea n → s.check s.aspace Need.store ea n = .ok ls →
      ∃ t, exec (.sts w d a imm) s = .next t ∧ t = (s.withStore t).moved t 4
        ∧ Stored s t (ls.zip (bytesOf ((s.g d).setWidth (8 * n))))
        ∧ ((∀ l ∈ ls, l.Real) → ∀ l, l.Real → l ∉ ls → t.byte l = s.byte l))
    ∧ (let ea := s.g s.hart.lastd + 8 * k.setWidth 64
       s.StrandReady [e.setWidth 6, s.hart.lastd] → s.Clear true ea 8 → s.check s.aspace Need.store ea 8 = .ok ls' →
        ∃ t, exec (.stsC k e) s = .next t ∧ t = (s.withStore t).moved t 2 ∧ Stored s t (ls'.zip (bytesOf (s.g (e.setWidth 6)))))

/-- R95, R118, R119, R127: an atomic (one that is a release with no copy of the strand in flight) reads the old value into gd,
sign-extended at 32 bits, and writes its new value, in one step. amo.cas writes only when gd held the old value. One that is a
release waits while a copy is in flight. -/
def Obligations.ScalarAtomics : Prop :=
  ∀ (s : State) (w : BitVec 1) (scope : BitVec 3) (ord : BitVec 2) (d a : BitVec 6) (ls : List Loc) (q : Interlock) (rest : List Interlock),
    let n := if w = 1 then 4 else 8
    let ea := s.g a
    s.Canonical → s.Ready [d, a, d + 1] → ea.toNat % n = 0 →
    (2 ≤ ord.toNat → s.priv = false → s.strand.irt = q :: rest →
      ∀ i ∈ [Instr.amoSwap w scope ord d a, .amoAdd w scope ord d a, .amoAnd w scope ord d a, .amoOr w scope ord d a, .amoXor w scope ord d a,
        .amoMin w scope ord d a, .amoMax w scope ord d a, .amoMinn w scope ord d a, .amoMaxn w scope ord d a, .amoCas w scope ord d a],
      s.Stalls i q)
    ∧ ((2 ≤ ord.toNat → s.NoCopies) → s.Clear true ea n → s.check s.aspace Need.rmw ea n = .ok ls →
    let old := BitVec.ofNat (8 * n) (ofBytes (s.bytes ls))
    let x := (s.g d).setWidth (8 * n)
    let R := fun (i : Instr) (new : List Byte) => ∃ t, exec i s = .next t
      ∧ t = ((s.withStore t).withDest t d).moved t 4 ∧ RegsAfter s t d (old.signExtend 64) ∧ Stored s t (ls.zip new)
    R (.amoSwap w scope ord d a) (bytesOf x) ∧ R (.amoAdd w scope ord d a) (bytesOf (old + x))
    ∧ R (.amoAnd w scope ord d a) (bytesOf (old &&& x)) ∧ R (.amoOr w scope ord d a) (bytesOf (old ||| x))
    ∧ R (.amoXor w scope ord d a) (bytesOf (old ^^^ x))
    ∧ R (.amoMin w scope ord d a) (bytesOf (if old.toInt < x.toInt then old else x))
    ∧ R (.amoMax w scope ord d a) (bytesOf (if old.toInt < x.toInt then x else old))
    ∧ R (.amoMinn w scope ord d a) (bytesOf (if old.toNat < x.toNat then old else x))
    ∧ R (.amoMaxn w scope ord d a) (bytesOf (if old.toNat < x.toNat then x else old))
    ∧ R (.amoCas w scope ord d a) (if old = x then bytesOf ((s.g (d + 1)).setWidth (8 * n)) else []))

/-- R63, R95, R117, R119, R137, R340, R341 (a Bridge core's trap clears PFXS: log entry 10): an access that fails a check of
R252 takes cause 5 to the Bridge with the failing address; a misaligned amo, mon, join or tend takes cause 3 with the
address. Neither writes a register or a byte. -/
def Obligations.ScalarAccessTraps : Prop :=
  ∀ (s : State) (w : BitVec 2) (u : BitVec 1) (scope : BitVec 3) (ord : BitVec 2) (d a : BitVec 6) (imm : BitVec 10) (k e : BitVec 5)
    (st : Stop),
    s.Ready [d, a] →
    let n := 2 ^ w.toNat
    let ea := s.g a + (imm.signExtend 64 <<< w.toNat)
    let m := if u = 1 then 4 else 8
    let T := fun (i : Instr) => ∃ t, exec i s = .next t ∧ Trapped s t 5 st.kind 0 st.lvl st.mal st.rsv st.addr 0 true
    let A := fun (i : Instr) => ∃ t, exec i s = .next t ∧ Traps s t 3 0 (s.g a) false
    (s.Clear false ea n → s.check s.aspace Need.load ea n = .error st → T (.ldsI w d a imm) ∧ T (.ldsN w d a imm))
    ∧ (s.Clear true ea n → s.check s.aspace Need.store ea n = .error st → T (.sts w d a imm))
    ∧ ((2 ≤ ord.toNat → s.NoCopies) → (s.g a).toNat % m = 0 → s.Clear true (s.g a) m →
        s.check s.aspace Need.rmw (s.g a) m = .error st →
        T (.amoSwap u scope ord d a) ∧ T (.amoAdd u scope ord d a) ∧ T (.amoAnd u scope ord d a) ∧ T (.amoOr u scope ord d a)
        ∧ T (.amoXor u scope ord d a) ∧ T (.amoMin u scope ord d a) ∧ T (.amoMax u scope ord d a)
        ∧ T (.amoMinn u scope ord d a) ∧ T (.amoMaxn u scope ord d a)
        ∧ (s.Ready [d, a, d + 1] → T (.amoCas u scope ord d a)))
    ∧ (let ea := s.g s.hart.lastd + 8 * k.setWidth 64
       s.StrandReady [e.setWidth 6, s.hart.lastd] →
        (s.Clear false ea 8 → s.check s.aspace Need.load ea 8 = .error st → T (.ldsC k e))
        ∧ (s.Clear true ea 8 → s.check s.aspace Need.store ea 8 = .error st → T (.stsC k e)))
    ∧ ((s.g a).toNat % 8 = 0 →
        (s.Clear false (s.g a) 8 → s.check s.aspace Need.load (s.g a) 8 = .error st →
          T (.mon d a) ∧ (s.priv = false → T (.join a)))
        ∧ (s.priv = false → s.strand.irt = [] → a ≠ 0 → s.check s.aspace Need.rmw (s.g a) 8 = .error st → T (.tend a)))
    ∧ ((s.g a).toNat % m ≠ 0 → A (.amoSwap u scope ord d a) ∧ A (.amoAdd u scope ord d a) ∧ A (.amoAnd u scope ord d a)
        ∧ A (.amoOr u scope ord d a) ∧ A (.amoXor u scope ord d a) ∧ A (.amoMin u scope ord d a)
        ∧ A (.amoMax u scope ord d a) ∧ A (.amoMinn u scope ord d a) ∧ A (.amoMaxn u scope ord d a))
    ∧ (s.Ready [d, a, d + 1] → (s.g a).toNat % m ≠ 0 → A (.amoCas u scope ord d a))
    ∧ ((s.g a).toNat % 8 ≠ 0 → A (.mon d a) ∧ (s.priv = false → A (.join a) ∧ (s.strand.irt = [] → a ≠ 0 → A (.tend a))))

/-! Scalar floating point. -/

/-- R122 to R126: scalar floating point. The result, rounded once, is written zero-extended and its exceptions are ORed
into SFCS; when an enabled exception is raised, the instruction traps instead with cause 2 and all of them in FLG, and
writes nothing. A trap of a Bridge core clears PFXS (DEDUCED, log entry 10). FLG 0 of the cause 0x09 that such a trap raises
within a handler is the model's choice (DESIGN CHOICE, log entry 72), and so is which zero .minnum and .maxnum return (DESIGN
CHOICE, log entry 96). -/
def Obligations.ScalarFloats : Prop :=
  ∀ (s : State) (fmt src var : BitVec 2) (u r : BitVec 1) (d a b : BitVec 6), s.Ready [d, a, b] →
    let f := ffOf fmt.toNat
    let rd := fun (f : FF) (r : BitVec 6) => decodeNum f ((s.g r).toNat % 2 ^ f.width)
    let x := rd f a
    let y := rd f b
    let z := rd f d
    let rm := rndOf (s.hart.sfcs.toNat % 8)
    let rv := if var = 0 then rm else if var = 1 then Rnd.rne else if var = 2 then Rnd.rtz else Rnd.odd
    let R := fun (i : Instr) (p : FRes) => ∃ t, exec i s = .next t
      ∧ (p.fl &&& BitVec.ofNat 5 (s.hart.sfcs.toNat / 2 ^ 16) = 0 → WroteFp s t d (BitVec.ofNat 64 p.code) p.fl)
      ∧ (p.fl &&& BitVec.ofNat 5 (s.hart.sfcs.toNat / 2 ^ 16) ≠ 0 → Trapped s t 2 0 p.fl.toNat 0 false false 0 0 false)
    let C := fun (i : Instr) (b : Bool) (fl : Flags) => R i { code := if b then 1 else 0, fl := fl }
    let nan := x.isNan || y.isNan
    let snan := if x.isSnan || y.isSnan then fInvalid else 0
    let loud := if nan then fInvalid else 0
    R (.fadd fmt var d a b) (fpAdd f rv x y) ∧ R (.fsub fmt var d a b) (fpAdd f rv x y.negate)
    ∧ R (.fmul fmt var d a b) (fpMul f rv x y) ∧ R (.fdiv fmt var d a b) (fpDiv f rv x y)
    ∧ R (.fma fmt d a b) (fpFma f rm false false x y z) ∧ R (.fmaSub fmt d a b) (fpFma f rm false true x y z)
    ∧ R (.fmaNeg fmt d a b) (fpFma f rm true false x y z)
    ∧ R (.fminmaxMin fmt d a b) (fpMinMax f false x y) ∧ R (.fminmaxMax fmt d a b) (fpMinMax f true x y)
    ∧ R (.fminmaxMinnum fmt d a b) (fpMinMaxNum f false x y) ∧ R (.fminmaxMaxnum fmt d a b) (fpMinMaxNum f true x y)
    ∧ R (.fcvtFloat fmt src d a) (roundNum f rm (rd (ffOf src.toNat) a))
    ∧ R (.fcvtFromInt fmt u d a) (let n : Int := if u = 1 then ((s.g a).toNat : Int) else (s.g a).toInt
        roundFin f rm (n < 0) n.natAbs 0)
    ∧ R (.fcvtToInt fmt u r d a) (numToInt (u = 0) 64 (if r = 1 then Rnd.rtz else rm) x)
    ∧ C (.fcmpEq fmt d a b) (!nan && cmpNum x y = 0) snan ∧ C (.fcmpLt fmt d a b) (!nan && cmpNum x y < 0) loud
    ∧ C (.fcmpLe fmt d a b) (!nan && cmpNum x y ≤ 0) loud ∧ C (.fcmpUn fmt d a b) nan snan

/-- R159, R163: a value that a floating format represents is unchanged by rounding to that format, in every mode, with no
exception: rounding moves only values that do not fit. e2m1 has no negative zero, so its code 8 is left out.
R111, R125, R159, R163, R169, R171: a finite value that is not above the largest finite number of the format rounds, by its
magnitude on a grid 2^z fine enough for it and for every number of the format, to a nearest number under nearest-even, the
even code where two are as near; to the next number toward zero or away from it, by the sign, under the directed modes; to itself
or the neighbour with an odd code under round-to-odd; to one of the two neighbours under stochastic rounding. Inexact is
raised exactly when the value changes, underflow only then, and nothing else. A zero keeps its sign, but that e2m1 has one zero. -/
def Obligations.RoundingExact : Prop :=
  (∀ (fmt c : Nat) (mode : Rnd), fmt ≤ 6 → c < 2 ^ (ffOf fmt).width → (fmt = 6 → c ≠ 8) →
    (∀ n m e, decodeNum (ffOf fmt) c = .fin n m e → roundNum (ffOf fmt) mode (decodeNum (ffOf fmt) c) = { code := c, fl := 0 })
    ∧ (∀ n, decodeNum (ffOf fmt) c = .inf n → roundNum (ffOf fmt) mode (decodeNum (ffOf fmt) c) = { code := c, fl := 0 }))
  ∧ (∀ (fmt : Nat) (mode : Rnd) (n : Bool) (m : Nat) (e z : Int), fmt ≤ 6 → z ≤ e → z ≤ -1074 →
    let f := ffOf fmt
    let x := m * 2 ^ (e - z).toNat
    -- `c` is a number of the format, of magnitude `v`
    let num := fun (c v : Nat) => c < 2 ^ f.width ∧ (fmt = 6 → c ≠ 8) ∧ ∃ s k g, decodeNum f c = .fin s k g ∧ v = k * 2 ^ (g - z).toNat
    let r := roundNum f mode (.fin n m e)
    (∃ c v, num c v ∧ x ≤ v) → ∃ y, num r.code y ∧ r.code / 2 ^ (f.width - 1) = (if n = true ∧ ¬ (fmt = 6 ∧ y = 0) then 1 else 0)
      ∧ (let below := y ≤ x ∧ ∀ c v, num c v → v ≤ x → v ≤ y
         let above := x ≤ y ∧ ∀ c v, num c v → x ≤ v → y ≤ v
         let far := fun (a : Nat) => (a - x) + (x - a)
         (mode = .rne → ∀ c v, num c v → far y ≤ far v ∧ (far v = far y → v ≠ y → r.code % 2 = 0))
         ∧ (mode = .rtz → below) ∧ (mode = .up → if n then below else above) ∧ (mode = .down → if n then above else below)
         ∧ (mode = .odd → y = x ∨ (r.code % 2 = 1 ∧ (below ∨ above))) ∧ ∀ k, mode = .stoch k → below ∨ above)
      ∧ (r.fl &&& fInexact ≠ 0 ↔ y ≠ x) ∧ (r.fl &&& fUnderflow ≠ 0 → y ≠ x) ∧ r.fl &&& ~~~(fInexact ||| fUnderflow) = 0)

/-! Fences, caches, system instructions. -/

/-- R127 to R131, R134, R264: a fence waits while a copy of the strand is in flight, and cwb, cinv and iinv while one conflicts
with their range. With none in flight, fences, cwb, cinv, prefi, nop and fbar only advance
the pc, but that fbar drops the parcels the strand has fetched and iinv the old ones of its range from the core's
instruction cache. That fences, cwb and cinv do nothing more is the model's choice (log entry 5), and so is which old parcels
may still be fetched (log entry 15).
R110, R132, R376: cresz sets PSPL to min(ga, 14) and writes it to gd; the scratchpad keeps exactly the bytes below
both sizes and reads as 0 beyond. On a Bridge core, which has no pool, it writes 0 (the model's choice, log entry 16). -/
def Obligations.CachesAndScratchpad : Prop :=
  (∀ (s : State) (scope : BitVec 3) (a b : BitVec 6) (q : Interlock) (rest : List Interlock), s.Ready [a, b] →
    let R := fun (i : Instr) (u : State) => ∃ t, exec i s = .next t ∧ Moved u t 4
    let last := min ((s.g a).toNat + (s.g b).toNat - 1) (2 ^ 64 - 1)
    (s.priv = false → s.strand.irt = q :: rest →
      (s.Stalls (.fenceAcq scope) q ∧ s.Stalls (.fenceRel scope) q ∧ s.Stalls (.fenceAcqrel scope) q)
      ∧ (s.g b ≠ 0 → q.stops false (s.g a).toNat last = true → s.Stalls (.cwb scope a b) q ∧ s.Stalls (.cinv scope a b) q ∧ s.Stalls (.iinv scope a b) q))
    ∧ (s.NoCopies → R (.fenceAcq scope) s ∧ R (.fenceRel scope) s ∧ R (.fenceAcqrel scope) s ∧ R (.cwb scope a b) s ∧ R (.cinv scope a b) s
    ∧ R (.prefi a b) s ∧ R .nop s ∧ R .fbar { s with strand := { s.strand with fetchd := [] } }
    ∧ R (.iinv scope a b) (if s.g b = 0 then s else { s with core := { s.core with
        icache := s.core.icache.filter fun e => !(s.parcelIn (s.g a).toNat last e.1) } })))
  ∧ (∀ (s : State) (d a : BitVec 6), s.Ready [d, a] →
    let n := min (s.g a).toNat 14
    let keep := min n s.core.pspl.toNat * 16384
    (s.priv = false → s.strand.irt = [] →
      ∃ t, exec (.cresz d a) s = .next t ∧ RegsAfter s t d (BitVec.ofNat 64 n) ∧ t.core.pspl = BitVec.ofNat 5 n
        ∧ t.hart.pc = s.hart.pc + 4 ∧ t.strand = s.strand ∧ t.ms = s.ms ∧ t.flot = s.flot ∧ t.berths = s.berths
        ∧ ∀ x, t.byte { space := .pool, addr := x } = if x < keep then s.byte { space := .pool, addr := x } else 0)
    ∧ (s.priv = true → ∃ t, exec (.cresz d a) s = .next t ∧ Wrote s t d 0 4))

/-- R136, R378, R381 (a Bridge core's trap clears PFXS: log entry 10; svc is not counted in INSN: log entry 76): svc n of a
strand always goes to the Bridge with cause 7 and CTVAL = n; the restart PC is the address after it. A Bridge core takes it
at its own vector.
R28, R138, R143: rtn of a handler entered at TVEC puts PC, PFXS, LASTD and the made-good record back, ends the handler,
disarms the monitor and opens a strip, whose boundary every copy in flight stands before (R29; that its parcels stay fetched
is R268); it restores no other register. That the grant of the last setvl is kept with the record is log entry 78. Without a
handler it is illegal with detail 6 (R143), as are halt in a strand (R139) and rtn in it. -/
def Obligations.ServiceCallsAndReturns : Prop :=
  (∀ (s : State) (k : BitVec 9), s.Ready [] →
    let T := fun (i : Instr) (n : Nat) => ∃ t, exec i s = .next t ∧ Trapped s t 7 0 0 0 false false (BitVec.ofNat 64 n) 4 true
    T .svcRetire 0 ∧ T .svcAbort 1 ∧ T .svcReserve 2 ∧ T .svcRelease 3 ∧ T .svcFork 4 ∧ T .svcShootdown 5
    ∧ T .svcExportWindow 6 ∧ T .svcReopenGroup 7 ∧ T (.svcUnknown k) k.toNat)
  ∧ (∀ (s : State), s.priv = false →
    let k := s.strand.kept
    (s.Ready [] → s.strand.inh = true → ∃ t, exec .rtn s = .next t ∧ Waited { s with
        hart := { s.hart with pc := s.strand.tpc, pfxs := s.strand.tpfx.setWidth 32, lastd := k.lastd, monArmed := false,
                              insn := s.hart.insn + 1 }
        strand := { s.strand with inh := false, mg := k.mg, mgs := k.mgs, mgf := k.mgf, mgr := k.mgr, mgc := k.mgc,
                                  sreq := k.sreq, grant := k.grant, pos := 0,
                                  gran := openGranule s.strand.type s.strand.ach,
                                  irt := s.strand.irt.map fun e => { e with bar := true } } } t)
    ∧ (s.strand.inh = false → ∃ t, exec .rtn s = .next t ∧ ∃ w, encode .rtn = some (true, w) ∧ Traps s t 1 6 (BitVec.ofNat 64 w) false)
    ∧ ∃ t, exec .halt s = .next t ∧ ∃ w, encode .halt = some (true, w) ∧ Traps s t 1 6 (BitVec.ofNat 64 w) false)

/-- R137, R138: mon reads its word and arms the monitor on the line; mwait ends at once when the monitor had fired (0) or
none is armed (2), and otherwise waits at its own address. A monitor both fired and not armed leaves either reason.
R138, R139, R344: what ends a wait. A fired monitor ends mwait with reason 0, a lost one or a request with 2, the passed
cycles with 1, whatever is written to CYC; a pending pre-emption request that reaches it halts the strand after it. A halted
Bridge core goes on when a bit of BINT is 1. -/
def Obligations.MonitorsAndWaits : Prop :=
  (∀ (s : State) (d a : BitVec 6) (l : Loc) (ls : List Loc), s.Ready [d, a] →
    let ea := s.g a
    let ended := fun (t : State) (reason : Word) => RegsAfter s t d reason ∧ SameMemory s t
      ∧ t = (let u := s.withDest t d
             { u with hart := { u.hart with monArmed := false } }).moved t 4
    (ea.toNat % 8 = 0 → s.Clear false ea 8 → s.check s.aspace Need.load ea 8 = .ok (l :: ls) →
      ∃ t, exec (.mon d a) s = .next t ∧ RegsAfter s t d (BitVec.ofNat 64 (ofBytes (s.bytes (l :: ls)))) ∧ SameMemory s t
        ∧ t = (let u := (s.withDest t d).withTlb t
               { u with hart := { u.hart with monArmed := true, monFired := false, monLine := some l.line } }).moved t 4)
    ∧ (s.hart.monArmed = true → s.hart.monFired = true → ∃ t, exec (.mwait d a) s = .next t ∧ ended t 0)
    ∧ (s.hart.monArmed = false → s.hart.monFired = false → ∃ t, exec (.mwait d a) s = .next t ∧ ended t 2)
    ∧ (s.hart.monArmed = false → s.hart.monFired = true → ∃ t, exec (.mwait d a) s = .next t ∧ (ended t 0 ∨ ended t 2))
    ∧ (s.hart.monArmed = true → s.hart.monFired = false → ∃ t, exec (.mwait d a) s = .next t
        ∧ Waited { s with hart := { s.hart with
            lastd := if d = 0 then s.hart.lastd else d
            wait := .mwait d (if s.g a = 0 then none
              else some (if s.priv then s.bcore.ran else s.core.ran, s.g a)) } } t))
  ∧ (∀ (s : State) (d : BitVec 6) (start k : Word),
    let asked := s.inp.flag = true ∧ s.priv = false ∧ s.strand.cutReq ≠ none
    let ran := if s.priv then s.bcore.ran else s.core.ran
    let ended := fun (t : State) (reason : Word) => (∀ r, t.g r = if r = d ∧ d ≠ 0 then reason else s.g r) ∧ SameMemory s t
      ∧ t = { s with hart := { s.hart with g := t.hart.g, monArmed := false } }.moved t 4
    (s.hart.wait = .mwait d none ∨ s.hart.wait = .mwait d (some (start, k)) →
      (¬ asked → s.hart.monFired = true → ∃ t, exec .mwaitWake s = .next t ∧ ended t 0)
      ∧ (¬ asked → s.hart.monFired = false → s.hart.monArmed = false → ∃ t, exec .mwaitWake s = .next t ∧ ended t 2)
      ∧ (¬ asked → s.hart.monFired = false → s.hart.monArmed = true → ∃ t, exec .mwaitWake s = .next t ∧ Waited s t)
      ∧ (asked → ∃ t, exec .mwaitWake s = .next t ∧ t.strand.status = .halted
          ∧ t.hart.wait = .running ∧ t.strand.cpc = s.hart.pc + 4 ∧ ∀ r, t.g r = if r = d ∧ d ≠ 0 then 2 else s.g r))
    ∧ (s.hart.wait = .mwait d (some (start, k)) →
        (k.toNat ≤ (ran - start).toNat → ∃ t, exec .mwaitTimeout s = .next t ∧ ended t 1)
        ∧ ((ran - start).toNat < k.toNat → ∃ t, exec .mwaitTimeout s = .next t ∧ Waited s t))
    ∧ (s.hart.monArmed = true →
        (s.inp.flag = false → ∃ t, exec .spuriousMonitorFire s = .next t ∧ Waited { s with hart := { s.hart with monFired := true } } t)
        ∧ (s.inp.flag = true → ∃ t, exec .spuriousMonitorFire s = .next t ∧ Waited { s with hart := { s.hart with monArmed := false } } t))
    ∧ (s.priv = true →
        (s.Ready [] → s.bcore.bint = 0 → ∃ t, exec .halt s = .next t ∧ Waited { s with hart := { s.hart with wait := .halt } } t)
        ∧ (s.hart.wait = .halt → s.bcore.bint ≠ 0 → ∃ t, exec .haltWake s = .next t ∧ Moved s t 4)
        ∧ (s.hart.wait = .halt → s.bcore.bint = 0 → ∃ t, exec .haltWake s = .next t ∧ Waited s t)))

/-- R64 to R67: pfx leaves its own word in PFXS. A scalar successor then runs when its condition holds, whichever it is, as
it runs without a loan, writing the copy register too, and has no effect but its retirement when it does not. A vector
successor is governed by the lent mask or its complement (the statements about vector instructions hold of a lent mask too),
and its copy group takes what its destination takes and keeps its own elements where the destination keeps. Any other
successor, among them an amo and a branch, and a loan of another class, is illegal with detail 5 and keeps PFXS, but that a
trap of a Bridge core clears it (DEDUCED, log entry 10); so is a copy field of 32 or more before a vector successor (DESIGN
CHOICE, log entry 86). FLG 0 of the cause 0x09 that a floating trap raises within a handler is the model's choice too (DESIGN
CHOICE, log entry 72). -/
def Obligations.Loans : Prop :=
  ∀ (s : State) (ce neg : BitVec 1) (c pred d a b : BitVec 6) (m cond mf : BitVec 3) (word : Nat) (imm : BitVec 13) (wide : BitVec 19)
    (wd fmt src var ord : BitVec 2) (off : BitVec 10) (ls : List Loc) (j : Instr) (jw : Nat) (big : Bool) (vd va vb : BitVec 5)
    (u w1 so eo : BitVec 1) (p2 : BitVec 2) (disp : BitVec 16) (t0 : State) (L : Nat → List Loc),
    let lent := fun (i : Instr) => encode i = some (true, word) ∧ i.wf = true
    let P := fun (i : Instr) => s.Ready [] → lent i → ∃ t, exec i s = .next t
      ∧ Waited { s with hart := { s.hart with pc := s.hart.pc + 4, pfxs := BitVec.ofNat 32 word, insn := s.hart.insn + 1, wait := .running } } t
    let pending := fun (i : Instr) => lent i ∧ s.hart.pfxs = BitVec.ofNat 32 word
    let lends := fun (i : Instr) => pending i ∧ s.pendingOn [pred, d, a, b, c] = none
    let conds := lends (.pfxCond ce c cond pred)
    let p := s.g pred
    let holds := if cond = 0 then decide (p = 0) else if cond = 1 then decide (p ≠ 0) else if cond = 2 then decide (p.toInt < 0)
      else if cond = 3 then decide (0 ≤ p.toInt) else if cond = 4 then decide (0 < p.toInt) else decide (p.toInt ≤ 0)
    let twice := fun (t : State) (x : Word) => ∀ r, t.g r = if (r = d ∨ r = c) ∧ r ≠ 0 then x else s.g r
    let both := fun (t : State) (x : Word) => t = (s.withDest t d).moved t 4 ∧ SameMemory s t ∧ twice t x
    let S := fun (i : Instr) (x : Word) =>
      (conds → holds = true → ∃ t, exec i s = .next t ∧ (ce = 0 → Wrote s t d x 4) ∧ (ce = 1 → both t x))
      ∧ (lends (.pfxCopy c) → ∃ t, exec i s = .next t ∧ both t x)
    let f := ffOf fmt.toNat
    let rd := fun (f : FF) (r : BitVec 6) => decodeNum f ((s.g r).toNat % 2 ^ f.width)
    let rm := rndOf (s.hart.sfcs.toNat % 8)
    let rv := if var = 0 then rm else if var = 1 then Rnd.rne else if var = 2 then Rnd.rtz else Rnd.odd
    let en := BitVec.ofNat 5 (s.hart.sfcs.toNat / 2 ^ 16)
    -- a floating result and its exceptions, or the trap of an enabled one, which writes no copy
    let F := fun (i : Instr) (p : FRes) =>
      let x := BitVec.ofNat 64 p.code
      let U : State := { s with hart := { s.hart with sfcs := fcsOr s.hart.sfcs p.fl } }
      let done := fun (two : Bool) => ∃ t, exec i s = .next t
        ∧ (p.fl &&& en = 0 → (two = false → WroteFp s t d x p.fl) ∧ (two = true → t = (U.withDest t d).moved t 4 ∧ SameMemory s t ∧ twice t x))
        ∧ (p.fl &&& en ≠ 0 → Trapped s t 2 0 p.fl.toNat 0 false false 0 0 false)
      (conds → holds = true → done (ce = 1)) ∧ (lends (.pfxCopy c) → done true)
    let any := pending (.pfxCopy c) ∨ pending (.pfxCond ce c cond pred) ∨ pending (.pfxMask ce c m neg)
    let T := fun (i : Instr) => ∃ t w wide, exec i s = .next t ∧ encode i = some (wide, w) ∧ Traps s t 1 5 (BitVec.ofNat 64 w) false
    let major := jw / 2 % 64
    let n := 2 ^ wd.toNat
    let ea := s.g a + (off.signExtend 64 <<< wd.toNat)
    P (.pfxMask ce c m neg) ∧ P (.pfxCond ce c cond pred) ∧ P (.pfxCopy c)
    -- scalar successors
    ∧ (conds → holds = false → encode j = some (true, jw) → j.wf = true → (1 ≤ major ∧ major ≤ 0x0B) ∨ major = 0x14 →
        ce = 0 ∨ major ≠ 0x0B → ∃ t, exec j s = .next t ∧ Moved s t 4)
    -- one whose condition holds does without a copy what it does without a loan
    ∧ (conds → holds = true → ce = 0 → encode j = some (true, jw) → j.wf = true → (1 ≤ major ∧ major ≤ 0x0B) ∨ major = 0x14 →
        exec j { s with hart := { s.hart with pfxs := 0 } } = .next t0 → t0.hart.insn = s.hart.insn + 1 → exec j s = .next t0)
    ∧ F (.fadd fmt var d a b) (fpAdd f rv (rd f a) (rd f b)) ∧ F (.fsub fmt var d a b) (fpAdd f rv (rd f a) (rd f b).negate)
    ∧ F (.fmul fmt var d a b) (fpMul f rv (rd f a) (rd f b)) ∧ F (.fdiv fmt var d a b) (fpDiv f rv (rd f a) (rd f b))
    ∧ F (.fma fmt d a b) (fpFma f rm false false (rd f a) (rd f b) (rd f d))
    ∧ F (.fminmaxMin fmt d a b) (fpMinMax f false (rd f a) (rd f b)) ∧ F (.fcvtFloat fmt src d a) (roundNum f rm (rd (ffOf src.toNat) a))
    ∧ F (.fcvtToInt fmt u 0 d a) (numToInt (u = 0) 64 rm (rd f a))
    ∧ F (.fcmpUn fmt d a b) { code := if (rd f a).isNan || (rd f b).isNan then 1 else 0
                              fl := if (rd f a).isSnan || (rd f b).isSnan then fInvalid else 0 }
    ∧ S (.add d a b) (s.g a + s.g b) ∧ S (.sub d a b) (s.g a - s.g b) ∧ S (.xor d a b) (s.g a ^^^ s.g b)
    ∧ S (.mul d a b) (s.g a * s.g b) ∧ S (.sel d a b) (if s.g d = 0 then s.g b else s.g a)
    ∧ S (.slt d a b) (if (s.g a).toInt < (s.g b).toInt then 1 else 0) ∧ S (.addi d a imm) (s.g a + imm.signExtend 64)
    ∧ S (.andi d a imm) (s.g a &&& imm.signExtend 64) ∧ S (.ldhi d wide) (wide.signExtend 64 <<< 13)
    ∧ S (.adr d wide) (s.hart.pc + wide.signExtend 64)
    ∧ (s.Clear false ea n → s.check s.aspace Need.load ea n = .ok ls →
        let x := (BitVec.ofNat (8 * n) (ofBytes (s.bytes ls))).signExtend 64
        (conds → holds = true → ∃ t, exec (.ldsI wd d a off) s = .next t ∧ (ce = 0 → Loaded s t d x 4)
          ∧ (ce = 1 → t = ((s.withDest t d).withTlb t).moved t 4 ∧ SameMemory s t ∧ twice t x)))
    ∧ (s.Canonical → s.Clear true ea n → s.check s.aspace Need.store ea n = .ok ls → conds → holds = true → ce = 0 →
        ∃ t, exec (.sts wd d a off) s = .next t ∧ t = (s.withStore t).moved t 4
          ∧ Stored s t (ls.zip (bytesOf ((s.g d).setWidth (8 * n)))))
    -- successors that may take no loan
    ∧ (any → s.priv = false → encode j = some (big, jw) → j.wf = true → big = false ∨ (0x0C ≤ major ∧ major ≤ 0x11) ∨ major = 0x13
        ∨ major = 0x15 → T j)
    ∧ (any → s.priv = false → 8 ≤ s.ty.w → T (.vldc p2 so mf a b vd) ∧ T (.vstc p2 so mf a b vd))
    ∧ (any → T .nop ∧ T (.bz cond a disp) ∧ T (.bc cond a b off) ∧ T (.jr d a imm) ∧ T (.amoAdd w1 m ord d a) ∧ T (.amoSwap w1 m ord d a)
        ∧ T (.amoMax w1 m ord d a))
    ∧ (pending (.pfxCopy c) ∨ (pending (.pfxCond ce c cond pred) ∧ ce = 1) → T (.sts wd d a off))
    ∧ (pending (.pfxMask ce c m neg) → T (.add d a b) ∧ T (.addi d a imm) ∧ T (.ldsI wd d a off))
    -- vector successors
    ∧ (s.priv = false → s.strand.cutReq = none → 0 < s.n → s.n ≤ s.ty.vmax → s.ty.isInt8 = true →
        allSameOr [s.grp vd, s.grp va, s.grp vb] = true → s.pendingOn [a, 0] = none →
        let G := s.grp vd
        let C : Grp := { start := c.toNat, size := s.ty.g }
        let apart := c.toNat < 32 ∧ C.disjoint G = true ∧ C.disjoint (s.grp va) = true ∧ C.disjoint (s.grp vb) = true
        let w := s.ty.w
        let A := fun e => s.strand.elem va.toNat w e
        let B := fun e => s.strand.elem vb.toNat w e
        let act := fun e => xor (s.strand.mbit m.toNat e) (neg = 1)
        let all := fun (_ : Nat) => true
        -- the result of an element in a register group of its destinations
        let one := fun (i : Instr) (act : Nat → Bool) (res : Grp → Nat → Nat) => ∃ t, exec i s = .next t
          ∧ t = (((s.withVec t).withTlb t).counted 0).moved t 4 ∧ SameMemory s t ∧ Elements s t G w s.n act (res G) ∧ Tides s t G w s.n
          ∧ OtherRegs s t G
        let two := fun (i : Instr) (act : Nat → Bool) (res : Grp → Nat → Nat) => ∃ t, exec i s = .next t
          ∧ t = (((s.withVec t).withTlb t).counted 0).moved t 4 ∧ SameMemory s t
          ∧ Elements s t G w s.n act (res G) ∧ Elements s t C w s.n act (res C) ∧ Tides s t G w s.n ∧ Tides s t C w s.n
          ∧ ∀ r < 32, ¬ G.has r → ¬ C.has r → t.strand.vreg r = s.strand.vreg r ∧ vget t.strand.tide r 0 = vget s.strand.tide r 0
        let V := fun (i : Instr) (res : Grp → Nat → Nat) =>
          (pending (.pfxMask 0 0 m neg) → one i act res)
          ∧ (pending (.pfxMask 1 c m neg) → (apart → two i act res) ∧ (c.toNat = vd.toNat → one i act res))
          ∧ (pending (.pfxCopy c) → (apart → two i all res) ∧ (c.toNat = vd.toNat → one i all res))
        V (.vadd 0 vd va vb) (fun _ e => A e + B e) ∧ V (.vsub 0 vd va vb) (fun _ e => A e + 2 ^ w - B e)
        ∧ V (.vmul 0 vd va vb) (fun _ e => A e * B e) ∧ V (.vand 0 vd va vb) (fun _ e => A e &&& B e)
        ∧ V (.vor 0 vd va vb) (fun _ e => A e ||| B e) ∧ V (.vxor 0 vd va vb) (fun _ e => A e ^^^ B e)
        ∧ V (.vmov 0 vd va) (fun _ e => A e) ∧ V (.vbrd 0 vd a) (fun _ _ => (s.g a).toNat)
        ∧ ((s.grp vd).disjoint (s.grp va) = true →
            V (.vslup 0 vd va a) fun x e => if e < (s.g a).toNat then s.strand.elem x.start w e else A (e - (s.g a).toNat))
        -- memory forms, whose every element of n reaches memory
        ∧ (8 ≤ w → s.ty.blk = 0 → s.HasEntry so → (∀ e < s.n, s.Clear false (s.g a + BitVec.ofNat 64 (e * (w / 8))) (w / 8)
              ∧ s.check s.aspace Need.load (s.g a + BitVec.ofNat 64 (e * (w / 8))) (w / 8) = .ok (L e)) →
            V (.vld 0 so eo 0 0 a vd) fun _ e => ofBytes (s.bytes (L e)))
        ∧ (pending (.pfxCopy c) → 32 ≤ c.toNat ∨ (c.toNat ≠ vd.toNat ∧ C.disjoint G = false) → T (.vadd 0 vd va vb))
        ∧ (pending (.pfxCopy c) ∨ pending (.pfxMask 1 c m neg) → T (.vst 0 so eo 0 0 a vd) ∧ T (.vcmpEq 0 m va vb) ∧ T (.mpop 0 a m))
        ∧ (pending (.pfxCond ce c cond pred) → T (.vadd 0 vd va vb))
        ∧ (pending (.pfxMask ce c m neg) ∨ pending (.pfxCopy c) → mf ≠ 0 → T (.vadd mf vd va vb)))

/-! Vector instructions. A whole instruction is one that nothing stops or cuts: no copy loan, no token, no
pre-emption. A pfx may have lent a mask or its complement to one whose mask field is 0 (R64 to R66). -/

/-- R20, R22, R28, R29, R174, R175 (that the strand keeps the grant for R165: log entry 78): setvl writes TYPE, the grant, MG
and the request, clears MGF and opens a strip; advmg adds MGS × 2^sh, clears MGF and opens a strip. Every copy in flight
stands before the strip's boundary. -/
def Obligations.StripControl : Prop :=
  ∀ (s : State) (blk : BitVec 3) (mpol tail : BitVec 1) (grp : BitVec 2) (fmt : BitVec 5) (sh : BitVec 4) (d a : BitVec 6),
    s.StrandReady [d, a] →
    (typeOk blk fmt = true →
      let ty : BitVec 12 := blk ++ mpol ++ tail ++ grp ++ fmt
      let w := fmtWidth fmt.toNat
      let g := 2 ^ grp.toNat
      let b := if blk = 0 then 0 else 2 ^ (blk.toNat + 2)
      let q := (s.g a).toNat
      let cap := min (8 * g) s.flot.fgr.toNat * (2048 / w)
      let grant := if b = 0 then min q (min (16384 * g / w) cap) else b * min ((q + b - 1) / b) (cap / b)
      let u := { s with strand := { s.strand with
        type := ty, mgs := BitVec.ofNat 64 grant, mg := BitVec.ofNat 64 grant, mgf := 0, sreq := s.g a, pos := 0,
        grant := (BitVec.ofNat 64 grant).toNat, irt := s.strand.irt.map fun e => { e with bar := true },
        gran := max 32 (max (if b = 0 then 1 else b) (2 ^ s.strand.ach.toNat)) } }
      ∃ t, exec (.setvl blk mpol tail grp fmt d a) s = .next t ∧ Wrote u t d (BitVec.ofNat 64 grant) 4)
    ∧ (let u := { s with strand := { s.strand with
        mgf := 0, pos := 0, gran := openGranule s.strand.type s.strand.ach,
        irt := s.strand.irt.map fun e => { e with bar := true } } }
       ∃ t, exec (.advmg sh d a) s = .next t ∧ Wrote u t d (s.g a + (s.strand.mgs <<< sh.toNat)) 4)

/-- R162, R181, R182, R187: the integer elementwise instructions, element by element, modulo 2^w. -/
def Obligations.VectorIntegers : Prop :=
  ∀ (s : State) (m : BitVec 3) (d a b : BitVec 5) (p q : BitVec 6),
    s.Groups m [p, q] [d, a, b] → s.ty.isInt8 = true →
    let w := s.ty.w
    let sg := fun x => signedOf w x
    let below := fun x y => if s.ty.isI then decide (sg x < sg y) else decide (x < y)
    let R := fun (i : Instr) (f : Nat → Nat → Nat → Nat) => s.Vectors i m d fun e =>
      { code := f (s.strand.elem a.toNat w e) (s.strand.elem b.toNat w e) (s.strand.elem d.toNat w e), fl := 0 }
    R (.vadd m d a b) (fun x y _ => x + y) ∧ R (.vsub m d a b) (fun x y _ => x + 2 ^ w - y)
    ∧ R (.vmul m d a b) (fun x y _ => x * y)
    ∧ R (.vdiv m d a b) (fun x y _ => if y = 0 then 2 ^ w - 1 else if s.ty.isI then wrapTo w (Int.tdiv (sg x) (sg y)) else x / y)
    ∧ R (.vmin m d a b) (fun x y _ => if below x y then x else y) ∧ R (.vmax m d a b) (fun x y _ => if below x y then y else x)
    ∧ R (.vabs m d a) (fun x _ _ => if s.ty.isI then (sg x).natAbs else x) ∧ R (.vneg m d a) (fun x _ _ => 2 ^ w - x)
    ∧ R (.vfma m d a b) (fun x y z => x * y + z) ∧ R (.vfms m d a b) (fun x y z => x * y + 2 ^ w - z)
    ∧ R (.vfnma m d a b) (fun x y z => wrapTo w ((z : Int) - x * y))
    ∧ R (.vand m d a b) (fun x y _ => x &&& y) ∧ R (.vor m d a b) (fun x y _ => x ||| y) ∧ R (.vxor m d a b) (fun x y _ => x ^^^ y)
    ∧ R (.vnot m d a) (fun x _ _ => 2 ^ w - 1 - x)
    ∧ R (.vshl m d a b) (fun x y _ => x * 2 ^ (y % w)) ∧ R (.vshr m d a b) (fun x y _ => x / 2 ^ (y % w))
    ∧ R (.vsra m d a b) (fun x y _ => wrapTo w (sg x / (2 : Int) ^ (y % w)))
    ∧ s.Vectors (.vidx m d p q) m d fun e => { code := (s.g p).toNat + e * (s.g q).toNat, fl := 0 }

/-- R122, R123, R180, R181, R193, R195: the floating elementwise instructions. Every active element has the code and the
exceptions of its operation, rounded once by the mode of VFCS, but that vrcp, vrsq and vexp2 are truncated by R193, whatever the
mode. That the truncation of vexp2 is that of the exact power is the model's reading (DEDUCED, log entry 13). -/
def Obligations.VectorFloats : Prop :=
  ∀ (s : State) (m : BitVec 3) (d a b : BitVec 5), s.Groups m [] [d, a, b] → s.ty.isFloat = true →
    let w := s.ty.w
    let ff := ffOf s.ty.fmt
    let rm := fcsRm s.strand.vfcs
    let x := fun e => s.strand.elem a.toNat w e
    let X := fun e => decodeNum ff (x e)
    let Y := fun e => decodeNum ff (s.strand.elem b.toNat w e)
    let Z := fun e => decodeNum ff (s.strand.elem d.toNat w e)
    let R := fun (i : Instr) (op : Nat → FRes) => s.Vectors i m d op
    R (.vadd m d a b) (fun e => fpAdd ff rm (X e) (Y e)) ∧ R (.vsub m d a b) (fun e => fpAdd ff rm (X e) (Y e).negate)
    ∧ R (.vmul m d a b) (fun e => fpMul ff rm (X e) (Y e)) ∧ R (.vdiv m d a b) (fun e => fpDiv ff rm (X e) (Y e))
    ∧ R (.vsqrt m d a) (fun e => fpSqrt ff rm (X e))
    ∧ R (.vmin m d a b) (fun e => fpMinMax ff false (X e) (Y e)) ∧ R (.vmax m d a b) (fun e => fpMinMax ff true (X e) (Y e))
    ∧ R (.vabs m d a) (fun e => { code := x e % 2 ^ (w - 1), fl := 0 })
    ∧ R (.vneg m d a) (fun e => { code := x e + 2 ^ (w - 1), fl := 0 })
    ∧ R (.vfma m d a b) (fun e => fpFma ff rm false false (X e) (Y e) (Z e))
    ∧ R (.vfms m d a b) (fun e => fpFma ff rm false true (X e) (Y e) (Z e))
    ∧ R (.vfnma m d a b) (fun e => fpFma ff rm true false (X e) (Y e) (Z e))
    ∧ R (.vrcp m d a) (fun e => fpRcp ff (X e)) ∧ R (.vrsq m d a) (fun e => fpRsq ff (X e))
    ∧ R (.vexp2 m d a) (fun e => fpExp2 ff (X e))
    ∧ R (.vclass m d a) (fun e => { code := 2 ^ classBit ff (x e), fl := 0 })

/-- R151, R183, R191: comparisons and mask instructions write the active bits of their mask register. eq, ne and un are
quiet, the other comparisons raise invalid for every NaN. -/
def Obligations.MaskResults : Prop :=
  ∀ (s : State) (m d x y : BitVec 3) (a b : BitVec 5), s.Groups m [] [a, b] →
    let w := s.ty.w
    let A := fun e => s.strand.elem a.toNat w e
    let B := fun e => s.strand.elem b.toNat w e
    let v := fun c => if s.ty.isI then signedOf w c else (c : Int)
    let X := fun e => decodeNum (ffOf s.ty.fmt) (A e)
    let Y := fun e => decodeNum (ffOf s.ty.fmt) (B e)
    let nan := fun e => (X e).isNan || (Y e).isNan
    let snan := fun e => if (X e).isSnan || (Y e).isSnan then fInvalid else 0
    let loud := fun e => if nan e then fInvalid else 0
    let I := fun (i : Instr) (f : Int → Int → Bool) => s.Masks i m d (fun e => f (v (A e)) (v (B e))) fun _ => 0
    let F := fun (i : Instr) (fl : Nat → Flags) (f : Nat → Bool) => s.Masks i m d f fl
    let p := fun e => s.strand.mbit x.toNat e
    let q := fun e => s.strand.mbit y.toNat e
    (s.ty.isInt8 = true →
      I (.vcmpEq m d a b) (fun x y => x = y) ∧ I (.vcmpNe m d a b) (fun x y => x ≠ y) ∧ I (.vcmpLt m d a b) (fun x y => x < y)
      ∧ I (.vcmpLe m d a b) (fun x y => x ≤ y) ∧ I (.vcmpGt m d a b) (fun x y => y < x) ∧ I (.vcmpGe m d a b) (fun x y => y ≤ x))
    ∧ (s.ty.isFloat = true →
      F (.vcmpEq m d a b) snan (fun e => !nan e && cmpNum (X e) (Y e) = 0)
      ∧ F (.vcmpNe m d a b) snan (fun e => nan e || cmpNum (X e) (Y e) ≠ 0)
      ∧ F (.vcmpLt m d a b) loud (fun e => !nan e && cmpNum (X e) (Y e) < 0)
      ∧ F (.vcmpLe m d a b) loud (fun e => !nan e && cmpNum (X e) (Y e) ≤ 0)
      ∧ F (.vcmpGt m d a b) loud (fun e => !nan e && 0 < cmpNum (X e) (Y e))
      ∧ F (.vcmpGe m d a b) loud (fun e => !nan e && 0 ≤ cmpNum (X e) (Y e))
      ∧ F (.vcmpUn m d a b) snan nan)
    ∧ (let M := fun (i : Instr) (f : Nat → Bool) => s.Masks i m d f fun _ => 0
       M (.mand m d x y) (fun e => p e && q e) ∧ M (.mor m d x y) (fun e => p e || q e)
       ∧ M (.mxor m d x y) (fun e => xor (p e) (q e)) ∧ M (.mnot m d x) (fun e => !p e)
       ∧ M (.mbef m d x) (fun e => ∀ j < s.n, j ≤ e → ¬ (s.act m j = true ∧ p j = true))
       ∧ M (.minc m d x) (fun e => ∀ j < s.n, j < e → ¬ (s.act m j = true ∧ p j = true)))

/-- R184 to R187, R194, R299: select, move, broadcast, index, and the generator of vdraw. An unmasked vbrd leaves on every member
the swatch of its code, a masked one and a move leave the general one. -/
def Obligations.VectorMoves : Prop :=
  ∀ (s : State) (m : BitVec 3) (d a b : BitVec 5) (p q : BitVec 6), s.Groups m [p, q] [d, a, b] → s.ty.w ≠ 0 →
    let w := s.ty.w
    let A := fun e => s.strand.elem a.toNat w e
    let B := fun e => s.strand.elem b.toNat w e
    let z := fun (e : Nat) => ((s.g q + BitVec.ofNat 64 e) ^^^ s.g p) + (0x9E3779B97F4A7C15 : Word)
    let y := fun e => (z e ^^^ (z e >>> 30)) * (0xBF58476D1CE4E5B9 : Word)
    let x := fun e => (y e ^^^ (y e >>> 27)) * (0x94D049BB133111EB : Word)
    (∃ t, exec (.vsel m d a b) s = .next t
      ∧ VecWrote s t (s.grp d) w (fun _ => true) (fun e => if s.act m e then A e else B e) 0)
    ∧ s.Vectors (.vmov m d a) m d (fun e => { code := A e, fl := 0 })
    ∧ (∃ t, exec (.vbrd m d p) s = .next t ∧ VecWrote s t (s.grp d) w (s.act m) (fun _ => (s.g p).toNat) 0
        ∧ ∀ j < s.ty.g, t.swOf (d.toNat + j) = if m = 0 ∧ s.hart.pfxs = 0 then constantSwatch w ((s.g p).toNat % 2 ^ w) else 0)
    ∧ (∀ t, exec (.vmov m d a) s = .next t → ∀ j < s.ty.g, t.swOf (d.toNat + j) = 0)
    ∧ (s.ty.isInt8 = true → s.Vectors (.vidx m d p q) m d fun e => { code := (s.g p).toNat + e * (s.g q).toNat, fl := 0 })
    ∧ (12 ≤ s.ty.fmt → s.ty.fmt ≤ 15 →
        s.Vectors (.vdraw m d p q) m d fun e => { code := ((x e ^^^ (x e >>> 31)) >>> (64 - w)).toNat, fl := 0 })

/-- R165, R166, R188 to R190: a conversion. Each active element is the value of its source, times its scale where the type
has a block, converted once: rounded to a floating format, or rounded and saturated to an integer one. Between two spare e2m1
selectors the codes are copied: they are taken as the same format (log entry 77). -/
def Obligations.VectorConversions : Prop :=
  ∀ (s : State) (m : BitVec 3) (sr : BitVec 1) (dfmt d a : BitVec 5),
    let t := s.ty
    let w := t.w
    let wd := fmtWidth dfmt.toNat
    let isInt := fun f => decide (8 ≤ f) && decide (f ≤ 17)
    let dg : Grp := { start := d.toNat, size := ceilDiv (t.g * wd) w }
    let ag : Grp := { start := (d.toNat + dg.size) % 32
                      size := if sr = 1 then ceilDiv (16 * t.g) w
                              else if t.blk ≠ 0 then ceilDiv (16384 * t.g / w) (2048 * t.blk) else 0 }
    s.Groups m [] [a] → w ≠ 0 → wd ≠ 0 → ¬ (0x18 ≤ dfmt.toNat ∧ dfmt.toNat ≤ 0x1B) → dg.size ≤ 8 → ag.size ≤ 8 →
    (sr = 1 → t.blk = 0 ∧ isInt t.fmt = false ∧ isInt dfmt.toNat = false) →
    ((s.grp a).disjoint dg = true ∨ (w = wd ∧ a = d)) → ag.disjoint dg = true → ag.disjoint (s.grp a) = true →
    let c := fun e => s.strand.elem a.toNat w e
    let x := fun e => if t.blk ≠ 0 ∧ s.strand.sreq.toNat ≤ e then Machine.Num.fin false 0 0 else s.strand.value t.fmt (c e)
    let y := fun e => if t.blk = 0 then x e
      else let k := s.strand.elem ag.start 8 (e / t.blk)
           if k = 255 then Machine.Num.nan false true (2 ^ 51) else (x e).scale ((k : Int) - 127)
    let rm := fun e => if sr = 1 then Rnd.stoch (s.strand.elem ag.start 16 e) else fcsRm s.strand.vfcs
    let e2m1 := fun f => decide (0x14 ≤ f) && decide (f ≤ 0x17)
    let op := fun e => if t.blk = 0 ∧ e2m1 t.fmt = true ∧ e2m1 dfmt.toNat = true then { code := c e, fl := 0 }
      else if isInt dfmt.toNat then numToInt ((8 ≤ dfmt.toNat && dfmt.toNat ≤ 11) || dfmt.toNat = 16) wd (rm e) (y e)
      else roundNum (ffOf dfmt.toNat) (rm e) (y e)
    s.NoTrap (s.act m) (fun e => (op e).fl) →
      ∃ u, exec (.vcvt m sr dfmt d a) s = .next u
        ∧ VecWrote s u dg wd (s.act m) (fun e => (op e).code) (activeFlags (s.act m) (fun e => (op e).fl) s.n)

/-- R62, R192: mpop counts, mfirst finds, mtos packs the active bits of a mask register below MG. -/
def Obligations.MaskScalars : Prop :=
  ∀ (s : State) (m a : BitVec 3) (d q : BitVec 6), s.LentReady m [d, q] → 0 < s.n →
    let bit := fun i => s.act m i && s.strand.mbit a.toNat i
    let R := fun (i : Instr) (x : Word) => ∃ t, exec i s = .next t ∧ VecScalar s t d x
    R (.mpop m d a) (BitVec.ofNat 64 ((List.range s.n).countP bit))
    ∧ R (.mfirst m d a) (match (List.range s.n).find? bit with | some i => BitVec.ofNat 64 i | none => -1)
    ∧ ∃ x : Word, R (.mtos m d a q) x
        ∧ ∀ j < 64, x.getLsbD j = (decide ((s.g q).toNat + j < s.n) && bit ((s.g q).toNat + j))

/-- R208 to R211: permutations of whole groups, and conflict detection. A source never shares a register with the
destination. The elements of vslup below its shift are the previous ones where the mask is 1; the mask policy governs the
others, as everywhere. -/
def Obligations.Permutations : Prop :=
  ∀ (s : State) (m k : BitVec 3) (d a b : BitVec 5) (p : BitVec 6), s.Groups m [p] [] → s.ty.w ≠ 0 →
    let w := s.ty.w
    let n := s.n
    let A := fun e => s.strand.elem a.toNat w e
    let B := fun e => s.strand.elem b.toNat w e
    let c := (s.g p).toNat
    let P := fun (i : Instr) (act : Nat → Bool) (res : Nat → Nat) => ∃ t, exec i s = .next t ∧ VecWrote s t (s.grp d) w act res 0
    let R := fun (i : Instr) (res : Nat → Nat) => P i (s.act m) res
    ((s.grp d).disjoint (s.grp a) = true →
      R (.vslup m d a p) (fun e => if e < c then s.strand.elem d.toNat w e else A (e - c))
      ∧ R (.vsldn m d a p) (fun e => if e + c < n then A (e + c) else 0)
      ∧ P (.vcomp m d a) (fun _ => true) (fun e => match ((List.range n).filter (s.act m))[e]? with | some i => A i | none => 0)
      ∧ R (.vexpd m d a) (fun e => A ((List.range e).countP (s.act m)))
      ∧ R (.vunzipEv m d a) (fun e => if 2 * e < n then A (2 * e) else 0)
      ∧ R (.vunzipOd m d a) (fun e => if 2 * e + 1 < n then A (2 * e + 1) else 0)
      ∧ ((s.grp d).disjoint (s.grp b) = true →
          R (.vperm m d a b) (fun e => if B e < n then A (B e) else 0)
          ∧ R (.vzip m d a b) (fun e => if e % 2 = 0 then A (e / 2) else B (e / 2))))
    ∧ (s.ty.isInt8 = true → s.Masks (.vconf m k a) m k (fun e => ∃ j < e, s.act m j = true ∧ A j = A e) fun _ => 0)

/-- R199 to R205: a reduction writes element 0 of vd and nothing else of a vector register. Integers sum modulo 2^64 with
their carry; extremes and bitwise forms fold the active elements into the carry; floating sums give P(MG), whose
scale group under a block length is sized by the grant of the strip's setvl, and whose nodes round as log entry 78 reads. With no
NaN among the present leaves, P(j) of vrsum is the carry plus the root of the complete binary tree over the positions of va, each
node of which adds two present children, rounded once, and passes a lone one up; P(j) of vrsum.o adds the present leaves to the
carry in index order. -/
def Obligations.Reductions : Prop :=
  ∀ (s : State) (m : BitVec 3) (d a b : BitVec 5), s.Groups m [] [a] → s.ty.w ≠ 0 →
    (∀ j < s.ty.g, (a.toNat + j) % 32 ≠ d.toNat ∧ (a.toNat + j) % 32 ≠ b.toNat) →
    let w := s.ty.w
    let A := fun e => s.strand.elem a.toNat w e
    let on := (List.range s.n).filter (s.act m)
    let ff := ffOf s.ty.fmt
    let v := fun c => if s.ty.isI then signedOf w c else (c : Int)
    let c := s.strand.elem b.toNat w 0
    let S := fun (i : Instr) (W code : Nat) (fl : Flags) =>
      ∃ t, exec i s = .next t ∧ VecSingle s t d.toNat W (fun e => if e = 0 then some code else none) fl
    let total := wrapTo 64 (on.foldl (fun x i => x + v (A i)) (s.strand.elem b.toNat 64 0 : Int))
    let fold := fun (f : Nat → Nat → Nat) => on.foldl (fun x i => f x (A i)) c
    let far := fun mx => on.foldl (fun (r : FRes) i =>
      let q := fpMinMax ff mx (decodeNum ff r.code) (decodeNum ff (A i))
      { code := q.code, fl := r.fl ||| q.fl }) { code := c, fl := 0 }
    let W := sumWidth s.ty
    let P := fun ordered j => s.sumPrefix ordered (s.act m) a (s.strand.elem b.toNat W 0) ((b.toNat + 1) % 32) j
    let en := fcsEn s.strand.vfcs
    (s.ty.isInt = true → s.ty.blk = 0 → S (.vrsum m d a b) 64 total 0 ∧ S (.vrsumO m d a b) 64 total 0)
    ∧ (s.ty.isInt8 = true →
        S (.vrmax m d a b) w (fold fun x y => if v x < v y then y else x) 0
        ∧ S (.vrmin m d a b) w (fold fun x y => if v x < v y then x else y) 0
        ∧ S (.vrbitAnd m d a b) w (fold fun x y => x &&& y) 0 ∧ S (.vrbitOr m d a b) w (fold fun x y => x ||| y) 0
        ∧ S (.vrbitXor m d a b) w (fold fun x y => x ^^^ y) 0)
    ∧ (s.ty.isFloat = true →
        ((far true).fl &&& en = 0 → S (.vrmax m d a b) w (far true).code (far true).fl)
        ∧ ((far false).fl &&& en = 0 → S (.vrmin m d a b) w (far false).code (far false).fl))
    ∧ ((∀ x ∈ s.sumScales b, x.disjoint (s.grp a) = true ∧ x.disjoint { start := d.toNat, size := 1 } = true
          ∧ x.disjoint { start := b.toNat, size := 1 } = true) →
        ((∀ i < s.n, (P false (i + 1)).fl &&& en = 0) → S (.vrsum m d a b) W (P false s.n).code (P false s.n).fl)
        ∧ ((∀ i < s.n, (P true (i + 1)).fl &&& en = 0) → S (.vrsumO m d a b) W (P true s.n).code (P true s.n).fl))
    ∧ (let f := sumFF s.ty
       let rm := fcsRm s.strand.vfcs
       let carry := s.strand.elem b.toNat W 0
       let scale := fun k => s.strand.elem ((b.toNat + 1) % 32) 8 k
       let x := fun i => if s.ty.blk ≠ 0 ∧ s.strand.sreq.toNat ≤ i then Machine.Num.fin false 0 0 else s.strand.value s.ty.fmt (A i)
       let pair := fun (p q : Option (Machine.Num × Flags)) => match p, q with
         | some p, some q => let r := fpAdd f rm p.1 q.1
                             some (decodeNum f r.code, r.fl ||| (p.2 ||| q.2))
         | some p, none => some p
         | none, q => q
       let scaled := fun (k : Nat) (p : Option (Machine.Num × Flags)) => p.map fun p =>
         if p.1.isNan then p else let r := roundNum f rm (p.1.scale ((scale k : Int) - 127))
                                  (decodeNum f r.code, r.fl ||| p.2)
       ¬ (s.ty.isInt = true ∧ s.ty.blk = 0) → (∀ i < s.n, s.act m i = true → (x i).isNan = false ∧ (s.ty.blk ≠ 0 → scale (i / s.ty.blk) ≠ 255)) →
       ∀ j ≤ s.n,
        (∃ node : Nat → Nat → Option (Machine.Num × Flags),
          (∀ i, node 0 i = if i < j ∧ s.act m i = true then some (x i, 0) else none)
          ∧ (∀ l i, node (l + 1) i = (let v := pair (node l (2 * i)) (node l (2 * i + 1))
                                      if s.ty.blk = 2 ^ (l + 1) then scaled i v else v))
          ∧ ∃ top, s.ty.vmax = 2 ^ top ∧ P false j = match node top 0 with
              | none => { code := carry, fl := 0 }
              | some p => let r := fpAdd f rm (decodeNum f carry) p.1
                          { code := r.code, fl := r.fl ||| p.2 })
        ∧ (s.ty.blk = 0 → P true j = ((List.range j).filter (s.act m)).foldl (fun (p : FRes) i =>
            let r := fpAdd f rm (decodeNum f p.code) (x i)
            { code := r.code, fl := r.fl ||| p.fl }) { code := carry, fl := 0 }))

/-- R206: a scan gives every active element the running value, and leaves the last one in element 0 of vb.
R207: vsegr folds each active element into the maximum and the sum of its segment, in index order, and gives VFCS the
exceptions of every step; it runs whole when none of them is enabled. -/
def Obligations.ScansAndSegments : Prop :=
  (∀ (s : State) (m : BitVec 3) (d a b : BitVec 5), s.Groups m [] [d, a] → s.ty.arith = true →
    (∀ j < s.ty.g, (a.toNat + j) % 32 ≠ b.toNat ∧ (d.toNat + j) % 32 ≠ b.toNat) →
    let w := s.ty.w
    let ff := ffOf s.ty.fmt
    let A := fun e => s.strand.elem a.toNat w e
    let c := s.strand.elem b.toNat w 0
    let v := fun c => if s.ty.isI then signedOf w c else (c : Int)
    let S := fun (i : Instr) (step : Nat → Nat → FRes) =>
      let r := fun e => ((List.range e).filter (s.act m)).foldl (fun (r : FRes) i =>
        { code := (step r.code (A i)).code, fl := r.fl ||| (step r.code (A i)).fl }) { code := c, fl := 0 }
      (r s.n).fl &&& fcsEn s.strand.vfcs = 0 →
        ∃ t, exec i s = .next t ∧ t = ((s.withVec t).counted (r s.n).fl).moved t 4 ∧ SameMemory s t
          ∧ Elements s t (s.grp d) w s.n (s.act m) (fun e => (r (e + 1)).code) ∧ Tides s t (s.grp d) w s.n
          ∧ (∀ e < perReg w, t.strand.elem b.toNat w e = if e = 0 then (r s.n).code % 2 ^ w else s.strand.elem b.toNat w e)
          ∧ ∀ k < 32, k ≠ b.toNat → ¬ (s.grp d).has k → t.strand.vreg k = s.strand.vreg k
    S (.vscanAdd m d a b) (fun x y => if s.ty.isFloat then fpAdd ff (fcsRm s.strand.vfcs) (decodeNum ff x) (decodeNum ff y)
      else { code := (x + y) % 2 ^ w, fl := 0 })
    ∧ S (.vscanMax m d a b) (fun x y => if s.ty.isFloat then fpMinMax ff true (decodeNum ff x) (decodeNum ff y)
      else { code := if v x < v y then y else x, fl := 0 })
    ∧ S (.vscanMin m d a b) (fun x y => if s.ty.isFloat then fpMinMax ff false (decodeNum ff x) (decodeNum ff y)
      else { code := if v x < v y then x else y, fl := 0 }))
  ∧ (∀ (s : State) (m : BitVec 3) (d a b : BitVec 5), s.Groups m [] [] → s.ty.isFloat = true →
    (∀ j < s.ty.g, ∀ k < 2, (a.toNat + j) % 32 ≠ (d.toNat + k) % 32 ∧ (b.toNat + j) % 32 ≠ (d.toNat + k) % 32) →
    let w := s.ty.w
    let ff := ffOf s.ty.fmt
    let H := 16384 / w
    let d2 := (d.toNat + 1) % 32
    let A := fun e => decodeNum ff (s.strand.elem a.toNat w e)
    let r := ((List.range s.n).filter (s.act m)).foldl (fun (r : (Nat → Nat) × (Nat → Nat) × Flags) i =>
        let h := s.strand.elem b.toNat w i % H
        let x := fpMinMax ff true (decodeNum ff (r.1 h)) (A i)
        let y := fpAdd ff (fcsRm s.strand.vfcs) (decodeNum ff (r.2.1 h)) (A i)
        (fun k => if k = h then x.code else r.1 k, fun k => if k = h then y.code else r.2.1 k, r.2.2 ||| (x.fl ||| y.fl)))
      (s.strand.elem d.toNat w, s.strand.elem d2 w, 0)
    r.2.2 &&& fcsEn s.strand.vfcs = 0 →
      ∃ t, exec (.vsegr m d a b) s = .next t ∧ t = ((s.withVec t).counted r.2.2).moved t 4 ∧ SameMemory s t
        ∧ (∀ h < H, t.strand.elem d.toNat w h = r.1 h % 2 ^ w ∧ t.strand.elem d2 w h = r.2.1 h % 2 ^ w)
        ∧ OtherRegs s t { start := d.toNat, size := 2 })

/-- R212 to R216: the attention chain over the n / D segments of a strip whose length is a multiple of D. vdotseg and vexpm
write one f32 element per active segment; vaccw folds the active segments into o[0] to o[D - 1] and L. The order in which
vaccw picks a NaN is the model's reading (log entry 18), and so are those of vdotseg and vexpm (log entry 79); the truncation
of 2^x in vexpm is its reading too (DEDUCED, log entry 13), and so is that an infinity times a zero raises invalid there
whatever the offset (DESIGN CHOICE, log entry 97). -/
def Obligations.AttentionChain : Prop :=
  ∀ (s : State) (m : BitVec 3) (d a b : BitVec 5), s.Groups m [] [a] → (s.ty.fmt = 1 ∨ s.ty.fmt = 3) →
    let D := 2 ^ s.strand.ach.toNat
    let w := s.ty.w
    let k := s.n / D
    let en := fcsEn s.strand.vfcs
    let rm := fcsRm s.strand.vfcs
    let f := fun (v : BitVec 5) e => decodeNum ffF32 (s.strand.elem v.toNat 32 e)
    let V := fun e => s.strand.value s.ty.fmt (s.strand.elem a.toNat w e)
    let out := fun (v : BitVec 5) => ∀ j < s.ty.g, (a.toNat + j) % 32 ≠ v.toNat
    let on := (List.range k).filter (s.act m)
    let u := { s with strand := { s.strand with gran := max s.strand.gran D } }
    let dg : Grp := { start := d.toNat, size := 1 }
    let S := fun (i : Instr) (op : Nat → FRes) => (∀ j < k, s.act m j = true → (op j).fl &&& en = 0) →
      ∃ t, exec i s = .next t ∧ t = ((u.withVec t).counted (activeFlags (s.act m) (fun j => (op j).fl) k)).moved t 4
        ∧ SameMemory s t ∧ Elements s t dg 32 k (s.act m) (fun j => (op j).code) ∧ Tides s t dg 32 k ∧ OtherRegs s t dg
    s.ty.vmax / D ≤ 512 → s.n % D = 0 →
      (out d → d ≠ b → S (.vdotseg m d a b) (s.score a b))
      ∧ (d ≠ b → a ≠ b → S (.vexpm m d a b) fun j =>
          let t := fpFma ffF32 rm false true (f b 1) (f a j) (f b 0)
          let p := fpExp2 ffF32 (decodeNum ffF32 t.code)
          { code := p.code, fl := t.fl ||| p.fl })
      ∧ (out d → out b → d ≠ b →
          let r := on.foldl (fun (r : (Nat → Nat) × Nat × Flags) j =>
              let o := fun c => macc rm (decodeNum ffF32 (r.1 c)) (f b j) (V (j * D + c))
              let l := fpAdd ffF32 rm (decodeNum ffF32 r.2.1) (f b j)
              (fun c => (o c).code, l.code, r.2.2 ||| ((List.range D).foldl (fun x c => x ||| (o c).fl) 0 ||| l.fl)))
            (s.strand.elem d.toNat 32, s.strand.elem d.toNat 32 D, 0)
          r.2.2 &&& en = 0 → ∃ t, exec (.vaccw m d a b) s = .next t
            ∧ VecSingle u t d.toNat 32 (fun e => if e < D then some (r.1 e) else if e = D then some r.2.1 else none) r.2.2)

/-- R32: a vector instruction of effective length 0 writes no register, no memory and no accumulator, and raises no flag; MG becomes
0. A scalar destination stays, and LASTD still takes its number. The checks of its issue are still made. -/
def Obligations.ZeroLength : Prop :=
  ∀ (s : State) (m x y : BitVec 3) (d a b : BitVec 5) (g q : BitVec 6) (pol : BitVec 2) (so eo lvl : BitVec 1),
    s.LentReady m [g, q] → s.n = 0 →
    let u := { s with strand := { s.strand with mg := 0, pos := min (s.strand.pos + 1) 0xFFFF } }
    let Z := fun (i : Instr) => ∃ t, exec i s = .next t ∧ Moved u t 4
    let L := fun (i : Instr) => ∃ t, exec i s = .next t
      ∧ Moved { u with hart := { u.hart with lastd := if g = 0 then u.hart.lastd else g } } t 4
    let apart := fun (v : BitVec 5) (r : Nat) => (s.grp v).disjoint { start := r, size := 1 } = true
    let ig : Grp := { start := a.toNat, size := ceilDiv (s.ty.g * max s.ty.w 32) s.ty.w }
    (allSameOr [s.grp d, s.grp a, s.grp b] = true →
      Z (.vsel m d a b) ∧ Z (.vmov m d a) ∧ Z (.vbrd m d g)
      ∧ (s.ty.arith = true → Z (.vadd m d a b) ∧ Z (.vsub m d a b) ∧ Z (.vmul m d a b) ∧ Z (.vdiv m d a b) ∧ Z (.vmin m d a b)
        ∧ Z (.vmax m d a b) ∧ Z (.vabs m d a) ∧ Z (.vneg m d a) ∧ Z (.vfma m d a b) ∧ Z (.vfms m d a b) ∧ Z (.vfnma m d a b)
        ∧ Z (.vcmpEq m x a b) ∧ Z (.vcmpNe m x a b) ∧ Z (.vcmpLt m x a b) ∧ Z (.vcmpLe m x a b) ∧ Z (.vcmpGt m x a b)
        ∧ Z (.vcmpGe m x a b))
      ∧ (s.ty.isFloat = true → Z (.vsqrt m d a) ∧ Z (.vrcp m d a) ∧ Z (.vrsq m d a) ∧ Z (.vexp2 m d a) ∧ Z (.vclass m d a)
        ∧ Z (.vcmpUn m x a b))
      ∧ (s.ty.isInt8 = true → Z (.vand m d a b) ∧ Z (.vor m d a b) ∧ Z (.vxor m d a b) ∧ Z (.vnot m d a) ∧ Z (.vshl m d a b)
        ∧ Z (.vshr m d a b) ∧ Z (.vsra m d a b) ∧ Z (.vidx m d g q) ∧ Z (.vconf m x a))
      ∧ (12 ≤ s.ty.fmt → s.ty.fmt ≤ 15 → Z (.vdraw m d g q))
      ∧ (s.ty.fmt = 11 ∨ s.ty.fmt = 15 → s.strand.gpois = false →
          Z (.gins m d a) ∧ Z (.gacc m d a b) ∧ Z (.glkp m d a) ∧ Z (.glkpO m d a) ∧ Z (.gdrn m d g) ∧ (s.hart.pfxs = 0 → Z .gclr ∧ L (.gcnt g))))
    ∧ ((s.grp d).disjoint (s.grp a) = true → Z (.vslup m d a g) ∧ Z (.vsldn m d a g) ∧ Z (.vcomp m d a) ∧ Z (.vexpd m d a)
        ∧ Z (.vunzipEv m d a) ∧ Z (.vunzipOd m d a)
        ∧ ((s.grp d).disjoint (s.grp b) = true → Z (.vperm m d a b) ∧ Z (.vzip m d a b)))
    ∧ (apart a d.toNat → apart a b.toNat →
        (s.ty.blk = 0 → Z (.vrsum m d a b) ∧ Z (.vrsumO m d a b))
        ∧ (s.ty.arith = true → Z (.vrmax m d a b) ∧ Z (.vrmin m d a b))
        ∧ (s.ty.isInt8 = true → Z (.vrbitAnd m d a b) ∧ Z (.vrbitOr m d a b) ∧ Z (.vrbitXor m d a b)))
    ∧ (s.ty.arith = true → (s.grp d).sameOr (s.grp a) = true → apart d b.toNat → apart a b.toNat →
        Z (.vscanAdd m d a b) ∧ Z (.vscanMax m d a b) ∧ Z (.vscanMin m d a b))
    ∧ (8 ≤ s.ty.w → Z (.vld pol so eo m g q d) ∧ Z (.vst pol so eo m g q d) ∧ Z (.vpref pol m g q lvl)
        ∧ (s.hart.pfxs = 0 → Z (.vldc pol so m g q d) ∧ Z (.vstc pol so m g q d))
        ∧ (ig.size ≤ 8 → Z (.vstx pol so eo m a q d) ∧ (s.ty.arith = true → Z (.vstxAdd pol so eo m a q d))
          ∧ ((s.grp d).disjoint ig = true → Z (.vldx pol so eo m a q d)
            ∧ (s.ty.fmt = 10 ∨ s.ty.fmt = 11 ∨ s.ty.fmt = 14 ∨ s.ty.fmt = 15 →
              Z (.vamoSwap x a q d) ∧ Z (.vamoAdd x a q d) ∧ Z (.vamoAnd x a q d) ∧ Z (.vamoOr x a q d) ∧ Z (.vamoXor x a q d)
              ∧ Z (.vamoMin x a q d) ∧ Z (.vamoMax x a q d) ∧ Z (.vamoMinn x a q d) ∧ Z (.vamoMaxn x a q d)))))
    ∧ (s.ty.isFloat = true → (∀ v ∈ [a, b], (s.grp v).disjoint { start := d.toNat, size := 2 } = true) → Z (.vsegr m d a b))
    ∧ (s.ty.fmt = 1 ∨ s.ty.fmt = 3 → s.ty.vmax / 2 ^ s.strand.ach.toNat ≤ 512 → d ≠ b → (apart a d.toNat → Z (.vdotseg m d a b))
        ∧ (a ≠ b → Z (.vexpm m d a b)) ∧ (apart a d.toNat → apart a b.toNat → Z (.vaccw m d a b)))
    ∧ (s.ty.blk = 0 → s.ty.w ≠ 0 → ¬ (0x18 ≤ s.ty.fmt ∧ s.ty.fmt ≤ 0x1B) → Z (.vcvt m 0 (BitVec.ofNat 5 s.ty.fmt) d d))
    ∧ Z (.mand m x y y) ∧ Z (.mor m x y y) ∧ Z (.mxor m x y y) ∧ Z (.mnot m x y) ∧ Z (.mbef m x y) ∧ Z (.minc m x y)
    ∧ L (.mpop m g x) ∧ L (.mfirst m g x) ∧ L (.mtos m g x q)

/-- R30, R31, R34, R112, R151, R201, R206: an enabled arithmetic exception of an elementwise, comparing, reducing or scanning
instruction. `e` is the first element that raises one. In the leading element or block the instruction traps with cause 4,
kind 4 and the exceptions in FLG, and performs nothing; later it makes good exactly the whole blocks before it, MGS falls to
them, and MGF records the kind, the exceptions and the position in the strip. FLG 0 of the cause 0x09 that such a trap raises
within a handler is the model's choice (DESIGN CHOICE, log entry 72); the flags of vexp2 rest on log entry 13 (DEDUCED).
R203, R207, R213 to R216: the same of a sum over a block length, whose elements go by whole blocks, of vsegr, of a conversion,
and of the attention chain by segments: there an enabled exception in segment j stops at its first element, and a length that is
no multiple of D stops with kind resource after its whole segments, or traps when there is none. -/
def Obligations.ArithmeticStops : Prop :=
  (∀ (s : State) (m md : BitVec 3) (d a b : BitVec 5) (e : Nat), s.Groups m [] [d, a, b] → s.ty.isFloat = true →
    let w := s.ty.w
    let ff := ffOf s.ty.fmt
    let rm := fcsRm s.strand.vfcs
    let en := fcsEn s.strand.vfcs
    let X := fun i => decodeNum ff (s.strand.elem a.toNat w i)
    let Y := fun i => decodeNum ff (s.strand.elem b.toNat w i)
    let W := fun i => decodeNum ff (s.strand.elem d.toNat w i)
    let k := s.whole e
    let stops := fun (fl : Nat → Flags) (act : Nat → Bool) =>
      e < s.n ∧ act e = true ∧ fl e &&& en ≠ 0 ∧ ∀ j < e, act j = true → fl j &&& en = 0
    let lead := fun (i : Instr) (fl : Flags) => k = 0 → ∃ t, exec i s = .next t ∧ Trapped s t 4 4 (fl &&& en).toNat 0 false false 0 0 false
    let short := fun (i : Instr) (fl got : Flags) (P : State → Prop) => 0 < k → ∃ t, exec i s = .next t ∧ P t ∧ SameMemory s t
      ∧ ∃ u, (u = s.withVec u ∨ u = s.withMask u) ∧ t = (u.shortened k 4 (fl &&& en).toNat got).moved t 4
    let S := fun (i : Instr) (op : Nat → FRes) => stops (fun j => (op j).fl) (s.act m) →
      lead i (op e).fl ∧ short i (op e).fl (activeFlags (s.act m) (fun i => (op i).fl) k) fun t =>
        (∀ j < k, s.act m j = true → t.strand.elem d.toNat w j = (op j).code % 2 ^ w) ∧ OtherRegs s t (s.grp d)
    let C := fun (i : Instr) (c : Cmp) => stops (fun j => (cmpRes c (X j) (Y j)).fl) (s.act m) →
      lead i (cmpRes c (X e) (Y e)).fl
      ∧ short i (cmpRes c (X e) (Y e)).fl (activeFlags (s.act m) (fun i => (cmpRes c (X i) (Y i)).fl) k) fun t =>
        (∀ j < k, s.act m j = true → t.strand.mbit md.toNat j = decide ((cmpRes c (X j) (Y j)).code = 1))
        ∧ ∀ r, r ≠ md.toNat → ∀ j, t.strand.mbit r j = s.strand.mbit r j
    let R := fun (i : Instr) (W : Nat) (P : Nat → FRes) => stops (fun j => (P (j + 1)).fl) (fun _ => true) →
      lead i (P (e + 1)).fl ∧ short i (P (e + 1)).fl (P k).fl fun t =>
        Singles s t d.toNat W fun j => if j = 0 then some (P k).code else none
    let out := fun (v : BitVec 5) => ∀ j < s.ty.g, (a.toNat + j) % 32 ≠ v.toNat
    let fold := fun (op : Nat → Nat → FRes) j => ((List.range j).filter (s.act m)).foldl (fun (r : FRes) i =>
      let q := op r.code (s.strand.elem a.toNat w i)
      { code := q.code, fl := r.fl ||| q.fl }) { code := s.strand.elem b.toNat w 0, fl := 0 }
    let add := fun x y => fpAdd ff rm (decodeNum ff x) (decodeNum ff y)
    let far := fun mx x y => fpMinMax ff mx (decodeNum ff x) (decodeNum ff y)
    let V := fun (i : Instr) (op : Nat → Nat → FRes) => (∀ j < s.ty.g, (d.toNat + j) % 32 ≠ b.toNat) → out b →
      stops (fun j => (op (fold op j).code (s.strand.elem a.toNat w j)).fl) (s.act m) →
      let fl := (op (fold op e).code (s.strand.elem a.toNat w e)).fl
      lead i fl ∧ short i fl (fold op k).fl fun t =>
        (∀ j < k, s.act m j = true → t.strand.elem d.toNat w j = (fold op (j + 1)).code % 2 ^ w)
        ∧ t.strand.elem b.toNat w 0 = (fold op k).code % 2 ^ w
    S (.vadd m d a b) (fun i => fpAdd ff rm (X i) (Y i)) ∧ S (.vsub m d a b) (fun i => fpSub ff rm (X i) (Y i))
    ∧ S (.vmul m d a b) (fun i => fpMul ff rm (X i) (Y i)) ∧ S (.vdiv m d a b) (fun i => fpDiv ff rm (X i) (Y i))
    ∧ S (.vmin m d a b) (fun i => fpMinMax ff false (X i) (Y i)) ∧ S (.vmax m d a b) (fun i => fpMinMax ff true (X i) (Y i))
    ∧ S (.vfma m d a b) (fun i => fpFma ff rm false false (X i) (Y i) (W i))
    ∧ S (.vfms m d a b) (fun i => fpFma ff rm false true (X i) (Y i) (W i))
    ∧ S (.vfnma m d a b) (fun i => fpFma ff rm true false (X i) (Y i) (W i))
    ∧ S (.vsqrt m d a) (fun i => fpSqrt ff rm (X i)) ∧ S (.vrcp m d a) (fun i => fpRcp ff (X i))
    ∧ S (.vrsq m d a) (fun i => fpRsq ff (X i)) ∧ S (.vexp2 m d a) (fun i => fpExp2 ff (X i))
    ∧ C (.vcmpEq m md a b) .eq ∧ C (.vcmpNe m md a b) .ne ∧ C (.vcmpLt m md a b) .lt ∧ C (.vcmpLe m md a b) .le
    ∧ C (.vcmpGt m md a b) .gt ∧ C (.vcmpGe m md a b) .ge ∧ C (.vcmpUn m md a b) .un
    ∧ (out d → out b → R (.vrmax m d a b) w (fold (far true)) ∧ R (.vrmin m d a b) w (fold (far false))
      ∧ (s.ty.blk = 0 →
        let W := sumWidth s.ty
        let P := fun ordered => s.sumPrefix ordered (s.act m) a (s.strand.elem b.toNat W 0) ((b.toNat + 1) % 32)
        R (.vrsum m d a b) W (P false) ∧ R (.vrsumO m d a b) W (P true)))
    ∧ V (.vscanAdd m d a b) add ∧ V (.vscanMax m d a b) (far true) ∧ V (.vscanMin m d a b) (far false))
  ∧ (∀ (s : State) (m : BitVec 3) (sr : BitVec 1) (dfmt d a b : BitVec 5) (e : Nat), s.Groups m [] [] →
    let ty := s.ty
    let w := ty.w
    let ff := ffOf ty.fmt
    let en := fcsEn s.strand.vfcs
    let rm := fcsRm s.strand.vfcs
    let act := s.act m
    let c := fun i => s.strand.elem a.toNat w i
    let out := fun (v : BitVec 5) => ∀ j < ty.g, (a.toNat + j) % 32 ≠ v.toNat
    let bits := fun (fl : Flags) => (fl &&& en).toNat
    -- `e` is the first place below `n` that raises an enabled exception
    let first := fun (n : Nat) (act : Nat → Bool) (fl : Nat → Flags) => e < n ∧ act e = true ∧ fl e &&& en ≠ 0 ∧ ∀ j < e, act j = true → fl j &&& en = 0
    -- the trap when nothing is made good, or the shortfall to `k` with the exceptions `got` of what is
    let stops := fun (u : State) (i : Instr) (k kind flg : Nat) (got : Flags) (P : State → Prop) =>
      (k = 0 → ∃ t, exec i s = .next t ∧ Trapped u t 4 kind flg 0 false false 0 0 false)
      ∧ (0 < k → ∃ t, exec i s = .next t ∧ P t ∧ SameMemory s t ∧ t = ((u.withVec t).shortened k kind flg got).moved t 4)
    let k := s.whole e
    -- sums
    (w ≠ 0 → out d → out b → (∀ x ∈ s.sumScales b, x.disjoint (s.grp a) = true ∧ x.disjoint { start := d.toNat, size := 1 } = true
        ∧ x.disjoint { start := b.toNat, size := 1 } = true) → ∀ ordered : Bool,
      let P := s.sumPrefix ordered act a (s.strand.elem b.toNat (sumWidth ty) 0) ((b.toNat + 1) % 32)
      first s.n (fun _ => true) (fun j => (P (j + 1)).fl) →
        stops s (if ordered then .vrsumO m d a b else .vrsum m d a b) k 4 (bits (P (e + 1)).fl) (P k).fl fun t =>
          Singles s t d.toNat (sumWidth ty) fun j => if j = 0 then some (P k).code else none)
    -- segmented maxima and sums
    ∧ (ty.isFloat = true → (∀ j < ty.g, ∀ k < 2, (a.toNat + j) % 32 ≠ (d.toNat + k) % 32 ∧ (b.toNat + j) % 32 ≠ (d.toNat + k) % 32) →
      let H := 16384 / w
      let d2 := (d.toNat + 1) % 32
      let seg := fun i => s.strand.elem b.toNat w i % H
      let mx := fun (r : (Nat → Nat) × (Nat → Nat) × Flags) i => fpMinMax ff true (decodeNum ff (r.1 (seg i))) (decodeNum ff (c i))
      let sm := fun (r : (Nat → Nat) × (Nat → Nat) × Flags) i => fpAdd ff rm (decodeNum ff (r.2.1 (seg i))) (decodeNum ff (c i))
      let fold := fun n => ((List.range n).filter act).foldl (fun r i =>
          (fun h => if h = seg i then (mx r i).code else r.1 h, fun h => if h = seg i then (sm r i).code else r.2.1 h, r.2.2 ||| ((mx r i).fl ||| (sm r i).fl)))
        (s.strand.elem d.toNat w, s.strand.elem d2 w, 0)
      let fl := fun i => (mx (fold i) i).fl ||| (sm (fold i) i).fl
      first s.n act fl → stops s (.vsegr m d a b) k 4 (bits (fl e)) (fold k).2.2 fun t => OtherRegs s t { start := d.toNat, size := 2 }
        ∧ ∀ h < H, t.strand.elem d.toNat w h = (fold k).1 h % 2 ^ w ∧ t.strand.elem d2 w h = (fold k).2.1 h % 2 ^ w)
    -- conversions
    ∧ (let wd := fmtWidth dfmt.toNat
       let isInt := fun f => decide (8 ≤ f) && decide (f ≤ 17)
       let dg : Grp := { start := d.toNat, size := ceilDiv (ty.g * wd) w }
       let ag : Grp := { start := (d.toNat + dg.size) % 32
                         size := if sr = 1 then ceilDiv (16 * ty.g) w else if ty.blk ≠ 0 then ceilDiv (16384 * ty.g / w) (2048 * ty.blk) else 0 }
       w ≠ 0 → wd ≠ 0 → ¬ (0x18 ≤ dfmt.toNat ∧ dfmt.toNat ≤ 0x1B) → dg.size ≤ 8 → ag.size ≤ 8 →
       (sr = 1 → ty.blk = 0 ∧ isInt ty.fmt = false ∧ isInt dfmt.toNat = false) →
       ((s.grp a).disjoint dg = true ∨ (w = wd ∧ a = d)) → ag.disjoint dg = true → ag.disjoint (s.grp a) = true →
       let x := fun i => if ty.blk ≠ 0 ∧ s.strand.sreq.toNat ≤ i then Machine.Num.fin false 0 0 else s.strand.value ty.fmt (c i)
       let y := fun i => if ty.blk = 0 then x i
         else let k := s.strand.elem ag.start 8 (i / ty.blk)
              if k = 255 then Machine.Num.nan false true (2 ^ 51) else (x i).scale ((k : Int) - 127)
       let mode := fun i => if sr = 1 then Rnd.stoch (s.strand.elem ag.start 16 i) else rm
       let e2m1 := fun f => decide (0x14 ≤ f) && decide (f ≤ 0x17)
       let op := fun i => if ty.blk = 0 ∧ e2m1 ty.fmt = true ∧ e2m1 dfmt.toNat = true then { code := c i, fl := 0 }
         else if isInt dfmt.toNat then numToInt ((8 ≤ dfmt.toNat && dfmt.toNat ≤ 11) || dfmt.toNat = 16) wd (mode i) (y i)
         else roundNum (ffOf dfmt.toNat) (mode i) (y i)
       first s.n act (fun i => (op i).fl) →
         stops s (.vcvt m sr dfmt d a) k 4 (bits (op e).fl) (activeFlags act (fun i => (op i).fl) k) fun t => OtherRegs s t dg
           ∧ ∀ j < k, act j = true → t.strand.elem d.toNat wd j = (op j).code % 2 ^ wd)
    -- the attention chain
    ∧ (let D := 2 ^ s.strand.ach.toNat
       let segs := s.n / D
       let u := { s with strand := { s.strand with gran := max s.strand.gran D } }
       let dg : Grp := { start := d.toNat, size := 1 }
       let f := fun (v : BitVec 5) i => decodeNum ffF32 (s.strand.elem v.toNat 32 i)
       -- an instruction with the exceptions of each segment, those of the first segments, and what these leave
       let E := fun (i : Instr) (fl : Nat → Flags) (got : Nat → Flags) (P : Nat → State → Prop) =>
         (first segs act fl → let k := s.whole (e * D)
           stops u i k 4 (bits (fl e)) (got (k / D)) (P (k / D)))
         ∧ ((∀ j < segs, act j = true → fl j &&& en = 0) → s.n % D ≠ 0 → let k := s.whole (segs * D)
             stops u i k 6 0 (got (k / D)) (P (k / D)))
       let S := fun (i : Instr) (op : Nat → FRes) => E i (fun j => (op j).fl) (activeFlags act fun j => (op j).fl) fun n t => OtherRegs s t dg
         ∧ ∀ j < n, act j = true → t.strand.elem d.toNat 32 j = (op j).code
       (ty.fmt = 1 ∨ ty.fmt = 3) → ty.vmax / D ≤ 512 →
         (out d → d ≠ b → S (.vdotseg m d a b) (s.score a b))
         ∧ (d ≠ b → a ≠ b → S (.vexpm m d a b) fun j =>
             let x := fpFma ffF32 rm false true (f b 1) (f a j) (f b 0)
             let p := fpExp2 ffF32 (decodeNum ffF32 x.code)
             { code := p.code, fl := x.fl ||| p.fl })
         ∧ (out d → out b → d ≠ b →
             let o := fun (r : (Nat → Nat) × Nat × Flags) j n => macc rm (decodeNum ffF32 (r.1 n)) (f b j) (s.strand.value ty.fmt (c (j * D + n)))
             let l := fun (r : (Nat → Nat) × Nat × Flags) j => fpAdd ffF32 rm (decodeNum ffF32 r.2.1) (f b j)
             let fl := fun r j => (List.range D).foldl (fun x n => x ||| (o r j n).fl) 0 ||| (l r j).fl
             let fold := fun n => ((List.range n).filter act).foldl (fun r j => (fun n => (o r j n).code, (l r j).code, r.2.2 ||| fl r j))
               (s.strand.elem d.toNat 32, s.strand.elem d.toNat 32 D, 0)
             E (.vaccw m d a b) (fun j => fl (fold j) j) (fun n => (fold n).2.2) fun n t =>
               Singles s t d.toNat 32 fun i => if i < D then some ((fold n).1 i) else if i = D then some (fold n).2.1 else none)))

/-- R56, R76, R77, R156, R177, R181 to R184, R193 to R195, R200, R205 to R209, R213, R225, R229, R313, R373: a vector
instruction whose TYPE or register groups it does not accept raises the illegal-instruction trap with detail 2 and its own word
in TVAL, whatever the effective length is; a Bridge core, which has no vector unit, raises it with detail 1. PFXS at the Bridge
vector is log entry 10. -/
def Obligations.VectorIllegal : Prop :=
  ∀ (s : State) (m x : BitVec 3) (d a b : BitVec 5) (p : BitVec 6) (pol : BitVec 2) (so eo lvl : BitVec 1),
    let T := fun (detail : Nat) (i : Instr) => ∃ t word, encode i = some (true, word) ∧ exec i s = .next t
      ∧ Traps s t 1 detail (BitVec.ofNat 64 word) false
    let ig : Grp := { start := a.toNat, size := ceilDiv (s.ty.g * max s.ty.w 32) s.ty.w }
    let one : Grp := { start := d.toNat, size := 1 }
    let carry : Grp := { start := b.toNat, size := 1 }
    (s.priv = false →
      (s.ty.isFloat = false → T 2 (.vsqrt m d a) ∧ T 2 (.vrcp m d a) ∧ T 2 (.vrsq m d a) ∧ T 2 (.vexp2 m d a)
        ∧ T 2 (.vclass m d a) ∧ T 2 (.vcmpUn m x a b) ∧ T 2 (.vsegr m d a b))
      ∧ (s.ty.isInt8 = false → T 2 (.vand m d a b) ∧ T 2 (.vor m d a b) ∧ T 2 (.vxor m d a b) ∧ T 2 (.vnot m d a)
        ∧ T 2 (.vshl m d a b) ∧ T 2 (.vshr m d a b) ∧ T 2 (.vsra m d a b) ∧ T 2 (.vidx m d p p) ∧ T 2 (.vconf m x a)
        ∧ T 2 (.vrbitAnd m d a b) ∧ T 2 (.vrbitOr m d a b) ∧ T 2 (.vrbitXor m d a b))
      ∧ (s.ty.isFloat = false → s.ty.isInt8 = false → T 2 (.vadd m d a b) ∧ T 2 (.vsub m d a b) ∧ T 2 (.vmul m d a b)
        ∧ T 2 (.vdiv m d a b) ∧ T 2 (.vmin m d a b) ∧ T 2 (.vmax m d a b) ∧ T 2 (.vabs m d a) ∧ T 2 (.vneg m d a)
        ∧ T 2 (.vfma m d a b) ∧ T 2 (.vfms m d a b) ∧ T 2 (.vfnma m d a b) ∧ T 2 (.vcmpEq m x a b) ∧ T 2 (.vcmpNe m x a b)
        ∧ T 2 (.vcmpLt m x a b) ∧ T 2 (.vcmpLe m x a b) ∧ T 2 (.vcmpGt m x a b) ∧ T 2 (.vcmpGe m x a b) ∧ T 2 (.vrmax m d a b)
        ∧ T 2 (.vrmin m d a b) ∧ T 2 (.vscanAdd m d a b) ∧ T 2 (.vscanMax m d a b) ∧ T 2 (.vscanMin m d a b)
        ∧ T 2 (.vstxAdd pol so eo m a p d))
      ∧ (s.ty.fmt < 12 ∨ 15 < s.ty.fmt → T 2 (.vdraw m d p p))
      ∧ (s.ty.fmt ≠ 11 → s.ty.fmt ≠ 15 → T 2 (.gins m d a) ∧ T 2 (.gacc m d a b) ∧ T 2 (.glkp m d a) ∧ T 2 (.glkpO m d a)
        ∧ T 2 (.gdrn m d p) ∧ T 2 .gclr ∧ T 2 (.gcnt p) ∧ T 2 (.spawn m p a p))
      ∧ (s.ty.fmt ≠ 1 ∧ s.ty.fmt ≠ 3 ∨ 512 < s.ty.vmax / 2 ^ s.strand.ach.toNat →
          T 2 (.vdotseg m d a b) ∧ T 2 (.vexpm m d a b) ∧ T 2 (.vaccw m d a b))
      ∧ (s.ty.w < 8 → T 2 (.vpref pol m p p lvl) ∧ T 2 (.vldc pol so m p p d) ∧ T 2 (.vstc pol so m p p d)
        ∧ T 2 (.tld pol so x p p (d.setWidth 6)) ∧ T 2 (.tst pol so x p p (d.setWidth 6))
        ∧ (p ≠ 0 → T 2 (.vld pol so eo m p p d) ∧ T 2 (.vst pol so eo m p p d)))
      ∧ (s.ty.w < 8 ∨ 8 < ig.size → T 2 (.vldx pol so eo m a p d) ∧ T 2 (.vstx pol so eo m a p d) ∧ T 2 (.vamoSwap x a p d)
        ∧ T 2 (.vamoAdd x a p d))
      ∧ ((s.ty.fmt ≠ 10 ∧ s.ty.fmt ≠ 11 ∧ s.ty.fmt ≠ 14 ∧ s.ty.fmt ≠ 15) ∨ (s.grp d).disjoint ig = false →
          T 2 (.vamoSwap x a p d) ∧ T 2 (.vamoCas x a p d) ∧ T 2 (.vamoAdd x a p d) ∧ T 2 (.vamoAnd x a p d)
          ∧ T 2 (.vamoOr x a p d) ∧ T 2 (.vamoXor x a p d) ∧ T 2 (.vamoMin x a p d) ∧ T 2 (.vamoMax x a p d)
          ∧ T 2 (.vamoMinn x a p d) ∧ T 2 (.vamoMaxn x a p d))
      ∧ ((s.grp d).disjoint ig = false → T 2 (.vldx pol so eo m a p d))
      ∧ ((s.grp d).sameOr (s.grp a) = false → T 2 (.vadd m d a b) ∧ T 2 (.vsub m d a b) ∧ T 2 (.vmul m d a b) ∧ T 2 (.vdiv m d a b)
        ∧ T 2 (.vmin m d a b) ∧ T 2 (.vmax m d a b) ∧ T 2 (.vabs m d a) ∧ T 2 (.vneg m d a) ∧ T 2 (.vsqrt m d a)
        ∧ T 2 (.vfma m d a b) ∧ T 2 (.vfms m d a b) ∧ T 2 (.vfnma m d a b) ∧ T 2 (.vand m d a b) ∧ T 2 (.vor m d a b)
        ∧ T 2 (.vxor m d a b) ∧ T 2 (.vnot m d a) ∧ T 2 (.vshl m d a b) ∧ T 2 (.vshr m d a b) ∧ T 2 (.vsra m d a b)
        ∧ T 2 (.vrcp m d a) ∧ T 2 (.vrsq m d a) ∧ T 2 (.vexp2 m d a) ∧ T 2 (.vclass m d a) ∧ T 2 (.vsel m d a b)
        ∧ T 2 (.vmov m d a) ∧ T 2 (.vscanAdd m d a b) ∧ T 2 (.vscanMax m d a b) ∧ T 2 (.vscanMin m d a b) ∧ T 2 (.gins m d a)
        ∧ T 2 (.gacc m d a b) ∧ T 2 (.glkp m d a) ∧ T 2 (.glkpO m d a))
      ∧ ((s.grp a).sameOr (s.grp b) = false → T 2 (.vadd m d a b) ∧ T 2 (.vand m d a b) ∧ T 2 (.vsel m d a b) ∧ T 2 (.vcmpEq m x a b)
        ∧ T 2 (.vcmpNe m x a b) ∧ T 2 (.vcmpLt m x a b) ∧ T 2 (.vcmpLe m x a b) ∧ T 2 (.vcmpGt m x a b) ∧ T 2 (.vcmpGe m x a b)
        ∧ T 2 (.vcmpUn m x a b) ∧ T 2 (.gacc m d a b))
      ∧ ((s.grp d).disjoint (s.grp a) = false → T 2 (.vslup m d a p) ∧ T 2 (.vsldn m d a p) ∧ T 2 (.vperm m d a b)
        ∧ T 2 (.vcomp m d a) ∧ T 2 (.vexpd m d a) ∧ T 2 (.vzip m d a b) ∧ T 2 (.vunzipEv m d a) ∧ T 2 (.vunzipOd m d a))
      ∧ ((s.grp d).disjoint (s.grp b) = false → T 2 (.vperm m d a b) ∧ T 2 (.vzip m d a b))
      ∧ ((s.grp a).disjoint one = false ∨ (s.grp a).disjoint carry = false → T 2 (.vrsum m d a b) ∧ T 2 (.vrsumO m d a b)
        ∧ T 2 (.vrmax m d a b) ∧ T 2 (.vrmin m d a b) ∧ T 2 (.vrbitAnd m d a b) ∧ T 2 (.vrbitOr m d a b) ∧ T 2 (.vrbitXor m d a b)))
    ∧ (s.priv = true → T 1 (.vadd m d a b) ∧ T 1 (.vmov m d a) ∧ T 1 (.vrsum m d a b) ∧ T 1 (.mand m x x x)
        ∧ T 1 (.vslup m d a p) ∧ T 1 (.vcmpEq m x a b) ∧ T 1 (.vld pol so eo m p p d) ∧ T 1 (.vst pol so eo m p p d)
        ∧ T 1 (.vldx pol so eo m a p d) ∧ T 1 (.vstx pol so eo m a p d) ∧ T 1 (.vldc pol so m p p d) ∧ T 1 (.vamoSwap x a p d)
        ∧ T 1 (.tld pol so x p p p) ∧ T 1 (.opadd so m m b a a) ∧ T 1 (.mzero so) ∧ T 1 (.gins m d a) ∧ T 1 (.gcnt p)
        ∧ T 1 (.vdotseg m d a b) ∧ T 1 (.vcvt m so d d a) ∧ T 1 (.setvl m so eo pol d p p) ∧ T 1 (.advmg 0 p p))

 
/-! Vector memory. -/

/-- R222, R226, R227, R229, R230, R237 to R241, R263, R264: vector loads. Every active element takes the little-endian code at
its own address, or 0 when it is padding; no byte of memory changes. With SO = 1 a free interlock entry is needed. No loan reaches
vldc (R65, R238). R249, R299: an unmasked vld at unit stride from an aligned base gives a member the zero, constant, unit or
general swatch of the lines it read, any other load the general one; where in a member a unit's position counts from is log entry
20 (DEDUCED). -/
def Obligations.VectorLoads : Prop :=
  ∀ (s : State) (pol : BitVec 2) (so eo : BitVec 1) (m : BitVec 3) (c a : BitVec 6) (v d : BitVec 5) (L : Nat → List Loc) (x : Chart),
    s.LentReady m [a, c] → 0 < s.n → s.n ≤ s.ty.vmax → s.HasEntry so →
    let w := s.ty.w
    let sz := w / 8
    let pad := fun i => s.ty.blk ≠ 0 ∧ s.strand.sreq.toNat ≤ i
    let code := fun i => if pad i then 0 else ofBytes (s.bytes (L i))
    -- the member's elements, their lines and swatches
    let per := 16384 / w
    let E := fun (j i : Nat) => j * per ≤ i ∧ i < (j + 1) * per ∧ i < s.n ∧ ¬ pad i
    let at_ := fun (i : Nat) => (L i).headD { space := .pcie, addr := 0 }
    let line := fun (i : Nat) => (s.locSw (at_ i)).toNat
    let known := w = 16 ∨ w = 32 ∨ w = 64
    let lined := fun (t : State) (j : Nat) =>
      let sw := t.swOf (d.toNat + j)
      ((∀ i, E j i → line i = 0x201) → sw = 0x201) ∧ (∀ i, E j i → line i % 8 = 0 → sw = 0)
      ∧ (∀ x, known → (∀ i, E j i → line i % 8 = constKind w ∧ s.lineCode w (at_ i) = x) → sw % 512 = constKind w
          ∧ (sw / 512 = 1 ↔ ∀ i, E j i → line i / 512 = 1))
      ∧ (∀ u, known → E j u → u - j * per < 64 → line u % 8 = constKind w + 3 → line u / 8 % 64 = (at_ u).addr % 128 / sz →
          (∀ i, E j i → (at_ i).line = (at_ u).line ∨ line i = 0x201) → sw = 512 + 8 * (u - j * per) + constKind w + 3)
    let R := fun (i : Instr) (plain : Prop) (res : Nat → Nat) => ∃ t, exec i s = .next t ∧ VecLoaded s t (s.grp d) w (s.act m) res
      ∧ (plain → ∀ j < s.ty.g, (∃ i, E j i) → lined t j) ∧ (¬ plain → ∀ j < s.ty.g, t.swOf (d.toNat + j) = 0)
    (8 ≤ w →
      (s.Reaches Need.load m sz (fun i => s.g a + BitVec.ofNat 64 i * (if c = 0 then BitVec.ofNat 64 sz else s.g c)) L →
        R (.vld pol so eo m c a d) (c = 0 ∧ m = 0 ∧ s.hart.pfxs = 0 ∧ (s.g a).toNat % sz = 0) code)
      ∧ (let wi := max w 32
         let ig : Grp := { start := v.toNat, size := ceilDiv (s.ty.g * wi) w }
         ig.size ≤ 8 → (s.grp d).disjoint ig = true →
         s.Reaches Need.load m sz (fun i => s.g a + BitVec.ofInt 64 (signedOf wi (s.strand.elem v.toNat wi i) * sz)) L →
          R (.vldx pol so eo m v a d) False code)
      ∧ (let sel := (s.g c).toNat
         let tok := fun i => (x.start + BitVec.ofNat 64 (sel % 2 ^ 32) + BitVec.ofNat 64 i).toNat
         let entry := fun i => x.tbl + BitVec.ofNat 64 (8 * (tok i / x.blkt))
         ∀ block : Nat → Word, s.hart.pfxs = 0 →
         s.Clear false (s.g a) 64 → s.readChart (s.g a) = .ok x →
         (∀ i < s.n, s.performed m i = true → s.Clear false (entry i) 8 ∧ s.load8 s.aspace (entry i) = .ok (block i)) →
         s.Reaches Need.load m sz (fun i => block i + BitVec.ofNat 64 (tok i % x.blkt) * x.tstr
            + BitVec.ofNat 64 (sel / 2 ^ 32 % 2 ^ 16) * x.hstr + BitVec.ofNat 64 (sel / 2 ^ 48 % 2 ^ 16 * sz)) L →
          R (.vldc pol so m c a d) False code))
    ∧ (w = 4 → c = 0 → s.Reaches Need.load m 1 (fun i => s.g a + BitVec.ofNat 64 (i / 2)) L →
        R (.vld pol so eo m c a d) (m = 0 ∧ s.hart.pfxs = 0) fun i => if pad i then 0 else code i / (if i % 2 = 0 then 1 else 16) % 16)

/-- R228 to R230, R241: vector stores write the codes of the active elements that are no padding, in index order, and no
other byte; a 4-bit element changes its own half of its byte. No register changes. No loan reaches vstc (R65, R238). R251, R298:
an unmasked vst at unit stride from an aligned base gives each line of DRAM that it writes whole the swatch of its new bytes, and
makes the others it writes general, as every other store does. -/
def Obligations.VectorStores : Prop :=
  ∀ (s : State) (pol : BitVec 2) (so eo : BitVec 1) (m : BitVec 3) (c a : BitVec 6) (v d : BitVec 5) (L : Nat → List Loc) (x : Chart),
    s.Canonical → s.LentReady m [a, c] → 0 < s.n → s.n ≤ s.ty.vmax → s.HasEntry so →
    let w := s.ty.w
    let sz := w / 8
    let W := fun (q : Nat) => ∃ p ∈ s.elemBytes m L d s.n, p.1.plain = { space := .dram, addr := q }
    let R := fun (i : Instr) (plain : Prop) => ∃ t, exec i s = .next t ∧ VecStored s t (s.elemBytes m L d s.n)
      ∧ ∀ k, (∃ q < 128, W (128 * k + q)) →
          (plain → (∀ q < 128, W (128 * k + q)) → LineTakes w (fun q => memGet t.ms.dram (128 * k + q)) (t.ms.lineSw k).toNat)
          ∧ (¬ plain ∨ (∃ q < 128, ¬ W (128 * k + q)) → t.ms.lineSw k = 0)
    (8 ≤ w →
      (s.Reaches Need.store m sz (fun i => s.g a + BitVec.ofNat 64 i * (if c = 0 then BitVec.ofNat 64 sz else s.g c)) L →
        R (.vst pol so eo m c a d) (c = 0 ∧ m = 0 ∧ s.hart.pfxs = 0 ∧ (s.g a).toNat % sz = 0))
      ∧ (let wi := max w 32
         ceilDiv (s.ty.g * wi) w ≤ 8 →
         s.Reaches Need.store m sz (fun i => s.g a + BitVec.ofInt 64 (signedOf wi (s.strand.elem v.toNat wi i) * sz)) L →
          R (.vstx pol so eo m v a d) False)
      ∧ (let sel := (s.g c).toNat
         let tok := fun i => (x.start + BitVec.ofNat 64 (sel % 2 ^ 32) + BitVec.ofNat 64 i).toNat
         let entry := fun i => x.tbl + BitVec.ofNat 64 (8 * (tok i / x.blkt))
         ∀ block : Nat → Word, s.hart.pfxs = 0 →
         s.Clear false (s.g a) 64 → s.readChart (s.g a) = .ok x →
         (∀ i < s.n, s.performed m i = true → s.Clear false (entry i) 8 ∧ s.load8 s.aspace (entry i) = .ok (block i)) →
         s.Reaches Need.store m sz (fun i => block i + BitVec.ofNat 64 (tok i % x.blkt) * x.tstr
            + BitVec.ofNat 64 (sel / 2 ^ 32 % 2 ^ 16) * x.hstr + BitVec.ofNat 64 (sel / 2 ^ 48 % 2 ^ 16 * sz)) L →
          R (.vstc pol so m c a d) False))
    ∧ (w = 4 → c = 0 → s.Reaches Need.store m 1 (fun i => s.g a + BitVec.ofNat 64 (i / 2)) L →
        ∃ t, exec (.vst pol so eo m c a d) s = .next t ∧ VecStored s t (s.elemBytes m L d s.n))

/-- R232, R234, R235: scatter-adds and vector atomics are read-modify-writes of the active elements in index order, each seeing
those before it. vamo writes the old codes to its group, and vstx.add writes no register; a floating scatter-add never
stops on an exception, and ORs them into VFCS. A vamo with a scope waits while a copy of the strand is in flight (R127, R264). -/
def Obligations.VectorAtomics : Prop :=
  ∀ (s : State) (pol : BitVec 2) (so eo : BitVec 1) (m scope : BitVec 3) (a : BitVec 6) (v d : BitVec 5) (L : Nat → List Loc)
    (q : Interlock) (rest : List Interlock),
    s.Canonical → s.LentReady m [a] → 0 < s.n → s.n ≤ s.ty.vmax →
    let w := s.ty.w
    let sz := w / 8
    let wi := max w 32
    let ig : Grp := { start := v.toNat, size := ceilDiv (s.ty.g * wi) w }
    let addr := fun i => s.g a + BitVec.ofInt 64 (signedOf wi (s.strand.elem v.toNat wi i) * sz)
    let ng : Grp := { start := d.toNat + s.ty.g, size := s.ty.g }
    let D := fun i => s.strand.elem d.toNat w i
    let N := fun i => s.strand.elem (d.toNat + s.ty.g) w i
    let run := fun (m : BitVec 3) (op : Nat → Nat → Option Nat) => s.rmwAll L sz op ((List.range s.n).filter (s.performed m))
    let sg := fun x => signedOf w x
    ig.size ≤ 8 → 8 ≤ w →
    (s.HasEntry so → s.Reaches Need.rmw m sz addr L →
      (s.ty.isInt8 = true → ∃ t, exec (.vstxAdd pol so eo m v a d) s = .next t
        ∧ t = ((s.withStore t).counted 0).moved t 4 ∧ SamePop s.pop t.pop
        ∧ ∀ l, l.Real → t.byte l = (run m fun e old => some (old + D e)).1.byte l)
      ∧ (s.ty.isFloat = true →
        let ff := ffOf s.ty.fmt
        let sum := fun e old => fpAdd ff (fcsRm s.strand.vfcs) (decodeNum ff old) (decodeNum ff (D e))
        let r := run m fun e old => some (sum e old).code
        ∃ t, exec (.vstxAdd pol so eo m v a d) s = .next t
        ∧ t = ((s.withStore t).counted (activeFlags (s.performed m) (fun e => (sum e (r.2 e)).fl) s.n)).moved t 4
        ∧ SamePop s.pop t.pop ∧ ∀ l, l.Real → t.byte l = r.1.byte l))
    ∧ (s.ty.fmt = 10 ∨ s.ty.fmt = 11 ∨ s.ty.fmt = 14 ∨ s.ty.fmt = 15 → (s.grp d).disjoint ig = true → scope = 0 ∨ s.NoCopies →
        (∀ i < s.n, s.performed 0 i = true → (addr i).toNat % sz = 0) → s.Reaches Need.rmw 0 sz addr L →
        let R := fun (i : Instr) (op : Nat → Nat → Option Nat) => ∃ t, exec i s = .next t
          ∧ t = (((s.withStore t).withVec t).counted 0).moved t 4 ∧ SamePop s.pop t.pop
          ∧ (∀ l, l.Real → t.byte l = (run 0 op).1.byte l) ∧ Elements s t (s.grp d) w s.n (s.act 0) (run 0 op).2
          ∧ Tides s t (s.grp d) w s.n ∧ OtherRegs s t (s.grp d)
        let O := fun (i : Instr) (f : Nat → Nat → Nat) => R i fun e old => some (f old (D e))
        O (.vamoSwap scope v a d) (fun _ x => x) ∧ O (.vamoAdd scope v a d) (fun old x => old + x)
        ∧ O (.vamoAnd scope v a d) (fun old x => old &&& x) ∧ O (.vamoOr scope v a d) (fun old x => old ||| x)
        ∧ O (.vamoXor scope v a d) (fun old x => old ^^^ x)
        ∧ O (.vamoMin scope v a d) (fun old x => if sg old < sg x then old else x)
        ∧ O (.vamoMax scope v a d) (fun old x => if sg old < sg x then x else old)
        ∧ O (.vamoMinn scope v a d) (fun old x => if old < x then old else x)
        ∧ O (.vamoMaxn scope v a d) (fun old x => if old < x then x else old)
        ∧ (ng.disjoint (s.grp d) = true ∧ ng.disjoint ig = true →
            R (.vamoCas scope v a d) fun e old => if old = D e then some (N e) else none))
    ∧ (s.ty.fmt = 10 ∨ s.ty.fmt = 11 ∨ s.ty.fmt = 14 ∨ s.ty.fmt = 15 → (s.grp d).disjoint ig = true → scope ≠ 0 → s.strand.irt = q :: rest →
        (∀ i ∈ [Instr.vamoSwap scope v a d, .vamoAdd scope v a d, .vamoAnd scope v a d, .vamoOr scope v a d, .vamoXor scope v a d,
          .vamoMin scope v a d, .vamoMax scope v a d, .vamoMinn scope v a d, .vamoMaxn scope v a d], s.Stalls i q)
        ∧ (ng.disjoint (s.grp d) = true ∧ ng.disjoint ig = true → s.Stalls (.vamoCas scope v a d) q))

/-- R30, R31, R36, R112, R222, R228, R232, R234, R236, R238 to R241, R252 to R255: a vector access that stops. At its leading
element or block it traps with cause 4, the kind of the failed check and in TVAL the element's address, or that of the chart
or of the block-table entry that gives no address; to the Bridge for translation, protection, poison and key revocation; it
performs nothing. Later it makes good the whole blocks before: a load has their elements, a store has written them and no
more, a scatter-add and a vector atomic have done their read-modify-writes in index order and no others. vpref never stops. No
loan reaches vldc and vstc (R65, R238).
PFXS at the Bridge vector is log entry 10. -/
def Obligations.VectorAccessStops : Prop :=
  ∀ (s : State) (pol : BitVec 2) (so eo lvl : BitVec 1) (m scope : BitVec 3) (c a : BitVec 6) (v d : BitVec 5) (L : Nat → List Loc)
    (e : Nat) (tval : Word) (st : Stop) (x : Chart),
    s.LentReady m [a, c] → 0 < s.n → s.n ≤ s.ty.vmax → s.HasEntry so →
    let w := s.ty.w
    let sz := if w = 4 then 1 else w / 8
    let k := s.whole e
    let linear := fun i : Nat => (Except.ok (s.g a + (if w = 4 then BitVec.ofNat 64 (i / 2)
      else BitVec.ofNat 64 i * (if c = 0 then BitVec.ofNat 64 sz else s.g c))) : Except Stop Word)
    let wi := max w 32
    let ig : Grp := { start := v.toNat, size := ceilDiv (s.ty.g * wi) w }
    let indexed := fun i : Nat =>
      (Except.ok (s.g a + BitVec.ofInt 64 (signedOf wi (s.strand.elem v.toNat wi i) * sz)) : Except Stop Word)
    let sel := (s.g c).toNat
    let tok := fun i => (x.start + BitVec.ofNat 64 (sel % 2 ^ 32) + BitVec.ofNat 64 i).toNat
    let entry := fun i => x.tbl + BitVec.ofNat 64 (8 * (tok i / x.blkt))
    let charted := fun i => match s.load8 s.aspace (entry i) with
      | .error st => (Except.error { st with addr := entry i } : Except Stop Word)
      | .ok block => .ok (block + BitVec.ofNat 64 (tok i % x.blkt) * x.tstr + BitVec.ofNat 64 (sel / 2 ^ 32 % 2 ^ 16) * x.hstr
          + BitVec.ofNat 64 (sel / 2 ^ 48 % 2 ^ 16 * sz))
    let readable := s.Clear false (s.g a) 64 ∧ s.readChart (s.g a) = .ok x ∧ ∀ i < s.n, s.performed m i = true → s.Clear false (entry i) 8
    let placed := fun (need : Need) (addr : Nat → Except Stop Word) =>
      ∀ i < e, s.performed m i = true → ∃ ea, addr i = .ok ea ∧ s.check s.aspace need ea sz = .ok (L i)
    let toBridge := fun (st : Stop) => st.kind = 1 || st.kind = 2 || st.kind = 3 || st.kind = 7
    let lead := fun (i : Instr) (tval : Word) (st : Stop) => ∃ t, exec i s = .next t
      ∧ Trapped s t 4 st.kind 0 st.lvl st.mal st.rsv tval 0 (toBridge st)
    let pad := fun i => s.ty.blk ≠ 0 ∧ s.strand.sreq.toNat ≤ i
    let load := fun (i : Instr) (addr : Nat → Except Stop Word) => s.StopsAt Need.load false m sz addr e tval st →
      (k = 0 → lead i tval st)
      ∧ (0 < k → placed Need.load addr → ∃ t, exec i s = .next t
          ∧ t = (((s.withVec t).withTlb t).shortened k st.kind 0 0).moved t 4 ∧ OtherRegs s t (s.grp d) ∧ SameMemory s t
          ∧ ∀ j < k, s.act m j = true → t.strand.elem d.toNat w j = if pad j then 0
              else if w = 4 then ofBytes (s.bytes (L j)) / (if j % 2 = 0 then 1 else 16) % 16 else ofBytes (s.bytes (L j)))
    let store := fun (i : Instr) (addr : Nat → Except Stop Word) => s.StopsAt Need.store false m sz addr e tval st →
      (k = 0 → lead i tval st)
      ∧ (0 < k → placed Need.store addr → s.Canonical → ∃ t, exec i s = .next t
          ∧ t = ((s.withStore t).shortened k st.kind 0 0).moved t 4 ∧ Stored s t (s.elemBytes m L d k))
    let run := fun (m : BitVec 3) (op : Nat → Nat → Option Nat) => s.rmwAll L sz op ((List.range k).filter (s.performed m))
    let D := fun i => s.strand.elem d.toNat w i
    let N := fun i => s.strand.elem (d.toNat + s.ty.g) w i
    let sg := fun x => signedOf w x
    let atomic := fun (i : Instr) (op : Nat → Nat → Option Nat) => s.StopsAt Need.rmw true 0 sz indexed e tval st →
      (k = 0 → lead i tval st)
      ∧ (0 < k → placed Need.rmw indexed → s.Canonical → ∃ t, exec i s = .next t
          ∧ t = (((s.withStore t).withVec t).shortened k st.kind 0 0).moved t 4 ∧ SamePop s.pop t.pop
          ∧ (∀ l, l.Real → t.byte l = (run 0 op).1.byte l) ∧ OtherRegs s t (s.grp d)
          ∧ ∀ j < k, s.act 0 j = true → t.strand.elem d.toNat w j = if s.performed 0 j then (run 0 op).2 j % 2 ^ w else 0)
    let A := fun (i : Instr) (f : Nat → Nat → Nat) => atomic i fun e old => some (f old (D e))
    (c = 0 ∨ 8 ≤ w → w ≠ 0 → load (.vld pol so eo m c a d) linear ∧ store (.vst pol so eo m c a d) linear)
    ∧ (8 ≤ w → ig.size ≤ 8 →
        ((s.grp d).disjoint ig = true → load (.vldx pol so eo m v a d) indexed) ∧ store (.vstx pol so eo m v a d) indexed
        ∧ (s.ty.arith = true → s.StopsAt Need.rmw false m sz indexed e tval st →
            let ff := ffOf s.ty.fmt
            let sum := fun e old => fpAdd ff (fcsRm s.strand.vfcs) (decodeNum ff old) (decodeNum ff (D e))
            let r := run m fun e old => some (if s.ty.isFloat then (sum e old).code else old + D e)
            let fl := if s.ty.isFloat then activeFlags (s.performed m) (fun e => (sum e (r.2 e)).fl) k else 0
            (k = 0 → lead (.vstxAdd pol so eo m v a d) tval st)
            ∧ (0 < k → placed Need.rmw indexed → s.Canonical → ∃ t, exec (.vstxAdd pol so eo m v a d) s = .next t
                ∧ t = ((s.withStore t).shortened k st.kind 0 fl).moved t 4 ∧ SamePop s.pop t.pop
                ∧ ∀ l, l.Real → t.byte l = r.1.byte l))
        ∧ ((s.grp d).disjoint ig = true → s.ty.fmt = 10 ∨ s.ty.fmt = 11 ∨ s.ty.fmt = 14 ∨ s.ty.fmt = 15 → scope = 0 ∨ s.NoCopies →
            A (.vamoSwap scope v a d) (fun _ x => x) ∧ A (.vamoAdd scope v a d) (fun old x => old + x)
            ∧ A (.vamoAnd scope v a d) (fun old x => old &&& x) ∧ A (.vamoOr scope v a d) (fun old x => old ||| x)
            ∧ A (.vamoXor scope v a d) (fun old x => old ^^^ x)
            ∧ A (.vamoMin scope v a d) (fun old x => if sg old < sg x then old else x)
            ∧ A (.vamoMax scope v a d) (fun old x => if sg old < sg x then x else old)
            ∧ A (.vamoMinn scope v a d) (fun old x => if old < x then old else x)
            ∧ A (.vamoMaxn scope v a d) (fun old x => if old < x then x else old)
            ∧ (let ng : Grp := { start := d.toNat + s.ty.g, size := s.ty.g }
               ng.disjoint (s.grp d) = true → ng.disjoint ig = true →
                atomic (.vamoCas scope v a d) fun e old => if old = D e then some (N e) else none)))
    ∧ (8 ≤ w →
        (s.hart.pfxs = 0 → readable → load (.vldc pol so m c a d) charted ∧ store (.vstc pol so m c a d) charted)
        ∧ (s.hart.pfxs = 0 → s.Clear false (s.g a) 64 → s.readChart (s.g a) = .error st →
            lead (.vldc pol so m c a d) (s.g a) st ∧ lead (.vstc pol so m c a d) (s.g a) st)
        ∧ ∃ t, exec (.vpref pol m c a lvl) s = .next t ∧ Moved (s.counted 0) t 4)

/-! System registers. -/

/-- R19, R25, R62, R67, R110, R135, R152, R157, R160, R161, R167, R212, R243, R280, R282, R311, R336, R342, R357: mfs in a
strand reads each register of the unprivileged view; gd takes the value that stood before.
R110, R111, R157, R160, R161, R167, R212, R243, R311, R357: mts in a strand writes each register of the unprivileged
view that may be written, after the instruction has counted itself; reserved codes leave the field, and bits that read
as 0 stay 0. That SPTH counts bits 8:0 of what is written alone is the model's choice (log entry 87). -/
def Obligations.SystemReadsAndWrites : Prop :=
  (∀ (s : State) (d : BitVec 6) (j : Nat), s.StrandReady [d] →
    let st := s.strand
    let mine := fun (a : Acc) => a.owned && decide (a.own = st.tag)
    let bit := fun (b : Bool) => if b then 1 else 0
    let R := fun (r : BitVec 9) (x : Word) => ∃ t, exec (.mfs r d) s = .next t ∧ Wrote s t d x 4
    R 0x00 s.core.cyc ∧ R 0x01 s.hart.insn ∧ R 0x08 s.hart.sfcs ∧ R 0x10 st.tvec ∧ R 0x11 st.tscr ∧ R 0x12 st.tcause
    ∧ R 0x13 st.tpc ∧ R 0x14 st.tval ∧ R 0x15 st.tpfx ∧ R 0x16 (if st.inh then 1 else 0) ∧ R 0x18 (s.core.pspl.setWidth 64)
    ∧ R 0x19 (BitVec.ofNat 64 (bit s.hart.monArmed + 2 * bit s.hart.monFired))
    ∧ R 0x40 st.mg ∧ R 0x41 st.mgs ∧ R 0x42 st.mgf ∧ R 0x43 st.mgr ∧ R 0x44 st.mgc ∧ R 0x45 st.sreq
    ∧ R 0x46 (s.flot.fgr.setWidth 64) ∧ R 0x47 (s.hart.lastd.setWidth 64) ∧ R 0x48 s.flot.fid ∧ R 0x49 st.sid ∧ R 0x4A st.lcnt
    ∧ R 0x4B 0 ∧ R 0x50 (st.type.setWidth 64) ∧ R 0x51 st.vfcs ∧ R 0x52 (st.spth.setWidth 64)
    ∧ (j < 4 → R (BitVec.ofNat 9 (0x54 + j)) ((vget st.spare j 0).setWidth 64))
    ∧ (j < 16 → R (BitVec.ofNat 9 (0x58 + j)) (vget st.pal j 0))
    ∧ R 0x68 (st.ach.setWidth 64) ∧ R 0x69 st.tshp
    ∧ R 0x6A (BitVec.ofNat 64 (bit (mine s.core.acc0) + 2 * bit (mine s.core.acc1) + 4 * bit st.saved0 + 8 * bit st.saved1))
    ∧ R 0x6B s.core.acc0.mxe ∧ R 0x6C s.core.acc1.mxe ∧ R 0x70 (BitVec.ofNat 64 st.gents.length) ∧ R 0x71 st.govb
    ∧ R 0x72 st.govl ∧ R 0x73 st.govc ∧ R 0x74 st.gflt ∧ R 0x78 st.prio ∧ R 0x79 s.flot.bm ∧ R 0x7A st.spnr ∧ R 0x80 st.tcsp
    ∧ R 0x81 st.tmid)
  ∧ (∀ (s : State) (a : BitVec 6) (j : Nat), s.StrandReady [a] →
    let st := s.strand
    let x := s.g a
    let n := x.toNat
    let W := fun (r : BitVec 9) (h : Hart) (st : Strand) => ∃ t, exec (.mts r a) s = .next t ∧ Moved { s with hart := h, strand := st } t 4
    let S := fun (r : BitVec 9) (st : Strand) => W r s.hart st
    let fcs := fun (old : Word) => (x &&& 0x1F1F00) ||| ((if n % 8 ≤ 4 then x else old) &&& 7)
    let even := x &&& ~~~(1 : Word)
    W 0x08 { s.hart with sfcs := fcs s.hart.sfcs } st ∧ S 0x10 { st with tvec := even } ∧ S 0x11 { st with tscr := x }
    ∧ (st.inh = true → S 0x13 { st with tpc := even } ∧ S 0x15 { st with tpfx := BitVec.ofNat 64 (n % 2 ^ 32) })
    ∧ S 0x51 { st with vfcs := fcs st.vfcs }
    ∧ S 0x52 { st with spth := BitVec.ofNat 9 (min 256 (n % 512)) }
    ∧ (j < 4 → S (BitVec.ofNat 9 (0x54 + j)) { st with spare := vset st.spare j (BitVec.ofNat 16 n) })
    ∧ (j < 16 → S (BitVec.ofNat 9 (0x58 + j)) { st with pal := vset st.pal j (if j % 4 = 0 then x &&& ~~~(0xFFFF : Word) else x) })
    ∧ S 0x68 { st with ach := BitVec.ofNat 3 n }
    ∧ S 0x69 (if n % 512 = 0 ∨ 256 < n % 512 then st
        else { st with tshp := BitVec.ofNat 64 (n % 512 + 2 ^ 16 * (st.tshp.toNat / 2 ^ 16 % 16)) })
    ∧ S 0x71 { st with govb := x &&& ~~~(0xF : Word) } ∧ S 0x72 { st with govl := BitVec.ofNat 64 (n % 2 ^ 32) }
    ∧ S 0x80 (if n % 4 = 3 ∨ n / 4 % 4 = 3 ∨ n / 2 ^ 16 % 1024 = 1023 ∨ n / 2 ^ 32 % 1024 = 1023 then st
        else { st with tcsp := BitVec.ofNat 64 (n % 16 + 2 ^ 16 * (n / 2 ^ 16 % 1024) + 2 ^ 32 * (n / 2 ^ 32 % 1024)) }))

/-- R76, R109, R110, R376: a strand's mts to a register that it may only read, or mfs or mts of a Bridge register, is illegal
with detail 6; an offset that no chapter maps is illegal with detail 2, in a strand and on a Bridge core. That 0x130 to 0x137
count as Bridge registers in a strand is the model's reading (log entry 38), and so are detail 2 for a Bridge core's mts to
an offset that is mapped but read only, 0x120, 0x121 and 0x130 to 0x136 (log entry 92), and PFXS at the Bridge vector (log
entry 10). -/
def Obligations.SystemRefusals : Prop :=
  ∀ (s : State) (r : BitVec 9) (a d : BitVec 6),
    let n := r.toNat
    let T := fun (detail : Nat) (i : Instr) => ∃ t w, exec i s = .next t ∧ encode i = some (true, w)
      ∧ Traps s t 1 detail (BitVec.ofNat 64 w) false
    let only := n ≤ 1 ∨ n = 0x12 ∨ n = 0x14 ∨ n = 0x16 ∨ n = 0x18 ∨ n = 0x19 ∨ (0x40 ≤ n ∧ n ≤ 0x4B) ∨ n = 0x50
      ∨ (0x6A ≤ n ∧ n ≤ 0x6C) ∨ n = 0x70 ∨ n = 0x73 ∨ n = 0x74 ∨ (0x78 ≤ n ∧ n ≤ 0x7A) ∨ n = 0x81
    let bridge := (0x100 ≤ n ∧ n ≤ 0x105) ∨ (0x110 ≤ n ∧ n ≤ 0x116) ∨ n = 0x118 ∨ n = 0x119 ∨ n = 0x120 ∨ n = 0x121
      ∨ (0x130 ≤ n ∧ n ≤ 0x137)
    let both := n ≤ 1 ∨ n = 8 ∨ n = 0x47 ∨ n = 0x4B ∨ bridge
    let strand := only ∨ n = 8 ∨ n = 0x10 ∨ n = 0x11 ∨ n = 0x13 ∨ n = 0x15 ∨ (0x51 ≤ n ∧ n ≤ 0x52) ∨ (0x54 ≤ n ∧ n ≤ 0x69)
      ∨ n = 0x71 ∨ n = 0x72 ∨ n = 0x80
    (s.priv = false →
      (only ∨ (s.strand.inh = false ∧ (n = 0x13 ∨ n = 0x15)) → T 6 (.mts r a)) ∧ (bridge → T 6 (.mts r a) ∧ T 6 (.mfs r d))
      ∧ (¬ strand → ¬ bridge → T 2 (.mts r a) ∧ T 2 (.mfs r d)))
    ∧ (s.priv = true → (¬ both → T 2 (.mfs r d) ∧ T 2 (.mts r a))
        ∧ (n = 0x120 ∨ n = 0x121 ∨ (0x130 ≤ n ∧ n ≤ 0x136) → T 2 (.mts r a)))

/-- R373, R376, R411: a Bridge core's own registers, read and written: the plain ones keep what is written, BVEC drops bit 0,
BINT clears the bits written as 1, BSTAT tells ATT, INTR, LEAD, STBY, the die and the berth; CYC is the core's own. BQOS,
BRCNT and the link registers are those of its berth, of which it writes LSTAT only: READY and FAIL. That a read of LSTAT
(0x137) by the core leaves FAILED as it is, is the model's reading (DEDUCED, log entry 62). -/
def Obligations.BridgeRegisters : Prop :=
  ∀ (s : State) (d a : BitVec 6), s.priv = true → s.Ready [d, a] →
    let b := s.bcore
    let x := s.g a
    let n := x.toNat
    let k := b.berth.toNat
    let B := s.berthAt k
    let bit := fun (b : Bool) => if b then 1 else 0
    let R := fun (r : BitVec 9) (v : Word) => ∃ t, exec (.mfs r d) s = .next t ∧ Wrote s t d v 4
    let W := fun (r : BitVec 9) (b : BCore) => ∃ t, exec (.mts r a) s = .next t ∧ Moved { s with bcore := b } t 4
    R 0x00 b.cyc ∧ R 0x01 s.hart.insn ∧ R 0x08 s.hart.sfcs ∧ R 0x47 (s.hart.lastd.setWidth 64)
    ∧ R 0x100 (BitVec.ofNat 64 (bit b.att + 2 * bit b.intr + 4 * bit b.lead + 8 * bit b.stby + 16 * (b.id / 16 % 4) + 2 ^ 16 * b.berth.toNat))
    ∧ R 0x101 (b.bctx.setWidth 64) ∧ R 0x103 (if b.bcmd then 1 else 0) ∧ R 0x104 (b.bsel.setWidth 64) ∧ R 0x110 b.bvec
    ∧ R 0x111 b.bepc ∧ R 0x112 b.because ∧ R 0x113 b.betval ∧ R 0x114 b.bscr ∧ R 0x115 (b.bint.setWidth 64) ∧ R 0x118 b.basp
    ∧ R 0x119 b.broot ∧ R 0x120 (BitVec.ofNat 64 (B.qm.toNat + 2 ^ 8 * B.qp.toNat)) ∧ R 0x121 (B.brcnt.setWidth 64)
    ∧ R 0x130 B.crbase ∧ R 0x131 B.cqbase ∧ R 0x132 B.evbase ∧ R 0x133 B.cqhead ∧ R 0x134 B.evhead ∧ R 0x135 B.enable ∧ R 0x136 0
    ∧ R 0x137 (BitVec.ofNat 64 (bit B.ready + 2 * bit B.failed + 2 ^ 8 * B.brcnt.toNat))
    ∧ (∃ t, exec (.mts 0x137 a) s = .next t ∧ Moved (s.putBerth k { B with ready := n.testBit 0, failed := n.testBit 1 }) t 4)
    ∧ W 0x104 { b with bsel := BitVec.ofNat 10 n } ∧ W 0x110 { b with bvec := x &&& ~~~(1 : Word) } ∧ W 0x111 { b with bepc := x }
    ∧ W 0x112 { b with because := BitVec.ofNat 64 (n % 2 ^ 21) } ∧ W 0x113 { b with betval := x } ∧ W 0x114 { b with bscr := x }
    ∧ W 0x115 { b with bint := b.bint &&& ~~~(BitVec.ofNat 3 n) } ∧ W 0x118 { b with basp := BitVec.ofNat 64 (n % 2 ^ 24) }
    ∧ W 0x119 { b with broot := BitVec.ofNat 64 (n / 2 ^ 7 % 2 ^ 49 * 2 ^ 7) }

/-! The matrix unit and tiles. -/

/-- R279, R283, R286, R294, R295: the control instructions of the matrix unit, on the strand's own accumulator or on one
that it claims, which is in its reset state.
R283, R296: mrow and mcol read and write one row or column of the visible bank. Elements at or beyond the extent read
as 0 and are not written; an index beyond the extent traps with kind 6. Reading a bank that is marked poisoned traps with kind
3 (TVAL 0: log entry 42; with a rejected index too: log entry 90); writing one leaves its mark. -/
def Obligations.MatrixInstructions : Prop :=
  (∀ (s : State) (z : BitVec 1) (a d : BitVec 6) (v : BitVec 5), s.VectorReady [d, a] → s.MayUse z → 0 < s.n →
    let A := s.accNow z
    let x := (s.g a).toNat
    let er := x % 128
    let ec := x / 2 ^ 8 % 256
    let af := x / 2 ^ 16 % 4
    let gc := x % 32
    let p := s.strand.sid.toNat % 16
    let row := p / gc * (A.mxe.toNat % 128)
    let col := p % gc * (A.mxe.toNat / 2 ^ 8 % 256)
    let code := fun (b : Bank) => if b.zero then 0x201 else 0
    (∃ t, exec (.mzero z) s = .next t ∧ AccWrote s t z { A with work := Bank.reset } 0)
    ∧ (∃ t, exec (.mswap z) s = .next t ∧ AccWrote s t z { A with work := A.vis, vis := A.work } 0)
    ∧ (let good := 1 ≤ er ∧ er ≤ 64 ∧ 1 ≤ ec ∧ ec ≤ (if af = 0 then 64 else 128) ∧ af ≠ 3 ∧ x / 2 ^ 7 % 2 = 0 ∧ x < 2 ^ 18
       (good → ∃ t, exec (.mext z a) s = .next t ∧ AccWrote s t z { A with mxe := s.g a } 0)
       ∧ (¬ good → ∃ t, exec (.mext z a) s = .next t ∧ Traps (s.owning z) t 4 6 0 false))
    ∧ (let good := x < 32 ∧ 1 ≤ gc ∧ gc ≤ 16 ∧ row + A.mxe.toNat % 128 ≤ 256 ∧ col + A.mxe.toNat / 2 ^ 8 % 256 ≤ 512
       (good → ∃ t, exec (.mgang z d a) s = .next t
          ∧ t = (((s.setAcc z { A with mxe := BitVec.ofNat 64 (A.mxe.toNat % 2 ^ 18 + 2 ^ 24 * row + 2 ^ 32 * col) }).withDest t d).counted 0).moved t 4
          ∧ RegsAfter s t d (BitVec.ofNat 64 (2 ^ 32 * row + col)) ∧ SameMemory s t)
       ∧ (¬ good → ∃ t, exec (.mgang z d a) s = .next t ∧ Traps (s.owning z) t 4 6 0 false))
    ∧ (∃ t, exec (.mcls z d v) s = .next t ∧ VecScalar (s.owning z) t d
        (BitVec.ofNat 64 (code A.work + 2 ^ 16 * code A.vis + 2 ^ 32 * (vget s.strand.sw v.toNat Swatch.creation).code.toNat))))
  ∧ (∀ (s : State) (z : BitVec 1) (m : BitVec 3) (a : BitVec 6) (d : BitVec 5),
    s.VectorReady [a] → s.MayUse z → 0 < s.n → s.n ≤ s.ty.vmax →
    let A := s.accNow z
    let x := (s.g a).toNat
    let el := A.vis.elem A.af
    s.ty.isAf A.af = true →
    let R := fun (i : Instr) (res : Nat → Nat) => A.vis.poison = false → ∃ t, exec i s = .next t ∧ VecWrote (s.owning z) t (s.grp d) s.ty.w (s.act m) res 0
    let W := fun (i : Instr) (lim : Nat) (put : Nat → Nat → Option Nat) => ∃ t V, exec i s = .next t
      ∧ AccWrote s t z { A with vis := V } 0 ∧ V.poison = A.vis.poison
      ∧ BankIs V A.af (fun r c => match put r c with
          | some e => if e < s.n ∧ e < lim ∧ s.act m e = true then s.strand.elem d.toNat s.ty.w e else el r c
          | none => el r c)
      ∧ (V.zero = true ↔ A.vis.zero = true ∧ ∀ e < s.n, e < lim → s.act m e = false)
    let T := fun (i : Instr) => ∃ t, exec i s = .next t ∧ Traps (s.owning z) t 4 6 0 false
    let P := fun (i : Instr) => ∃ t, exec i s = .next t ∧ Traps (s.owning z) t 4 3 0 true
    (x < A.er → R (.mrowRead z m a d) (fun e => if e < A.ec then el x e else 0)
      ∧ W (.mrowWrite z m a d) A.ec fun r c => if r = x then some c else none)
    ∧ (x < A.ec → R (.mcolRead z m a d) (fun e => if e < A.er then el e x else 0)
      ∧ W (.mcolWrite z m a d) A.er fun r c => if c = x then some r else none)
    ∧ (A.er ≤ x → (A.vis.poison = false → T (.mrowRead z m a d)) ∧ T (.mrowWrite z m a d))
    ∧ (A.ec ≤ x → (A.vis.poison = false → T (.mcolRead z m a d)) ∧ T (.mcolWrite z m a d))
    ∧ (A.vis.poison = true → P (.mrowRead z m a d) ∧ P (.mcolRead z m a d)))

/-- R281, R283, R287 to R290, R34: opadd and opsub add a product to every element of an active row and an active column,
rounded once, and leave an element whose product is an exact zero; integers wrap. An enabled exception at row 0 traps; at a
later row the rows before it, in whole blocks, are made good and the later rows keep their elements. That the codes of a stop
are those of its whole row is log entry 41, TVAL 0 of a poisoned bank is log entry 42, that an outer product which adds
nothing traps on one is log entry 90, and what an element beyond the request holds is log entry 65; FLG 0 of the cause 0x09
that such a trap raises within a handler is the model's choice (DESIGN CHOICE, log entry 72). -/
def Obligations.OuterProducts : Prop :=
  ∀ (s : State) (z : BitVec 1) (mb ma : BitVec 3) (b a sc : BitVec 5) (sub : Bool) (k : Nat),
    s.VectorReady [] → s.MayUse z → 0 < s.n → s.ty.opOk = true → (s.ty.blk = 0 → sc = 0) →
    let i := if sub then Instr.opsub z mb ma b a sc else Instr.opadd z mb ma b a sc
    let A := s.accNow z
    let w := s.ty.w
    let na := min s.n A.er
    let nb := min s.n A.ec
    let int := fun (v : BitVec 5) e => if s.ty.isI then signedOf w (s.strand.elem v.toNat w e) else (s.strand.elem v.toNat w e : Int)
    let ff := if A.af = 0 then ffF64 else ffF32
    let at_ := fun r c =>
      let old := A.work.elem A.af r c
      let x := s.opVal a sc 0 r
      let y := s.opVal b sc 16 c
      if A.af = 2 then FRes.pure (wrapTo 32 (old + (if sub then -1 else 1) * (int a r * int b c)))
      else if zeroProduct x y then FRes.pure old
      else if (decodeNum ff old).isNan || x.isNan || y.isNan then
        nanOr ff [decodeNum ff old, x, y] (if infZero x y then fInvalid else 0)
      else fpFma ff (fcsRm s.strand.vfcs) sub false x y (decodeNum ff old)
    let row := fun r => if s.act ma r then (List.range nb).foldl (fun f c => if s.act mb c then f ||| (at_ r c).fl else f) 0 else 0
    let all := fun m => (List.range m).foldl (fun f r => f ||| row r) 0
    let en := fcsEn s.strand.vfcs
    let new := fun m r c => if r < m ∧ c < nb ∧ s.act ma r = true ∧ s.act mb c = true then (at_ r c).code else A.work.elem A.af r c
    let pair := (∃ r < na, s.act ma r = true) ∧ (∃ c < nb, s.act mb c = true)
    (s.ty.pairOk A.af = false → ∃ t w, exec i s = .next t ∧ encode i = some (true, w)
      ∧ Traps (s.owning z) t 1 2 (BitVec.ofNat 64 w) false)
    ∧ (s.ty.pairOk A.af = true → A.work.poison = true → ∃ t, exec i s = .next t ∧ Traps (s.owning z) t 4 3 0 true)
    ∧ (s.ty.pairOk A.af = true → A.work.poison = false →
        ((∀ r < na, row r &&& en = 0) → ∃ t W, exec i s = .next t ∧ AccWrote s t z { A with work := W } (all na)
          ∧ BankIs W A.af (new na) ∧ W.poison = false ∧ (W.zero = true → A.work.zero = true) ∧ (¬ pair → W.zero = A.work.zero))
        ∧ (k < na → row k &&& en ≠ 0 → (∀ r < k, row r &&& en = 0) →
            let flg := (row k &&& en).toNat
            let q := s.whole k
            (q = 0 → ∃ t, exec i s = .next t ∧ Trapped (s.owning z) t 4 4 flg 0 false false 0 0 false)
            ∧ (0 < q → ∃ t W, exec i s = .next t ∧ t = ((s.setAcc z { A with work := W }).shortened q 4 flg (all q)).moved t 4
                ∧ BankIs W A.af (new q) ∧ SameMemory s t)))

/-- R112, R247, R283, R304: an instruction that names an accumulator which another context owns, or whose state the strand
has saved, traps to the Bridge with cause 0x08 and performs nothing.
R32, R53, R244, R245: a tile of length 0 accesses nothing and counts 0; one whose first element stops traps with cause
4 and that kind; one that needs lines outside the package, without .line, traps with kind 2 and performs nothing. That
length 0 leaves TSHP.LKIND as it was is the model's reading (log entry 68). -/
def Obligations.AccumulatorAndTileStops : Prop :=
  (∀ (s : State) (z : BitVec 1) (m ma : BitVec 3) (pol : BitVec 2) (line : BitVec 1) (scope : BitVec 3) (a c d : BitVec 6) (u v sc : BitVec 5),
    s.VectorReady [a, c, d] → ¬ s.MayUse z →
    let T := fun (i : Instr) => ∃ t, exec i s = .next t ∧ Traps s t 8 0 0 true
    T (.mzero z) ∧ T (.mswap z) ∧ T (.mext z a) ∧ T (.mgang z d a) ∧ T (.mcls z d u) ∧ T (.mrowRead z m a u)
    ∧ T (.mrowWrite z m a u) ∧ T (.mcolRead z m a u) ∧ T (.mcolWrite z m a u)
    ∧ (s.ty.opOk = true → (s.ty.blk = 0 → sc = 0) → T (.opadd z m ma u v sc) ∧ T (.opsub z m ma u v sc))
    ∧ (s.ty.fmt = 0 ∨ s.ty.fmt = 1 ∨ s.ty.fmt = 10 →
        let e : BitVec 6 := 32 + z.setWidth 6
        T (.tld pol line scope c a e) ∧ T (.tst pol line scope c a e)))
  ∧ (∀ (s : State) (pol : BitVec 2) (line : BitVec 1) (scope : BitVec 3) (a c d : BitVec 6) (st : Stop) (l : Loc) (ls : List Loc),
    s.VectorReady [a, c] → d.toNat < 32 → 8 ≤ s.ty.w →
    let sz := s.ty.w / 8
    let T := fun (i : Instr) (kind lvl : Nat) (mal rsv : Bool) (tval : Word) => ∃ t, exec i s = .next t
      ∧ Trapped s t 4 kind 0 lvl mal rsv tval 0 (kind = 1 || kind = 2 || kind = 3 || kind = 7)
    let nr := s.strand.tshp.toNat % 512
    let addr := fun i => s.g a + BitVec.ofNat 64 (i / s.n) * (if c = 0 then BitVec.ofNat 64 (s.n * sz) else s.g c)
      + BitVec.ofNat 64 (i % s.n * sz)
    let each := fun (need : Need) (i : Instr) =>
      (s.n = 0 → ∃ t, exec i s = .next t ∧ Moved { s with strand := { s.strand with
        mg := 0, mgr := 0, mgc := 0, pos := min (s.strand.pos + 1) 0xFFFF } } t 4)
      ∧ (0 < s.n → s.n ≤ s.ty.vmax → (s.ty.blk = 0 ∨ 0 < s.strand.sreq.toNat) → 0 < nr → s.strand.irt.length < 16 →
          (∀ j < nr * s.n, s.ty.blk = 0 ∨ j % s.n < s.strand.sreq.toNat → s.Clear need.w (addr j) sz) →
          (s.check s.aspace need (s.g a) sz = .error st → T i st.kind st.lvl st.mal st.rsv (s.g a))
          ∧ (line = 0 → s.check s.aspace need (s.g a) sz = .ok (l :: ls) → l.space = .cxl ∨ l.space = .pcie →
              T i 2 0 false false (s.g a)))
    each Need.load (.tld pol line scope c a d) ∧ each Need.store (.tst pol line scope c a d))

/-- R53, R242 to R247, R249, R304: a tile whose rows all fit and whose elements all pass their checks is performed whole,
in row-major order, between memory and a vector group or the working bank; MG, MGR, MGC and TSHP.LKIND count it. The interlock
table has room for its entry (R263, R264). -/
def Obligations.Tiles : Prop :=
  ∀ (s : State) (z : BitVec 1) (pol : BitVec 2) (line : BitVec 1) (scope : BitVec 3) (a c d : BitVec 6) (L : Nat → List Loc)
    (lines : List Nat),
    s.VectorReady [a, c] → 0 < s.n →
    let A := s.accNow z
    let w := s.ty.w
    let sz := w / 8
    let nc := s.n
    let nr := s.strand.tshp.toNat % 512
    let N := nr * nc
    let addr := fun i => s.g a + BitVec.ofNat 64 (i / nc) * (if c = 0 then BitVec.ofNat 64 (nc * sz) else s.g c) + BitVec.ofNat 64 (i % nc * sz)
    let on := fun i => s.ty.blk = 0 ∨ i % nc < s.strand.sreq.toNat
    let reaches := fun (need : Need) => (∀ i < N, ∀ j < sz, (addr i + BitVec.ofNat 64 j).toNat / 128 ∈ lines)
      ∧ ∀ i < N, on i → s.Clear need.w (addr i) sz ∧ s.check s.aspace need (addr i) sz = .ok (L i)
        ∧ inPool (addr i) = inPool (s.g a) ∧ (line = 0 → ∀ l ∈ L i, l.space ≠ .cxl ∧ l.space ≠ .pcie)
    let u := { s with strand := { s.strand with
      mg := BitVec.ofNat 64 N, mgr := BitVec.ofNat 64 nr, mgc := BitVec.ofNat 64 nc, tshp := BitVec.ofNat 64 nr
      pos := min (s.strand.pos + 1) 0xFFFF } }
    let code := fun i => if s.ty.blk = 0 ∨ i % nc < s.strand.sreq.toNat then ofBytes (s.bytes (L i)) else 0
    let ws := fun (D : Nat → Nat) => (List.range N).flatMap fun i =>
      if s.ty.blk = 0 ∨ i % nc < s.strand.sreq.toNat then (L i).zip (bytesOf (BitVec.ofNat (8 * sz) (D i))) else []
    let e : BitVec 6 := 32 + z.setWidth 6
    let g : Grp := { start := d.toNat, size := s.ty.g }
    0 < nr → lines.length ≤ 256 → s.strand.irt.length < 16 →
    (d.toNat < 32 → 8 ≤ w → N ≤ s.ty.vmax →
      (reaches Need.load → ∃ t, exec (.tld pol line scope c a d) s = .next t ∧ t = ((u.withVec t).withTlb t).moved t 4
        ∧ Elements s t g w N (fun _ => true) code ∧ Tides s t g w N ∧ OtherRegs s t g ∧ SameMemory s t)
      ∧ (s.Canonical → reaches Need.store → ∃ t, exec (.tst pol line scope c a d) s = .next t
          ∧ t = (u.withStore t).moved t 4 ∧ Stored s t (ws fun i => s.strand.elem d.toNat w i)))
    ∧ (s.MayUse z → s.ty.isAf A.af = true → nr ≤ A.er → nc ≤ A.ec →
      (reaches Need.load → ∃ t W, exec (.tld pol line scope c a e) s = .next t
        ∧ t = ((u.setAcc z { A with work := W }).withTlb t).moved t 4 ∧ SameMemory s t
        ∧ BankIs W A.af (fun r j => if r < nr ∧ j < nc then code (r * nc + j) else A.work.elem A.af r j)
        ∧ (W.zero = true ↔ (∀ i < N, on i → ∀ l ∈ L i, s.locSw l = 0x201) ∧ ((nr = A.er ∧ nc = A.ec) ∨ A.work.zero = true))
        ∧ W.poison = (A.work.poison && !(decide (nr = A.er) && decide (nc = A.ec))))
      ∧ (A.work.poison = false → s.Canonical → reaches Need.store → ∃ t, exec (.tst pol line scope c a e) s = .next t
          ∧ t = ((u.setAcc z A).withStore t).moved t 4 ∧ Stored s t (ws fun i => A.work.elem A.af (i / nc) (i % nc))))

/-! The gazetteer. -/

/-- R309, R310, R314: gins and gacc over keys held on the core. Each active element finds its key or takes the next
ordinal with it; gacc adds to the value of a key found; the destination gets the ordinals. -/
def Obligations.GazetteerInserts : Prop :=
  ∀ (s : State) (m : BitVec 3) (d a b : BitVec 5),
    s.Groups m [] [d, a, b] → s.ty.gazOk = true → s.strand.gpois = false → s.strand.govc = 0 →
    let K := fun e => BitVec.ofNat 64 (s.strand.elem a.toNat 64 e)
    let V := fun e => BitVec.ofNat 64 (s.strand.elem b.toNat 64 e)
    let run := fun (acc : Bool) => ((List.range s.n).filter (s.act m)).foldl
      (fun (r : List (Word × Word) × (Nat → Nat)) e =>
        match r.1.findIdx? (fun x => x.1 = K e) with
        | some o => (if acc then r.1.modify o (fun x => (x.1, x.2 + V e)) else r.1, fun i => if i = e then o else r.2 i)
        | none => (r.1 ++ [(K e, if acc then V e else 0)], fun i => if i = e then r.1.length else r.2 i))
      (s.strand.gents, fun _ => 0)
    let R := fun (i : Instr) (acc : Bool) =>
      (run acc).1.length ≤ 4096 → s.TableClear true acc →
        ∃ t, exec i s = .next t
          ∧ t = ((({ s with strand := { s.strand with gents := (run acc).1 } }).withVec t).counted 0).moved t 4
          ∧ Elements s t (s.grp d) 64 s.n (s.act m) (run acc).2 ∧ Tides s t (s.grp d) 64 s.n ∧ OtherRegs s t (s.grp d)
          ∧ SameMemory s t
    R (.gins m d a) false ∧ R (.gacc m d a b) true

/-- R310, R312, R315, R316, R317: with a table that nobody else has written, glkp finds the first entry with its key, on
the core or in the table, and gdrn reads entries in ordinal order; gcnt counts both, and gclr removes every key.
R311, R314, R322: a key that finds no room on the core is appended to the table, key then value, at entry GOVC; without
capacity the leading element traps with kind 6 and GFLT 0, and after a failed check with kind 6 and the entry's address
in GFLT. A half marked poisoned traps every gazetteer instruction but gclr, to the Bridge (TVAL 0: log entry 42). -/
def Obligations.GazetteerLookupsAndOverflow : Prop :=
  (∀ (s : State) (m : BitVec 3) (d a : BitVec 5) (g : BitVec 6),
    s.LentReady m [g] → 0 < s.n → s.n ≤ s.ty.vmax → s.ty.gazOk = true → s.strand.gpois = false →
    let K := fun e => BitVec.ofNat 64 (s.strand.elem a.toNat 64 e)
    let all := s.strand.gents ++ s.strand.gsum
    let vg : Grp := { start := (d.toNat + s.ty.g) % 32, size := s.ty.g }
    let entry := fun e => all.getD ((s.g g).toNat + e) (0, 0)
    (s.strand.gsum.length = s.strand.govc.toNat → (s.strand.gsum ≠ [] → s.strand.gents.length = 4096) →
      (∀ e < s.strand.gsum.length, s.tableEntry Need.load e = .ok (s.strand.gsum.getD e (0, 0))) → s.TableClear false false →
      ((s.grp d).sameOr (s.grp a) = true →
        (∃ t, exec (.glkp m d a) s = .next t ∧ VecLoaded s t (s.grp d) 64 (s.act m)
          fun e => ((all.find? fun x => x.1 = K e).map fun x => x.2.toNat).getD 0)
        ∧ (∃ t, exec (.glkpO m d a) s = .next t ∧ VecLoaded s t (s.grp d) 64 (s.act m)
          fun e => (all.findIdx? fun x => x.1 = K e).getD (2 ^ 64 - 1)))
      ∧ (∃ t, exec (.gdrn m d g) s = .next t ∧ t = (((s.withVec t).withTlb t).counted 0).moved t 4 ∧ SameMemory s t
          ∧ Elements s t (s.grp d) 64 s.n (s.act m) (fun e => (entry e).1.toNat)
          ∧ Elements s t vg 64 s.n (s.act m) (fun e => (entry e).2.toNat)
          ∧ Tides s t (s.grp d) 64 s.n ∧ Tides s t vg 64 s.n
          ∧ ∀ r < 32, ¬ (s.grp d).has r → ¬ vg.has r → t.strand.vreg r = s.strand.vreg r))
    ∧ (s.hart.pfxs = 0 → ∃ t, exec (.gcnt g) s = .next t ∧ VecScalar s t g (BitVec.ofNat 64 s.strand.gents.length + s.strand.govc))
    ∧ (s.hart.pfxs = 0 → ∃ t, exec .gclr s = .next t
        ∧ t = (({ s with strand := { s.strand with gents := [], govc := 0, gsum := [], gunk := [] } }).counted 0).moved t 4 ∧ SameMemory s t))
  ∧ (∀ (s : State) (m : BitVec 3) (d a b : BitVec 5) (g : BitVec 6) (ls : List Loc) (st : Stop),
    s.LentReady m [g] → s.ty.gazOk = true → allSameOr [s.grp d, s.grp a, s.grp b] = true →
    let k := BitVec.ofNat 64 (s.strand.elem a.toNat 64 0)
    let v := BitVec.ofNat 64 (s.strand.elem b.toNat 64 0)
    let e := s.strand.govc.toNat
    let ea := s.strand.govb + BitVec.ofNat 64 (16 * e)
    let fails := fun (i : Instr) (acc : Bool) (w : Word) => s.TableClear true acc → ∃ t, exec i s = .next t
      ∧ Traps { s with strand := { s.strand with gflt := w } } t 4 6 0 false
    let full := s.strand.gpois = false ∧ s.act m 0 = true ∧ s.strand.gents.length = 4096 ∧ s.strand.gsum.length = e
      ∧ (∀ x ∈ s.strand.gents ++ s.strand.gsum, x.1 ≠ k)
      ∧ ∀ j < e, s.tableEntry Need.load j = .ok (s.strand.gsum.getD j (0, 0))
    (s.n = 1 → full → e < s.strand.govl.toNat → s.Canonical → s.check s.aspace Need.store ea 16 = .ok ls →
      let R := fun (i : Instr) (acc : Bool) (v : Word) => s.TableClear true acc → ∃ t, exec i s = .next t ∧ Stored s t (ls.zip (bytesOf k ++ bytesOf v))
        ∧ t.strand.govc = s.strand.govc + 1 ∧ t.strand.gents = s.strand.gents ∧ t.strand.mg = 1 ∧ t.hart.pc = s.hart.pc + 4
        ∧ t.strand.elem d.toNat 64 0 = 4096 + e ∧ t.hart.g = s.hart.g ∧ OtherRegs s t (s.grp d)
      R (.gins m d a) false 0 ∧ R (.gacc m d a b) true v)
    ∧ (0 < s.n → full → s.strand.govl.toNat ≤ e → fails (.gins m d a) false 0 ∧ fails (.gacc m d a b) true 0)
    ∧ (0 < s.n → full → e < s.strand.govl.toNat → s.check s.aspace Need.store ea 16 = .error st →
        let w := BitVec.ofNat 64 (ea.toNat / 16 * 16 + st.kind)
        fails (.gins m d a) false w ∧ fails (.gacc m d a b) true w)
    ∧ (s.strand.gpois = true →
        let P := fun (i : Instr) => ∃ t, exec i s = .next t ∧ Traps s t 4 3 0 true
        P (.gins m d a) ∧ P (.gacc m d a b) ∧ P (.glkp m d a) ∧ P (.glkpO m d a) ∧ P (.gdrn m d g) ∧ (s.hart.pfxs = 0 → P (.gcnt g))))

/-! Tenders. -/

/-- R354 to R361, R365 to R370: what a tender instruction does at issue. It takes n as its made-good length, begins a job and
makes its token register pending: a copy with the interlock entries of its two sides, a message read from its buffer, a
receive in the moorings, a contribution read at FROM. tprobe reads the drift queue, whose layout in device memory is the
model's choice (log entry 62), and that a copy's entry holds its side's addresses whatever the space is log entry 81. With n
= 0 the token is written at issue as 0. A receive that a message of the drift queue matches takes the oldest such, and that lands
at once (stated of messages of one element at most, or a capacity of one); a contribution to a closed group ends at once.
R356, R358, R360, R361, R365, R367: a rejected operand, full moorings, a collective at its end, or a peer that does not
answer is a stop of kind 6 on the leading element; a failed first element traps with its own kind and address, the
source's before the destination's. Nothing is performed.
R30, R31, R36, R361, R366, R367: a tender instruction that stops behind its leading element or block takes the elements
before it, in whole blocks, as its made-good length, and begins its job with them: a send carries them, a receive posts room
for them, a contribution holds them. A collective whose COUNT the strip passes falls short at COUNT - o with kind 6, or traps
with it when no whole block stands before. -/
def Obligations.TenderInstructions : Prop :=
  ((∀ (s : State) (scope : BitVec 3) (d a b : BitVec 6) (L : Nat → List Loc) (c : Nat) (ws : List Word),
    s.TenderReady [d, a, a + 1, b, b + 1] → d ≠ 0 →
    let n := s.n
    let sz := s.ty.w / 8
    let blk := s.ty.blk
    let x := (s.g b).toNat
    let tag : BitVec 32 := BitVec.ofNat 32 x
    let peer : BitVec 10 := BitVec.ofNat 10 (x / 2 ^ 32)
    let ctx : BitVec 12 := BitVec.ofNat 12 (x / 2 ^ 52)
    let member := s.strand.tmid.toNat / 2 ^ 15 % 2 = 1
    let open_ := x / 2 ^ 42 % 1024 = 0
    let no := s.berthNo
    let B := s.berthAt no
    let fits := fun (m : Msg) => ctx = m.ctx && (tag = 0xFFFFFFFF || tag = m.tag) && (peer = 0x3FF || peer = m.peer)
    let R := fun (i : Instr) (u : State → State) => ∃ t, exec i s = .next t ∧ t = ((u (s.withTlb t)).counted 0).moved t 4 ∧ SameMemory s t
    (n = 0 → ∀ i ∈ [Instr.tcopy scope d a b, .tcoll scope d a b, .tsend scope d a b, .trecv scope d a b],
      ∃ t, exec i s = .next t ∧ SameMemory s t ∧ RegsAfter s t d 0 ∧ t.fabric = s.fabric ∧ t.strand.mg = 0
        ∧ t.hart.lastd = s.hart.lastd ∧ t.hart.pc = s.hart.pc + 4)
    ∧ (0 < n →
      (let sides := copySides s.strand.tcsp
       let r := copyRange (s.g b) (s.g (b + 1)) n sz
       let w := copyRange (s.g a) (s.g (a + 1)) n sz
       s.strand.irt.length ≤ 14 → s.conflict false r.1 r.2 = none → s.conflict true w.1 w.2 = none →
       s.Answers sides.2 Need.read4 (s.g b) sz → s.Answers sides.1 Need.store (s.g a) sz →
        R (.tcopy scope d a b) fun s =>
          let t := s.began d (.copy (if blk = 0 then n else min n s.strand.sreq.toNat) sz (s.g a) (s.g (a + 1)) (s.g b) (s.g (b + 1)) s.strand.tcsp)
          { t with strand := { t.strand with irt := t.strand.irt ++ [{ owner := s.fabric.next, write := false, lo := r.1, hi := r.2, known := true, bar := false },
                                                                    { owner := s.fabric.next, write := true, lo := w.1, hi := w.2, known := true, bar := false }] } })
      ∧ (open_ → tag ≠ 0xFFFFFFFF → peer ≠ 0x3FF → member → s.SoundTo L n c →
          s.Reaches Need.read4 0 sz (fun i => s.g a + BitVec.ofNat 64 (i * sz)) L →
          R (.tsend scope d a b) fun u => u.began d (.send c (decide (c < n)) { ctx := ctx, tag := tag, peer := peer, data := s.carried L c, job := none }))
      ∧ (open_ → member → B.moor.length < 4096 → (∀ k ∈ B.drift, fits (s.driftMsg no k) = false) →
          s.Reaches Need.store 0 sz (fun i => s.g a + BitVec.ofNat 64 (i * sz)) L →
          R (.trecv scope d a b) fun u =>
            let t := u.began d (.recv (s.g a) n sz)
            { t with berths := vset t.berths no { B with moor := B.moor ++ [{ job := s.fabric.next, ctx := ctx, tag := tag, peer := peer }] } })
      ∧ (∀ k, open_ → member → B.moor.length < 4096 → B.drift.find? (fun j => fits (s.driftMsg no j)) = some k →
          s.Canonical → s.strand.status = .running → s.strand.core = s.core.id → (∀ j ∈ s.fabric.jobs, j.id ≠ s.fabric.next) →
          s.Reaches Need.store 0 sz (fun i => s.g a + BitVec.ofNat 64 (i * sz)) L →
          let M := s.driftMsg no k
          let l := min M.data.length sz
          0 < l → n = 1 ∨ M.data.length ≤ sz →
          ∃ t u, exec (.trecv scope d a b) s = .next t ∧ u = s.withTlb u ∧ SameMemory s u ∧ t.berthAt no = { B with drift := B.drift.erase k }
            ∧ (let ends := fun (count kind : Nat) => (t.fabric.jobAt s.fabric.next).bind (·.done)
                 = some (BitVec.ofNat 64 (count + 2 ^ 32 * kind + if n * sz < M.data.length then 2 ^ 36 * 3 else 0))
               (∀ ld, u.check s.aspace Need.store (s.g a) l = .ok ld → Puts u t (ld.zip M.data) ∧ ends (if l = sz then 1 else 0) 0)
               ∧ ∀ st, u.check s.aspace Need.store (s.g a) l = .error st → SameMemory u t ∧ ends 0 st.kind))
      ∧ (open_ → ∃ t, exec (.tprobe d b) s = .next t ∧ VecScalar s t d
          (match (B.drift.map (s.driftMsg no)).find? fits with
           | some m => BitVec.ofNat 64 (2 ^ 63 + 2 ^ 42 * m.data.length + 2 ^ 32 * m.peer.toNat + m.tag.toNat)
           | none => 0))
      ∧ (let f := fun (j : Nat) => (ws.getD j 0).toNat
         let gid := f 3 % 65536
         let g := s.fabric.groupAt gid
         let isr := f 4 / 2 ^ 8 % 2 = 1
         let areas : List StatArea := { berth := no, addr := BitVec.ofNat 64 (f 5), ctx := (Ctx.mk s.hart s.strand).remains }
           :: g.areas.filter fun q => q.berth ≠ no
         let col : Coll := { gid := gid, rank := f 3 / 2 ^ 16 % 65536, nmem := f 3 / 2 ^ 32 % 65536, op := f 4 % 16, fmt := s.ty.fmt, sz := sz
                             total := f 2, o := x, n := c, mg := n, into := BitVec.ofNat 64 (f 1), stat := BitVec.ofNat 64 (f 5)
                             poison := decide (c < n), done := [], fail := none, isr := decide isr, img := f 4 / 2 ^ 4 % 16, desc := s.g a
                             code := (s.pilot.launchAt s.strand.launch).map (·.code), base := BitVec.ofNat 64 (f 0 + x * sz)
                             type := s.strand.type, fcmd := f 4 / 2 ^ 16 % 65536, data := s.carried L c }
         (s.g a).toNat % 64 = 0 → s.Clear false (s.g a) 64 → s.words s.aspace 8 (s.g a) = .ok ws → descBad f s.ty.fmt = false →
         x + n ≤ f 2 → s.SoundTo L n c → s.Reaches Need.read4 0 sz (fun i => BitVec.ofNat 64 (f 0 + (x + i) * sz)) L →
          (g.closed = true → R (.tcoll scope d a b) fun u =>
            let v := u.began d (.coll col)
            { v with fabric := { v.fabric with jobs := s.fabric.jobs ++ [{ id := s.fabric.next, owner := s.strand.tag, reg := d, kind := .coll col
                                                                           entered := false, last := 0, parent := none
                                                                           done := some (BitVec.ofNat 64 (2 ^ 36)), left := none }] } })
          ∧ (g.closed = false → (isr → 0 < c ∧ s.cutOff no = false) → R (.tcoll scope d a b) fun u =>
            if isr then
              (({ u with fabric := u.fabric.putGroup { g with
                first := some (g.first.getD (s.ty.fmt, f 4 % 16)), members := insertNat no g.members, areas := areas } }).began d (.coll col))
            else u.began d (.coll col)))))
  ∧ (∀ (s : State) (scope : BitVec 3) (d a b : BitVec 6) (ws : List Word) (st : Stop),
    s.TenderReady [d, a, a + 1, b, b + 1] → 0 < s.n →
    let sz := s.ty.w / 8
    let x := (s.g b).toNat
    let badEnv := x / 2 ^ 42 % 1024 ≠ 0
    let alone := s.strand.tmid.toNat / 2 ^ 15 % 2 = 0
    let sides := copySides s.strand.tcsp
    let src := s.sideAt sides.2 Need.read4 (s.g b) sz
    let dst := s.sideAt sides.1 Need.store (s.g a) sz
    let six := fun (i : Instr) => ∃ t, exec i s = .next t ∧ Traps s t 4 6 0 false
    let r := copyRange (s.g b) (s.g (b + 1)) s.n sz
    let w := copyRange (s.g a) (s.g (a + 1)) s.n sz
    let room := s.strand.irt.length ≤ 14 ∧ s.conflict false r.1 r.2 = none ∧ s.conflict true w.1 w.2 = none
    let clear := fun need : Need => ∀ i < s.n, s.performed 0 i = true → s.Clear need.w (s.g a + BitVec.ofNat 64 (i * sz)) sz
    let leads := fun (i : Instr) (tval : Word) => ∃ t, exec i s = .next t
      ∧ Trapped s t 4 st.kind 0 st.lvl st.mal st.rsv tval 0 (st.kind = 1 || st.kind = 2 || st.kind = 3 || st.kind = 7)
    (badEnv → six (.tsend scope d a b) ∧ six (.trecv scope d a b) ∧ six (.tprobe d b))
    ∧ (alone → six (.tsend scope d a b) ∧ six (.trecv scope d a b))
    ∧ (x % 2 ^ 32 = 0xFFFFFFFF ∨ x / 2 ^ 32 % 1024 = 0x3FF → six (.tsend scope d a b))
    ∧ (4096 ≤ (s.berthAt s.berthNo).moor.length → six (.trecv scope d a b))
    ∧ ((s.g a).toNat % 64 ≠ 0 → six (.tcoll scope d a b))
    ∧ ((s.g a).toNat % 64 = 0 → s.Clear false (s.g a) 64 → s.words s.aspace 8 (s.g a) = .error st → leads (.tcoll scope d a b) (s.g a))
    ∧ ((s.g a).toNat % 64 = 0 → s.Clear false (s.g a) 64 → s.words s.aspace 8 (s.g a) = .ok ws →
        let f := fun (j : Nat) => (ws.getD j 0).toNat
        (f 2 = 0 ∨ f 2 ≤ x ∨ f 7 ≠ 0 ∨ f 5 % 128 ≠ 0 ∨ 5 < f 4 % 16 ∨ f 3 / 2 ^ 32 % 65536 ≤ f 3 / 2 ^ 16 % 65536) → six (.tcoll scope d a b))
    ∧ (room → (src = .silent ∨ dst = .silent) → (∀ st, src ≠ .stop st) → (∀ st, dst ≠ .stop st) → six (.tcopy scope d a b))
    ∧ (room → src = .stop st → leads (.tcopy scope d a b) (s.g b))
    ∧ (room → dst = .stop st → (∀ st, src ≠ .stop st) → leads (.tcopy scope d a b) (s.g a))
    ∧ (¬ badEnv → ¬ alone → s.performed 0 0 = true →
        (x % 2 ^ 32 ≠ 0xFFFFFFFF → x / 2 ^ 32 % 1024 ≠ 0x3FF → clear Need.read4 → s.check s.aspace Need.read4 (s.g a) sz = .error st →
          leads (.tsend scope d a b) (s.g a))
        ∧ ((s.berthAt s.berthNo).moor.length < 4096 → clear Need.store → s.check s.aspace Need.store (s.g a) sz = .error st →
          leads (.trecv scope d a b) (s.g a)))))
  ∧ (∀ (s : State) (scope : BitVec 3) (d a b : BitVec 6) (L : Nat → List Loc) (e c : Nat) (ws : List Word) (tval : Word) (st : Stop),
    s.TenderReady [d, a, a + 1, b, b + 1] → d ≠ 0 → 0 < s.n →
    let n := s.n
    let sz := s.ty.w / 8
    let k := s.whole e
    let x := (s.g b).toNat
    let tag : BitVec 32 := BitVec.ofNat 32 x
    let peer : BitVec 10 := BitVec.ofNat 10 (x / 2 ^ 32)
    let ctx : BitVec 12 := BitVec.ofNat 12 (x / 2 ^ 52)
    let member := s.strand.tmid.toNat / 2 ^ 15 % 2 = 1
    let open_ := x / 2 ^ 42 % 1024 = 0
    let no := s.berthNo
    let B := s.berthAt no
    let fits := fun (m : Msg) => ctx = m.ctx && (tag = 0xFFFFFFFF || tag = m.tag) && (peer = 0x3FF || peer = m.peer)
    let S := fun (i : Instr) (kind : Nat) (u : State → State) => ∃ t, exec i s = .next t
      ∧ t = ((u (s.withTlb t)).shortened k kind 0 0).moved t 4 ∧ SameMemory s t
    let stops := fun (need : Need) (base : Word) =>
      s.StopsAt need false 0 sz (fun i => .ok (base + BitVec.ofNat 64 (i * sz))) e tval st
      ∧ ∀ i < e, s.performed 0 i = true → s.check s.aspace need (base + BitVec.ofNat 64 (i * sz)) sz = .ok (L i)
    (0 < k → open_ → tag ≠ 0xFFFFFFFF → peer ≠ 0x3FF → member → stops Need.read4 (s.g a) → s.SoundTo L k c →
      S (.tsend scope d a b) st.kind fun u =>
        u.began d (.send c (decide (c < k)) { ctx := ctx, tag := tag, peer := peer, data := s.carried L c, job := none }))
    ∧ (0 < k → open_ → member → B.moor.length < 4096 → (∀ j ∈ B.drift, fits (s.driftMsg no j) = false) → stops Need.store (s.g a) →
      S (.trecv scope d a b) st.kind fun u =>
        let t := u.began d (.recv (s.g a) k sz)
        { t with berths := vset t.berths no { B with moor := B.moor ++ [{ job := s.fabric.next, ctx := ctx, tag := tag, peer := peer }] } })
    ∧ (let f := fun (j : Nat) => (ws.getD j 0).toNat
       let gid := f 3 % 65536
       let g := s.fabric.groupAt gid
       let isr := f 4 / 2 ^ 8 % 2 = 1
       let areas : List StatArea := { berth := no, addr := BitVec.ofNat 64 (f 5), ctx := (Ctx.mk s.hart s.strand).remains }
         :: g.areas.filter fun q => q.berth ≠ no
       let base := BitVec.ofNat 64 (f 0 + x * sz)
       let col : Coll := { gid := gid, rank := f 3 / 2 ^ 16 % 65536, nmem := f 3 / 2 ^ 32 % 65536, op := f 4 % 16, fmt := s.ty.fmt, sz := sz
                           total := f 2, o := x, n := c, mg := k, into := BitVec.ofNat 64 (f 1), stat := BitVec.ofNat 64 (f 5)
                           poison := decide (c < k), done := [], fail := none, isr := decide isr, img := f 4 / 2 ^ 4 % 16, desc := s.g a
                           code := (s.pilot.launchAt s.strand.launch).map (·.code), base := base
                           type := s.strand.type, fcmd := f 4 / 2 ^ 16 % 65536, data := s.carried L c }
       let C := fun (kind : Nat) => S (.tcoll scope d a b) kind fun u =>
         if isr then
           (({ u with fabric := u.fabric.putGroup { g with
             first := some (g.first.getD (s.ty.fmt, f 4 % 16)), members := insertNat no g.members, areas := areas } }).began d (.coll col))
         else u.began d (.coll col)
       (s.g a).toNat % 64 = 0 → s.Clear false (s.g a) 64 → s.words s.aspace 8 (s.g a) = .ok ws → descBad f s.ty.fmt = false →
       x < f 2 →
        (0 < k → e < f 2 - x → stops Need.read4 base → s.SoundTo L k c → g.closed = false → (isr → 0 < c ∧ s.cutOff no = false) → C st.kind)
        ∧ (f 2 < x + n → e = f 2 - x →
            (∀ i < e, s.performed 0 i = true → s.Clear false (base + BitVec.ofNat 64 (i * sz)) sz
              ∧ s.check s.aspace Need.read4 (base + BitVec.ofNat 64 (i * sz)) sz = .ok (L i)) →
            (0 < k → s.SoundTo L k c → g.closed = false → (isr → 0 < c ∧ s.cutOff no = false) → C 6)
            ∧ (k = 0 → ∃ t, exec (.tcoll scope d a b) s = .next t ∧ Traps s t 4 6 0 false))))

/-! Pilot. -/

/-- R323, R327 to R329: launch reads a record, answers its status, and with status 0 appends the launch to its queue; any
other status changes nothing but gd. A failed read, of the record, the side block or the code object, traps with cause 5 as
an lds does. It follows every copy of the strand (R347). PFXS at the Bridge vector is log entry 10; that the side block is
read before the record's fields are checked is log entry 24, and that the object of a malformed record is not read log entry
82. That a slot counts as enabled for KSLOT when it is active is the model's reading (DEDUCED, log entry 63). -/
def Obligations.Launches : Prop :=
  ∀ (s : State) (d a : BitVec 6) (r ds as : List Word) (k : Word × Word) (st : Stop),
    s.Ready [d, a] → s.NoCopies →
    let ea := s.g a
    let sp := s.aspace
    let asp := if s.priv then s.bcore.basp else s.strand.casp
    let root := if s.priv then s.bcore.broot else s.strand.croot
    let ctl := (r.getD 1 0).toNat
    let deps := depsOf ds
    let answers := fun (x : Word) => ∃ t, exec (.launch d a) s = .next t ∧ Wrote s t d x 4
    let read := s.words sp 8 ea = .ok r
    let object := read ∧ recordBad r = false ∧ s.sideWords sp r = .ok (ds, as) ∧ deps.all (fun x => x.addr.toNat % 8 = 0) = true
    let kernel := object ∧ s.kernel sp (r.getD 0 0) (ctl % 65536) (ctl / 2 ^ 16 % 32) = .ok (some k)
    let refused := ctl / 2 ^ 53 % 16 ≠ sp.berth ∨ (s.berthAt sp.berth).queues / 2 ^ (ctl / 2 ^ 24 % 256) % 2 = 0
      ∨ vget (s.berthAt sp.berth).keys (ctl / 2 ^ 32 % 64) .empty ≠ .active
      ∨ (s.priv = false ∧ s.strand.prio.toNat % 8 < ctl / 2 ^ 21 % 8)
    let full := 16 ≤ (s.pilot.launches.filter fun l => l.qid = ctl / 2 ^ 24 % 256).length
    let l := launchOf s.pilot.nextId asp root r deps as k
    let fails := ∃ t, exec (.launch d a) s = .next t ∧ Trapped s t 5 st.kind 0 st.lvl st.mal st.rsv st.addr 0 true
    (ea.toNat % 64 ≠ 0 → answers 2)
    ∧ (ea.toNat % 64 = 0 →
      (s.words sp 8 ea = .error st → fails) ∧ (read → s.sideWords sp r = .error st → fails)
      ∧ (object → s.kernel sp (r.getD 0 0) (ctl % 65536) (ctl / 2 ^ 16 % 32) = .error st → fails)
      ∧ (read → s.sideWords sp r = .ok (ds, as) → recordBad r = true ∨ deps.any (fun x => x.addr.toNat % 8 ≠ 0) = true → answers 2)
      ∧ (object → s.kernel sp (r.getD 0 0) (ctl % 65536) (ctl / 2 ^ 16 % 32) = .ok none → answers 2)
      ∧ (kernel → refused → answers 3)
      ∧ (kernel → ¬ refused → s.unreachable sp r deps = true → answers 4)
      ∧ (kernel → ¬ refused → s.unreachable sp r deps = false → full → answers 1)
      ∧ (kernel → ¬ refused → s.unreachable sp r deps = false → ¬ full →
          ∃ t, exec (.launch d a) s = .next t ∧ RegsAfter s t d 0 ∧ SameMemory s t
            ∧ t = (({ s with pilot := { s.pilot with
                launches := advanceLaunches s.pilot.held [] (s.pilot.launches ++ [l]), nextId := s.pilot.nextId + 1 } }).withDest t d).moved t 4))

/-- R336 to R342, R355: the other strand instructions of Pilot. post and waiti work on the flotilla's beacon, bar waits or,
alone, passes with an FGR within its bounds, join ends on a counter of 0, tend decrements its counter and retires the strand,
and spawn counts and queues one task for each active element, and with none active changes no byte. All but waiti and join
follow every copy of the strand (R347). That a waiting join uses the strand's own monitor, and which FGR a bar may find, are
the model's readings (log entries 28 and 48); a yield that halts requests the strand's siblings at a granule that is free
(log entry 47). -/
def Obligations.FlotillaControl : Prop :=
  ∀ (s : State) (m : BitVec 3) (d a b : BitVec 6) (v : BitVec 5) (ls : List Loc) (l : Launch),
    s.VectorReady [d, a, b] →
    let x := (s.g a).toNat
    let bm := s.flot.bm.toNat
    let waits := fun (t : State) (w : Wait) => t = ({ s with hart := { s.hart with wait := w } } : State).waited t ∧ SameMemory s t
    let lo := match s.pilot.launchAt s.strand.launch with
      | some l =>
        let g := if l.grant = 0 then l.grec.toNat else l.grant.toNat
        if g = 0 then 1 else min 64 ((g + 63) / 64)
      | none => 1
    let me := s.strand.sid.toNat % 16
    let retired := fun (t : State) => t.strand.status = .retired ∧ t.flot.gone = s.flot.gone ++ [me] ∧ t.strand.tokens = []
      ∧ t.pilot.launches = s.pilot.launches.map fun l => if l.id = s.strand.launch then { l with live := l.live - 1 } else l
    (x < bm → (s.NoCopies → ∃ t, exec (.post a) s = .next t ∧ Moved s t 4) ∧ ∃ t, exec (.waiti a) s = .next t ∧ Moved s t 4)
    ∧ (bm ≤ x → ∃ t, exec (.waiti a) s = .next t ∧ waits t (.waiti a))
    ∧ (s.NoCopies → bm + 64 ≤ x → ∃ t, exec (.post a) s = .next t ∧ waits t (.post a))
    ∧ (s.NoCopies → bm ≤ x → x < bm + 64 →
        let w := s.flot.posted ||| (1#64 <<< (x - bm))
        ∃ t k, exec (.post a) s = .next t ∧ k ≤ 64 ∧ (∀ j < k, w.getLsbD j = true) ∧ (k < 64 → w.getLsbD k = false) ∧ SameMemory s t
          ∧ t = ({ s with flot := { s.flot with bm := s.flot.bm + BitVec.ofNat 64 k, posted := w >>> k } } : State).moved t 4)
    ∧ (s.NoCopies → s.flot.size ≤ 1 → ∃ t f, exec (.bar d) s = .next t ∧ (f = s.flot.fgr ∨ (lo ≤ f.toNat ∧ f.toNat ≤ 64))
        ∧ RegsAfter s t d (f.setWidth 64) ∧ SameMemory s t
        ∧ t = (({ s with flot := { s.flot with fgr := f } } : State).withDest t d).moved t 4)
    ∧ (s.NoCopies → 1 < s.flot.size → ∃ t, exec (.bar d) s = .next t ∧ SameMemory s t
        ∧ t = ({ s with hart := { s.hart with wait := .bar d, lastd := if d = 0 then s.hart.lastd else d }
                        flot := { s.flot with arrived := if s.flot.arrived.contains me then s.flot.arrived else s.flot.arrived ++ [me] } } : State).waited t)
    ∧ (x % 8 = 0 → s.Clear false (s.g a) 8 → s.check s.aspace Need.load (s.g a) 8 = .ok ls →
        (ofBytes (s.bytes ls) = 0 → ∃ t, exec (.join a) s = .next t ∧ t = (s.withTlb t).moved t 4 ∧ SameMemory s t)
        ∧ (ofBytes (s.bytes ls) ≠ 0 → ∃ t, exec (.join a) s = .next t ∧ SameMemory s t
            ∧ t = (let u := s.withTlb t
                   ({ u with hart := { u.hart with wait := .join a, monArmed := true, monFired := false, monLine := ls.head?.map Loc.line } } : State)).waited t))
    ∧ (s.NoCopies → a = 0 → ∃ t, exec (.tend a) s = .next t ∧ retired t ∧ SameMemory s t)
    ∧ (s.NoCopies → a ≠ 0 → x % 8 = 0 → s.Canonical → s.check s.aspace Need.rmw (s.g a) 8 = .ok ls →
        ∃ t, exec (.tend a) s = .next t ∧ retired t
          ∧ Puts s t (ls.zip (bytesOf (BitVec.ofNat 64 (ofBytes (s.bytes ls)) - 1))))
    ∧ (let c := s.g b
       let on := (List.range s.n).filter (s.act m)
       let die := s.core.id / 384
       s.NoCopies → s.ty.fmt = 11 ∨ s.ty.fmt = 15 → 0 < s.n → s.n ≤ s.ty.vmax → c.toNat % 8 = 0 →
       s.check s.aspace Need.rmw c 8 = .ok ls → s.pilot.launchAt s.strand.launch = some l → s.Canonical →
       (s.pilot.muster.filter fun t => t.die = die).length + on.length ≤ 4096 →
        ∃ t, exec (.spawn m d v b) s = .next t ∧ t.strand.mg = BitVec.ofNat 64 s.n ∧ t.hart.pc = s.hart.pc + 4 ∧ t.hart.g = s.hart.g
          ∧ t.strand.v = s.strand.v
          ∧ t.pilot.nextPush = s.pilot.nextPush + on.length
          ∧ t.pilot.muster = s.pilot.muster ++ (on.zipIdx.map fun e =>
              ({ launch := l.id, entry := s.g d &&& ~~~(1 : Word), arg := BitVec.ofNat 64 (s.strand.elem v.toNat s.ty.w e.1)
                 ctr := c, die := die, seq := s.pilot.nextPush + e.2 } : MTask))
          ∧ t.pilot.launches = s.pilot.launches.map (fun k => if k.id = l.id then { k with live := k.live + on.length } else k)
          ∧ (on = [] → SameMemory s t)
          ∧ (on ≠ [] → Puts s t (ls.zip (bytesOf (BitVec.ofNat 64 (ofBytes (s.bytes ls) + on.length))))))
    ∧ (let u := s.unfocus
       let berth := tagBerth s.strand.tag
       let die := s.strand.core / 384
       let fits := (u.cands berth die).any fun c => u.flotEff s.flot ≤ c.eff
         && (u.fit ((u.pop.crew s.strand.flot).map (·.strand.tag)) ((u.berthAt berth).clustersOn die) c).isSome
       (fits = false → ∃ t, exec .yield s = .next t ∧ Moved s t 4)
       ∧ (fits = true → ∃ t, exec .yield s = .next t ∧ t.strand.status = .halted ∧ t.strand.cpc = s.hart.pc + 4 ∧ t.hart.g = s.hart.g
           ∧ SameMemory s t ∧ ∀ c ∈ t.pop.ctxs, c.strand.flot = s.strand.flot → c.strand.status = .running → c.strand.cutReq.isSome = true))

/-- R22, R46, R337, R341 to R345: what ends a wait of a strand. Once every strand of a flotilla has reached the barrier or
retired, all leave it with one FGR within its bounds; a waiting join goes on when it finds 0, a waiti or a stalled post when
the beacon allows it. A pre-emption request, which Pilot makes for a candidate that does not fit or has made before, halts
the strand before the instruction that waits, but ends an mwait with reason 2 and halts after it; one that is pending keeps
its cut; a lock batch that is refused under one halts the strand before its tile. The monitor of a join is log entry 28, the
victims and the order of requests log entry 47, the FGR of a barrier log entry 48. -/
def Obligations.FlotillaEvents : Prop :=
  ∀ (s : State) (d a : BitVec 6) (ls : List Loc) (cut : BitVec 16) (limit : Option (Word × Word)),
    s.priv = false → s.strand.status = .running →
    let x := (s.g a).toNat
    let bm := s.flot.bm.toNat
    let lo := match s.pilot.launchAt s.strand.launch with
      | some l =>
        let g := if l.grant = 0 then l.grec.toNat else l.grant.toNat
        if g = 0 then 1 else min 64 ((g + 63) / 64)
      | none => 1
    let halts := fun (t : State) (next : Word) => t.strand.status = .halted ∧ t.strand.cpc = s.hart.pc + next ∧ t.hart.monArmed = false
      ∧ t.hart.wait = .running ∧ t.strand.cutReq = none ∧ t.flot.halted.isSome = true ∧ SameMemory s t
    (s.hart.wait = .bar d → 1 < s.flot.size →
      (∀ c ∈ s.pop.ctxs, c.strand.flot = s.flot.id → c.strand.status = .running ∧ ∃ r, c.hart.wait = .bar r) →
      (∀ i < s.flot.size, i ∈ s.flot.arrived ∨ i ∈ s.flot.gone) → s.strand.flot = s.flot.id →
      ∃ t f, exec .barrierRelease s = .next t ∧ (f = s.flot.fgr ∨ (lo ≤ f.toNat ∧ f.toNat ≤ 64)) ∧ SameMemory s t
        ∧ t.flot = { s.flot with fgr := f, arrived := [] } ∧ (∀ r, t.g r = if r = d ∧ d ≠ 0 then f.setWidth 64 else s.g r)
        ∧ t.hart.pc = s.hart.pc + 4 ∧ t.hart.wait = .running ∧ t.strand = s.strand
        ∧ t.pop.ctxs = s.pop.ctxs.map fun c => if c.strand.flot = s.flot.id then { c with hart := c.hart.leaveBar f } else c)
    ∧ (s.hart.wait = .join a → x % 8 = 0 → s.Clear false (s.g a) 8 → s.check s.aspace Need.load (s.g a) 8 = .ok ls →
        ofBytes (s.bytes ls) = 0 → ∃ t, exec .joinWake s = .next t ∧ SameMemory s t
          ∧ t = (let u := s.withTlb t
                 ({ u with hart := { u.hart with monArmed := false } } : State)).moved t 4)
    ∧ (s.hart.wait = .waiti a → (x < bm → ∃ t, exec .beaconAdvance s = .next t ∧ Moved s t 4)
        ∧ (bm ≤ x → ∃ t, exec .beaconAdvance s = .next t ∧ Waited s t))
    ∧ (s.hart.wait = .post a → (x < bm → ∃ t, exec .beaconAdvance s = .next t ∧ Moved s t 4)
        ∧ (bm + 64 ≤ x → ∃ t, exec .beaconAdvance s = .next t ∧ Waited s t)
        ∧ (bm ≤ x → x < bm + 64 →
            let w := s.flot.posted ||| (1#64 <<< (x - bm))
            ∃ t k, exec .beaconAdvance s = .next t ∧ k ≤ 64 ∧ (∀ j < k, w.getLsbD j = true) ∧ (k < 64 → w.getLsbD k = false) ∧ SameMemory s t
              ∧ t = ({ s with flot := { s.flot with bm := s.flot.bm + BitVec.ofNat 64 k, posted := w >>> k } } : State).moved t 4))
    ∧ (s.mayPreempt = false → ∃ t, exec (.preemptHalt cut) s = .next t ∧ Waited s t)
    ∧ (s.mayPreempt = true → (∀ r t, s.hart.wait ≠ .mwait r t) → ∃ t, exec (.preemptHalt 0) s = .next t ∧ halts t 0)
    ∧ (s.mayPreempt = true → s.hart.wait = .mwait d limit → ∃ t, exec (.preemptHalt cut) s = .next t ∧ halts t 4
        ∧ ∀ r, t.g r = if r = d ∧ d ≠ 0 then 2 else s.g r)
    ∧ (s.mayPreempt = true → cut ≠ 0 → s.hart.wait = .running → s.strand.flot = s.flot.id → ∃ t, exec (.preemptHalt cut) s = .next t ∧ SameMemory s t
        ∧ t.strand = { s.strand with cutReq := some (s.strand.cutReq.getD cut.toNat) } ∧ t.hart = s.hart
        ∧ ∀ c ∈ t.pop.ctxs, c.strand.flot = s.strand.flot → c.strand.status = .running → c.strand.cutReq.isSome = true)
    ∧ (s.strand.cutReq = none ∨ s.hart.wait ≠ .running ∨ isTile s.fetchStep = false →
        ∃ t, exec .lockBatchRefusal s = .next t ∧ Waited s t)
    ∧ (s.strand.cutReq ≠ none → s.hart.wait = .running → isTile s.fetchStep = true →
        ∃ t, exec .lockBatchRefusal s = .next t ∧ halts t 0)

/-- R324, R329, R330, R331, R333 to R336, R338, R387: what Pilot does of itself, with every agent out of focus. It reads a
waiting launch's dependences again, signals and removes the oldest launch of a queue, lets declared signals tow, places the
candidate that arbitration picks, saves a halted context, and refills the muster queue from a ring. A signal that no
translation allows is not written, and a ring is read where it may be written (log entry 27); which candidate of the muster
queue a berth has is log entry 25, and that a HELD queue's tasks are among them is log entry 99; the order of coordinates is
log entry 26; that a trapped strand keeps its slot is the model's choice (DESIGN CHOICE, log entry 47); that a signal tows
only the launches of its own CASP is its reading (DEDUCED, log entry 29). -/
def Obligations.PilotEvents : Prop :=
  ∀ (s : State) (l : Launch) (rest : List Launch) (ls : List Loc) (c : Ctx) (cand : Cand) (pls : List Place) (u : State)
    (head e arg ctr : Word) (r : RingTask),
    s.Unfocused → s.Canonical →
    let q := 64 * s.inp.die.toNat + s.inp.queue.toNat
    let queue := s.pilot.launches.filter fun l => l.qid = q
    let held := s.pilot.held.contains (l.die, l.qid % 64)
    let with_ := fun (ls : List Launch) => ({ s with pilot := { s.pilot with launches := ls } } : State)
    let read := fun (host : Bool) (d : Dep) =>
      match s.check l.aspace Need.load d.addr 8 with
      | .ok ls => if d.sat = false ∧ (ls.any fun x => x.space = .cxl || x.space = .pcie) = host ∧ d.val.toNat ≤ ofBytes (s.bytes ls)
          then { d with sat := true } else d
      | .error _ => d
    let checked := fun (i : Instr) (host : Bool) => ∃ t, exec i s = .next t ∧ SameMemory s t
      ∧ t = (with_ (advanceLaunches s.pilot.held [] (s.pilot.launches.map fun x => if x.id = l.id then { x with deps := x.deps.map (read host) } else x))).waited t
    (queue.find? (fun l => l.state = .waiting) = some l → (∀ x ∈ s.pilot.launches, x.id = l.id → x = l) →
      checked .dependenceCheck false ∧ checked .hostDependencePoll true)
    ∧ (queue = l :: rest → l.state = .draining → l.live = 0 → held = false →
        let left := advanceLaunches s.pilot.held [] (s.pilot.launches.filter fun x => x.id ≠ l.id)
        (l.csig.toNat / 8 = 0 → ∃ t, exec .launchSignal s = .next t ∧ t = (with_ left).waited t ∧ SameMemory s t)
        ∧ (l.csig.toNat / 8 ≠ 0 → s.check l.aspace Need.store (BitVec.ofNat 64 (l.csig.toNat / 8 * 8)) 8 = .ok ls →
            ∃ t, exec .launchSignal s = .next t ∧ Stored s t (ls.zip (bytesOf l.cval)) ∧ t.pilot.launches = left))
    ∧ (∃ t, exec .towExchange s = .next t ∧ SameMemory s t
        ∧ t.pilot.launches.map (fun x => { x with tow := 0 }) = s.pilot.launches.map (fun x => { x with tow := 0 })
        ∧ (let feeds := fun (w l : Launch) => l.csig.toNat / 8 ≠ 0 ∧ w.berth = l.berth ∧ w.state = .waiting ∧ w.casp = l.casp
             ∧ (w.die, w.qid % 64) ∉ s.pilot.held
             ∧ ∃ d ∈ w.deps, d.sat = false ∧ d.addr = BitVec.ofNat 64 (l.csig.toNat / 8 * 8)
           let eff := fun (w : Launch) => min 7 (max (w.ctl.toNat / 2 ^ 21 % 8 + w.lost / 64) w.tow)
           ∀ l ∈ t.pilot.launches, (∀ w ∈ t.pilot.launches, feeds w l → eff w ≤ l.tow)
             ∧ (l.tow = 0 ∨ ∃ w ∈ t.pilot.launches, feeds w l ∧ l.tow = eff w)))
    ∧ (let b := s.inp.berth.toNat
       let die := s.inp.die.toNat
       let cls := turned ((s.berthAt b).clustersOn die) s.inp.num
       let v := s.refillAll
       let el := (v.cands b die).filterMap fun c => (v.fit [] cls c).map fun pls => (c, pls)
       let p := topEff (el.map (·.1))
       let l := cand.launch
       let flot := fun (t : State) (fid : Word) (n : Nat) => ∃ f ∈ t.pop.flots, f.id = v.pilot.nextId ∧ f.launch = l.id ∧ f.size = n ∧ f.fid = fid
       p < 8 → pick65 (vget (v.berthAt b).rp p 0) (el.filter fun x => x.1.eff = p) = some (cand, pls) → v.placeCand cand pls = some u →
        ∃ t, exec .pilotPlace s = .next t ∧ vget (t.berthAt b).rp p 0 = (cand.num + 1) % 65 ∧ t.pop.ctxs.length = u.pop.ctxs.length
          ∧ (cand.kind = .fresh → pls.length = l.ns ∧ flot t (l.fid l.next) l.ns ∧ ∀ i < l.ns, ∃ x ∈ t.pop.ctxs,
              x.hart = { Hart.reset with pc := l.code + l.entry, g := mkVec 64 fun r => if r = 0 then 0 else l.args.getD (r - 1) 0 }
              ∧ x.strand.sid = BitVec.ofNat 64 (i + 16 * l.ns) ∧ x.strand.lcnt = l.cnt
              ∧ x.strand.vfcs = BitVec.ofNat 64 (l.ctl.toNat / 2 ^ 50 % 8 + 2 ^ 16 * (l.ctl.toNat / 2 ^ 45 % 32))
              ∧ x.strand.flot = v.pilot.nextId ∧ x.strand.launch = l.id ∧ x.strand.status = .running
              ∧ (x.strand.core, x.strand.slot) = pls.getD i (0, false) ∧ x.strand.core / 8 = (pls.headD (0, false)).1 / 8
              ∧ x.strand.core = (pls.getD (i / 2 * 2) (0, false)).1)
          ∧ ∀ k, cand.kind = .task k → flot t 0 1 ∧ ∃ x ∈ t.pop.ctxs,
              x.hart = { Hart.reset with pc := k.entry, g := mkVec 64 fun r => if r = 0 then 0 else [k.arg, k.ctr].getD (r - 1) 0 }
              ∧ x.strand.sid = 0x10 ∧ x.strand.lcnt = 0x0000040000200001 ∧ x.strand.flot = v.pilot.nextId ∧ x.strand.launch = l.id
              ∧ x.strand.status = .running)
    ∧ (s.pop.ctxAt s.inp.tag = some c → c.strand.status = .halted → c.strand.irt = [] →
        let at_ := c.strand.csav.toNat / 4096 * 4096
        ∃ t, exec .contextSave s = .next t ∧ (t.pop.ctxAt s.inp.tag).map (fun x => x.strand.status) = some .parked
          ∧ (∀ r < 64, t.phys8 (at_ + 8 * r) = if r = 0 then 0 else c.hart.get r)
          ∧ t.phys8 (at_ + 0x200) = (s.pop.coreAt c.strand.core).cyc ∧ t.phys8 (at_ + 0x200 + 8 * 0x10) = c.strand.tvec
          ∧ t.phys8 (at_ + 0x200 + 8 * 0x41) = c.strand.mgs ∧ t.phys8 (at_ + 0xB20) = c.strand.casp
          ∧ t.phys8 (at_ + 0xB28) = c.strand.croot ∧ t.phys8 (at_ + 0xB40) = c.strand.cpc
          ∧ (∀ j < 32, ∀ i < 256 * vget c.strand.tide j 0, i < 2048 →
              memGet t.ms.dram (at_ + 0x9000 + 2048 * j + i) = vget (c.strand.vreg j) i 0))
    ∧ (s.pilot.ringq.find? (fun x => x.die = s.inp.die.toNat) = some r → s.pilot.ringq.find? (fun x => x.launch = r.launch) = some r →
        s.pilot.launchAt r.launch = some l →
        (s.pilot.muster.filter fun t => t.die = s.inp.die.toNat).length < 4096 →
        let base := BitVec.ofNat 64 (l.ring.toNat / 64 * 64)
        let at_ := base + BitVec.ofNat 64 (64 + 32 * (head.toNat % 2 ^ (l.ring.toNat % 32)))
        let holds := fun (ea w : Word) => ∃ ls, s.check l.aspace Need.store ea 8 = .ok ls ∧ ofBytes (s.bytes ls) = w.toNat
        holds base head → holds at_ e → holds (at_ + 8) arg → holds (at_ + 16) ctr → s.check l.aspace Need.store base 8 = .ok ls →
        ∃ t, exec .ringRefill s = .next t ∧ Puts s t (ls.zip (bytesOf (head + 1)))
          ∧ t.pilot.muster = s.pilot.muster ++ [{ launch := l.id, entry := e, arg := arg, ctr := ctr, die := s.inp.die.toNat, seq := r.seq }]
          ∧ t.pilot.ringq = s.pilot.ringq.erase r ∧ t.pilot.launches = s.pilot.launches)

/-! The Bridge. -/

/-- R135, R375 to R380, R392, R397, R400: a Bridge core attaches contexts, reads and writes their registers, drops
translations, revokes key slots, raises interrupts, and returns; each effect of a register comes with its mts or mfs and with
the row of its own. A context that stands in its save area is read and written there, and what its core or flotilla holds is
written when it next runs (R377). The copies of a trapped context end before it is attached (R403), which is not said again
here: it is of contexts that have none. Without an attached context, or at an unmapped index, BWIN is illegal with detail 2.
BTAKE takes from the queues of the dies that the core serves, C0's too after a failover (R402). That a context which has
retired counts as none, and where the index is not one that R377 maps, are the model's readings (DEDUCED, log entry 62), as
is that a trap of a Bridge core clears PFXS (DEDUCED, log entry 10), and that what BWIN gives and takes of a saved context is
its save area's words, a late write of FGR, FID or BM read back (DEDUCED, log entry 45); a resumed strand opens a strip
(R28), and one saved by SYNC first has what its save area holds (R379), a token's slot where log entry 30 (DESIGN CHOICE)
puts it. -/
def Obligations.BridgeInstructions : Prop :=
  ∀ (s : State) (d a : BitVec 6) (tag : BitVec 16) (v y : Word) (c : Ctx) (j : Nat) (rest : List (BitVec 16)),
    s.priv = true → s.Ready [d, a] →
    let b := s.bcore
    let no := b.berth.toNat
    let B := s.berthAt no
    let x := s.g a
    let E := fun (i : Instr) (u : State) => ∃ t, exec i s = .next t ∧ t = u.waited t ∧ SameMemory s t
    let M := fun (i : Instr) (u : State) => ∃ t, exec i s = .next t ∧ t = u.moved t 4 ∧ SameMemory s t
    let core := fun (c : BCore) => ({ s with bcore := c } : State)
    let keys := fun (k : Vector KeyState 64) => ({ s with berths := vset s.berths no { B with keys := k } } : State)
    let attach := fun (tag : BitVec 16) => if tagBerth tag = no ∧ (s.pop.ctxAt tag).isSome = true then core { b with att := true, bctx := tag } else core { b with att := false }
    let settled := fun (tag : BitVec 16) => ∀ c, s.pop.ctxAt tag = some c → c.strand.status = .trapped → c.strand.irt = []
    let msi := fun (n : Nat) => ({ s with iod := { s.iod with msix := s.iod.msix ++ [{ fn := no + 1, vec := n % 2048, count := B.brcnt }] } } : State)
    let take := fun (die : Nat) => { core { b with att := true, bctx := tag } with berths := vset s.berths no { B with trapq := vset B.trapq die rest } }
    let tok := BitVec.ofNat 64 (2 ^ 63 + tag.toNat)
    let D := fun (i : Instr) (u : State) (x : Word) => ∃ t, exec i s = .next t ∧ t = (u.withDest t d).waited t ∧ RegsAfter s t d x ∧ SameMemory s t
    let DM := fun (i : Instr) (u : State) (x : Word) => ∃ t, exec i s = .next t ∧ t = (u.withDest t d).moved t 4 ∧ RegsAfter s t d x ∧ SameMemory s t
    let dropped := fun (p : Nat → Nat → Nat → Nat → Bool) =>
      let leaves := fun (l : List TlbEntry) => l.filter fun e => !(decide (e.berth.toNat = no) && p e.asid e.vxt e.page e.level)
      let u := s.mapCores fun k => { k with tlb := leaves k.tlb }
      { u with ms := { u.ms with seen := { u.ms.seen with units := u.ms.seen.units.map fun x =>
          { x with tlb := leaves x.tlb, walks := x.walks.filter fun e => !(decide (e.berth.toNat = no) && p e.asid e.vxt e.page e.lvl) } } } }
    let sp : ASpace := { berth := no, asid := (s.g d).toNat % 65536, vxt := (s.g d).toNat / 65536 % 256, root := 0 }
    let mine := b.att = true ∧ s.pop.ctxAt b.bctx = some c
    let away := c.strand.status = .saved ∨ c.strand.status = .parked
    let at_ := c.strand.csav.toNat / 4096 * 4096
    let live := mine ∧ ¬away
    let sel := b.bsel.toNat
    let reads := fun (y : Word) => D (.bwinRead d) s y ∧ DM (.mfs 0x105 d) s y
    let wins := [Instr.bwinWrite a, .mts 0x105 a]
    let writes := fun (c' : Ctx) => ∀ i ∈ wins, ∃ t, exec i s = .next t ∧ t.pop.ctxAt b.bctx = some c' ∧ SameMemory s t
    (settled tag → E (.bctxWrite tag) (attach tag))
    ∧ (settled (BitVec.ofNat 16 x.toNat) → M (.mts 0x101 a) (attach (BitVec.ofNat 16 x.toNat)))
    ∧ ((∀ q ∈ b.queueDies, vget B.trapq q [] = []) → E .btake s ∧ DM (.mfs 0x102 d) s 0)
    ∧ (∀ pre die post, b.queueDies = pre ++ die :: post → (∀ q ∈ pre, vget B.trapq q [] = []) → vget B.trapq die [] = tag :: rest → settled tag →
        (s.inp.flag = false → E .btake (take die)) ∧ DM (.mfs 0x102 d) (take die) tok)
    ∧ D (.bcmdRead d) s (if b.bcmd then 1 else 0)
    ∧ E (.bintClear v) (core { b with bint := b.bint &&& ~~~(BitVec.ofNat 3 v.toNat) })
    ∧ E (.bmsi v) (msi v.toNat) ∧ M (.mts 0x116 a) (msi x.toNat)
    ∧ (live → c.strand.late = [] → (j < 64 → sel = 0x200 + j → reads (c.hart.get j)) ∧ (sel = 0x240 → reads c.strand.casp) ∧ (sel = 0x241 → reads c.strand.croot)
        ∧ (sel = 0x242 → reads c.strand.csav) ∧ (sel = 0x243 → reads c.strand.ccause) ∧ (sel = 0x244 → reads c.strand.ctval)
        ∧ (sel = 0x245 → reads c.strand.cpc) ∧ (sel = 0x246 → reads (c.strand.tag.setWidth 64)) ∧ (sel = 0x10 → reads c.strand.tvec)
        ∧ (sel = 0x41 → reads c.strand.mgs) ∧ (sel = 0x51 → reads c.strand.vfcs))
    ∧ (live → (j < 64 → sel = 0x200 + j → writes { c with hart := c.hart.put j x })
        ∧ (sel = 0x240 → writes { c with strand := { c.strand with casp := BitVec.ofNat 64 (x.toNat % 2 ^ 24) } })
        ∧ (sel = 0x244 → writes { c with strand := { c.strand with ctval := x } })
        ∧ (sel = 0x245 → writes { c with strand := { c.strand with cpc := x &&& ~~~(1 : Word) } }))
    ∧ (live → c.strand.status ≠ .running →
        (c.strand.late = [(0x79, y)] → sel = 0x79 → reads y)
        ∧ (sel ∈ [0x46, 0x48, 0x79] → ∀ i ∈ wins, ∃ t, exec i s = .next t ∧ t.pop.cores = s.pop.cores ∧ t.pop.flots = s.pop.flots
            ∧ (t.pop.ctxAt b.bctx).map (fun c' => c'.strand.late) = some (c.strand.late ++ [(sel, x)]) ∧ SameMemory s t))
    ∧ (mine → away → c.strand.late = [] →
        (sel ∈ [0x01, 0x08, 0x10, 0x14, 0x40, 0x41, 0x46, 0x48, 0x50, 0x51, 0x58, 0x70, 0x79] → reads (s.phys8 (at_ + 0x200 + 8 * sel)))
        ∧ (sel ∈ [0x240, 0x241] → reads (s.phys8 (at_ + 0xB20 + 8 * (sel - 0x240)))) ∧ (sel = 0x242 → reads c.strand.csav)
        ∧ (sel ∈ [0x243, 0x244, 0x245] → reads (s.phys8 (at_ + 0xB20 + 8 * (sel - 0x241))))
        ∧ (s.Canonical → ∀ i ∈ wins, ∃ t, exec i s = .next t ∧ (sel = 0x200 + j → 0 < j → j < 64 → t.phys8 (at_ + 8 * j) = x)
            ∧ (sel = 0x244 → t.phys8 (at_ + 0xB38) = x) ∧ (sel = 0x245 → t.phys8 (at_ + 0xB40) = x &&& ~~~(1 : Word))
            ∧ (sel ∈ [0x46, 0x48, 0x79] → t.pop.cores = s.pop.cores ∧ t.pop.flots = s.pop.flots
                ∧ (t.pop.ctxAt b.bctx).map (fun c' => c'.strand.late) = some [(sel, x)])))
    ∧ (b.att = false ∨ s.pop.ctxAt b.bctx = none ∨ (mine ∧ (0x247 ≤ sel ∨ (0x100 ≤ sel ∧ sel < 0x200))) →
        (∀ i ∈ [Instr.bwinRead d, .mfs 0x105 d], ∃ t w, exec i s = .next t ∧ encode (.mfs 0x105 d) = some (true, w) ∧ Traps s t 1 2 (BitVec.ofNat 64 w) false)
        ∧ ∀ i ∈ wins, ∃ t w, exec i s = .next t ∧ encode (.mts 0x105 a) = some (true, w) ∧ Traps s t 1 2 (BitVec.ofNat 64 w) false)
    ∧ M (.tlbiPage a d) (dropped fun asid vxt page lvl => decide (asid = sp.asid) && decide (vxt = sp.vxt) && decide (page = sp.va (s.g a).toNat / leafSize lvl))
    ∧ M (.tlbiAsid d) (dropped fun asid _ _ _ => decide (asid = sp.asid)) ∧ M .tlbiBerth (dropped fun _ _ _ _ => true)
    ∧ (64 ≤ x.toNat → DM (.kslot d a) s 1 ∧ DM (.kslotStat d a) s 1)
    ∧ (x.toNat < 64 →
        let k := vget B.keys x.toNat .empty
        DM (.kslotStat d a) s (match k with | .empty => 0 | .active => 1 | .revoking => 2 | .revoked => 3)
        ∧ (k ≠ .active → DM (.kslot d a) s 1) ∧ (k = .active → DM (.kslot d a) (keys (vset B.keys x.toNat .revoked)) 0))
    ∧ (b.att = false → E .rtnBridge { s with hart := { s.hart with pc := b.bepc, insn := s.hart.insn + 1, monArmed := false }, bcore := { b with intr := false } })
    ∧ (b.att = true → s.pop.ctxAt b.bctx = some c → c.strand.status = .trapped → c.strand.late = [] → ∃ t, exec .rtnBridge s = .next t ∧ SameMemory s t
        ∧ t.hart = { (s.moved t 4).hart with monArmed := false } ∧ t.bcore = { b with att := false, bctx := 0, cyc := t.bcore.cyc, ran := t.bcore.ran }
        ∧ t.pop.ctxAt b.bctx = some { hart := { c.hart with pc := c.strand.cpc, wait := .running }
                                      strand := { c.strand with status := .running, held := 0, rfmet := none, pos := 0
                                                                irt := c.strand.irt.map fun e => { e with bar := true }
                                                                gran := openGranule c.strand.type c.strand.ach } })
    ∧ (b.att = true → s.pop.ctxAt b.bctx = some c → c.strand.status = .saved → c.strand.late = [] →
        let W := fun (o : Nat) => s.phys8 (at_ + o)
        let R := fun (k : Nat) => W (0x200 + 8 * k)
        let bt := fun (o : Nat) => memGet s.ms.dram (at_ + o)
        -- slot k of the tokens, when it has been delivered, and its register
        let del := fun (k : Nat) => k < 16 ∧ (W (0xA20 + 16 * k)).toNat / 2 ^ 8 % 2 ^ 8 = 2
        let reg := fun (k : Nat) => (W (0xA20 + 16 * k)).toNat % 2 ^ 6
        let T := fun (k : Nat) => min 8 (bt (0xA00 + k)).toNat
        ∃ t, exec .rtnBridge s = .next t ∧ SameMemory s t ∧ t.hart = { (s.moved t 4).hart with monArmed := false }
          ∧ t.bcore = { b with att := false, bctx := 0, cyc := t.bcore.cyc, ran := t.bcore.ran }
          ∧ ∃ x, t.pop.ctxAt b.bctx = some x ∧ x.hart.pc = W 0xB40 ∧ x.hart.wait = .running ∧ x.hart.monArmed = false
            ∧ x.strand.status = .running ∧ x.strand.pos = 0 ∧ x.strand.gran = openGranule x.strand.type x.strand.ach
            ∧ (∀ r < 64, (∀ k, del k → reg k ≠ r) → x.hart.get r = if r = 0 then 0 else W (8 * r))
            ∧ (∀ k, del k → reg k ≠ 0 → (∀ q, del q → q ≠ k → reg q ≠ reg k) → x.hart.get (reg k) = W (0xA28 + 16 * k))
            ∧ x.hart.insn = R 0x01 ∧ x.hart.sfcs = R 0x08 ∧ x.hart.lastd = (R 0x47).setWidth 6 ∧ x.hart.pfxs = (R 0x4B).setWidth 32
            ∧ x.strand.mg = R 0x40 ∧ x.strand.mgs = R 0x41 ∧ x.strand.mgf = R 0x42 ∧ x.strand.mgr = R 0x43 ∧ x.strand.mgc = R 0x44
            ∧ x.strand.sreq = R 0x45 ∧ x.strand.type = (R 0x50).setWidth 12 ∧ x.strand.vfcs = R 0x51 ∧ x.strand.ach = (R 0x68).setWidth 3
            ∧ x.strand.tshp = R 0x69 ∧ x.strand.tvec = R 0x10 ∧ x.strand.tcause = R 0x12 ∧ x.strand.tpc = R 0x13 ∧ x.strand.inh = (R 0x16).getLsbD 0
            ∧ x.strand.govb = R 0x71 ∧ x.strand.casp = W 0xB20 ∧ x.strand.croot = W 0xB28
            ∧ ∀ v < 32, vget x.strand.tide v 0 = T v ∧ (v < 8 → ∀ e < 32768, x.strand.mbit v e = (bt (0x1000 + 4096 * v + e / 8)).getLsbD (e % 8))
                ∧ ∀ e < 2048, vget (x.strand.vreg v) e 0 = if e < 256 * T v then bt (0x9000 + 2048 * v + e) else 0)

/-- R284 to R286, R377, R380, R384, R386, R387: the commands of BCMD to the attached context, by their own rows and by a
write of their codes. A context that retires leaves what it had sent or handed to a tender to go on (R355), and what the
firmware of that tender receives and sends (log entry 84). Without an attached context, and by any other code, a command is
refused and changes nothing. Copies in flight end before a context is saved or retires (R266, R335), which is not said again
here: it is of contexts that have none. That a running context saved by SYNC resumes where it stands is the model's reading
(DEDUCED, log entry 33), and the places within the save area that R386 does not give its choice (DESIGN CHOICE, log entry
30). -/
def Obligations.BridgeCommands : Prop :=
  ∀ (s : State) (a : BitVec 6) (z : BitVec 1) (c o : Ctx) (l : Launch),
    s.priv = true → s.Ready [a] → s.Canonical →
    let b := s.bcore
    let tag := b.bctx
    let on := fun (code : Nat) (i : Instr) (P : State → Prop) =>
      (∃ t, exec i s = .next t ∧ t.hart = s.hart ∧ P t)
      ∧ ((s.g a).toNat = code → ∃ t, exec (.mts 0x103 a) s = .next t ∧ t.hart = (s.moved t 4).hart ∧ P t)
    let refused := fun (t : State) => t.bcore = { b with bcmd := true, cyc := t.bcore.cyc, ran := t.bcore.ran } ∧ t.pop = s.pop ∧ t.pilot = s.pilot ∧ SameMemory s t
    let did := fun (t : State) => t.bcore = { b with bcmd := false, cyc := t.bcore.cyc, ran := t.bcore.ran }
    let left := fun (t : State) => t.bcore = { b with bcmd := false, att := false, bctx := 0, cyc := t.bcore.cyc, ran := t.bcore.ran }
    let at_ := fun (c : Ctx) => c.strand.csav.toNat / 4096 * 4096
    let id := c.strand.core
    let k := s.pop.coreAt id
    let A := k.acc z
    let nz := z.toNat
    let el := fun (m : List Host.Cell) (c : Ctx) (i r j : Nat) (A : Acc) =>
      ofBytes (memRead m (at_ c + 0x19000 + 0x8000 * (2 * nz + i) + (r * A.ec + j) * esz A.af) (esz A.af))
    let quiet := fun (p : Ctx → Prop) => ∀ x ∈ s.pop.ctxs, p x → x.strand.irt = []
    (b.att = false → on 1 .sync refused ∧ on 2 .retire refused ∧ on 3 .abort refused ∧ on 4 .spillAcc0 refused ∧ on 5 .spillAcc1 refused
        ∧ on 6 .loadAcc0 refused ∧ on 7 .loadAcc1 refused)
    ∧ ((s.g a).toNat = 0 ∨ 7 < (s.g a).toNat → ∃ t, exec (.mts 0x103 a) s = .next t ∧ refused t)
    ∧ (b.att = true → s.pop.ctxAt tag = some c →
      (c.strand.status = .saved → on 1 .sync fun t => did t ∧ t.pop = s.pop ∧ SameMemory s t)
      ∧ (c.strand.status = .parked → on 1 .sync fun t => did t ∧ t.phys8 (at_ c + 0xB40) = c.hart.pc
          ∧ t.pop.ctxAt tag = some { c with strand := { c.strand with cpc := c.hart.pc, held := 3 } })
      ∧ (c.strand.status = .running ∨ c.strand.status = .trapped ∨ c.strand.status = .halted → c.strand.irt = [] → on 1 .sync fun t => did t
        ∧ (t.pop.ctxAt tag).map (fun x => x.strand.status) = some .saved ∧ (∀ r < 64, t.phys8 (at_ c + 8 * r) = if r = 0 then 0 else c.hart.get r)
        ∧ t.phys8 (at_ c + 0x200 + 8 * 0x41) = c.strand.mgs ∧ t.phys8 (at_ c + 0xB20) = c.strand.casp
        ∧ t.phys8 (at_ c + 0xB40) = if c.strand.status = .trapped then c.strand.cpc else c.hart.pc)
      ∧ (quiet (fun x => x.strand.tag = tag) → on 2 .retire fun t => left t ∧ t.pop.ctxs = s.pop.ctxs.filter (fun x => x.strand.tag ≠ tag) ∧ SameMemory s t
          ∧ (∀ k ∈ t.pop.cores, k.acc0.mine tag = false ∧ k.acc1.mine tag = false)
          ∧ t.fabric.jobs = s.fabric.jobs.filterMap fun j =>
              if j.owner = tag ∧ j.left = none then
                (match j.kind with
                 | .send .. | .coll _ => some { j with reg := 0, left := some c.remains }
                 | .recv .. => if j.parent.isSome then some { j with left := some c.remains } else none
                 | .copy .. => none)
              else some j)
      ∧ (s.pilot.launchAt c.strand.launch = some l → quiet (fun x => x.strand.launch = l.id) → on 3 .abort fun t => left t
          ∧ t.pop.ctxs.map (fun x => x.strand.tag) = (s.pop.ctxs.filter fun x => x.strand.launch ≠ l.id).map (fun x => x.strand.tag) ∧ (∀ x ∈ t.pilot.launches, x.id ≠ l.id)
          ∧ (∀ x ∈ t.pilot.muster, x.launch ≠ l.id) ∧ (l.die, l.qid % 64) ∈ t.pilot.held
          ∧ ((s.berthAt l.berth).ready = false → (s.berthAt l.berth).evheld.length < 4096 →
              (t.berthAt l.berth).evheld = (s.berthAt l.berth).evheld
                ++ [{ kind := 1, tag := tag, queue := l.qid % 64, die := l.die, w2 := c.strand.ccause, w3 := c.strand.ctval }]))
      ∧ (A.owned = true → s.pop.ctxAt A.own = some o → A.er ≤ 64 → A.ec * esz A.af ≤ 512 →
          on (4 + nz) (if z = 0 then .spillAcc0 else .spillAcc1) fun t => did t ∧ (t.pop.coreAt id).acc z = { A with owned := false }
            ∧ (t.pop.ctxAt A.own).map (fun x => x.strand.savedAcc z) = some true
            ∧ t.phys8 (at_ o + 0xC00 + 8 * nz) = A.mxe
            ∧ t.phys8 (at_ o + 0xC10 + 16 * nz) = (if A.work.zero then 0x201 else 0) ∧ t.phys8 (at_ o + 0xC18 + 16 * nz) = (if A.vis.zero then 0x201 else 0)
            ∧ ∀ r < A.er, ∀ j < A.ec, (A.work.zero = false → el t.ms.dram o 0 r j A = A.work.elem A.af r j)
                ∧ (A.vis.zero = false → el t.ms.dram o 1 r j A = A.vis.elem A.af r j))
      ∧ (c.strand.savedAcc z = false → on (6 + nz) (if z = 0 then .loadAcc0 else .loadAcc1) fun t => did t ∧ SameMemory s t
          ∧ (t.pop.coreAt id).acc z = { Acc.reset with own := tag, owned := true })
      ∧ (c.strand.savedAcc z = true → c.strand.status = .trapped → on (6 + nz) (if z = 0 then .loadAcc0 else .loadAcc1) fun t => did t
          ∧ (let N := (t.pop.coreAt id).acc z
             N.mxe = s.phys8 (at_ c + 0xC00 + 8 * nz) ∧ N.mine tag = true ∧ N.work.poison = false ∧ N.vis.poison = false
             ∧ (s.phys8 (at_ c + 0xC10 + 16 * nz) = 0x201 → N.work = Bank.reset)
             ∧ (s.phys8 (at_ c + 0xC10 + 16 * nz) ≠ 0x201 → ∀ r < N.er, ∀ j < N.ec, r < 64 → j * esz N.af + esz N.af ≤ 512 →
                 N.work.elem N.af r j = el s.ms.dram c 0 r j N)
             ∧ (s.phys8 (at_ c + 0xC18 + 16 * nz) ≠ 0x201 → ∀ r < N.er, ∀ j < N.ec, r < 64 → j * esz N.af + esz N.af ≤ 512 →
                 N.vis.elem N.af r j = el s.ms.dram c 1 r j N))
          ∧ (t.pop.ctxAt tag).map (fun x => x.strand.savedAcc z) = some false))

/-- R351 to R355, R357, R358, R361 to R369, R371: what ends the work of a tender job, with every agent out of focus. A token
is written to its register and nothing else of the strand changes; a copy moves its elements in index order, up to the first
that stops; what a retired strand had sent ends without a token; a message to a member that no port reaches ends its send, a
refused one too; one that arrives lands in the first matching receive, element by element up to the first that stops, CAUSE 3
telling of one cut short, or in the lowest free slot of the drift queue in device memory, or is refused; a chunk's result, reduced
in rank order over the members of every berth, lands at INTO, element by element; a failed group, and each group of a berth whose
port fails, closes, ends its contributions and writes its members' STAT; a tender loads an image and enters it, and firmware ends
its command by TFDONE or by a fault, sends, receives and waits. That a copy or a message lands in one step, and its token in one
of its own, is log entry 60; SIDE of a failed landing log entry 31; the layout of the drift queue log entry 62; the handles of
firmware and its choice among completed ones log entry 61; that its loads and sends find the elements contributed as they were
read at issue log entry 84; which operations a lost port ends is an input, and the STAT of a member with no tcoll outstanding is
that of its last one, both log entry 70; word 2 of a KIND 4 event is the number of the port and word 3 is 0 by log entry 100: those
values are the model's. -/
def Obligations.TenderEvents : Prop :=
  ∀ (s : State) (j r : Job) (c : Ctx) (x da ds fa fs tcsp code : Word) (n sz count cap slot : Nat) (ld ls : List Loc) (st : Stop)
    (m k : Msg) (poison : Bool) (e : Mooring) (col : Coll) (area : StatArea) (codes : Nat → List Nat) (LS LD : Nat → List Loc) (i : Nat) (ws : List Word) (image : List Byte) (K : TCore),
    s.Unfocused → s.Canonical →
    let jobs := s.fabric.jobs
    let ended := fun (t : State) (id : Nat) (w : Word) => t.fabric.jobs = jobs.map fun q => if q.id = id then { q with done := some w } else q
    let tok := fun (count kind cause side : Nat) => BitVec.ofNat 64 (count % 2 ^ 32 + 2 ^ 32 * kind + 2 ^ 36 * cause + 2 ^ 40 * side)
    let b := s.inp.berth.toNat
    let B := s.berthAt b
    let mine := s.fabric.jobAt s.inp.job = some j ∧ j.reg ≠ 0 ∧ j.parent = none ∧ j.left = none
    let owner := s.pop.ctxAt j.owner = some c ∧ c.strand.status = .running
    let sp := aspaceOf (tagBerth j.owner) c.strand.casp c.strand.croot
    let given := fun (t : State) (w : Word) => (∀ q, t.g q = if q = j.reg then w else c.hart.get q.toNat) ∧ t.hart.lastd = c.hart.lastd
      ∧ t.hart.pc = c.hart.pc ∧ t.strand.tag = j.owner ∧ t.strand.tokens = c.strand.tokens.filter (fun q => q.job ≠ j.id)
      ∧ t.strand.v = c.strand.v ∧ t.fabric.jobs = jobs.filter (fun q => q.id ≠ j.id)
    let f := s.focus j.owner
    let E := fun (i : Instr) (P : State → Prop) => ∃ t, exec i s = .next t ∧ P t
    let sent := tok count (if poison then 3 else 0) 0 0
    -- message `q` stands in slot `slot` of member `no`'s drift queue, and no other byte changes
    let drifts := fun (t : State) (no : Nat) (q : Msg) =>
      let a := (s.berthAt no).driftAt + 16400 * slot
      (t.berthAt no).drift = (s.berthAt no).drift ++ [slot] ∧ t.driftMsg no slot = { q with job := none }
        ∧ ∀ p, p.Real → (p.space = .dram → p.addr < a ∨ a + 16 + q.data.length ≤ p.addr) → t.byte p = s.byte p
    let lowest := fun (D : Berth) => slot < D.driftCap ∧ slot ∉ D.drift ∧ ∀ i < slot, i ∈ D.drift
    (mine → owner → j.done = some x → E .tokenDelivery fun t => given t x ∧ SameMemory f t)
    ∧ (mine → owner → j.done = none → j.kind = .copy n sz da ds fa fs tcsp → tcsp.toNat % 16 = 0 →
        -- the first q elements copied in index order, the read of each after the write of the one below it
        let run := fun q => (List.range q).foldl (fun u i => u.store none ((LD i).zip (u.bytes (LS i)))) f
        let src := fun i => (run i).check sp Need.load (fa + BitVec.ofNat 64 i * fs) sz
        let dst := fun i => (run i).check sp Need.store (da + BitVec.ofNat 64 i * ds) sz
        let ends := fun q w => E .tokenDelivery fun t => given t w ∧ ∀ l, l.Real → t.byte l = (run q).byte l
        ((∀ q < n, src q = .ok (LS q) ∧ dst q = .ok (LD q)) → ends n (tok n 0 0 0))
        ∧ (i < n → (∀ q < i, src q = .ok (LS q) ∧ dst q = .ok (LD q)) →
            (src i = .error st → ends i (tok i st.kind 0 0))
            ∧ (src i = .ok ls → dst i = .error st → ends i (tok i st.kind 0 1))))
    ∧ (s.fabric.jobAt s.inp.job = some j → j.parent = none → j.left ≠ none → j.kind = .send count poison m → j.done = none →
        s.reaching (tagBerth j.owner) m.peer.toNat = false → E .tokenDelivery fun t =>
          t.fabric.jobs = jobs.filter (fun q => q.id ≠ j.id) ∧ SameMemory s t)
    ∧ (mine → owner → j.kind = .send count poison m → j.done = none →
        (s.reaching (tagBerth j.owner) m.peer.toNat = false → E .tokenDelivery fun t => given t (tok 0 6 4 1) ∧ SameMemory f t)
        ∧ (s.reaching (tagBerth j.owner) m.peer.toNat = true → s.memberBerth m.peer.toNat = none → s.inOrder j m = true →
            E .tokenDelivery fun t => given t (if s.inp.flag then tok 0 6 4 1 else sent) ∧ SameMemory f t))
    ∧ (mine → j.kind = .send count poison m → j.done = none → s.inOrder j m = true → s.reaching (tagBerth j.owner) m.peer.toNat = true →
        m.data.length ≤ 16384 →
        let d := s.memberBerth m.peer.toNat
        let no := d.getD 0
        let D := s.berthAt no
        let m' := s.sentMsg j m
        let fits := fun (e : Mooring) => envMatch e.ctx e.tag e.peer m'
        (d ≠ none → D.heldBack m' false = false →
          (D.moor.find? fits = some e → s.fabric.jobAt e.job = some r → r.reg ≠ 0 → r.left = none → r.kind = .recv da cap sz → s.pop.ctxAt r.owner = some c →
            0 < sz → c.strand.status = .running →
            -- what fits lands in the receiver's context, the last element perhaps in part
            let got := m.data.take (cap * sz)
            let el := fun q => (got.drop (q * sz)).take sz
            let num := (got.length + sz - 1) / sz
            let run := fun q => (List.range q).foldl (fun u i => u.store none ((LD i).zip (el i))) (s.focus r.owner)
            let dst := fun i => (run i).check (aspaceOf (tagBerth r.owner) c.strand.casp c.strand.croot) Need.store (da + BitVec.ofNat 64 (i * sz)) (el i).length
            let long := if cap * sz < m.data.length then 3 else 0
            let lands := fun q w => E .messageArrival fun t => (t.berthAt no).moor = D.moor.filter (fun q => q.job ≠ e.job)
              ∧ (t.fabric.jobAt r.id).bind (·.done) = some w ∧ (t.fabric.jobAt j.id).bind (·.done) = some sent
              ∧ ∀ l, l.Real → t.byte l = (run q).byte l
            ((∀ q < num, dst q = .ok (LD q)) → lands num (tok (got.length / sz) 0 long 0))
            ∧ (i < num → (∀ q < i, dst q = .ok (LD q)) → dst i = .error st → lands i (tok i st.kind long 0)))
          ∧ (D.moor.find? fits = none → lowest D → E .messageArrival fun t => drifts t no m' ∧ ended t j.id sent)
          ∧ (D.moor.find? fits = none → (∀ i < D.driftCap, i ∈ D.drift) → E .messageArrival fun t =>
              (t.berthAt no).refused = D.refused ++ [m'] ∧ t.fabric.jobs = jobs ∧ SameMemory s t)))
    ∧ (B.refused[s.inp.num]? = some m → m.job = some j.id → s.fabric.jobAt j.id = some j → j.reg ≠ 0 → j.left = none → j.done = none → j.kind = .send count poison k →
        let left := fun (t : State) => (t.berthAt b).refused = B.refused.eraseIdx s.inp.num
        (s.reaching (tagBerth j.owner) k.peer.toNat = true → (∀ e ∈ B.moor, envMatch e.ctx e.tag e.peer m = false) → m.data.length ≤ 16384 → lowest B →
          E .messageRetry fun t => drifts t b m ∧ left t ∧ ended t j.id sent)
        ∧ (s.reaching (tagBerth j.owner) k.peer.toNat = false → E .messageRetry fun t =>
            left t ∧ (t.berthAt b).drift = B.drift ∧ ended t j.id (tok 0 6 4 1) ∧ SameMemory s t))
    ∧ (B.refused[s.inp.num]? = some m → m.job = some j.id → s.fabric.jobAt j.id = some j → j.done ≠ none → E .messageRetry fun t =>
        (t.berthAt b).refused = B.refused.eraseIdx s.inp.num ∧ (t.berthAt b).drift = B.drift ∧ t.fabric.jobs = jobs ∧ SameMemory s t)
    ∧ (let gid := s.inp.num
       let g := s.fabric.groupAt gid
       gid < 65536 → s.fabric.colls gid = [(j, col)] → (∀ a ∈ g.areas, a.berth = tagBerth j.owner) → j.kind = .coll col → j.reg ≠ 0 → j.left = none → s.fabric.jobAt j.id = some j → owner →
       -- the chunk of the input: every member's code of each element, in rank order; those that this member contributed land
       (let h := s.inp.addr
        let per := 256 / col.sz
        let first := max col.o (h * per)
        let last := min (col.o + col.n) (min ((h + 1) * per) col.total)
        col.o + col.n ≤ col.total → first < last → h ∉ col.done → col.fail = none → col.sz ∣ 256 → 0 < col.sz →
        g.first = some (col.fmt, col.op) → 0 < col.nmem →
        (∀ e, h * per ≤ e → e < min ((h + 1) * per) col.total → (codes e).length = col.nmem
          ∧ ∀ q < col.nmem, elemFrom [(j, col)] s.inp.others col.sz h q e = some ((codes e).getD q 0)) →
        let code := fun e => reduceCodes col.op col.fmt (codes e)
        let run := fun q => (List.range q).foldl (fun u i => u.store none ((LD i).zip (toBytes col.sz (code (first + i))))) f
        let dst := fun i => (run i).check sp Need.store (col.into + BitVec.ofNat 64 ((first + i) * col.sz)) col.sz
        let col' := { col with done := col.done ++ [h] }
        let whole := ∀ q ∈ col.chunks, q = h ∨ q ∈ col.done
        ((∀ q < last - first, dst q = .ok (LD q)) → E .chunkComplete fun t => (∀ l, l.Real → t.byte l = (run (last - first)).byte l)
          ∧ (t.fabric.jobAt j.id).map (·.kind) = some (.coll col')
          ∧ (t.fabric.jobAt j.id).map (·.done) = some (if whole then some (tok col.n (if col.poison then 3 else 0) 0 0) else j.done))
        ∧ (i < last - first → (∀ q < i, dst q = .ok (LD q)) → dst i = .error st →
            let c' := { col' with fail := some (first + i, st.kind) }
            E .chunkComplete fun t => (∀ l, l.Real → t.byte l = (run i).byte l)
              ∧ (t.fabric.jobAt j.id).map (·.kind) = some (.coll c')
              ∧ (t.fabric.jobAt j.id).map (·.done) = some (some (tok c'.landed st.kind 0 1)))
        ∧ ∀ e, h * per ≤ e → e < min ((h + 1) * per) col.total → 3 < col.fmt → col.op = 0 →
            code e % 2 ^ fmtWidth col.fmt = (codes e).foldl (· + ·) 0 % 2 ^ fmtWidth col.fmt)
       ∧ (s.inp.flag2 = false → f.check sp Need.store col.stat 128 = .ok ld →
          let open_ := col.chunks.filter fun k => !col.done.contains k
          let low := open_.foldl min (open_.headD 0)
          let bit := fun q => contributed [(j, col)] col.sz col.total low q || s.inp.ranks.contains q
          let failed := fun (cause : Nat) (t : State) => (t.fabric.groupAt gid).closed = true
            ∧ (t.fabric.jobAt j.id).bind (·.done) = some (tok col.landed (if col.poison then 3 else 0) cause 0)
            ∧ ∃ bs : List Byte, bs.length = 128 ∧ (∀ q < 1024, (bs.getD (q / 8) 0).getLsbD (q % 8) = bit q) ∧ Puts f t (ld.zip bs)
          E .collectiveTimeout (failed 2) ∧ E .memberFailure (failed 1)
          ∧ (s.inp.flag = true ∨ g.first ≠ some (col.fmt, col.op) → E .contributionMismatch (failed 5))))
    ∧ (let v := s.viewCtx area.ctx
       s.inp.num < 65536 → s.fabric.colls s.inp.num = [] → (s.fabric.groupAt s.inp.num).areas = [area] → v.check v.aspace Need.store area.addr 128 = .ok ld →
       let told := fun (t : State) => (t.fabric.groupAt s.inp.num).closed = true ∧ t.fabric.jobs = jobs
         ∧ ∃ bs : List Byte, bs.length = 128 ∧ (∀ q < 1024, (bs.getD (q / 8) 0).getLsbD (q % 8) = s.inp.ranks.contains q) ∧ Puts v t (ld.zip bs)
       E .collectiveTimeout told ∧ E .memberFailure told)
    ∧ (let p := s.inp.num
       bitAt B.ports p = true → p ∉ s.fabric.failed → B.ready = false → B.evheld.length < 4096 →
        E .portFailure fun t => p ∈ t.fabric.failed ∧ (t.berthAt b).evheld
            = B.evheld ++ [{ kind := 4, tag := 0, queue := 0, die := 0, w2 := BitVec.ofNat 64 p, w3 := 0 }]
          ∧ (∀ g ∈ s.fabric.groups, g.closed = false → b ∈ g.members → (t.fabric.groupAt g.gid).closed = true)
          ∧ (∀ g ∈ s.inp.others, (t.fabric.groupAt (g.1 % 65536)).closed = true)
          ∧ (mine → tagBerth j.owner = b → j.kind = .send count poison m → j.done = none → jobs = [j] → j.id ∈ s.inp.ranks → ended t j.id (tok 0 6 4 1)))
    ∧ (mine → j.kind = .coll col → col.isr = false → j.done = none → owner →
        let fault := fun (kind : Nat) => tok (min (j.last.toNat % 2 ^ 32) col.mg) kind 6 0
        let done := fun (w : Word) (t : State) => ended t j.id w ∧ SameMemory f t
        -- the words of the block, and the bytes of the buffer, as the tender's loads give them
        let ws' := K.stagedWords (BitVec.ofNat 64 s.inp.addr) ws
        let blk := f.words sp 4 (BitVec.ofNat 64 s.inp.addr) = .ok ws ∧ ws'.getD 3 0 = 0 ∧ f.isMember = true
        let buf := ws'.getD 0 0
        let len := (ws'.getD 1 0).toNat
        let env := ws'.getD 2 0
        let no := f.berthNo
        let child := fun (k : JobKind) (t : State) => t.fabric.jobs = jobs ++ [{ id := s.fabric.next, owner := j.owner, reg := 0, kind := k, entered := false, last := 0, parent := some j.id, done := none, left := none }]
        let tender := fun (t : State) (k : TCore) => k ∈ t.pop.tenders ∧ ∀ q ∈ t.pop.tenders, q.id = k.id → q = k
        (j.entered = false → s.freeTenders j ≠ [] →
          (f.tenderImage col.code col.img = .ok (some (code, image)) → E .tenderCommandEntry fun t =>
            (t.fabric.jobs = jobs.map fun q => if q.id = j.id then { q with entered := true } else q)
            ∧ ∃ k, tender t k ∧ k.id ∈ s.freeTenders j ∧ k.cmd = some j.id ∧ k.pc = 0 ∧ k.image = some (c.strand.casp, c.strand.croot, code, col.img)
              ∧ ((s.pop.tenderAt k.id).image ≠ k.image → memRead k.sram 0 image.length = image)
              ∧ k.get 10 = col.desc ∧ k.get 11 = BitVec.ofNat 64 col.o ∧ k.get 12 = BitVec.ofNat 64 col.mg ∧ k.get 13 = col.type.setWidth 64
              ∧ k.get 14 = BitVec.ofNat 64 col.fcmd ∧ k.get 15 = c.strand.tmid
              ∧ ∀ q < col.data.length, q < 2 ^ 64 → k.staging (col.base + BitVec.ofNat 64 q) [0] = [col.data.getD q 0])
          ∧ (f.tenderImage col.code col.img = .ok none → E .tenderCommandEntry (done (fault 0)))
          ∧ (f.tenderImage col.code col.img = .error st → E .tenderCommandEntry (done (fault st.kind))))
        ∧ (s.pop.server j.id = some K →
          E .tfdone (done (BitVec.ofNat 64 (s.inp.value.toNat % 2 ^ 41 / 2 ^ 32 * 2 ^ 32 + min (s.inp.value.toNat % 2 ^ 32) col.mg)))
          ∧ E .firmwareFault (done (fault s.inp.num))
          ∧ (blk → 0 < len → len ≤ 16384 → envSendOk env = true → f.accessStop Need.read4 false (byteRun len buf) = none →
              E .tfsend fun t => child (f.firmwareMessage K len buf env len) t ∧ tender t { K with sent := s.fabric.next })
          ∧ (blk → 0 < len → len ≤ 16384 → envOk env = true → (f.berthAt no).moor.length < 4096 →
              f.drifting no env = none → f.accessStop Need.store false (byteRun len buf) = none →
              E .tfrecv fun t => child (.recv buf len 1) t ∧ tender t { K with posted := s.fabric.next } ∧ (t.berthAt no).moor
                = (f.berthAt no).moor ++ [{ job := s.fabric.next, ctx := envCtx env, tag := envTag env, peer := envPeer env }])
          ∧ (let over_ := jobs.filter fun h => h.parent = some j.id && h.done.isSome
             (over_ = [] → E .tfwait fun t => t.fabric.jobs = jobs ∧ t.pop.tenders = s.pop.tenders)
             ∧ (over_ ≠ [] → E .tfwait fun t => ∃ h ∈ over_, t.fabric.jobs = jobs.filter (fun q => q.id ≠ h.id)
                 ∧ ∃ k, tender t k ∧ k.pc = K.pc + 4 ∧ ∀ q < 32, k.get q = if q = s.inp.num % 32 ∧ q ≠ 0
                     then BitVec.ofNat 64 ((h.id - j.id) % 65536 * 2 ^ 48 + (h.done.getD 0).toNat % 2 ^ 41) else K.get q))))

/-! Calls of the host. -/

/-- R375, R382, R400, R407, R412 to R414: the calls of a berth's ring, with every agent out of focus and no machine check of
the lead core. The next entry is taken, CHEAD counts it, its effect is performed, its completion is posted and MSI-X vector 0
is raised. A read that fails in a LAUNCH is the lead core's own trap (R375), from whose handler it returns at once (DESIGN
CHOICE, log entry 47). A status other than 0 leaves the rest as it was; that its VALUE is 0, the status 1 of arguments out of
range in the bits of HDR that must be 0 and of a MAP of a taken page, the status 3 of RELEASE of another berth's queue and of
HWIN beyond 16 windows, and the status 2 of SPACE with no ASID left are the model's choices (DESIGN CHOICE, log entry 55). Of
LAUNCH, that the side block is read before the record's fields are checked is log entry 24 (DEDUCED), that a slot is enabled
for KSLOT when it is active log entry 63 (DEDUCED), and when the code object is read log entry 82 (DESIGN CHOICE). -/
def Obligations.HostCalls : Prop :=
  ∀ (s : State) (e : List Byte) (cl : List Loc) (k p w root : Nat) (c : Ctx) (ds as : List Word) (kw : Word × Word) (st : Stop),
    s.Unfocused → s.Canonical → s.inp.flag2 = false →
    let b := s.inp.berth.toNat
    let B := s.berthAt b
    let hdr := (entryWord e 0).toNat
    let A := fun (k : Nat) => entryWord e (8 + 8 * k)
    let a := fun (k : Nat) => (A k).toNat
    let seq := hdr / 2 ^ 32
    let n := B.bases.2.1.toNat % 16
    let at_ := B.bases.2.1.toNat / 2 ^ 12 * 2 ^ 12 + 16 * (B.cposted % 2 ^ n)
    let word := fun (status : Nat) => BitVec.ofNat 64 (seq + 2 ^ 32 * status + if B.cposted / 2 ^ n % 2 = 0 then 2 ^ 63 else 0)
    let host := fun (x : Nat) => (b + 1) * 2 ^ 64 + x
    let posted := fun (status : Nat) (value : Word) =>
      (locRange .pcie (host (at_ + 8)) 8).zip (bytesOf value) ++ (locRange .pcie (host at_) 8).zip (bytesOf (word status))
    let taken := ∀ x ∈ locRange .pcie (host at_) 16, s.takes x = true
    let u := s.takeEntry b seq
    let op := hdr % 256
    let ends := fun (i : Instr) (status : Nat) (value : Word) (P : State → Prop) => ∃ t, exec i s = .next t
      ∧ (t.berthAt b).chead = B.chead + 1 ∧ (t.berthAt b).cposted = B.cposted + 1
      ∧ (t.berthAt b).log = B.log ++ [.taken seq, .effect seq status value, .completed seq status value]
      ∧ (taken → memWord t.ms.pcie (host at_) = word status ∧ memWord t.ms.pcie (host (at_ + 8)) = value)
      ∧ t.iod.msix = s.iod.msix ++ [{ fn := b + 1, vec := 0, count := B.brcnt }] ∧ P t
    let quiet := fun (status : Nat) (value : Word) (t : State) => Puts u t (posted status value) ∧ SamePop s.pop t.pop ∧ t.pilot = s.pilot ∧ t.fabric = s.fabric ∧ t.mgmt = s.mgmt
      ∧ t.berthAt b = { B with chead := B.chead + 1, cposted := B.cposted + 1
                               log := B.log ++ [.taken seq, .effect seq status value, .completed seq status value] }
      ∧ ∀ x < 16, x ≠ b → t.berthAt x = s.berthAt x
    let no := fun (i : Instr) (status : Nat) => ends i status 0 (quiet status 0)
    let sp : ASpace := { berth := b, asid := a 0, vxt := w / 65536, root := root }
    s.nextCall b = some e → hdr / 2 ^ 8 % 2 ^ 24 = 0 →
    (s.aperture b Need.store (B.bases.1.toNat / 2 ^ 12 % 2 ^ 24 * 2 ^ 12 + 128) 8 = some (cl, k) →
      Puts s u (cl.zip (bytesOf (BitVec.ofNat 64 (B.chead + 1)))))
    ∧ (op = 0 → no .callNop 0)
    ∧ (op = 1 →
        (255 < a 0 → no .callSpace 1) ∧ (a 0 ≤ 255 → B.allocPage = none ∨ 65535 < B.nextAsid → no .callSpace 2)
        ∧ (a 0 ≤ 255 → B.nextAsid ≤ 65535 → B.allocPage.map (·.1) = some p → ends .callSpace 0 (BitVec.ofNat 64 B.nextAsid) fun t =>
            (t.berthAt b).spaces = B.spaces ++ [(B.nextAsid + 65536 * a 0, p)] ∧ (t.berthAt b).nextAsid = B.nextAsid + 1
              ∧ ∀ i < 65536, memGet t.ms.dram (p + i) = 0))
    ∧ (B.space (a 0) = none → (op = 2 → no .callMap 1) ∧ (op = 3 → no .callUnmap 1) ∧ (op = 4 → no .callLaunch 1))
    ∧ (B.space (a 0) = some (w, root) →
        let page := a 1 % 65536 = 0 ∧ a 2 = 65536 ∧ a 1 + 65536 ≤ 2 ^ 64 ∧ u.entryOf sp (a 1) = .slot p
        let old := (u.phys8 p).toNat
        (op = 2 → page → a 3 = a 3 / 4 % 8 * 4 + a 3 / 256 % 64 * 256 →
          (old % 2 = 0 → old < 2 ^ 63 → A 4 = 0xFFFFFFFFFFFFFFFF → ends .callMap 0 0 fun t => t.phys8 p = BitVec.ofNat 64 (2 ^ 63 + a 3))
          ∧ (old % 2 = 0 → old < 2 ^ 63 → a 4 % 65536 = 0 → u.backing b (a 4) = some k →
              ends .callMap 0 0 fun t => t.phys8 p = BitVec.ofNat 64 (2 ^ 63 + k + a 3))
          ∧ (old % 2 = 1 ∨ 2 ^ 63 ≤ old → A 4 = 0xFFFFFFFFFFFFFFFF → no .callMap 1))
        ∧ (op = 3 → page → ends .callUnmap 0 0 fun t => t.phys8 p = 0
            ∧ (∀ k ∈ t.pop.cores, ∀ x ∈ k.tlb, ¬ (x.berth.toNat = b ∧ x.asid = a 0))
            ∧ ∀ k ∈ t.ms.seen.units, (∀ x ∈ k.tlb, ¬ (x.berth.toNat = b ∧ x.asid = a 0)) ∧ ∀ x ∈ k.walks, ¬ (x.berth.toNat = b ∧ x.asid = a 0))
        ∧ (op = 3 → a 1 % 65536 ≠ 0 ∨ a 2 % 65536 ≠ 0 ∨ 2 ^ 64 < a 1 + a 2 → no .callUnmap 1)
        ∧ (op = 4 →
            let asp : Word := BitVec.ofNat 64 w
            let rt : Word := BitVec.ofNat 64 root
            let v := u.mapBcores fun c => if c.id = B.lead then { c with basp := asp, broot := rt } else c
            let r := (List.range 8).map fun j => entryWord e (64 + 8 * j)
            let ctl := (r.getD 1 0).toNat
            let deps := depsOf ds
            let side := v.sideWords sp r
            let right := recordBad r = false ∧ deps.all (fun x => x.addr.toNat % 8 = 0) = true
            let object := side = .ok (ds, as) ∧ right
            let kernel := v.kernel sp (r.getD 0 0) (ctl % 65536) (ctl / 2 ^ 16 % 32)
            let allowed := ctl / 2 ^ 53 % 16 = b ∧ B.queues / 2 ^ (ctl / 2 ^ 24 % 256) % 2 = 1 ∧ vget B.keys (ctl / 2 ^ 32 % 64) .empty = .active
            let full := 16 ≤ (s.pilot.launches.filter fun l => l.qid = ctl / 2 ^ 24 % 256).length
            let lead := s.pop.bcoreAt B.lead
            let same := fun (t : State) => t.pilot = s.pilot
            -- the lead core's own trap, at its vector and back (R375)
            let trapped := fun (t : State) => same t ∧ ∃ x ∈ t.pop.bcores, x.bcore.id = B.lead
              ∧ x.bcore.bepc = lead.hart.pc ∧ x.bcore.because = causeWord 5 st.kind 0 ∧ x.bcore.betval = st.addr
              ∧ x.bcore.intr = false ∧ x.hart.pc = lead.hart.pc
            (lead.bcore.intr = false → side = .error st → ends .callLaunch 0 4 trapped)
            ∧ (side = .ok (ds, as) → ¬ right → ends .callLaunch 0 2 same)
            ∧ (object → kernel = .ok none → ends .callLaunch 0 2 same)
            ∧ (object → kernel = .ok (some kw) → ¬ allowed → ends .callLaunch 0 3 same)
            ∧ (lead.bcore.intr = false → object → kernel = .error st → ends .callLaunch 0 4 trapped)
            ∧ (object → kernel = .ok (some kw) → allowed → v.unreachable sp r deps = true → ends .callLaunch 0 4 same)
            ∧ (object → kernel = .ok (some kw) → allowed → v.unreachable sp r deps = false →
                (full → ends .callLaunch 0 1 same)
                ∧ (¬ full → ends .callLaunch 0 0 fun t => t.pilot = { s.pilot with
                    launches := advanceLaunches s.pilot.held [] (s.pilot.launches ++ [launchOf s.pilot.nextId asp rt r deps as kw])
                    nextId := s.pilot.nextId + 1 }))))
    ∧ (op = 5 →
        (63 < a 0 ∨ 3 < a 1 → no .callRelease 1)
        ∧ (a 0 ≤ 63 → a 1 ≤ 3 → B.queues / 2 ^ (64 * a 1 + a 0) % 2 = 0 → no .callRelease 3)
        ∧ (a 0 ≤ 63 → a 1 ≤ 3 → B.queues / 2 ^ (64 * a 1 + a 0) % 2 = 1 → ends .callRelease 0 0 fun t =>
            (a 1, a 0) ∉ t.pilot.held ∧ (∀ q, q ≠ (a 1, a 0) → (q ∈ t.pilot.held ↔ q ∈ s.pilot.held))
              ∧ t.pilot.launches = advanceLaunches t.pilot.held [] s.pilot.launches))
    ∧ (op = 6 →
        (63 < a 0 → no .callRevoke 1)
        ∧ (a 0 ≤ 63 → vget B.keys (a 0) .empty = .active → ends .callRevoke 0 0 fun t => (t.berthAt b).keys = vset B.keys (a 0) .revoked)
        ∧ (a 0 ≤ 63 → vget B.keys (a 0) .empty ≠ .active → ends .callRevoke 0 1 (quiet 0 1)))
    ∧ (op = 7 → (1 < a 0 → no .callDebug 1) ∧ (a 0 ≤ 1 → ends .callDebug 0 0 fun t => (t.berthAt b).debugger = decide (a 0 = 1)))
    ∧ (op = 8 →
        (s.pop.ctxAt (BitVec.ofNat 16 (a 0)) = none ∨ a 1 % 2 = 1 ∨ 65536 ≤ a 0 ∨ a 0 / 2 ^ 12 ≠ b → no .callResume 1)
        ∧ (a 0 < 65536 → a 0 / 2 ^ 12 = b → s.pop.ctxAt (BitVec.ofNat 16 (a 0)) = some c →
            (c.strand.held ≠ 1 → c.strand.held ≠ 2 → no .callResume 1)
            ∧ (c.strand.held = 1 ∨ c.strand.held = 2 → c.strand.status = .trapped → a 1 % 2 = 0 → ends .callResume 0 0 fun t =>
                ∃ x, t.pop.ctxAt (BitVec.ofNat 16 (a 0)) = some x ∧ x.hart.pc = A 1 ∧ x.hart.g = c.hart.g ∧ x.hart.wait = .running
                  ∧ x.strand.status = .running ∧ x.strand.held = 0 ∧ x.strand.pos = 0)
            -- a strand that SYNC has saved starts at the PC given, and its other registers come from the save area
            ∧ (c.strand.held = 1 ∨ c.strand.held = 2 → c.strand.status = .saved → a 1 % 2 = 0 → ends .callResume 0 0 fun t =>
                ∃ x, t.pop.ctxAt (BitVec.ofNat 16 (a 0)) = some x ∧ x.strand.status = .running ∧ x.hart.pc = A 1 ∧ x.strand.held = 0)))
    ∧ (op = 9 →
        (a 0 % 65536 ≠ 0 ∨ a 1 % 65536 ≠ 0 ∨ 2 ^ 64 < a 0 + a 1 → no .callHwin 1)
        ∧ (a 0 % 65536 = 0 → a 1 % 65536 = 0 → a 0 + a 1 ≤ 2 ^ 64 →
            (16 ≤ B.wins.length → no .callHwin 3)
            ∧ (B.wins.length < 16 → ends .callHwin 0 (BitVec.ofNat 64 B.wins.length) fun t => (t.berthAt b).wins = B.wins ++ [(a 0, a 1)])))
    ∧ (10 ≤ op → no .callUnknownOp 1)

/-! The host links. -/

/-- R399, R406, R407, R409, R410, R416, R417, R419, R420, R423, R438: requests over the links, with every agent out of focus.
A posted write waits in pieces for their homes, which perform them under the slot of the aperture or, where the aperture or
the slot does not allow, drop and report them; reads and FLUSH wait for earlier posted writes of their requester; CXL
requests act under the slot of their granule alone; completions give host memory its contents for the berth's function, stop
reads of their line, or have its writes refused. That granule g is the g-th GiB of the device's memory is the model's choice
(DESIGN CHOICE, log entry 35); that each function of the device has host addresses of its own is log entry 50; what a line
holds under another slot is log entry 71; that the event of a report repeats its PHASE is log entry 83; that a dropped write
is reported as of UNIT 13, a host link, with CLASS 1 is log entry 85, and the SYND 0 and IOD of that report are log entry 59
(both DESIGN CHOICE). -/
def Obligations.LinkTraffic : Prop :=
  ∀ (s : State) (l : Loc) (ls : List Loc) (slot : Nat) (p : Piece) (g : Nat × Nat × Nat), s.Unfocused → s.Canonical →
    let x := s.inp
    let b := x.berth.toNat
    let I := s.iod
    let E := fun (i : Instr) (P : State → Prop) => ∃ t, exec i s = .next t ∧ P t
    let idle := fun (i : Instr) => E i fun t => Waited s t
    let io := fun (i : Instr) (J : Iod) => E i fun t => t = ({ s with iod := J } : State).waited t ∧ SameMemory s t
    let replied := fun (bs : List Byte) (how : Nat) => ({ I with reads := I.reads ++ [bs], flags := I.flags ++ [how] } : Iod)
    let waiting := I.pieces.any fun q => q.req = x.req
    -- the report is held, where neither the error log nor the berth's ring takes it
    let phase := fun (t : State) =>
      if (t.mgmt.posted + t.mgmt.held.length - 1) / 2 ^ (t.mgmt.melb.toNat % 16) % 2 = 0 then 2 ^ 63 else 0
    let reports := fun (no : Nat) (t : State) => t.mgmt.seq = s.mgmt.seq + 1
      ∧ (s.mgmt.melen = 0 → (s.berthAt no).ready = false → (s.berthAt no).evheld.length < 4096 → SameMemory s t ∧ (t.berthAt no).evheld
          = (s.berthAt no).evheld ++ [{ kind := 5, tag := 0, queue := 0, die := 0, w2 := BitVec.ofNat 64 (13 + 2 ^ 18 + 2 ^ 20 + 2 ^ 28 * no + 2 ^ 32 + phase t), w3 := 0 }])
    let inLine := fun (n : Nat) => 0 < n ∧ x.addr % 128 + n ≤ 128
    let at_ := x.addr / 64 * 64
    let granule := I.hdm.find? fun h => decide (h.1 = at_ / 2 ^ 30) && decide (vget (s.berthAt h.2.1).keys h.2.2 .empty = .active)
    let under := fun (berth slot a n : Nat) => (locRange .dram a n).map (s.ms.seen.view (64 * berth + slot))
    let host := (b + 1) * 2 ^ 64 + x.addr
    let line := host / 128
    let refusal := fun (t : State) (n : Nat) => (t.ms.refused.find? fun e => e.1 = n).map (·.2)
    let others := fun (t : State) => ∀ n, n ≠ line → refusal t n = refusal s n ∧ (n ∈ t.ms.dropped ↔ n ∈ s.ms.dropped)
    let stops := fun (i : Instr) (kind : Nat) (drops : Prop) => E i fun t => refusal t line = some kind ∧ (line ∈ t.ms.dropped ↔ drops)
      ∧ others t ∧ SameMemory s t
    (inLine x.data.length →
      (512 ≤ (I.waiting x.req).length → idle .inboundPostedWrite)
      ∧ ((I.waiting x.req).length < 512 →
          (s.aperture b Need.store x.addr x.data.length = some (l :: ls, slot) → io .inboundPostedWrite { I with
              seq := I.seq + 1
              pieces := I.pieces ++ [{ req := x.req, seq := I.seq, ro := x.flag, addr := l.addr, berth := b, slot := slot, data := x.data }] })
          ∧ (s.aperture b Need.store x.addr x.data.length = none → E .inboundPostedWrite fun t => t.iod.pieces = I.pieces ∧ reports b t)))
    ∧ (I.pieces[x.num]? = some p → p.berth < 16 →
        let earlier := I.pieces.any fun q => decide (q.req = p.req) && decide (q.seq < p.seq)
        let key := vget (s.berthAt p.berth).keys p.slot .empty
        (p.ro = false → earlier = true → idle .pieceAcknowledgement)
        ∧ (p.ro = true ∨ earlier = false → E .pieceAcknowledgement fun t => t.iod.pieces = I.pieces.eraseIdx x.num
            ∧ (key = .active → Puts s t ((under p.berth p.slot p.addr p.data.length).zip p.data))
            ∧ (key ≠ .active → reports p.berth t)))
    ∧ (inLine x.num →
        (waiting = true → idle .inboundRead)
        ∧ (waiting = false →
          (s.aperture b Need.read4 x.addr x.num = none → io .inboundRead (replied [] 2))
          ∧ (s.aperture b Need.read4 x.addr x.num = some (ls, slot) →
              ((∀ k ∈ ls, s.poisoned k = false) → io .inboundRead (replied (s.bytes ls) 0))
              ∧ ((∃ k ∈ ls, s.poisoned k = true) → E .inboundRead fun t =>
                  t.iod.reads = I.reads ++ [s.bytes ls] ∧ t.iod.flags = I.flags ++ [1] ∧ t.ms.dram = s.ms.dram ∧ t.ms.poison = s.ms.poison
                    ∧ t.mgmt.seq = s.mgmt.seq + 1))))
    ∧ (waiting = true → idle .flush) ∧ (waiting = false → io .flush (replied (List.replicate 8 0) 0))
    ∧ (granule = some g →
        let c := under g.2.1 g.2.2 at_ 64
        (x.flag = true → E .cxlMemRequest fun t => Puts s t ((under g.2.1 g.2.2 at_ (x.data.take 64).length).zip (x.data.take 64)))
        ∧ (x.flag = false → E .cxlMemRequest fun t => SameMemory s t ∧ t.iod.reads = I.reads ++ [s.bytes c]
            ∧ t.iod.flags = I.flags ++ [if c.any s.poisoned then 1 else 0]
            ∧ ∀ n, n ∈ t.ms.hostLn ↔ n ∈ s.ms.hostLn ∨ (x.flag2 = true ∧ n = at_ / 128)))
    ∧ (granule = none → (x.flag = true → idle .cxlMemRequest)
        ∧ (x.flag = false → E .cxlMemRequest fun t => SameMemory s t ∧ t.iod.flags = I.flags ++ [1] ∧ t.iod.reads.length = I.reads.length + 1))
    ∧ (x.num = 0 → inLine x.data.length → E .outboundCompletion fun t => refusal t line = none ∧ (line ∈ t.ms.dropped ↔ x.flag = true) ∧ others t
        ∧ SameKeys s t ∧ ∀ k, k.Real → t.byte k = written ((locRange .pcie host x.data.length).zip x.data) k (s.byte k))
    ∧ (x.num = 1 → stops .outboundCompletion 1 (x.flag = true)) ∧ (1 < x.num → stops .outboundCompletion 2 (x.flag = true))
    ∧ stops .outboundReadTimeout 2 (line ∈ s.ms.dropped)
    ∧ E .hostSnoop fun t => Puts s t ((locRange .cxl x.addr x.data.length).zip x.data)

/-- R363, R371, R374, R397, R398, R401, R402, R411, R415, R417, R420: a berth's link registers, written and read behind earlier
posted writes of the requester, its rings' start, LSTAT, the heartbeat and failover, a call that failover interrupts, MSI-X
messages with their reset count, and a function-level reset of the VF. With every agent out of focus. What a reset leaves of
the lines of the berth, and that every slot is active after it, is the model's reading (DEDUCED, log entry 52); that FAILED
clears only by the host's read is log entry 62. -/
def Obligations.LinkControl : Prop :=
  ∀ (s : State) (m : Msix) (rest : List Msix) (e : List Byte) (n : Nat) (q : BPark), s.Unfocused → s.Canonical →
    let x := s.inp
    let b := x.berth.toNat
    let B := s.berthAt b
    let E := fun (i : Instr) (P : State → Prop) => ∃ t, exec i s = .next t ∧ P t
    let idle := fun (i : Instr) => E i fun t => Waited s t
    let now := fun (i : Instr) (B' : Berth) => E i fun t => t = ({ s with berths := vset s.berths b B' } : State).waited t ∧ SameMemory s t
    let y := x.value
    let field := fun (w : Nat) => BitVec.ofNat 64 (y.toNat % 16 + y.toNat / 2 ^ 12 % 2 ^ w * 2 ^ 12)
    let log := fun (r : Word) (hi : Nat) => 4 ≤ r.toNat % 16 ∧ r.toNat % 16 ≤ hi
    let inRange := log B.crbase 12 ∧ log B.cqbase 15 ∧ log B.evbase 15
    let waiting := s.iod.pieces.any fun q => q.req = x.req
    let running := q ∈ s.pop.bcores ∧ q.bcore.id = B.lead ∧ q.bcore.berth.toNat = b ∧ q.bcore.stopped = false
    let host := fun (a : Nat) => (b + 1) * 2 ^ 64 + a
    let reads := fun (v : Word) => E .lstatRead fun t => SameMemory s t
      ∧ t = ({ s with iod := { s.iod with reads := s.iod.reads ++ [bytesOf v], flags := s.iod.flags ++ [0] } } : State).waited t
    let reg := fun (off : Nat) (B' : Berth) => x.addr = off → now .registerWrite B'
    let failed := fun (t : State) => (t.berthAt b).lead = n ∧ (t.berthAt b).stby = none ∧ (t.berthAt b).failed = true
      ∧ ∀ q ∈ t.pop.bcores, (q.bcore.id = n → q.bcore.lead = true ∧ q.bcore.stby = false ∧ q.bcore.bint.getLsbD 2 = true)
    ((x.flag2 = false → waiting = true → idle .registerWrite) ∧ (waiting = true → idle .lstatRead))
    -- PCI Express reaches the management window from stage 2 on, or after a failure
    ∧ (x.flag2 = true → s.mgmt.stage.toNat < 2 → s.mgmt.fail = 0 → idle .lstatRead)
    ∧ (x.flag = false → s.mgmt.stage ≠ 5 ∨ s.mgmt.fatal = true → idle .registerWrite)
    ∧ (x.flag = false → waiting = false ∨ x.flag2 = true → s.mgmt.stage = 5 → s.mgmt.fatal = false →
      reg 0x18 { B with cqhead := y } ∧ (B.evheld = [] → reg 0x20 { B with evhead := y })
      ∧ reg 0x28 { B with enable := BitVec.ofNat 64 (y.toNat % 2) } ∧ reg 0x30 B ∧ reg 0x38 B
      ∧ (B.enable = 0 → reg 0 { B with crbase := field 24 } ∧ reg 8 { B with cqbase := field 52 } ∧ reg 0x10 { B with evbase := field 52 })
      ∧ (B.enable ≠ 0 → reg 0 B ∧ reg 8 B ∧ reg 0x10 B))
    ∧ (B.started = true → running → B.evheld = [] →
        (B.enable = 0 → now .enableCheck { B with ready := false })
        ∧ (B.enable ≠ 0 → inRange → now .enableCheck { B with ready := true, bases := (B.crbase, B.cqbase, B.evbase) })
        ∧ (B.enable ≠ 0 → ¬ inRange → now .enableCheck { B with ready := false }))
    ∧ (waiting = false → s.mgmt.stage = 5 → s.mgmt.fatal = false → x.flag = true → x.flag2 = false →
        (x.addr = 0 → reads B.crbase) ∧ (x.addr = 8 → reads B.cqbase) ∧ (x.addr = 0x10 → reads B.evbase) ∧ (x.addr = 0x18 → reads B.cqhead)
        ∧ (x.addr = 0x20 → reads B.evhead) ∧ (x.addr = 0x28 → reads B.enable))
    ∧ (waiting = false → s.mgmt.stage = 5 → s.mgmt.fatal = false → x.flag = false → x.flag2 = false → E .lstatRead fun t => SameMemory s t ∧ t.berthAt b = { B with failed := false }
        ∧ t.iod.reads.getLast? = some (bytesOf (BitVec.ofNat 64 ((if B.ready then 1 else 0) + (if B.failed then 2 else 0) + 256 * B.brcnt.toNat))))
    ∧ (s.iod.msix = [] → idle .msixDelivery)
    ∧ (s.iod.msix = m :: rest → E .msixDelivery fun t => t.iod.msix = rest ∧ SameMemory s t
        ∧ t.iod.sent = if m.fn = 0 ∨ m.count = (s.berthAt (m.fn - 1)).brcnt then s.iod.sent ++ [m] else s.iod.sent)
    ∧ (B.started = true → B.stby = some n →
        (x.flag = true → now .heartbeat { B with missed := 0 })
        ∧ (x.flag = false → B.missed < 3 → now .heartbeat { B with missed := B.missed + 1 })
        ∧ (x.flag = false → 3 ≤ B.missed → E .heartbeat failed)
        ∧ (x.flag = false → 3 ≤ B.missed → B.ready = false → B.evheld.length < 4096 → E .heartbeat fun t => SameMemory s t
            ∧ (t.berthAt b).evheld = B.evheld ++ [{ kind := 2, tag := 0, queue := 0, die := 0, w2 := 0, w3 := 0 }])
        -- a call that the lead's machine check interrupts: failed back, or completed by the new lead
        ∧ (let hdr := (entryWord e 0).toNat
           let c := B.bases.2.1.toNat % 16
           let at_ := B.bases.2.1.toNat / 2 ^ 12 * 2 ^ 12 + 16 * (B.cposted % 2 ^ c)
           let status := if x.num = 0 then 4 else 0
           s.nextCall b = some e → hdr % 2 ^ 32 = 0 → x.flag2 = true → s.mgmt.melen = 0 →
           B.evhead.toNat + 2 ^ (B.bases.2.2.toNat % 16) ≤ B.evcount →
           E .callNop fun t => failed t ∧ (t.berthAt b).chead = B.chead + 1 ∧ (t.berthAt b).cposted = B.cposted + 1
            ∧ ((∀ y ∈ locRange .pcie (host at_) 16, s.takes y = true) → memWord t.ms.pcie (host at_) = BitVec.ofNat 64 (hdr / 2 ^ 32 + 2 ^ 32 * status + if B.cposted / 2 ^ c % 2 = 0 then 2 ^ 63 else 0)
              ∧ memWord t.ms.pcie (host (at_ + 8)) = 0)
            ∧ (∀ q ∈ t.pop.bcores, q.bcore.id = B.lead → q.bcore.id ≠ n → q.bcore.stopped = true)))
    ∧ (B.used = false → B.started = false → E .functionLevelReset fun t => t.berthAt b = { Berth.reset with brcnt := B.brcnt + 1 })
    ∧ (B.used = true → E .functionLevelReset fun t =>
        let N := t.berthAt b
        N.brcnt = B.brcnt + 1 ∧ N.used = true ∧ N.started = B.started ∧ N.clusters = B.clusters ∧ N.groups = B.groups ∧ N.queues = B.queues
        ∧ N.ports = B.ports ∧ N.bcores = B.bcores ∧ N.tenders = B.tenders ∧ N.qm = B.qm ∧ N.qp = B.qp
        ∧ N.crbase = 0 ∧ N.cqbase = 0 ∧ N.evbase = 0 ∧ N.cqhead = 0 ∧ N.evhead = 0 ∧ N.enable = 0 ∧ N.ready = false ∧ N.failed = false
        ∧ N.moor = [] ∧ N.drift = [] ∧ N.refused = [] ∧ N.evheld = [] ∧ N.chead = 0 ∧ N.cposted = 0 ∧ N.wins = []
        ∧ (∀ d < 4, vget N.trapq d [] = []) ∧ (∀ r < 64, vget N.keys r .empty = .active)
        ∧ (∀ l ∈ t.pilot.launches, l.berth ≠ b) ∧ (∀ j ∈ t.fabric.jobs, j.owner.toNat / 2 ^ 12 ≠ b)
        ∧ (s.mgmt.fatal = false → ∀ q ∈ t.pilot.held, q ∈ s.pilot.held ∧ bitAt B.queues (64 * q.1 + q.2) = false)
        ∧ (s.mgmt.fatal = true → t.pilot.held = s.pilot.held) ∧ N.keyMat = []
        ∧ (∀ g ∈ s.fabric.groups, g.closed = false → b ∈ g.members → (t.fabric.groupAt g.gid).closed = true) ∧ (∀ q ∈ t.iod.pieces, q.berth ≠ b)
        ∧ (∀ k ∈ t.pop.tenders, bitAt B.tenders k.id = false)
        ∧ (∀ q < 16, q ≠ b → ∃ r, t.berthAt q = { s.berthAt q with refused := r } ∧ ∀ m ∈ r, m ∈ (s.berthAt q).refused
            ∧ ∀ j ∈ s.fabric.jobs, m.job = some j.id → (∃ count poison q, j.kind = .send count poison q) → j.owner.toNat / 2 ^ 12 ≠ b)
        -- nothing of another berth was on its way to this one
        ∧ ((∀ j ∈ s.fabric.jobs, s.bound b j = false) → (∀ g ∈ s.fabric.groups, g.closed = false → b ∉ g.members) → x.others = [] → s.ms.addrMap = [] →
            s.pilot.ringq = [] →
            t.pop.ctxs.map Ctx.core_ = (s.pop.ctxs.filter fun c => c.strand.tag.toNat / 2 ^ 12 ≠ b).map Ctx.core_
            ∧ ∀ l, l.Real → (l.space = .dram → B.ownsDram [] l.addr = false) → t.byte l = s.byte l))

/-! The management window. -/

/-- R374, R395, R398, R399, R402, R409, R417, R431 to R435, R442: the management window, written and read behind earlier
posted writes of the requester, and its seven commands, with every agent out of focus. A command runs once MCMD has started
it, reads its arguments as MBUF held them then, answers 2 before stage 2, and ends with its status and PF MSI-X vector 1.
BERTH starts no berth after a fatal error. The model's choices (DESIGN CHOICE) are the places of the chain's bytes (log entry
36); that a code which R435 does not give ends at once with status 1, as do ATTEST, KEYSET and RELEASE of an unused berth,
HDM of a granule outside the memory and STBY of a running lead core, and the precedence of the statuses (all log entry 57);
that granule g is the g-th GiB of the device's memory and an unmapped offset reads 0 (log entry 35); and that the lead core
starts at the firmware's entry (log entry 10) with its registers at reset (log entry 2); which lines cannot be read after
KEYSET is log entry 71. -/
def Obligations.MgmtCommands : Prop :=
  ∀ (s : State), s.Unfocused → s.Canonical →
    let m := s.mgmt
    let arg := m.arg
    let y := s.inp.value.toNat
    let E := fun (i : Instr) (P : State → Prop) => ∃ t, exec i s = .next t ∧ P t
    let with_ := fun (m : Mgmt) => ({ s with mgmt := m } : State)
    let now := fun (i : Instr) (m : Mgmt) => E i fun t => t = (with_ m).waited t ∧ SameMemory s t
    let vec1 : List Msix := s.iod.msix ++ [{ fn := 0, vec := 1, count := 0 }]
    let ended := fun (i : Instr) (m : Mgmt) (status : BitVec 8) => E i fun t => SameMemory s t
      ∧ t = { with_ { m with busy := false, status := status } with iod := { s.iod with msix := vec1 } }.waited t
    let reg := fun (off : Nat) (m' : Mgmt) => s.inp.addr = off → now .registerWrite m'
    let B := fun (b : Nat) => s.berthAt b
    let waiting := s.iod.pieces.any fun q => q.req = s.inp.req
    let reads := fun (off : Nat) (v : Word) => s.inp.addr = off → E .lstatRead fun t => SameMemory s t
      ∧ t = ({ s with iod := { s.iod with reads := s.iod.reads ++ [bytesOf v], flags := s.iod.flags ++ [0] } } : State).waited t
    let run := fun (code : BitVec 8) (i : Instr) (P : (BitVec 8 → Prop) → ((State → Prop) → Prop) → Prop) =>
      (m.busy = false ∨ m.cmd ≠ code → now i m)
      ∧ (m.busy = true → m.cmd = code → m.stage.toNat < 2 → ended i m 2)
      ∧ (m.busy = true → m.cmd = code → 2 ≤ m.stage.toNat → P (ended i m) fun Q => E i fun t =>
          t.mgmt.busy = false ∧ t.mgmt.status = 0 ∧ t.iod.msix = vec1 ∧ Q t)
    (s.inp.flag2 = true → waiting = false → 2 ≤ m.stage.toNat ∨ m.fail ≠ 0 →
      reads 0 0x01000FF9 ∧ reads 8 (BitVec.ofNat 64 (m.stage.toNat + 2 ^ 4 * m.fail.toNat + (if m.fatal then 2 ^ 8 else 0) + 2 ^ 16 * m.drdy.toNat))
      ∧ reads 0x10 (BitVec.ofNat 64 (m.status.toNat + if m.busy then 2 ^ 63 else 0)) ∧ reads 0x18 m.melb ∧ reads 0x20 m.melh ∧ reads 0x28 m.melen
      ∧ reads 0x30 m.mpwr ∧ reads 0x38 m.mtemp
      ∧ ∀ k < 32, reads (0x100 + 8 * k) (BitVec.ofNat 64 (ofBytes ((List.range 8).map fun i => vget m.mbuf (8 * k + i) 0))))
    ∧ (s.inp.flag = true → s.inp.flag2 = true ∨ waiting = false →
      (m.stage.toNat < 2 → m.fail = 0 → now .registerWrite m)
      ∧ (2 ≤ m.stage.toNat ∨ m.fail ≠ 0 →
          (m.busy = true → reg 0x10 m)
          ∧ (m.busy = false → 1 ≤ y % 256 → y % 256 ≤ 7 → reg 0x10 { m with busy := true, cmd := BitVec.ofNat 8 y, args := m.mbuf })
          ∧ (m.busy = false → y % 256 = 0 ∨ 7 < y % 256 → s.inp.addr = 0x10 →
              ended .registerWrite { m with cmd := BitVec.ofNat 8 y, args := m.mbuf } 1)
          ∧ (m.melen = 0 → reg 0x18 { m with melb := BitVec.ofNat 64 (y % 16 + y / 2 ^ 12 * 2 ^ 12) }) ∧ (m.melen ≠ 0 → reg 0x18 m)
          ∧ (m.held = [] → reg 0x20 { m with melh := s.inp.value } ∧ reg 0x28 { m with melen := BitVec.ofNat 64 (y % 2) })
          ∧ (1000 ≤ y % 2 ^ 16 → y % 2 ^ 16 ≤ 3000 →
              reg 0x30 { m with mpwr := BitVec.ofNat 64 (m.mpwr.toNat / 2 ^ 16 % 2 ^ 16 * 2 ^ 16 + y % 2 ^ 16),
                                 mtemp := if y % 2 ^ 16 < m.mpwr.toNat / 2 ^ 16 % 2 ^ 16 then m.mtemp ||| 256 else m.mtemp })
          ∧ (y % 2 ^ 16 < 1000 ∨ 3000 < y % 2 ^ 16 → reg 0x30 m) ∧ reg 0 m ∧ reg 8 m ∧ reg 0x38 m
          ∧ ∀ k < 32, s.inp.addr = 0x100 + 8 * k → E .registerWrite fun t => t = (with_ { m with mbuf := t.mgmt.mbuf }).waited t
              ∧ ∀ i < 256, vget t.mgmt.mbuf i 0 = if i / 8 = k then s.inp.value.extractLsb' (8 * (i % 8)) 8 else vget m.mbuf i 0))
    ∧ run 1 .ident (fun _ done => done fun t => SameMemory s t
        ∧ (∀ i < 64, vget t.mgmt.mbuf i 0 = Config.identKeyByte i)
        ∧ (∀ i < 8, vget t.mgmt.mbuf (0x40 + i) 0 = (BitVec.ofNat 64 Config.certLength).extractLsb' (8 * i) 8)
        ∧ ∀ i < 176, i < Config.certLength - arg 0x48 8 → vget t.mgmt.mbuf (0x50 + i) 0 = Config.certByte (arg 0x48 8 + i))
    ∧ run 2 .attest (fun fails done =>
        let b := arg 0x20 1
        (15 < b ∨ (b < 15 ∧ (B b).used = false) → fails 1)
        ∧ (m.fm.length = 32 → b = 15 ∨ (b < 15 ∧ (B b).used = true) → done fun t => SameMemory s t
            ∧ (let at_ := fun (o n : Nat) => (List.range n).map fun i => vget t.mgmt.mbuf (o + i) 0
               let states := (List.range 64).map fun k => match vget (B b).keys k .empty with
                 | .empty => (0 : Byte) | .active => 1 | .revoking => 2 | .revoked => 3
               ofBytes (at_ 0 32) = arg 0 32 ∧ at_ 0x20 32 = m.fm
               ∧ at_ 0x40 32 = (if b = 15 then List.replicate 32 0 else sm3 ((B b).record b ++ states))
               ∧ ofBytes (at_ 0x60 8) = 0x01000FF9
               ∧ ofBytes (at_ 0x68 8) = b + (if b = 15 then 0 else 2 ^ 8 * (B b).brcnt.toNat) + 2 ^ 16 * m.stage.toNat + 2 ^ 20 * m.fail.toNat
               ∧ at_ 0x70 16 = List.replicate 16 0
               ∧ ∀ i < 64, vget t.mgmt.mbuf (0x80 + i) 0 = Config.sm2Byte (sm3 (at_ 0 128)) i)))
    ∧ run 3 .berth (fun fails done =>
        let b := arg 0 1
        let x := recordBerth m
        let starts := m.stage = 5 ∧ m.fatal = false
        let zeros := arg 1 7 = 0 ∧ arg 0x52 6 = 0 ∧ arg 0x68 24 = 0
        let taken := ∃ k < 16, k ≠ b ∧ (B k).used = true ∧ ((x.clusters &&& (B k).clusters) ≠ 0 ∨ (x.groups &&& (B k).groups) ≠ 0
          ∨ (x.queues &&& (B k).queues) ≠ 0 ∨ (x.ports &&& (B k).ports) ≠ 0 ∨ (x.bcores &&& (B k).bcores) ≠ 0 ∨ (x.tenders &&& (B k).tenders) ≠ 0)
        (15 < b ∨ ¬ zeros ∨ arg 8 24 = 0 ∨ arg 0x20 8 = 0 ∨ arg 0x58 8 % 2 ^ 16 = 0 ∨ arg 0x58 8 / 2 ^ 16 % 2 ^ 16 = 0 → fails 1)
        ∧ (b ≤ 15 → zeros → x.complete = true →
            ((B b).started = true → fails 2) ∧ ((B b).started = false → taken → fails 3)
            ∧ ((B b).started = false → ¬ taken → done fun t =>
                let N := t.berthAt b
                N.used = true ∧ N.clusters = arg 8 24 ∧ N.groups = arg 0x20 8 ∧ N.queues = arg 0x28 32 ∧ N.ports = arg 0x48 8
                ∧ N.qm.toNat = arg 0x50 1 ∧ N.qp.toNat = arg 0x51 1 ∧ N.bcores = arg 0x58 8 ∧ N.tenders = arg 0x60 8
                ∧ N.crbase = (B b).crbase ∧ N.cqbase = (B b).cqbase ∧ N.evbase = (B b).evbase ∧ N.cqhead = (B b).cqhead
                ∧ N.evhead = (B b).evhead ∧ N.enable = (B b).enable
                -- at its start the lead core checks ENABLE
                ∧ (starts → N.ready = ((B b).enable ≠ 0 && (B b).ringsOk)) ∧ (N.ready = true → N.bases = ((B b).crbase, (B b).cqbase, (B b).evbase))
                ∧ N.brcnt = (B b).brcnt ∧ (N.started = true ↔ starts) ∧ (∀ k < 16, k ≠ b → t.berthAt k = B k)
                ∧ (starts → ∃ k ∈ t.pop.bcores, k.bcore.id = N.lead ∧ k.bcore.lead = true ∧ k.hart.pc = Config.bvecEntry &&& ~~~(1 : Word)))))
    ∧ run 4 .keyset (fun fails done =>
        let b := arg 0 1
        let k := arg 1 1
        let wrapped := (List.range 240).map fun i => vget m.args (16 + i) 0
        let old := vget (B b).keys k .empty
        (15 < b ∨ 63 < k ∨ (B b).used = false ∨ old = .active ∨ old = .revoking → fails 1)
        ∧ (b ≤ 15 → k ≤ 63 → (B b).used = true → old = .empty ∨ old = .revoked → (Config.unwrapOk m.spdm wrapped = false ∧ fails 1)
          ∨ (Config.unwrapOk m.spdm wrapped = true ∧ done fun t =>
            (t.berthAt b).keys = vset (B b).keys k .active
            ∧ ((t.berthAt b).keyMat.find? fun e => e.1 = k) = some (k, (List.range 32).map (Config.unwrapByte m.spdm wrapped))
            ∧ ∀ l, l.Real → (l.space = .dram → (l.addr / 128, 64 * b + k) ∉ s.ms.seen.keys) → t.byte l = s.byte l)))
    ∧ run 5 .hdm (fun fails done =>
        let g := arg 0 8
        let b := arg 8 1
        let k := arg 9 1
        let right := b ≤ 15 ∧ k ≤ 63 ∧ (B b).used = true
        let holds := fun (o a : Nat) => (B o).ownsDram s.ms.addrMap a = true
        -- assigned to another berth, or in a channel group of one
        let other := (∃ h ∈ s.iod.hdm, h.1 = g ∧ h.2.1 ≠ b) ∨ ∃ o < 16, o ≠ b ∧ (B o).used = true
          ∧ ∃ i < 4, holds o (g * 2 ^ 30 + 2048 * i) ∨ holds o ((g + 1) * 2 ^ 30 - 2048 * (i + 1))
        (¬ right → fails 1) ∧ (right → other → fails 3) ∧ (right → ¬ other → ¬ holds b (g * 2 ^ 30) → fails 1)
        ∧ (right → ¬ other → holds b (g * 2 ^ 30) → done fun t => t.iod.hdm = (g, b, k) :: (s.iod.hdm.filter fun h => h.1 ≠ g) ∧ SameMemory s t))
    ∧ run 6 .stby (fun fails done =>
        let b := arg 0 1
        let id := 16 + arg 1 1
        let right := b ≤ 15 ∧ id ≤ 31 ∧ (B b).used = true
        let holds := fun (o : Nat) => (B o).bcores / 2 ^ id % 2 = 1
        let other := ∃ o < 16, o ≠ b ∧ (B o).used = true ∧ holds o
        let ok := holds b ∧ ¬ ((B b).lead = id ∧ (B b).started = true)
        (¬ right → fails 1) ∧ (right → other → fails 3) ∧ (right → ¬ other → ¬ ok → fails 1)
        ∧ (right → ¬ other → ok → done fun t => t.berthAt b = { B b with stby := some id } ∧ SameMemory s t
            ∧ ∀ k ∈ t.pop.bcores, k.bcore.berth.toNat = b → k.bcore.stby = decide (k.bcore.id = id)))
    ∧ run 7 .mgmtRelease (fun fails done =>
        let b := arg 0 1
        (15 < b ∨ (B b).used = false → fails 1)
        ∧ (b ≤ 15 → (B b).used = true → done fun t => t.berthAt b = { Berth.reset with brcnt := (B b).brcnt + 1 }
            ∧ (∀ c ∈ t.pop.ctxs, c.strand.tag.toNat / 2 ^ 12 ≠ b) ∧ (∀ l ∈ t.pilot.launches, l.berth ≠ b)
            ∧ (∀ k ∈ t.pop.bcores, (B b).bcores / 2 ^ k.bcore.id % 2 = 0) ∧ (∀ h ∈ t.iod.hdm, h.2.1 ≠ b)
            ∧ ∀ k < 16, k ≠ b → t.berthAt k = { B k with refused := (t.berthAt k).refused }))

/-! Staged start, errors, power. -/

/-- R221, R255, R286, R375, R402, R405, R427 to R430, R436, R437, R439 to R442: the package's own events, with every agent out of
focus, the error log off and no berth's ring ready, so that reports and events wait: staged start, where each image and table is
verified by its key's digest, its own digest, its signature and its fused minimum version, and its failures; a package reset;
soft errors by unit; scrubbing; machine checks; fatal errors; throttling and the junction of 115 °C. What SM2 and SM3 compute,
the parts of an image's header and the fused values are free (log entry 11); that Bridge core 0 starts at the firmware's entry
(log entry 10) with every register at its reset value (log entry 2), and the fields of a report that R436 leaves open (log entries
59, 70, 83) are the model's choice, as are the outcome of an error in units 11, 13 and 16, which R439 does not give
(DESIGN CHOICE, log entry 85), the address map (log entry 8) and what a package reset leaves of host memory
(log entry 64). -/
def Obligations.PackageEvents : Prop :=
  ∀ (s : State) (k : BPark) (c : Ctx), s.Unfocused → s.Canonical → s.mgmt.melen = 0 → s.mgmt.held.length < 1024 →
    (∀ b < 16, (s.berthAt b).ready = false) →
    let m := s.mgmt
    let x := s.inp
    let E := fun (i : Instr) (P : State → Prop) => ∃ t, exec i s = .next t ∧ P t
    let idle := fun (i : Instr) => E i fun t => Waited s t
    let now := fun (i : Instr) (m : Mgmt) => E i fun t => t = ({ s with mgmt := m } : State).waited t ∧ SameMemory s t
    -- instance, die, and whether on the IOD, of number n of a unit
    let place := fun (unit n : Nat) =>
      if unit = 2 then (n % 48, n / 48 % 4, 0) else if unit ≠ 1 ∧ unit ≤ 8 then (n % 384 % 256, n / 384 % 4, 0)
      else if unit = 12 then (n % 3, n / 3 % 4, 0) else if unit ≤ 11 then (n % 16, n / 16 % 4, 0) else (n % 256, 0, 1)
    let reportedAt := fun (t : State) (unit cls synd inst die iod : Nat) => t.mgmt.seq = m.seq + 1
      ∧ ∃ r, t.mgmt.held = m.held ++ [r] ∧ r.w3 = BitVec.ofNat 64 m.seq ∧ r.w0.toNat % 2 ^ 8 = unit
          ∧ r.w0.toNat / 2 ^ 8 % 2 ^ 8 = inst ∧ r.w0.toNat / 2 ^ 16 % 2 ^ 2 = die ∧ r.w0.toNat / 2 ^ 18 % 2 = iod
          ∧ r.w0.toNat / 2 ^ 20 % 2 ^ 4 = cls ∧ r.w0.toNat / 2 ^ 24 % 2 ^ 4 = synd
    let reported := fun (t : State) (unit n cls synd : Nat) => reportedAt t unit cls synd (place unit n).1 (place unit n).2.1 (place unit n).2.2
    let channel := x.addr / (6 * 2 ^ 30)
    let inDram := fun (t : State) (cls synd : Nat) => reportedAt t 1 cls synd (channel % 16) (channel / 16) 0
    let coreOf := ((s.pop.ctxAt x.tag).map fun c => c.strand.core).getD 0
    let begun := m.started = true ∧ m.fail = 0 ∧ m.fatal = false
    let fm := sm3 (m.fm ++ sm3 x.data)
    let n := m.images + 1
    let verified : Mgmt := { m with fm := fm, images := n, loaded := m.loaded ++ [x.data] }
    let part := fun (k : Nat) => (x.others.getD k (0, [])).2
    let genuine := sm3 (part 2) = Config.imageKeyDigest ∧ part 0 = sm3 x.data ∧ Config.sm2Verifies (part 2) (part 0) (part 1) = true
    let recent := Config.minVersion (min m.images 3) ≤ x.num
    let count := max 1 x.mtag.toNat
    let poisons := fun (t : State) => SameMemory s t ∧ (∀ e, e ∈ t.ms.poison ↔ e ∈ s.ms.poison ∨ e = x.addr / 16)
      ∧ t.ms.swatch = s.ms.swatch.filter fun e => e.1 ≠ x.addr / 128
    let fatal := fun (t : State) => t.mgmt.fatal = true ∧ (∀ d < 4, ∀ q < 64, (d, q) ∈ t.pilot.held) ∧ t.pilot.launches = s.pilot.launches ∧ SameMemory s t
    let cap := m.mpwr.toNat % 2 ^ 16
    let p := x.num % 2 ^ 16
    let hot := cap < p ∨ 105 ≤ x.addr % 2 ^ 8
    let measured := fun (thr : Nat) => ({ m with mpwr := BitVec.ofNat 64 (cap + 2 ^ 16 * p), mtemp := BitVec.ofNat 64 (x.addr % 2 ^ 8 + 2 ^ 8 * thr) } : Mgmt)
    let dram := channel < 64 ∧ s.ms.addrMap = []
    let stopped := fun (id : Nat) (t : State) => ∃ q ∈ t.pop.tenders, q.id = id ∧ q.stopped = true
    -- staged start
    now .resetRelease { m with started := true }
    ∧ (¬ begun ∨ m.stage = 5 → idle .stageAdvance) ∧ (x.flag = false → m.stage = 2 → idle .stageAdvance)
    ∧ (begun → x.flag = false → m.stage ≠ 2 → m.stage ≠ 4 → m.stage ≠ 5 →
        (¬ genuine ∧ now .stageAdvance { m with fail := if m.stage = 3 then 4 else 1 })
        ∨ (genuine ∧ ¬ recent ∧ now .stageAdvance { m with fail := if m.stage = 3 then 4 else 2 })
        ∨ (genuine ∧ recent ∧
        (n = 1 → now .stageAdvance { verified with stage := 1 })
        ∧ (n = 3 → E .stageAdvance fun t => t.mgmt = { verified with stage := 2 } ∧ SameMemory s t
            ∧ ∃ q ∈ t.pop.bcores, q.bcore = BCore.reset 0 ∧ q.hart = { Hart.reset with pc := Config.bvecEntry &&& ~~~(1 : Word) })
        ∧ (n = 7 → now .stageAdvance { verified with stage := 4, tables := true })
        ∧ (n ≠ 1 → n ≠ 3 → n ≠ 7 → now .stageAdvance verified)))
    ∧ (begun → x.flag = false → m.stage = 4 → E .stageAdvance fun t => t.mgmt = { m with stage := 5 }
        ∧ ∀ b < 16, (t.berthAt b).started = ((s.berthAt b).started || (s.berthAt b).used))
    ∧ (begun → x.flag = true → m.stage ≠ 5 → now .stageAdvance { m with fail := 5 })
    ∧ (m.started = true → m.fatal = false → m.stage = 2 →
        let d := m.drdy ||| (1#4 <<< x.die.toNat)
        (x.flag = false → now .dramTrainingDone { m with drdy := d, stage := if d = 15 ∧ m.fail = 0 then 3 else 2 })
        ∧ (x.flag = true → now .dramTrainingDone { m with fail := if m.fail ≠ 0 then m.fail else if x.flag2 then 5 else 3 }))
    ∧ (m.started = false ∨ m.fatal = true ∨ m.stage ≠ 2 → idle .dramTrainingDone)
    ∧ (E .hotReset fun t => t = { State.reset with ms := { State.reset.ms with cxl := s.ms.cxl, pcie := s.ms.pcie }, turns := s.turns, fresh := t.fresh })
    ∧ (2 ≤ m.stage.toNat → now .spdmMessage { m with spdm := m.spdm ++ x.data }) ∧ (m.stage.toNat < 2 → idle .spdmMessage)
    -- errors
    ∧ (x.flag = false → now .errorDetected { m with
        seq := m.seq + 1
        held := m.held ++ [{ w0 := BitVec.ofNat 64 (x.num + 2 ^ 8 * (place x.num x.job).1 + 2 ^ 16 * (place x.num x.job).2.1
                                                 + 2 ^ 18 * (place x.num x.job).2.2 + 2 ^ 24), w1 := 0
                             w2 := BitVec.ofNat 64 (2 ^ 32 * count), w3 := BitVec.ofNat 64 m.seq }] })
    ∧ (x.flag = true →
        (x.num = 1 → dram → E .errorDetected fun t => inDram t 1 2 ∧ poisons t)
        ∧ (x.num = 2 → x.flag2 = false → E .errorDetected fun t => reported t 2 x.job 0 2 ∧ t.ms = s.ms)
        ∧ (x.num = 2 → x.flag2 = true → dram → x.job < 192 → E .errorDetected fun t => reported t 2 x.job 1 2 ∧ poisons t)
        ∧ (let ways := (s.pop.coreAt x.job).pspl.toNat * 16384
           let at_ := x.addr % 262144
           (x.num = 3 → at_ < ways → E .errorDetected fun t => reported t 3 x.job 1 2 ∧ SameMemory s t
             ∧ ∀ q ∈ t.pop.cores, q.id = x.job → at_ / 16 ∈ q.poolP)
           ∧ (x.num = 3 → ways ≤ at_ → E .errorDetected fun t => reported t 3 x.job (if x.flag2 then 1 else 0) 2 ∧ SameMemory s t
             ∧ t.pop.cores = s.pop.cores ∧ ∀ e, e ∈ t.ms.poison ↔ e ∈ s.ms.poison ∨ (x.flag2 = true ∧ e = x.value.toNat / 16)))
        ∧ (∀ u, u = 4 ∨ u = 7 → x.num = u → s.pop.ctxAt x.tag = some c →
            (c.strand.status = .running → E .errorDetected fun t => reported t u coreOf 1 2 ∧ t.hart = { c.hart with monArmed := false, wait := .running }
              ∧ t.strand = { c.strand with status := .trapped, ccause := 0x304, ctval := 0, cpc := c.hart.pc, cut := none, fetchd := [], rfmet := some u })
            ∧ (c.strand.status ≠ .running → E .errorDetected fun t => reported t u coreOf 1 2
                ∧ t.hart = c.hart ∧ t.strand = { c.strand with rfpois := some u }))
        ∧ (x.num = 5 → E .errorDetected fun t => reported t 5 x.job 1 2 ∧ SameMemory s t ∧ ∀ q ∈ t.pop.cores, q.id = x.job →
            let A := q.acc (BitVec.ofNat 1 x.queue.toNat)
            let bank := if x.queue.toNat / 2 % 2 = 0 then A.work else A.vis
            bank.poison = true ∧ bank.zero = false)
        ∧ (x.num = 6 → E .errorDetected fun t => reported t 6 coreOf 1 2 ∧ SameMemory s t
            ∧ ∀ q ∈ t.pop.ctxs, q.strand.tag = x.tag → q.strand.gpois = true)
        ∧ (x.num = 8 → x.flag2 = false → E .errorDetected fun t => reported t 8 x.job 0 3 ∧ t.ms = s.ms ∧ ∀ q ∈ t.pop.cores, q.id = x.job →
            ∃ q' ∈ s.pop.cores, q'.id = x.job
              ∧ (x.value = 0 → q.icache = q'.icache ∧ q.tlb = q'.tlb.eraseIdx x.addr)
              -- the whole line of the entry, and no other
              ∧ (x.value ≠ 0 → q.tlb = q'.tlb ∧ ∀ e, q'.icache[x.addr]? = some e → q.icache = q'.icache.filter fun y => y.1 / 64 ≠ e.1 / 64))
        -- a cluster's caches, the walker's among them, by its number, or a Bridge core's
        ∧ (x.num = 8 → x.flag2 = true → E .errorDetected fun t => SameMemory s t ∧ t.pop = s.pop
            ∧ reportedAt t 8 0 3 (if x.job < 192 then x.job % 48 else (x.job - 192) % 16) (if x.job < 192 then x.job / 48 else (x.job - 192) / 16 % 4) 0
            ∧ t.ms.seen.units = s.ms.seen.units.map fun u => if u.id = x.job
                then (if x.value = 0 then { u with tlb := u.tlb.eraseIdx x.addr } else { u with walks := u.walks.eraseIdx x.addr }) else u)
        ∧ (x.num = 9 → x.job < 64 → s.pop.bcores.find? (fun q => q.bcore.id = x.job) = some k → E .errorDetected fun t => reported t 9 x.job 2 0
            ∧ ∀ q ∈ t.pop.bcores, q.bcore.id = x.job → q.bcore.stopped = true)
        ∧ (x.num = 10 → E .errorDetected fun t => reported t 10 x.job 2 0 ∧ t.ms = s.ms ∧ stopped x.job t)
        ∧ (x.num = 15 → E .errorDetected fatal)
        ∧ (x.num = 12 → E .errorDetected fun t => fatal t ∧ reportedAt t 12 3 2 (x.job % 3) (x.job / 3 % 4) 0)
        ∧ (x.num = 14 → E .errorDetected fun t => reported t 14 x.job 2 2 ∧ SameMemory s t
            ∧ ∀ b < 16, (s.berthAt b).ports / 2 ^ x.job % 2 = 1 → (∀ k < b, (s.berthAt k).ports / 2 ^ x.job % 2 = 0) → x.job ∈ t.fabric.failed)
        ∧ (∀ u ∈ [11, 13, 16], x.num = u → E .errorDetected fun t => reported t u x.job 1 2 ∧ t.ms = s.ms ∧ t.pilot = s.pilot))
    ∧ (dram → x.flag = true → E .scrub fun t => inDram t 1 2 ∧ poisons t)
    ∧ (dram → x.flag = false → x.flag2 = true → E .scrub fun t => inDram t 0 1 ∧ t.ms = s.ms)
    ∧ (x.flag = false → x.flag2 = false → idle .scrub)
    ∧ (x.flag = true → E .machineCheck fun t => reported t 10 (x.num % 64) 2 0 ∧ t.ms = s.ms ∧ stopped (x.num % 64) t)
    ∧ (x.flag = false → x.num < 64 → s.pop.bcores.find? (fun q => q.bcore.id = x.num) = some k →
        let b := k.bcore.berth.toNat
        -- the berth that holds the core
        let own := (s.berthAt b).used = true ∧ (s.berthAt b).bcores / 2 ^ x.num % 2 = 1
        let w := fun (t : State) => BitVec.ofNat 64 (9 + 2 ^ 8 * (x.num % 16) + 2 ^ 16 * (x.num / 16) + 2 ^ 21 + 2 ^ 28 * b + 2 ^ 32
          + if (t.mgmt.posted + t.mgmt.held.length - 1) / 2 ^ (t.mgmt.melb.toNat % 16) % 2 = 0 then 2 ^ 63 else 0)
        E .machineCheck fun t => reported t 9 x.num 2 0 ∧ t.ms = s.ms ∧ (∀ q ∈ t.pop.bcores, q.bcore.id = x.num → q.bcore.stopped = true)
          ∧ (k.bcore.lead = false → own → t.berthAt b = (s.berthAt b).event { kind := 5, tag := 0, queue := 0, die := 0, w2 := w t, w3 := 0 })
          ∧ (k.bcore.lead = false → ¬ own → t.berthAt b = s.berthAt b ∧ ∀ r, t.mgmt.held.getLast? = some r → r.w0.toNat / 2 ^ 28 % 2 ^ 5 = 0)
          ∧ (k.bcore.lead = true → ∀ j, (s.berthAt b).stby = some j → (t.berthAt b).lead = j ∧ (t.berthAt b).stby = none
              ∧ (t.berthAt b).failed = true ∧ ∀ q ∈ t.pop.bcores, q.bcore.id = j → q.bcore.lead = true))
    ∧ (x.flag = false → E .fatalError fun t => fatal t ∧ reportedAt t 12 3 5 (if x.flag2 then 0 else x.num % 3) x.die.toNat 0) ∧ (x.flag = true → E .fatalError fun t => fatal t ∧ reportedAt t 15 3 0 0 0 1)
    ∧ (x.flag = false → E .supplyFault fun t => fatal t ∧ reportedAt t 16 3 7 0 0 1) ∧ (x.flag = true → E .supplyFault fun t => fatal t ∧ reportedAt t 16 3 6 0 0 1)
    -- power
    ∧ (115 ≤ x.addr % 2 ^ 8 → E .throttle fun t => fatal t ∧ reportedAt t 16 3 6 0 0 1 ∧ t.mgmt.mtemp = (measured 1).mtemp ∧ t.mgmt.mpwr = (measured 1).mpwr)
    ∧ (x.addr % 2 ^ 8 < 115 → hot → now .throttle (measured 1)) ∧ (hot → idle .throttleEnd) ∧ (¬ hot → idle .throttle ∧ now .throttleEnd (measured 0))
end

