-- ==== Sys2Proof/Laws/State.lean ====
section
/-!
SUPPORT. One lemma per field per update of State, each true by rfl, so that no later proof unfolds a record update.
-/
namespace Sys2Proof.Machine

@[simp] theorem State.setHart_priv (s : State) (x : Hart) : (s.setHart x).priv = s.priv := rfl
@[simp] theorem State.setHart_hart (s : State) (x : Hart) : (s.setHart x).hart = x := rfl
@[simp] theorem State.setHart_strand (s : State) (x : Hart) : (s.setHart x).strand = s.strand := rfl
@[simp] theorem State.setHart_flot (s : State) (x : Hart) : (s.setHart x).flot = s.flot := rfl
@[simp] theorem State.setHart_core (s : State) (x : Hart) : (s.setHart x).core = s.core := rfl
@[simp] theorem State.setHart_bcore (s : State) (x : Hart) : (s.setHart x).bcore = s.bcore := rfl
@[simp] theorem State.setHart_ms (s : State) (x : Hart) : (s.setHart x).ms = s.ms := rfl
@[simp] theorem State.setHart_pop (s : State) (x : Hart) : (s.setHart x).pop = s.pop := rfl
@[simp] theorem State.setHart_pilot (s : State) (x : Hart) : (s.setHart x).pilot = s.pilot := rfl
@[simp] theorem State.setHart_berths (s : State) (x : Hart) : (s.setHart x).berths = s.berths := rfl
@[simp] theorem State.setHart_fabric (s : State) (x : Hart) : (s.setHart x).fabric = s.fabric := rfl
@[simp] theorem State.setHart_iod (s : State) (x : Hart) : (s.setHart x).iod = s.iod := rfl
@[simp] theorem State.setHart_mgmt (s : State) (x : Hart) : (s.setHart x).mgmt = s.mgmt := rfl
@[simp] theorem State.setHart_inp (s : State) (x : Hart) : (s.setHart x).inp = s.inp := rfl
@[simp] theorem State.setHart_turns (s : State) (x : Hart) : (s.setHart x).turns = s.turns := rfl
@[simp] theorem State.setHart_fresh (s : State) (x : Hart) : (s.setHart x).fresh = s.fresh := rfl

@[simp] theorem State.setStrand_priv (s : State) (x : Strand) : (s.setStrand x).priv = s.priv := rfl
@[simp] theorem State.setStrand_hart (s : State) (x : Strand) : (s.setStrand x).hart = s.hart := rfl
@[simp] theorem State.setStrand_strand (s : State) (x : Strand) : (s.setStrand x).strand = x := rfl
@[simp] theorem State.setStrand_flot (s : State) (x : Strand) : (s.setStrand x).flot = s.flot := rfl
@[simp] theorem State.setStrand_core (s : State) (x : Strand) : (s.setStrand x).core = s.core := rfl
@[simp] theorem State.setStrand_bcore (s : State) (x : Strand) : (s.setStrand x).bcore = s.bcore := rfl
@[simp] theorem State.setStrand_ms (s : State) (x : Strand) : (s.setStrand x).ms = s.ms := rfl
@[simp] theorem State.setStrand_pop (s : State) (x : Strand) : (s.setStrand x).pop = s.pop := rfl
@[simp] theorem State.setStrand_pilot (s : State) (x : Strand) : (s.setStrand x).pilot = s.pilot := rfl
@[simp] theorem State.setStrand_berths (s : State) (x : Strand) : (s.setStrand x).berths = s.berths := rfl
@[simp] theorem State.setStrand_fabric (s : State) (x : Strand) : (s.setStrand x).fabric = s.fabric := rfl
@[simp] theorem State.setStrand_iod (s : State) (x : Strand) : (s.setStrand x).iod = s.iod := rfl
@[simp] theorem State.setStrand_mgmt (s : State) (x : Strand) : (s.setStrand x).mgmt = s.mgmt := rfl
@[simp] theorem State.setStrand_inp (s : State) (x : Strand) : (s.setStrand x).inp = s.inp := rfl
@[simp] theorem State.setStrand_turns (s : State) (x : Strand) : (s.setStrand x).turns = s.turns := rfl
@[simp] theorem State.setStrand_fresh (s : State) (x : Strand) : (s.setStrand x).fresh = s.fresh := rfl

@[simp] theorem State.setFlot_priv (s : State) (x : Flotilla) : (s.setFlot x).priv = s.priv := rfl
@[simp] theorem State.setFlot_hart (s : State) (x : Flotilla) : (s.setFlot x).hart = s.hart := rfl
@[simp] theorem State.setFlot_strand (s : State) (x : Flotilla) : (s.setFlot x).strand = s.strand := rfl
@[simp] theorem State.setFlot_flot (s : State) (x : Flotilla) : (s.setFlot x).flot = x := rfl
@[simp] theorem State.setFlot_core (s : State) (x : Flotilla) : (s.setFlot x).core = s.core := rfl
@[simp] theorem State.setFlot_bcore (s : State) (x : Flotilla) : (s.setFlot x).bcore = s.bcore := rfl
@[simp] theorem State.setFlot_ms (s : State) (x : Flotilla) : (s.setFlot x).ms = s.ms := rfl
@[simp] theorem State.setFlot_pop (s : State) (x : Flotilla) : (s.setFlot x).pop = s.pop := rfl
@[simp] theorem State.setFlot_pilot (s : State) (x : Flotilla) : (s.setFlot x).pilot = s.pilot := rfl
@[simp] theorem State.setFlot_berths (s : State) (x : Flotilla) : (s.setFlot x).berths = s.berths := rfl
@[simp] theorem State.setFlot_fabric (s : State) (x : Flotilla) : (s.setFlot x).fabric = s.fabric := rfl
@[simp] theorem State.setFlot_iod (s : State) (x : Flotilla) : (s.setFlot x).iod = s.iod := rfl
@[simp] theorem State.setFlot_mgmt (s : State) (x : Flotilla) : (s.setFlot x).mgmt = s.mgmt := rfl
@[simp] theorem State.setFlot_inp (s : State) (x : Flotilla) : (s.setFlot x).inp = s.inp := rfl
@[simp] theorem State.setFlot_turns (s : State) (x : Flotilla) : (s.setFlot x).turns = s.turns := rfl
@[simp] theorem State.setFlot_fresh (s : State) (x : Flotilla) : (s.setFlot x).fresh = s.fresh := rfl

@[simp] theorem State.setCore_priv (s : State) (x : Core) : (s.setCore x).priv = s.priv := rfl
@[simp] theorem State.setCore_hart (s : State) (x : Core) : (s.setCore x).hart = s.hart := rfl
@[simp] theorem State.setCore_strand (s : State) (x : Core) : (s.setCore x).strand = s.strand := rfl
@[simp] theorem State.setCore_flot (s : State) (x : Core) : (s.setCore x).flot = s.flot := rfl
@[simp] theorem State.setCore_core (s : State) (x : Core) : (s.setCore x).core = x := rfl
@[simp] theorem State.setCore_bcore (s : State) (x : Core) : (s.setCore x).bcore = s.bcore := rfl
@[simp] theorem State.setCore_ms (s : State) (x : Core) : (s.setCore x).ms = s.ms := rfl
@[simp] theorem State.setCore_pop (s : State) (x : Core) : (s.setCore x).pop = s.pop := rfl
@[simp] theorem State.setCore_pilot (s : State) (x : Core) : (s.setCore x).pilot = s.pilot := rfl
@[simp] theorem State.setCore_berths (s : State) (x : Core) : (s.setCore x).berths = s.berths := rfl
@[simp] theorem State.setCore_fabric (s : State) (x : Core) : (s.setCore x).fabric = s.fabric := rfl
@[simp] theorem State.setCore_iod (s : State) (x : Core) : (s.setCore x).iod = s.iod := rfl
@[simp] theorem State.setCore_mgmt (s : State) (x : Core) : (s.setCore x).mgmt = s.mgmt := rfl
@[simp] theorem State.setCore_inp (s : State) (x : Core) : (s.setCore x).inp = s.inp := rfl
@[simp] theorem State.setCore_turns (s : State) (x : Core) : (s.setCore x).turns = s.turns := rfl
@[simp] theorem State.setCore_fresh (s : State) (x : Core) : (s.setCore x).fresh = s.fresh := rfl

@[simp] theorem State.setBcore_priv (s : State) (x : BCore) : (s.setBcore x).priv = s.priv := rfl
@[simp] theorem State.setBcore_hart (s : State) (x : BCore) : (s.setBcore x).hart = s.hart := rfl
@[simp] theorem State.setBcore_strand (s : State) (x : BCore) : (s.setBcore x).strand = s.strand := rfl
@[simp] theorem State.setBcore_flot (s : State) (x : BCore) : (s.setBcore x).flot = s.flot := rfl
@[simp] theorem State.setBcore_core (s : State) (x : BCore) : (s.setBcore x).core = s.core := rfl
@[simp] theorem State.setBcore_bcore (s : State) (x : BCore) : (s.setBcore x).bcore = x := rfl
@[simp] theorem State.setBcore_ms (s : State) (x : BCore) : (s.setBcore x).ms = s.ms := rfl
@[simp] theorem State.setBcore_pop (s : State) (x : BCore) : (s.setBcore x).pop = s.pop := rfl
@[simp] theorem State.setBcore_pilot (s : State) (x : BCore) : (s.setBcore x).pilot = s.pilot := rfl
@[simp] theorem State.setBcore_berths (s : State) (x : BCore) : (s.setBcore x).berths = s.berths := rfl
@[simp] theorem State.setBcore_fabric (s : State) (x : BCore) : (s.setBcore x).fabric = s.fabric := rfl
@[simp] theorem State.setBcore_iod (s : State) (x : BCore) : (s.setBcore x).iod = s.iod := rfl
@[simp] theorem State.setBcore_mgmt (s : State) (x : BCore) : (s.setBcore x).mgmt = s.mgmt := rfl
@[simp] theorem State.setBcore_inp (s : State) (x : BCore) : (s.setBcore x).inp = s.inp := rfl
@[simp] theorem State.setBcore_turns (s : State) (x : BCore) : (s.setBcore x).turns = s.turns := rfl
@[simp] theorem State.setBcore_fresh (s : State) (x : BCore) : (s.setBcore x).fresh = s.fresh := rfl

@[simp] theorem State.setMs_priv (s : State) (x : MemSys) : (s.setMs x).priv = s.priv := rfl
@[simp] theorem State.setMs_hart (s : State) (x : MemSys) : (s.setMs x).hart = s.hart := rfl
@[simp] theorem State.setMs_strand (s : State) (x : MemSys) : (s.setMs x).strand = s.strand := rfl
@[simp] theorem State.setMs_flot (s : State) (x : MemSys) : (s.setMs x).flot = s.flot := rfl
@[simp] theorem State.setMs_core (s : State) (x : MemSys) : (s.setMs x).core = s.core := rfl
@[simp] theorem State.setMs_bcore (s : State) (x : MemSys) : (s.setMs x).bcore = s.bcore := rfl
@[simp] theorem State.setMs_ms (s : State) (x : MemSys) : (s.setMs x).ms = x := rfl
@[simp] theorem State.setMs_pop (s : State) (x : MemSys) : (s.setMs x).pop = s.pop := rfl
@[simp] theorem State.setMs_pilot (s : State) (x : MemSys) : (s.setMs x).pilot = s.pilot := rfl
@[simp] theorem State.setMs_berths (s : State) (x : MemSys) : (s.setMs x).berths = s.berths := rfl
@[simp] theorem State.setMs_fabric (s : State) (x : MemSys) : (s.setMs x).fabric = s.fabric := rfl
@[simp] theorem State.setMs_iod (s : State) (x : MemSys) : (s.setMs x).iod = s.iod := rfl
@[simp] theorem State.setMs_mgmt (s : State) (x : MemSys) : (s.setMs x).mgmt = s.mgmt := rfl
@[simp] theorem State.setMs_inp (s : State) (x : MemSys) : (s.setMs x).inp = s.inp := rfl
@[simp] theorem State.setMs_turns (s : State) (x : MemSys) : (s.setMs x).turns = s.turns := rfl
@[simp] theorem State.setMs_fresh (s : State) (x : MemSys) : (s.setMs x).fresh = s.fresh := rfl

@[simp] theorem State.setPop_priv (s : State) (x : Pop) : (s.setPop x).priv = s.priv := rfl
@[simp] theorem State.setPop_hart (s : State) (x : Pop) : (s.setPop x).hart = s.hart := rfl
@[simp] theorem State.setPop_strand (s : State) (x : Pop) : (s.setPop x).strand = s.strand := rfl
@[simp] theorem State.setPop_flot (s : State) (x : Pop) : (s.setPop x).flot = s.flot := rfl
@[simp] theorem State.setPop_core (s : State) (x : Pop) : (s.setPop x).core = s.core := rfl
@[simp] theorem State.setPop_bcore (s : State) (x : Pop) : (s.setPop x).bcore = s.bcore := rfl
@[simp] theorem State.setPop_ms (s : State) (x : Pop) : (s.setPop x).ms = s.ms := rfl
@[simp] theorem State.setPop_pop (s : State) (x : Pop) : (s.setPop x).pop = x := rfl
@[simp] theorem State.setPop_pilot (s : State) (x : Pop) : (s.setPop x).pilot = s.pilot := rfl
@[simp] theorem State.setPop_berths (s : State) (x : Pop) : (s.setPop x).berths = s.berths := rfl
@[simp] theorem State.setPop_fabric (s : State) (x : Pop) : (s.setPop x).fabric = s.fabric := rfl
@[simp] theorem State.setPop_iod (s : State) (x : Pop) : (s.setPop x).iod = s.iod := rfl
@[simp] theorem State.setPop_mgmt (s : State) (x : Pop) : (s.setPop x).mgmt = s.mgmt := rfl
@[simp] theorem State.setPop_inp (s : State) (x : Pop) : (s.setPop x).inp = s.inp := rfl
@[simp] theorem State.setPop_turns (s : State) (x : Pop) : (s.setPop x).turns = s.turns := rfl
@[simp] theorem State.setPop_fresh (s : State) (x : Pop) : (s.setPop x).fresh = s.fresh := rfl

@[simp] theorem State.setPilot_priv (s : State) (x : Pilot) : (s.setPilot x).priv = s.priv := rfl
@[simp] theorem State.setPilot_hart (s : State) (x : Pilot) : (s.setPilot x).hart = s.hart := rfl
@[simp] theorem State.setPilot_strand (s : State) (x : Pilot) : (s.setPilot x).strand = s.strand := rfl
@[simp] theorem State.setPilot_flot (s : State) (x : Pilot) : (s.setPilot x).flot = s.flot := rfl
@[simp] theorem State.setPilot_core (s : State) (x : Pilot) : (s.setPilot x).core = s.core := rfl
@[simp] theorem State.setPilot_bcore (s : State) (x : Pilot) : (s.setPilot x).bcore = s.bcore := rfl
@[simp] theorem State.setPilot_ms (s : State) (x : Pilot) : (s.setPilot x).ms = s.ms := rfl
@[simp] theorem State.setPilot_pop (s : State) (x : Pilot) : (s.setPilot x).pop = s.pop := rfl
@[simp] theorem State.setPilot_pilot (s : State) (x : Pilot) : (s.setPilot x).pilot = x := rfl
@[simp] theorem State.setPilot_berths (s : State) (x : Pilot) : (s.setPilot x).berths = s.berths := rfl
@[simp] theorem State.setPilot_fabric (s : State) (x : Pilot) : (s.setPilot x).fabric = s.fabric := rfl
@[simp] theorem State.setPilot_iod (s : State) (x : Pilot) : (s.setPilot x).iod = s.iod := rfl
@[simp] theorem State.setPilot_mgmt (s : State) (x : Pilot) : (s.setPilot x).mgmt = s.mgmt := rfl
@[simp] theorem State.setPilot_inp (s : State) (x : Pilot) : (s.setPilot x).inp = s.inp := rfl
@[simp] theorem State.setPilot_turns (s : State) (x : Pilot) : (s.setPilot x).turns = s.turns := rfl
@[simp] theorem State.setPilot_fresh (s : State) (x : Pilot) : (s.setPilot x).fresh = s.fresh := rfl

@[simp] theorem State.setBerths_priv (s : State) (x : Vector Berth 16) : (s.setBerths x).priv = s.priv := rfl
@[simp] theorem State.setBerths_hart (s : State) (x : Vector Berth 16) : (s.setBerths x).hart = s.hart := rfl
@[simp] theorem State.setBerths_strand (s : State) (x : Vector Berth 16) : (s.setBerths x).strand = s.strand := rfl
@[simp] theorem State.setBerths_flot (s : State) (x : Vector Berth 16) : (s.setBerths x).flot = s.flot := rfl
@[simp] theorem State.setBerths_core (s : State) (x : Vector Berth 16) : (s.setBerths x).core = s.core := rfl
@[simp] theorem State.setBerths_bcore (s : State) (x : Vector Berth 16) : (s.setBerths x).bcore = s.bcore := rfl
@[simp] theorem State.setBerths_ms (s : State) (x : Vector Berth 16) : (s.setBerths x).ms = s.ms := rfl
@[simp] theorem State.setBerths_pop (s : State) (x : Vector Berth 16) : (s.setBerths x).pop = s.pop := rfl
@[simp] theorem State.setBerths_pilot (s : State) (x : Vector Berth 16) : (s.setBerths x).pilot = s.pilot := rfl
@[simp] theorem State.setBerths_berths (s : State) (x : Vector Berth 16) : (s.setBerths x).berths = x := rfl
@[simp] theorem State.setBerths_fabric (s : State) (x : Vector Berth 16) : (s.setBerths x).fabric = s.fabric := rfl
@[simp] theorem State.setBerths_iod (s : State) (x : Vector Berth 16) : (s.setBerths x).iod = s.iod := rfl
@[simp] theorem State.setBerths_mgmt (s : State) (x : Vector Berth 16) : (s.setBerths x).mgmt = s.mgmt := rfl
@[simp] theorem State.setBerths_inp (s : State) (x : Vector Berth 16) : (s.setBerths x).inp = s.inp := rfl
@[simp] theorem State.setBerths_turns (s : State) (x : Vector Berth 16) : (s.setBerths x).turns = s.turns := rfl
@[simp] theorem State.setBerths_fresh (s : State) (x : Vector Berth 16) : (s.setBerths x).fresh = s.fresh := rfl

@[simp] theorem State.setFabric_priv (s : State) (x : Fabric) : (s.setFabric x).priv = s.priv := rfl
@[simp] theorem State.setFabric_hart (s : State) (x : Fabric) : (s.setFabric x).hart = s.hart := rfl
@[simp] theorem State.setFabric_strand (s : State) (x : Fabric) : (s.setFabric x).strand = s.strand := rfl
@[simp] theorem State.setFabric_flot (s : State) (x : Fabric) : (s.setFabric x).flot = s.flot := rfl
@[simp] theorem State.setFabric_core (s : State) (x : Fabric) : (s.setFabric x).core = s.core := rfl
@[simp] theorem State.setFabric_bcore (s : State) (x : Fabric) : (s.setFabric x).bcore = s.bcore := rfl
@[simp] theorem State.setFabric_ms (s : State) (x : Fabric) : (s.setFabric x).ms = s.ms := rfl
@[simp] theorem State.setFabric_pop (s : State) (x : Fabric) : (s.setFabric x).pop = s.pop := rfl
@[simp] theorem State.setFabric_pilot (s : State) (x : Fabric) : (s.setFabric x).pilot = s.pilot := rfl
@[simp] theorem State.setFabric_berths (s : State) (x : Fabric) : (s.setFabric x).berths = s.berths := rfl
@[simp] theorem State.setFabric_fabric (s : State) (x : Fabric) : (s.setFabric x).fabric = x := rfl
@[simp] theorem State.setFabric_iod (s : State) (x : Fabric) : (s.setFabric x).iod = s.iod := rfl
@[simp] theorem State.setFabric_mgmt (s : State) (x : Fabric) : (s.setFabric x).mgmt = s.mgmt := rfl
@[simp] theorem State.setFabric_inp (s : State) (x : Fabric) : (s.setFabric x).inp = s.inp := rfl
@[simp] theorem State.setFabric_turns (s : State) (x : Fabric) : (s.setFabric x).turns = s.turns := rfl
@[simp] theorem State.setFabric_fresh (s : State) (x : Fabric) : (s.setFabric x).fresh = s.fresh := rfl

@[simp] theorem State.setIod_priv (s : State) (x : Iod) : (s.setIod x).priv = s.priv := rfl
@[simp] theorem State.setIod_hart (s : State) (x : Iod) : (s.setIod x).hart = s.hart := rfl
@[simp] theorem State.setIod_strand (s : State) (x : Iod) : (s.setIod x).strand = s.strand := rfl
@[simp] theorem State.setIod_flot (s : State) (x : Iod) : (s.setIod x).flot = s.flot := rfl
@[simp] theorem State.setIod_core (s : State) (x : Iod) : (s.setIod x).core = s.core := rfl
@[simp] theorem State.setIod_bcore (s : State) (x : Iod) : (s.setIod x).bcore = s.bcore := rfl
@[simp] theorem State.setIod_ms (s : State) (x : Iod) : (s.setIod x).ms = s.ms := rfl
@[simp] theorem State.setIod_pop (s : State) (x : Iod) : (s.setIod x).pop = s.pop := rfl
@[simp] theorem State.setIod_pilot (s : State) (x : Iod) : (s.setIod x).pilot = s.pilot := rfl
@[simp] theorem State.setIod_berths (s : State) (x : Iod) : (s.setIod x).berths = s.berths := rfl
@[simp] theorem State.setIod_fabric (s : State) (x : Iod) : (s.setIod x).fabric = s.fabric := rfl
@[simp] theorem State.setIod_iod (s : State) (x : Iod) : (s.setIod x).iod = x := rfl
@[simp] theorem State.setIod_mgmt (s : State) (x : Iod) : (s.setIod x).mgmt = s.mgmt := rfl
@[simp] theorem State.setIod_inp (s : State) (x : Iod) : (s.setIod x).inp = s.inp := rfl
@[simp] theorem State.setIod_turns (s : State) (x : Iod) : (s.setIod x).turns = s.turns := rfl
@[simp] theorem State.setIod_fresh (s : State) (x : Iod) : (s.setIod x).fresh = s.fresh := rfl

@[simp] theorem State.setMgmt_priv (s : State) (x : Mgmt) : (s.setMgmt x).priv = s.priv := rfl
@[simp] theorem State.setMgmt_hart (s : State) (x : Mgmt) : (s.setMgmt x).hart = s.hart := rfl
@[simp] theorem State.setMgmt_strand (s : State) (x : Mgmt) : (s.setMgmt x).strand = s.strand := rfl
@[simp] theorem State.setMgmt_flot (s : State) (x : Mgmt) : (s.setMgmt x).flot = s.flot := rfl
@[simp] theorem State.setMgmt_core (s : State) (x : Mgmt) : (s.setMgmt x).core = s.core := rfl
@[simp] theorem State.setMgmt_bcore (s : State) (x : Mgmt) : (s.setMgmt x).bcore = s.bcore := rfl
@[simp] theorem State.setMgmt_ms (s : State) (x : Mgmt) : (s.setMgmt x).ms = s.ms := rfl
@[simp] theorem State.setMgmt_pop (s : State) (x : Mgmt) : (s.setMgmt x).pop = s.pop := rfl
@[simp] theorem State.setMgmt_pilot (s : State) (x : Mgmt) : (s.setMgmt x).pilot = s.pilot := rfl
@[simp] theorem State.setMgmt_berths (s : State) (x : Mgmt) : (s.setMgmt x).berths = s.berths := rfl
@[simp] theorem State.setMgmt_fabric (s : State) (x : Mgmt) : (s.setMgmt x).fabric = s.fabric := rfl
@[simp] theorem State.setMgmt_iod (s : State) (x : Mgmt) : (s.setMgmt x).iod = s.iod := rfl
@[simp] theorem State.setMgmt_mgmt (s : State) (x : Mgmt) : (s.setMgmt x).mgmt = x := rfl
@[simp] theorem State.setMgmt_inp (s : State) (x : Mgmt) : (s.setMgmt x).inp = s.inp := rfl
@[simp] theorem State.setMgmt_turns (s : State) (x : Mgmt) : (s.setMgmt x).turns = s.turns := rfl
@[simp] theorem State.setMgmt_fresh (s : State) (x : Mgmt) : (s.setMgmt x).fresh = s.fresh := rfl

@[simp] theorem State.setFresh_priv (s : State) (x : Nat) : (s.setFresh x).priv = s.priv := rfl
@[simp] theorem State.setFresh_hart (s : State) (x : Nat) : (s.setFresh x).hart = s.hart := rfl
@[simp] theorem State.setFresh_strand (s : State) (x : Nat) : (s.setFresh x).strand = s.strand := rfl
@[simp] theorem State.setFresh_flot (s : State) (x : Nat) : (s.setFresh x).flot = s.flot := rfl
@[simp] theorem State.setFresh_core (s : State) (x : Nat) : (s.setFresh x).core = s.core := rfl
@[simp] theorem State.setFresh_bcore (s : State) (x : Nat) : (s.setFresh x).bcore = s.bcore := rfl
@[simp] theorem State.setFresh_ms (s : State) (x : Nat) : (s.setFresh x).ms = s.ms := rfl
@[simp] theorem State.setFresh_pop (s : State) (x : Nat) : (s.setFresh x).pop = s.pop := rfl
@[simp] theorem State.setFresh_pilot (s : State) (x : Nat) : (s.setFresh x).pilot = s.pilot := rfl
@[simp] theorem State.setFresh_berths (s : State) (x : Nat) : (s.setFresh x).berths = s.berths := rfl
@[simp] theorem State.setFresh_fabric (s : State) (x : Nat) : (s.setFresh x).fabric = s.fabric := rfl
@[simp] theorem State.setFresh_iod (s : State) (x : Nat) : (s.setFresh x).iod = s.iod := rfl
@[simp] theorem State.setFresh_mgmt (s : State) (x : Nat) : (s.setFresh x).mgmt = s.mgmt := rfl
@[simp] theorem State.setFresh_inp (s : State) (x : Nat) : (s.setFresh x).inp = s.inp := rfl
@[simp] theorem State.setFresh_turns (s : State) (x : Nat) : (s.setFresh x).turns = s.turns := rfl
@[simp] theorem State.setFresh_fresh (s : State) (x : Nat) : (s.setFresh x).fresh = x := rfl

end Sys2Proof.Machine
end

