-- ==== Sys2Proof/Laws/Memory.lean ====
section
/-!
SUPPORT. The laws of memory: reading after writing, the frame of a write, and that every operation keeps the canonical
form.
-/
namespace Sys2Proof.Machine

/-! One byte. -/

/-- The canonical form above an address holds above every lower one. -/
theorem memWfFrom_mono {m : List Host.Cell} {lo lo' : Nat} (h : memWfFrom lo' m = true) (hl : lo ≤ lo') :
    memWfFrom lo m = true := by
  cases m with
  | nil => rfl
  | cons c t =>
    obtain ⟨k, v⟩ := c
    simp only [memWfFrom, Bool.and_eq_true, decide_eq_true_eq] at h ⊢
    exact ⟨⟨Nat.le_trans hl h.1.1, h.1.2⟩, h.2⟩

/-- An address below all listed ones reads as the default. -/
theorem memGet_below {m : List Host.Cell} {lo a : Nat} (h : memWfFrom lo m = true) (ha : a < lo) :
    memGet m a = unlisted := by
  induction m generalizing lo with
  | nil => rfl
  | cons c t ih =>
    obtain ⟨k, v⟩ := c
    simp only [memWfFrom, Bool.and_eq_true, decide_eq_true_eq] at h
    have hk : k ≠ a := by omega
    simp only [memGet, hk, if_false]
    exact ih h.2 (by omega)

/-- A byte written elsewhere leaves a byte. -/
theorem memGet_memSet_other (m : List Host.Cell) {a x : Nat} (b : Byte) (h : x ≠ a) :
    memGet (memSet m a b) x = memGet m x := by
  have h' : a ≠ x := fun e => h e.symm
  induction m with
  | nil => by_cases hb : b = unlisted <;> simp [memSet, memGet, hb, h']
  | cons c t ih =>
    obtain ⟨k, v⟩ := c
    by_cases hk : a = k
    · subst hk
      by_cases hb : b = unlisted <;> simp [memSet, memGet, hb, h']
    · by_cases hl : a < k
      · by_cases hb : b = unlisted <;> simp [memSet, memGet, hk, hl, hb, h']
      · simp only [memSet, hk, hl, if_false, memGet, ih]

/-- A byte written is the byte read, in a memory of canonical form. -/
theorem memGet_memSet_same {m : List Host.Cell} (a : Nat) (b : Byte) (h : Memory.wf m = true) :
    memGet (memSet m a b) a = b := by
  have aux : ∀ (m : List Host.Cell) (lo : Nat), memWfFrom lo m = true → memGet (memSet m a b) a = b := by
    intro m
    induction m with
    | nil =>
      intro lo _
      by_cases hb : b = unlisted <;> simp [memSet, memGet, hb]
    | cons c t ih =>
      intro lo hw
      obtain ⟨k, v⟩ := c
      simp only [memWfFrom, Bool.and_eq_true, decide_eq_true_eq] at hw
      by_cases hk : a = k
      · subst hk
        by_cases hb : b = unlisted
        · subst hb
          simp only [memSet, if_true]
          exact memGet_below hw.2 (by omega)
        · simp [memSet, memGet, hb]
      · by_cases hl : a < k
        · by_cases hb : b = unlisted
          · subst hb
            have hk' : k ≠ a := fun e => hk e.symm
            simp only [memSet, hk, hl, if_false, if_true, memGet, hk']
            exact memGet_below hw.2 (by omega)
          · simp [memSet, memGet, hk, hl, hb]
        · have hk' : k ≠ a := fun e => hk e.symm
          simp only [memSet, hk, hl, if_false, memGet, hk']
          exact ih _ hw.2
  exact aux m 0 h

/-- Writing a byte keeps the canonical form above an address. -/
theorem memWfFrom_memSet {m : List Host.Cell} {lo a : Nat} (b : Byte) (h : memWfFrom lo m = true) (ha : lo ≤ a) :
    memWfFrom lo (memSet m a b) = true := by
  induction m generalizing lo with
  | nil => by_cases hb : b = unlisted <;> simp [memSet, memWfFrom, hb, ha]
  | cons c t ih =>
    obtain ⟨k, v⟩ := c
    have hw := h
    simp only [memWfFrom, Bool.and_eq_true, decide_eq_true_eq] at hw
    by_cases hk : a = k
    · subst hk
      by_cases hb : b = unlisted
      · simp only [memSet, hb, if_true]
        exact memWfFrom_mono hw.2 (by omega)
      · simp only [memSet, if_true, hb, if_false, memWfFrom, Bool.and_eq_true, decide_eq_true_eq]
        exact ⟨⟨ha, hb⟩, hw.2⟩
    · by_cases hl : a < k
      · by_cases hb : b = unlisted
        · simpa only [memSet, hk, hl, hb, if_false, if_true] using h
        · simp only [memSet, hk, hl, hb, if_false, if_true, memWfFrom, Bool.and_eq_true, decide_eq_true_eq]
          exact ⟨⟨ha, hb⟩, ⟨by omega, hw.1.2⟩, hw.2⟩
      · simp only [memSet, hk, hl, if_false, memWfFrom, Bool.and_eq_true, decide_eq_true_eq]
        exact ⟨hw.1, ih hw.2 (by omega)⟩

/-- Writing a byte keeps the canonical form. -/
theorem wf_memSet {m : List Host.Cell} (a : Nat) (b : Byte) (h : Memory.wf m = true) : Memory.wf (memSet m a b) = true :=
  memWfFrom_memSet b h (Nat.zero_le a)

/-- Writing consecutive bytes keeps the canonical form. -/
theorem wf_memWrite {m : List Host.Cell} (a : Nat) (bs : List Byte) (h : Memory.wf m = true) :
    Memory.wf (memWrite m a bs) = true := by
  induction bs generalizing m a with
  | nil => exact h
  | cons b t ih => exact ih (a + 1) (wf_memSet a b h)

/-- Dropping bytes keeps the canonical form. -/
theorem wf_filter {m : List Host.Cell} (p : Host.Cell → Bool) (h : Memory.wf m = true) :
    Memory.wf (m.filter p) = true := by
  have aux : ∀ (m : List Host.Cell) (lo : Nat), memWfFrom lo m = true → memWfFrom lo (m.filter p) = true := by
    intro m
    induction m with
    | nil => intro lo _; rfl
    | cons c t ih =>
      intro lo hw
      obtain ⟨k, v⟩ := c
      have hw' := hw
      simp only [memWfFrom, Bool.and_eq_true, decide_eq_true_eq] at hw'
      by_cases hp : p (k, v) = true
      · rw [List.filter_cons_of_pos hp]
        simp only [memWfFrom, Bool.and_eq_true, decide_eq_true_eq]
        exact ⟨hw'.1, ih _ hw'.2⟩
      · rw [List.filter_cons_of_neg hp]
        exact memWfFrom_mono (ih _ hw'.2) (by omega)
  exact aux m 0 h

/-- Bytes written one after another keep the canonical form. -/
theorem wf_foldl_memSet {α : Type} (f : α → Nat) (g : α → Byte) (l : List α) {m : List Host.Cell}
    (h : Memory.wf m = true) : Memory.wf (l.foldl (fun d x => memSet d (f x) (g x)) m) = true := by
  induction l generalizing m with
  | nil => exact h
  | cons x t ih => exact ih (wf_memSet _ _ h)

/-! Located bytes. -/

/-- The memories that the focused agent reaches are in canonical form. -/
structure State.MemWf (s : State) : Prop where
  dram : Memory.wf s.ms.dram = true
  cxl  : Memory.wf s.ms.cxl = true
  pcie : Memory.wf s.ms.pcie = true
  pool : Memory.wf s.core.pool = true

/-- Writing a located byte keeps the canonical forms. -/
theorem State.MemWf.putByte {s : State} (h : s.MemWf) (l : Loc) (b : Byte) : (s.putByte l b).MemWf := by
  obtain ⟨sp, a⟩ := l
  cases sp
  case pcie =>
    by_cases hd : s.ms.dropped.contains (a / 128) = true
    · simpa only [State.putByte, hd, if_true] using h
    · rw [Bool.not_eq_true] at hd
      simp only [State.putByte, hd]
      exact ⟨h.dram, h.cxl, wf_memSet _ _ h.pcie, h.pool⟩
  all_goals
    exact ⟨by first | exact wf_memSet _ _ h.dram | exact h.dram, by first | exact wf_memSet _ _ h.cxl | exact h.cxl,
      h.pcie, by first | exact wf_memSet _ _ h.pool | exact h.pool⟩

/-- Writing located bytes keeps the canonical forms. -/
theorem State.MemWf.putBytes {s : State} (h : s.MemWf) (ws : List (Loc × Byte)) : (s.putBytes ws).MemWf := by
  induction ws generalizing s with
  | nil => exact h
  | cons w t ih => exact ih (h.putByte w.1 w.2)

/-- What is not DRAM under another key is a place of its own. -/
theorem Loc.plain_plain (l : Loc) : l.plain.plain = l.plain := by
  obtain ⟨sp, a⟩ := l
  cases sp <;> rfl

/-- A byte as another key reads it is no place of memory. -/
theorem Loc.not_real_cipher (key a : Nat) : (Loc.mk (.cipher key) a).plain ≠ Loc.mk (.cipher key) a := by
  simp [Loc.plain]

/-- A located byte written is the byte read, unless the host refuses it. -/
theorem State.byte_putByte_same {s : State} (h : s.MemWf) {l : Loc} (hr : l.plain = l) (b : Byte)
    (hd : l.space = .pcie → s.ms.dropped.contains (l.addr / 128) = false) : (s.putByte l b).byte l = b := by
  obtain ⟨sp, a⟩ := l
  cases sp
  case cipher => exact absurd hr (Loc.not_real_cipher _ _)
  case pcie =>
    have hd := hd rfl
    simp only at hd
    simp only [State.putByte, hd]
    exact memGet_memSet_same a b h.pcie
  · exact memGet_memSet_same a b h.dram
  · exact memGet_memSet_same a b h.pool
  · exact memGet_memSet_same a b h.cxl

/-- A located byte written leaves every other one. -/
theorem State.byte_putByte_other (s : State) {l x : Loc} (b : Byte) (hx : x.plain = x) (h : x ≠ l.plain) :
    (s.putByte l b).byte x = s.byte x := by
  obtain ⟨sp, a⟩ := l
  obtain ⟨sp', a'⟩ := x
  by_cases hd : s.ms.dropped.contains (a / 128) = true
  all_goals
    cases sp <;> cases sp' <;> simp only [State.putByte, hd, if_true] <;>
      first
      | rfl
      | exact absurd hx (Loc.not_real_cipher _ _)
      | exact memGet_memSet_other _ b (fun e => h (congrArg (Loc.mk _) e))

/-- Written bytes leave every byte that is not among them. -/
theorem State.byte_putBytes_other (s : State) (ws : List (Loc × Byte)) {x : Loc} (hx : x.plain = x)
    (h : x ∉ ws.map (·.1.plain)) : (s.putBytes ws).byte x = s.byte x := by
  induction ws generalizing s with
  | nil => rfl
  | cons w t ih =>
    simp only [List.map_cons, List.mem_cons, not_or] at h
    rw [State.putBytes, ih _ h.2, State.byte_putByte_other _ _ hx h.1]

end Sys2Proof.Machine
end

