-- ==== Sys2Proof/Laws/Ops.lean ====
section
/-!
SUPPORT. The shared operations, each with what it can do: registers, retirement, a store, the issue of a scalar
instruction, loads and stores.
-/
namespace Sys2Proof.Machine

/-! Vectors read and written by index. -/

theorem buildFrom_getElem? {α : Type} (f : Nat → α) (n i k : Nat) :
    (buildFrom f n i)[k]? = if k < n then some (f (i + k)) else none := by
  induction n generalizing i k with
  | zero => simp [buildFrom]
  | succ n ih =>
    cases k with
    | zero => simp [buildFrom]
    | succ k =>
      simp only [buildFrom, List.getElem?_cons_succ, ih, Nat.succ_lt_succ_iff]
      rw [show i + 1 + k = i + (k + 1) by omega]

@[simp] theorem vget_mkVec {α : Type} (n : Nat) (f : Nat → α) (i : Nat) (d : α) :
    vget (mkVec n f) i d = if i < n then f i else d := by
  simp only [vget, mkVec, List.getD_eq_getElem?_getD, buildFrom_getElem?]
  split <;> simp

theorem vget_vset_same {α : Type} {n : Nat} (v : Vector α n) {i : Nat} (x d : α) (h : i < n) :
    vget (vset v i x) i d = x := by
  obtain ⟨⟨l⟩, hl⟩ := v
  simp at hl
  simp [vget, vset, hl, h]

theorem vget_vset_other {α : Type} {n : Nat} (v : Vector α n) {i k : Nat} (x d : α) (h : k ≠ i) :
    vget (vset v i x) k d = vget v k d := by
  obtain ⟨⟨l⟩, hl⟩ := v
  simp [vget, vset, h.symm]

/-! Registers of a hart. -/

@[simp] theorem Hart.get_zero (h : Hart) : h.get 0 = 0 := rfl
@[simp] theorem Hart.set_pc (h : Hart) (r : Nat) (x : Word) : (h.set r x).pc = h.pc := by unfold Hart.set; split <;> rfl
@[simp] theorem Hart.set_pfxs (h : Hart) (r : Nat) (x : Word) : (h.set r x).pfxs = h.pfxs := by unfold Hart.set; split <;> rfl
@[simp] theorem Hart.set_insn (h : Hart) (r : Nat) (x : Word) : (h.set r x).insn = h.insn := by unfold Hart.set; split <;> rfl
@[simp] theorem Hart.set_sfcs (h : Hart) (r : Nat) (x : Word) : (h.set r x).sfcs = h.sfcs := by unfold Hart.set; split <;> rfl
@[simp] theorem Hart.put_pc (h : Hart) (r : Nat) (x : Word) : (h.put r x).pc = h.pc := by unfold Hart.put; split <;> rfl
@[simp] theorem Hart.put_pfxs (h : Hart) (r : Nat) (x : Word) : (h.put r x).pfxs = h.pfxs := by unfold Hart.put; split <;> rfl
@[simp] theorem Hart.put_insn (h : Hart) (r : Nat) (x : Word) : (h.put r x).insn = h.insn := by unfold Hart.put; split <;> rfl
@[simp] theorem Hart.put_sfcs (h : Hart) (r : Nat) (x : Word) : (h.put r x).sfcs = h.sfcs := by unfold Hart.put; split <;> rfl
@[simp] theorem Hart.put_lastd (h : Hart) (r : Nat) (x : Word) : (h.put r x).lastd = h.lastd := by unfold Hart.put; split <;> rfl

theorem Hart.get_put (h : Hart) (r k : Nat) (x : Word) (hr : r < 64) :
    (h.put r x).get k = if k = r ∧ r ≠ 0 then x else h.get k := by
  by_cases h0 : r = 0
  · simp [Hart.put, h0]
  · by_cases hk : k = r
    · subst hk
      simp [Hart.put, Hart.get, h0, vget_vset_same _ _ _ hr]
    · by_cases hk0 : k = 0
      · subst hk0
        simp [Hart.get, hk]
      · simp [Hart.put, Hart.get, h0, hk, hk0, vget_vset_other _ _ _ hk]

theorem Hart.get_set (h : Hart) (r k : Nat) (x : Word) (hr : r < 64) :
    (h.set r x).get k = if k = r ∧ r ≠ 0 then x else h.get k := by
  have e : (h.set r x).get k = (h.put r x).get k := by
    unfold Hart.set Hart.put
    split <;> rfl
  rw [e, Hart.get_put h r k x hr]

/-- A register written reads as written; g0 reads as 0; every other register stays. -/
theorem State.g_wr (s : State) (d r : BitVec 6) (x : Word) :
    (s.wr d x).g r = if r = d ∧ d ≠ 0 then x else s.g r := by
  have h := Hart.get_set s.hart d.toNat r.toNat x d.isLt
  simp only [State.g, State.wr, State.setHart_hart, h]
  have h1 : (r.toNat = d.toNat) ↔ r = d := ⟨BitVec.eq_of_toNat_eq, fun e => by rw [e]⟩
  have h2 : (d.toNat ≠ 0) ↔ d ≠ 0 := by
    rw [Ne, Ne, BitVec.toNat_eq]
    rfl
  simp only [h1, h2]

/-! Retirement. -/

@[simp] theorem State.tick_hart (s : State) : s.tick.hart = s.hart := rfl
@[simp] theorem State.tick_strand (s : State) : s.tick.strand = s.strand := rfl
@[simp] theorem State.tick_ms (s : State) : s.tick.ms = s.ms := rfl

/-- What retirement does: the pc, PFXS, INSN, the wait, CYC and the use of free values; nothing else. -/
theorem State.retire_eq (s : State) (len : Word) :
    s.retire len = { s with
      hart := { s.hart with pc := s.hart.pc + len, pfxs := 0, insn := s.hart.insn + 1, wait := .running }
      core := { s.core with cyc := (s.retire len).core.cyc, ran := (s.retire len).core.ran }
      bcore := { s.bcore with cyc := (s.retire len).bcore.cyc, ran := (s.retire len).bcore.ran }
      fresh := s.fresh + 1 } := by
  cases hp : s.priv <;> simp [State.retire, State.pass, State.tick, State.setHart, State.setCore, State.setBcore, State.setFresh, hp]

/-- What a cycle without retirement does: CYC and the use of free values. -/
theorem State.idle_eq (s : State) :
    s.idle = { s with
      core := { s.core with cyc := s.idle.core.cyc, ran := s.idle.core.ran }
      bcore := { s.bcore with cyc := s.idle.bcore.cyc, ran := s.idle.bcore.ran }
      fresh := s.fresh + 1 } := by
  cases hp : s.priv <;> simp [State.idle, State.pass, State.tick, State.setCore, State.setBcore, State.setFresh, hp]

@[simp] theorem State.retire_hart (s : State) (len : Word) : (s.retire len).hart =
    { s.hart with pc := s.hart.pc + len, pfxs := 0, insn := s.hart.insn + 1, wait := .running } := by
  rw [State.retire_eq]
@[simp] theorem State.retire_strand (s : State) (len : Word) : (s.retire len).strand = s.strand := by rw [State.retire_eq]
@[simp] theorem State.retire_flot (s : State) (len : Word) : (s.retire len).flot = s.flot := by rw [State.retire_eq]
@[simp] theorem State.retire_priv (s : State) (len : Word) : (s.retire len).priv = s.priv := by rw [State.retire_eq]
@[simp] theorem State.retire_ms (s : State) (len : Word) : (s.retire len).ms = s.ms := by rw [State.retire_eq]
@[simp] theorem State.retire_pop (s : State) (len : Word) : (s.retire len).pop = s.pop := by rw [State.retire_eq]
@[simp] theorem State.retire_pilot (s : State) (len : Word) : (s.retire len).pilot = s.pilot := by rw [State.retire_eq]
@[simp] theorem State.retire_berths (s : State) (len : Word) : (s.retire len).berths = s.berths := by rw [State.retire_eq]
@[simp] theorem State.retire_fabric (s : State) (len : Word) : (s.retire len).fabric = s.fabric := by rw [State.retire_eq]
@[simp] theorem State.retire_iod (s : State) (len : Word) : (s.retire len).iod = s.iod := by rw [State.retire_eq]
@[simp] theorem State.retire_mgmt (s : State) (len : Word) : (s.retire len).mgmt = s.mgmt := by rw [State.retire_eq]
@[simp] theorem State.retire_inp (s : State) (len : Word) : (s.retire len).inp = s.inp := by rw [State.retire_eq]
@[simp] theorem State.retire_turns (s : State) (len : Word) : (s.retire len).turns = s.turns := by rw [State.retire_eq]
@[simp] theorem State.idle_hart (s : State) : s.idle.hart = s.hart := by rw [State.idle_eq]
@[simp] theorem State.idle_strand (s : State) : s.idle.strand = s.strand := by rw [State.idle_eq]
@[simp] theorem State.idle_flot (s : State) : s.idle.flot = s.flot := by rw [State.idle_eq]
@[simp] theorem State.idle_priv (s : State) : s.idle.priv = s.priv := by rw [State.idle_eq]
@[simp] theorem State.idle_ms (s : State) : s.idle.ms = s.ms := by rw [State.idle_eq]
@[simp] theorem State.idle_pop (s : State) : s.idle.pop = s.pop := by rw [State.idle_eq]
@[simp] theorem State.idle_pilot (s : State) : s.idle.pilot = s.pilot := by rw [State.idle_eq]
@[simp] theorem State.idle_berths (s : State) : s.idle.berths = s.berths := by rw [State.idle_eq]
@[simp] theorem State.idle_fabric (s : State) : s.idle.fabric = s.fabric := by rw [State.idle_eq]
@[simp] theorem State.idle_iod (s : State) : s.idle.iod = s.iod := by rw [State.idle_eq]
@[simp] theorem State.idle_mgmt (s : State) : s.idle.mgmt = s.mgmt := by rw [State.idle_eq]

/-! The issue of a scalar instruction. -/

/-- No loan is pending. -/
theorem loanOf_zero : loanOf 0#32 = .none := rfl

theorem scalarPairing_none {h : Hart} (hp : h.pfxs = 0) (l w : Bool) : scalarPairing h l w = .go none := by
  simp [scalarPairing, hp, loanOf_zero]

theorem condRegs_none {h : Hart} (hp : h.pfxs = 0) : condRegs h = [] := by
  simp [condRegs, hp, loanOf_zero]

theorem State.await_none {s : State} {rs : List (BitVec 6)} (h : s.pendingOn rs = none) (go : Out) : s.await rs go = go := by
  simp [State.await, h]

/-- A scalar instruction without a loan whose registers await no token: its effect. -/
theorem State.scalar_run {s : State} {regs : List (BitVec 6)} (hp : s.hart.pfxs = 0) (ht : s.pendingOn regs = none)
    (i : Instr) (len : Word) (l w : Bool) (body : Option (BitVec 6) → Out) : s.scalar i len l w regs body = body none := by
  simp [State.scalar, scalarPairing_none hp, condRegs_none hp, State.await_none ht]

theorem State.alone_run {s : State} {regs : List (BitVec 6)} (hp : s.hart.pfxs = 0) (ht : s.pendingOn regs = none)
    (i : Instr) (body : Out) : s.alone i regs body = body := by
  rw [State.alone, State.scalar_run hp ht]

theorem State.compact_run {s : State} {regs : List (BitVec 6)} (hs : s.priv = false) (hp : s.hart.pfxs = 0)
    (ht : s.pendingOn regs = none) (i : Instr) (body : Out) : s.compact i regs body = body := by
  rw [State.compact, hs, State.scalar_run hp ht]
  rfl

theorem State.alu_run {s : State} {d : BitVec 6} {regs : List (BitVec 6)} (hp : s.hart.pfxs = 0)
    (ht : s.pendingOn (d :: regs) = none) (i : Instr) (x : Word) :
    s.alu i d regs x = .next ((s.wr d x).retire 4) := by
  rw [State.alu, State.plain, State.scalar_run hp ht]
  rfl

theorem State.aluC_run {s : State} {d : BitVec 6} {regs : List (BitVec 6)} (hs : s.priv = false) (hp : s.hart.pfxs = 0)
    (ht : s.pendingOn (d :: regs) = none) (i : Instr) (x : Word) :
    s.aluC i d regs x = .next ((s.wr d x).retire 2) := by
  rw [State.aluC, State.compact_run hs hp ht]

/-- No agent but a strand has tokens: with none pending no register awaits one. -/
theorem State.pendingOn_none {s : State} (h : s.strand.tokens = []) (rs : List (BitVec 6)) : s.pendingOn rs = none := by
  simp [State.pendingOn, h]

end Sys2Proof.Machine
end

