-- ==== Sys2Proof/Laws/Frames.lean ====
section
/-!
SUPPORT. The shared operations in the terms of Safety: what a retirement, a scalar result, a load, a store and a trap do
and leave alone.
-/
namespace Sys2Proof.Machine

/-! Retirement and waiting. -/

theorem State.retire_moved (s : State) (len : Word) : s.retire len = s.moved (s.retire len) len := by
  conv => lhs; rw [State.retire_eq]
  rw [State.moved, State.retire_eq]

theorem State.idle_waited (s : State) : s.idle = s.waited s.idle := by
  conv => lhs; rw [State.idle_eq]
  rw [State.waited, State.idle_eq]

/-- A byte depends on the memories, the focused core's pool and the berths' key pairs alone. -/
theorem State.byte_congr {s t : State} (hm : t.ms = s.ms) (hc : t.core.pool = s.core.pool) (hb : t.berths = s.berths) (l : Loc) :
    t.byte l = s.byte l := by
  obtain ⟨sp, a⟩ := l
  have hk : ∀ k, t.keyPair k = s.keyPair k := fun k => by simp only [State.keyPair, State.berthAt, hb]
  cases sp <;> simp only [State.byte, hm, hc, hk]

/-- A byte of memory itself depends on the memories and the pool alone. -/
theorem State.byte_real {s t : State} (hm : t.ms = s.ms) (hc : t.core.pool = s.core.pool) {l : Loc} (hl : l.Real) :
    t.byte l = s.byte l := by
  obtain ⟨sp, a⟩ := l
  cases sp
  case cipher => exact absurd hl (Loc.not_real_cipher _ _)
  all_goals simp [State.byte, hm, hc]

theorem SameMemory.refl (s : State) : SameMemory s s := ⟨fun _ _ => rfl, fun _ _ h => h⟩

theorem SameMemory.trans {s t u : State} (h : SameMemory s t) (k : SameMemory t u) : SameMemory s u :=
  ⟨fun l hl => (k.1 l hl).trans (h.1 l hl), fun n x e => k.2 n x (h.2 n x e)⟩

/-- A step that leaves the memories and the pool. -/
theorem sameMemory_of_ms {s t : State} (hm : t.ms = s.ms) (hc : t.core.pool = s.core.pool) : SameMemory s t :=
  ⟨fun _ hl => State.byte_real hm hc hl, fun n x e => by rw [hm]; exact e⟩

theorem State.byte_moved (s t : State) (len : Word) (l : Loc) : (s.moved t len).byte l = s.byte l := by
  exact State.byte_congr rfl rfl rfl l

theorem State.byte_waited (s t : State) (l : Loc) : (s.waited t).byte l = s.byte l :=
  State.byte_congr rfl rfl rfl l

theorem State.byte_retire (s : State) (len : Word) (l : Loc) : (s.retire len).byte l = s.byte l := by
  rw [State.retire_moved, State.byte_moved]

theorem State.byte_idle (s : State) (l : Loc) : s.idle.byte l = s.byte l := by
  rw [State.idle_waited, State.byte_waited]

theorem State.g_retire (s : State) (len : Word) (r : BitVec 6) : (s.retire len).g r = s.g r := by
  simp [State.g, Hart.get]

/-- A retirement alone. -/
theorem moved_retire (s : State) (len : Word) : Moved s (s.retire len) len :=
  ⟨s.retire_moved len, by rw [State.retire_eq]; exact sameMemory_of_ms rfl rfl⟩

/-- A step that does not retire. -/
theorem waited_idle (s : State) : Waited s s.idle := 
  ⟨s.idle_waited, by rw [State.idle_eq]; exact sameMemory_of_ms rfl rfl⟩

/-! Registers. -/

theorem Hart.set_eq (h : Hart) (d : BitVec 6) (x : Word) :
    h.set d.toNat x = { h with g := (h.set d.toNat x).g, lastd := if d = 0 then h.lastd else d } := by
  by_cases h0 : d = 0
  · subst h0; rfl
  · have e : d.toNat ≠ 0 := fun h => h0 (BitVec.eq_of_toNat_eq h)
    have h1 : ¬ d = 0#6 := h0
    simp [Hart.set, h1, e]

theorem State.wr_eq (s : State) (d : BitVec 6) (x : Word) : s.wr d x = s.withDest (s.wr d x) d := by
  unfold State.wr State.withDest
  simp only [State.setHart]
  rw [Hart.set_eq]

theorem State.byte_setHart (s : State) (h : Hart) (l : Loc) : (s.setHart h).byte l = s.byte l :=
  State.byte_congr rfl rfl rfl l

theorem State.byte_setStrand (s : State) (h : Strand) (l : Loc) : (s.setStrand h).byte l = s.byte l :=
  State.byte_congr rfl rfl rfl l

/-- A scalar result. -/
theorem wrote_retire (s : State) (d : BitVec 6) (x len : Word) : Wrote s ((s.wr d x).retire len) d x len := by
  refine ⟨?_, fun r => ?_, ?_⟩
  · have e : s.withDest ((s.wr d x).retire len) d = s.wr d x := by
      rw [State.wr_eq s d x]
      simp [State.withDest]
    rw [e]
    exact State.retire_moved _ _
  · rw [State.g_retire, State.g_wr]
  · rw [State.retire_eq]
    exact sameMemory_of_ms rfl rfl

/-- No register of a part of a list awaits a token when none of the list does. -/
theorem State.pendingOn_mono {s : State} {rs rs' : List (BitVec 6)} (h : s.pendingOn rs = none)
    (hs : ∀ r ∈ rs', r ∈ rs) : s.pendingOn rs' = none := by
  unfold State.pendingOn at *
  split
  · rfl
  · rename_i hp
    simp only [hp] at h
    simp only [Bool.false_eq_true, if_false, Option.map_eq_none_iff, List.find?_eq_none] at h ⊢
    intro t ht hc
    refine h t ht ?_
    simp only [ne_eq, decide_not, Bool.and_eq_true, Bool.not_eq_true', decide_eq_false_iff_not, List.contains_iff_mem] at hc ⊢
    exact ⟨hc.1, hs _ hc.2⟩

theorem State.Ready.mono {s : State} {rs rs' : List (BitVec 6)} (h : s.Ready rs) (hs : ∀ r ∈ rs', r ∈ rs) : s.Ready rs' :=
  ⟨h.1, State.pendingOn_mono h.2 hs⟩

/-- A scalar instruction with one result, ready to issue: its result is written and it retires. -/
theorem State.alu_wrote {s : State} {d : BitVec 6} {regs : List (BitVec 6)} (h : s.Ready (d :: regs)) (i : Instr) (x : Word) :
    ∃ t, s.alu i d regs x = .next t ∧ Wrote s t d x 4 :=
  ⟨_, State.alu_run h.1 h.2 i x, wrote_retire s d x 4⟩

/-- The same for a compact one. -/
theorem State.aluC_wrote {s : State} {d : BitVec 6} {regs : List (BitVec 6)} (h : s.StrandReady (d :: regs)) (i : Instr)
    (x : Word) : ∃ t, s.aluC i d regs x = .next t ∧ Wrote s t d x 2 :=
  ⟨_, State.aluC_run h.1 h.2.1 h.2.2 i x, wrote_retire s d x 2⟩

end Sys2Proof.Machine
end

