-- ==== Sys2Proof/Laws/PerInstr.lean ====
section
/-!
SUPPORT. Statements made per instruction. RoundTrip: the encoder's word of a well-formed instruction fits its size and
decodes to that instruction.
-/
set_option linter.unusedSimpArgs false
set_option Elab.async false

namespace Sys2Proof.Laws.RoundTrip

/-- The instruction that a word names: a Bridge core's rtn has the word of rtn (R379). -/
def named (i : Instr) : Instr :=
  match i with
  | .rtnBridge => .rtn
  | i => i

/-- The encoder gives the instruction a parcel or a word, of 16 or 32 bits, that decodes to it. -/
def Statement (i : Instr) : Prop :=
  i.encoded = true → i.wf = true →
    ∃ wide w, encode i = some (wide, w) ∧ w < (if wide then 2 ^ 32 else 2 ^ 16) ∧
      decode (w % 65536) (w / 65536) = .ok (named i)

/-- A field of a word by its value. -/
theorem fld_of {w lo len v : Nat} (h : w / 2 ^ lo % 2 ^ len = v % 2 ^ len) : fld w lo len = BitVec.ofNat len v := by
  apply BitVec.eq_of_toNat_eq
  rw [fld, BitVec.toNat_ofNat, BitVec.toNat_ofNat, h]

/-- A field of a word by its value, a bit vector. -/
theorem fld_eq {w lo len : Nat} {x : BitVec len} (h : w / 2 ^ lo % 2 ^ len = x.toNat) : fld w lo len = x := by
  apply BitVec.eq_of_toNat_eq
  rw [fld, BitVec.toNat_ofNat, h]

/-- The conclusion from a 32-bit word. -/
theorem of_word {i : Instr} {w : Nat} (he : encode i = some (true, w)) (hl : w < 2 ^ 32) (hp : w % 2 = 1)
    (hd : decode32 w = .ok (named i)) :
    ∃ wide w, encode i = some (wide, w) ∧ w < (if wide then 2 ^ 32 else 2 ^ 16) ∧
      decode (w % 65536) (w / 65536) = .ok (named i) := by
  refine ⟨true, w, he, hl, ?_⟩
  have h : isWide (w % 65536) = true := by
    simp only [isWide, decide_eq_true_eq]
    omega
  rw [decode, h, ← hd]
  simp only [if_true]
  congr 1
  omega

/-- The conclusion from a parcel. -/
theorem of_parcel {i : Instr} {w : Nat} (he : encode i = some (false, w)) (hl : w < 2 ^ 16) (hp : w % 2 = 0)
    (hd : decode16 w = .ok (named i)) :
    ∃ wide w, encode i = some (wide, w) ∧ w < (if wide then 2 ^ 32 else 2 ^ 16) ∧
      decode (w % 65536) (w / 65536) = .ok (named i) := by
  refine ⟨false, w, he, hl, ?_⟩
  have h : isWide (w % 65536) = false := by
    simp only [isWide, decide_eq_false_iff_not]
    omega
  rw [decode, h, ← hd]
  have hw : w % 65536 = w := by omega
  simp only [Bool.false_eq_true, if_false, Nat.mod_mod, hw]

@[simp] theorem isV_ext (x : BitVec 5) : isV (x.setWidth 6) = true := by
  have := x.isLt
  simp only [isV, BitVec.toNat_setWidth, decide_eq_true_eq]
  omega

@[simp] theorem toV_ext (x : BitVec 5) : toV (x.setWidth 6) = x := by
  apply BitVec.eq_of_toNat_eq
  have := x.isLt
  simp only [toV, BitVec.toNat_ofNat, BitVec.toNat_setWidth]
  omega

@[simp] theorem isM_ext (x : BitVec 3) : isM (x.setWidth 6) = true := by
  have := x.isLt
  simp only [isM, BitVec.toNat_setWidth, decide_eq_true_eq]
  omega

@[simp] theorem toM_ext (x : BitVec 3) : toM (x.setWidth 6) = x := by
  apply BitVec.eq_of_toNat_eq
  have := x.isLt
  simp only [toM, BitVec.toNat_ofNat, BitVec.toNat_setWidth]
  omega

/-- A value of fewer bits lies below a larger power of two. -/
theorem lt_of {n k : Nat} (x : BitVec n) (h : 2 ^ n ≤ k) : x.toNat < k := Nat.lt_of_lt_of_le x.isLt h

/-! The fields of each layout. -/

theorem of_rr {i : Instr} {M fn b a d : Nat} (h_M : M < 64) (h_fn : fn < 128) (h_b : b < 64) (h_a : a < 64) (h_d : d < 64)
    (he : encode i = some (true, packRR M fn b a d))
    (hd : ∀ q, q / 2 % 64 = M → fld q 7 6 = BitVec.ofNat 6 d → fld q 13 6 = BitVec.ofNat 6 a → fld q 19 6 = BitVec.ofNat 6 b → fld q 25 7 = BitVec.ofNat 7 fn → decode32 q = .ok (named i)) :
    ∃ wide w, encode i = some (wide, w) ∧ w < (if wide then 2 ^ 32 else 2 ^ 16) ∧
      decode (w % 65536) (w / 65536) = .ok (named i) := by
  obtain ⟨q, hq⟩ : ∃ q, q = packRR M fn b a d := ⟨_, rfl⟩
  rw [← hq] at he
  unfold packRR at hq
  refine of_word he (by omega) (by omega) (hd q ?_ ?_ ?_ ?_ ?_)
  · omega
  · apply fld_of; omega
  · apply fld_of; omega
  · apply fld_of; omega
  · apply fld_of; omega

theorem of_v {i : Instr} {M fn m b a d : Nat} (h_M : M < 64) (h_fn : fn < 16) (h_m : m < 8) (h_b : b < 64) (h_a : a < 64) (h_d : d < 64)
    (he : encode i = some (true, packV M fn m b a d))
    (hd : ∀ q, q / 2 % 64 = M → fld q 7 6 = BitVec.ofNat 6 d → fld q 13 6 = BitVec.ofNat 6 a → fld q 19 6 = BitVec.ofNat 6 b → fld q 25 3 = BitVec.ofNat 3 m → fld q 28 4 = BitVec.ofNat 4 fn → decode32 q = .ok (named i)) :
    ∃ wide w, encode i = some (wide, w) ∧ w < (if wide then 2 ^ 32 else 2 ^ 16) ∧
      decode (w % 65536) (w / 65536) = .ok (named i) := by
  obtain ⟨q, hq⟩ : ∃ q, q = packV M fn m b a d := ⟨_, rfl⟩
  rw [← hq] at he
  unfold packV at hq
  refine of_word he (by omega) (by omega) (hd q ?_ ?_ ?_ ?_ ?_ ?_)
  · omega
  · apply fld_of; omega
  · apply fld_of; omega
  · apply fld_of; omega
  · apply fld_of; omega
  · apply fld_of; omega

theorem of_ri {i : Instr} {M imm a d : Nat} (h_M : M < 64) (h_imm : imm < 8192) (h_a : a < 64) (h_d : d < 64)
    (he : encode i = some (true, packRI M imm a d))
    (hd : ∀ q, q / 2 % 64 = M → fld q 7 6 = BitVec.ofNat 6 d → fld q 13 6 = BitVec.ofNat 6 a → fld q 19 13 = BitVec.ofNat 13 imm → decode32 q = .ok (named i)) :
    ∃ wide w, encode i = some (wide, w) ∧ w < (if wide then 2 ^ 32 else 2 ^ 16) ∧
      decode (w % 65536) (w / 65536) = .ok (named i) := by
  obtain ⟨q, hq⟩ : ∃ q, q = packRI M imm a d := ⟨_, rfl⟩
  rw [← hq] at he
  unfold packRI at hq
  refine of_word he (by omega) (by omega) (hd q ?_ ?_ ?_ ?_)
  · omega
  · apply fld_of; omega
  · apply fld_of; omega
  · apply fld_of; omega

theorem of_vm {i : Instr} {M pol x y m c a d : Nat} (h_M : M < 64) (h_pol : pol < 4) (h_x : x < 2) (h_y : y < 2) (h_m : m < 8) (h_c : c < 64) (h_a : a < 64) (h_d : d < 64)
    (he : encode i = some (true, packVM M pol x y m c a d))
    (hd : ∀ q, q / 2 % 64 = M → fld q 7 6 = BitVec.ofNat 6 d → fld q 13 6 = BitVec.ofNat 6 a → fld q 19 6 = BitVec.ofNat 6 c → fld q 25 3 = BitVec.ofNat 3 m → fld q 28 1 = BitVec.ofNat 1 y → fld q 29 1 = BitVec.ofNat 1 x → fld q 30 2 = BitVec.ofNat 2 pol → decode32 q = .ok (named i)) :
    ∃ wide w, encode i = some (wide, w) ∧ w < (if wide then 2 ^ 32 else 2 ^ 16) ∧
      decode (w % 65536) (w / 65536) = .ok (named i) := by
  obtain ⟨q, hq⟩ : ∃ q, q = packVM M pol x y m c a d := ⟨_, rfl⟩
  rw [← hq] at he
  unfold packVM at hq
  refine of_word he (by omega) (by omega) (hd q ?_ ?_ ?_ ?_ ?_ ?_ ?_ ?_)
  · omega
  · apply fld_of; omega
  · apply fld_of; omega
  · apply fld_of; omega
  · apply fld_of; omega
  · apply fld_of; omega
  · apply fld_of; omega
  · apply fld_of; omega

theorem of_sy {i : Instr} {imm a d fn : Nat} (h_imm : imm < 512) (h_a : a < 64) (h_d : d < 64) (h_fn : fn < 16)
    (he : encode i = some (true, packSY imm a d fn))
    (hd : ∀ q, q / 2 % 64 = 18 → fld q 7 4 = BitVec.ofNat 4 fn → fld q 11 6 = BitVec.ofNat 6 d → fld q 17 6 = BitVec.ofNat 6 a → fld q 23 9 = BitVec.ofNat 9 imm → decode32 q = .ok (named i)) :
    ∃ wide w, encode i = some (wide, w) ∧ w < (if wide then 2 ^ 32 else 2 ^ 16) ∧
      decode (w % 65536) (w / 65536) = .ok (named i) := by
  obtain ⟨q, hq⟩ : ∃ q, q = packSY imm a d fn := ⟨_, rfl⟩
  rw [← hq] at he
  unfold packSY at hq
  refine of_word he (by omega) (by omega) (hd q ?_ ?_ ?_ ?_ ?_)
  · omega
  · apply fld_of; omega
  · apply fld_of; omega
  · apply fld_of; omega
  · apply fld_of; omega

theorem of_px {i : Instr} {ce copy cond pred n kind : Nat} (h_ce : ce < 2) (h_copy : copy < 64) (h_cond : cond < 8) (h_pred : pred < 64) (h_n : n < 2) (h_kind : kind < 4)
    (he : encode i = some (true, packPX ce copy cond pred n kind))
    (hd : ∀ q, q / 2 % 64 = 19 → fld q 7 2 = BitVec.ofNat 2 kind → fld q 9 1 = BitVec.ofNat 1 n → fld q 10 6 = BitVec.ofNat 6 pred → fld q 16 3 = BitVec.ofNat 3 cond → fld q 19 6 = BitVec.ofNat 6 copy → fld q 25 1 = BitVec.ofNat 1 ce → fld q 26 6 = BitVec.ofNat 6 0 → decode32 q = .ok (named i)) :
    ∃ wide w, encode i = some (wide, w) ∧ w < (if wide then 2 ^ 32 else 2 ^ 16) ∧
      decode (w % 65536) (w / 65536) = .ok (named i) := by
  obtain ⟨q, hq⟩ : ∃ q, q = packPX ce copy cond pred n kind := ⟨_, rfl⟩
  rw [← hq] at he
  unfold packPX at hq
  refine of_word he (by omega) (by omega) (hd q ?_ ?_ ?_ ?_ ?_ ?_ ?_ ?_)
  · omega
  · apply fld_of; omega
  · apply fld_of; omega
  · apply fld_of; omega
  · apply fld_of; omega
  · apply fld_of; omega
  · apply fld_of; omega
  · apply fld_of; omega

theorem of_mem {i : Instr} {M imm s w a d : Nat} (h_M : M < 64) (h_imm : imm < 1024) (h_s : s < 2) (h_w : w < 4) (h_a : a < 64) (h_d : d < 64)
    (he : encode i = some (true, packMem M imm s w a d))
    (hd : ∀ q, q / 2 % 64 = M → fld q 7 6 = BitVec.ofNat 6 d → fld q 13 6 = BitVec.ofNat 6 a → fld q 19 2 = BitVec.ofNat 2 w → fld q 21 1 = BitVec.ofNat 1 s → fld q 22 10 = BitVec.ofNat 10 imm → decode32 q = .ok (named i)) :
    ∃ wide w, encode i = some (wide, w) ∧ w < (if wide then 2 ^ 32 else 2 ^ 16) ∧
      decode (w % 65536) (w / 65536) = .ok (named i) := by
  obtain ⟨q, hq⟩ : ∃ q, q = packMem M imm s w a d := ⟨_, rfl⟩
  rw [← hq] at he
  unfold packMem at hq
  refine of_word he (by omega) (by omega) (hd q ?_ ?_ ?_ ?_ ?_ ?_)
  · omega
  · apply fld_of; omega
  · apply fld_of; omega
  · apply fld_of; omega
  · apply fld_of; omega
  · apply fld_of; omega

theorem of_amo {i : Instr} {w scope ord op a d : Nat} (h_w : w < 2) (h_scope : scope < 8) (h_ord : ord < 4) (h_op : op < 16) (h_a : a < 64) (h_d : d < 64)
    (he : encode i = some (true, packAmo w scope ord op a d))
    (hd : ∀ q, q / 2 % 64 = 12 → fld q 7 6 = BitVec.ofNat 6 d → fld q 13 6 = BitVec.ofNat 6 a → fld q 19 4 = BitVec.ofNat 4 op → fld q 23 2 = BitVec.ofNat 2 ord → fld q 25 3 = BitVec.ofNat 3 scope → fld q 28 1 = BitVec.ofNat 1 w → fld q 29 3 = BitVec.ofNat 3 0 → decode32 q = .ok (named i)) :
    ∃ wide w, encode i = some (wide, w) ∧ w < (if wide then 2 ^ 32 else 2 ^ 16) ∧
      decode (w % 65536) (w / 65536) = .ok (named i) := by
  obtain ⟨q, hq⟩ : ∃ q, q = packAmo w scope ord op a d := ⟨_, rfl⟩
  rw [← hq] at he
  unfold packAmo at hq
  refine of_word he (by omega) (by omega) (hd q ?_ ?_ ?_ ?_ ?_ ?_ ?_ ?_)
  · omega
  · apply fld_of; omega
  · apply fld_of; omega
  · apply fld_of; omega
  · apply fld_of; omega
  · apply fld_of; omega
  · apply fld_of; omega
  · apply fld_of; omega

theorem of_c {i : Instr} {op b d : Nat} (h_op : op < 32) (h_b : b < 32) (h_d : d < 32)
    (he : encode i = some (false, packC op b d))
    (hd : ∀ q, q / 2 % 32 = op → fld q 6 5 = BitVec.ofNat 5 d → fld q 11 5 = BitVec.ofNat 5 b → decode16 q = .ok (named i)) :
    ∃ wide w, encode i = some (wide, w) ∧ w < (if wide then 2 ^ 32 else 2 ^ 16) ∧
      decode (w % 65536) (w / 65536) = .ok (named i) := by
  obtain ⟨q, hq⟩ : ∃ q, q = packC op b d := ⟨_, rfl⟩
  rw [← hq] at he
  unfold packC at hq
  refine of_parcel he (by omega) (by omega) (hd q ?_ ?_ ?_)
  · omega
  · apply fld_of; omega
  · apply fld_of; omega

theorem of_fp {i : Instr} {op fmt var b a d : Nat} (h_op : op < 8) (h_fmt : fmt < 4) (h_var : var < 4) (h_b : b < 64) (h_a : a < 64) (h_d : d < 64)
    (he : encode i = some (true, packRR 0x14 (op + 8 * fmt + 32 * var) b a d))
    (hd : ∀ q, q / 2 % 64 = 20 → fld q 7 6 = BitVec.ofNat 6 d → fld q 13 6 = BitVec.ofNat 6 a → fld q 19 6 = BitVec.ofNat 6 b → fld q 25 3 = BitVec.ofNat 3 op → fld q 28 2 = BitVec.ofNat 2 fmt → fld q 30 2 = BitVec.ofNat 2 var → decode32 q = .ok (named i)) :
    ∃ wide w, encode i = some (wide, w) ∧ w < (if wide then 2 ^ 32 else 2 ^ 16) ∧
      decode (w % 65536) (w / 65536) = .ok (named i) := by
  obtain ⟨q, hq⟩ : ∃ q, q = packRR 0x14 (op + 8 * fmt + 32 * var) b a d := ⟨_, rfl⟩
  rw [← hq] at he
  unfold packRR at hq
  refine of_word he (by omega) (by omega) (hd q ?_ ?_ ?_ ?_ ?_ ?_ ?_)
  · omega
  · apply fld_of; omega
  · apply fld_of; omega
  · apply fld_of; omega
  · apply fld_of; omega
  · apply fld_of; omega
  · apply fld_of; omega

theorem of_va {i : Instr} {op s b a d : Nat} (h_op : op < 16) (h_s : s < 8) (h_b : b < 64) (h_a : a < 64) (h_d : d < 64)
    (he : encode i = some (true, packRR 0x28 (op + 16 * s) b a d))
    (hd : ∀ q, q / 2 % 64 = 40 → fld q 7 6 = BitVec.ofNat 6 d → fld q 13 6 = BitVec.ofNat 6 a → fld q 19 6 = BitVec.ofNat 6 b → fld q 25 4 = BitVec.ofNat 4 op → fld q 29 3 = BitVec.ofNat 3 s → decode32 q = .ok (named i)) :
    ∃ wide w, encode i = some (wide, w) ∧ w < (if wide then 2 ^ 32 else 2 ^ 16) ∧
      decode (w % 65536) (w / 65536) = .ok (named i) := by
  obtain ⟨q, hq⟩ : ∃ q, q = packRR 0x28 (op + 16 * s) b a d := ⟨_, rfl⟩
  rw [← hq] at he
  unfold packRR at hq
  refine of_word he (by omega) (by omega) (hd q ?_ ?_ ?_ ?_ ?_ ?_)
  · omega
  · apply fld_of; omega
  · apply fld_of; omega
  · apply fld_of; omega
  · apply fld_of; omega
  · apply fld_of; omega

theorem of_mc {i : Instr} {op z b a d : Nat} (h_op : op < 16) (h_z : z < 2) (h_b : b < 64) (h_a : a < 64) (h_d : d < 64)
    (he : encode i = some (true, packRR 0x2E (op + 64 * z) b a d))
    (hd : ∀ q, q / 2 % 64 = 46 → fld q 7 6 = BitVec.ofNat 6 d → fld q 13 6 = BitVec.ofNat 6 a → fld q 19 6 = BitVec.ofNat 6 b → fld q 25 4 = BitVec.ofNat 4 op → fld q 29 2 = BitVec.ofNat 2 0 → fld q 31 1 = BitVec.ofNat 1 z → decode32 q = .ok (named i)) :
    ∃ wide w, encode i = some (wide, w) ∧ w < (if wide then 2 ^ 32 else 2 ^ 16) ∧
      decode (w % 65536) (w / 65536) = .ok (named i) := by
  obtain ⟨q, hq⟩ : ∃ q, q = packRR 0x2E (op + 64 * z) b a d := ⟨_, rfl⟩
  rw [← hq] at he
  unfold packRR at hq
  refine of_word he (by omega) (by omega) (hd q ?_ ?_ ?_ ?_ ?_ ?_ ?_)
  · omega
  · apply fld_of; omega
  · apply fld_of; omega
  · apply fld_of; omega
  · apply fld_of; omega
  · apply fld_of; omega
  · apply fld_of; omega

theorem of_mm {i : Instr} {op z m b a d : Nat} (h_op : op < 4) (h_z : z < 2) (h_m : m < 8) (h_b : b < 64) (h_a : a < 64) (h_d : d < 64)
    (he : encode i = some (true, packV 0x2F (op + 8 * z) m b a d))
    (hd : ∀ q, q / 2 % 64 = 47 → fld q 7 6 = BitVec.ofNat 6 d → fld q 13 6 = BitVec.ofNat 6 a → fld q 19 6 = BitVec.ofNat 6 b → fld q 25 3 = BitVec.ofNat 3 m → fld q 28 2 = BitVec.ofNat 2 op → fld q 30 1 = BitVec.ofNat 1 0 → fld q 31 1 = BitVec.ofNat 1 z → decode32 q = .ok (named i)) :
    ∃ wide w, encode i = some (wide, w) ∧ w < (if wide then 2 ^ 32 else 2 ^ 16) ∧
      decode (w % 65536) (w / 65536) = .ok (named i) := by
  obtain ⟨q, hq⟩ : ∃ q, q = packV 0x2F (op + 8 * z) m b a d := ⟨_, rfl⟩
  rw [← hq] at he
  unfold packV at hq
  refine of_word he (by omega) (by omega) (hd q ?_ ?_ ?_ ?_ ?_ ?_ ?_ ?_)
  · omega
  · apply fld_of; omega
  · apply fld_of; omega
  · apply fld_of; omega
  · apply fld_of; omega
  · apply fld_of; omega
  · apply fld_of; omega
  · apply fld_of; omega

theorem of_oa {i : Instr} {mb z m b a d : Nat} (h_mb : mb < 8) (h_z : z < 2) (h_m : m < 8) (h_b : b < 64) (h_a : a < 64) (h_d : d < 64)
    (he : encode i = some (true, packV 0x2c (mb + 8 * z) m b a d))
    (hd : ∀ q, q / 2 % 64 = 44 → fld q 7 6 = BitVec.ofNat 6 d → fld q 13 6 = BitVec.ofNat 6 a → fld q 19 6 = BitVec.ofNat 6 b → fld q 25 3 = BitVec.ofNat 3 m → fld q 28 3 = BitVec.ofNat 3 mb → fld q 31 1 = BitVec.ofNat 1 z → decode32 q = .ok (named i)) :
    ∃ wide w, encode i = some (wide, w) ∧ w < (if wide then 2 ^ 32 else 2 ^ 16) ∧
      decode (w % 65536) (w / 65536) = .ok (named i) := by
  obtain ⟨q, hq⟩ : ∃ q, q = packV 0x2c (mb + 8 * z) m b a d := ⟨_, rfl⟩
  rw [← hq] at he
  unfold packV at hq
  refine of_word he (by omega) (by omega) (hd q ?_ ?_ ?_ ?_ ?_ ?_ ?_)
  · omega
  · apply fld_of; omega
  · apply fld_of; omega
  · apply fld_of; omega
  · apply fld_of; omega
  · apply fld_of; omega
  · apply fld_of; omega

theorem of_os {i : Instr} {mb z m b a d : Nat} (h_mb : mb < 8) (h_z : z < 2) (h_m : m < 8) (h_b : b < 64) (h_a : a < 64) (h_d : d < 64)
    (he : encode i = some (true, packV 0x2d (mb + 8 * z) m b a d))
    (hd : ∀ q, q / 2 % 64 = 45 → fld q 7 6 = BitVec.ofNat 6 d → fld q 13 6 = BitVec.ofNat 6 a → fld q 19 6 = BitVec.ofNat 6 b → fld q 25 3 = BitVec.ofNat 3 m → fld q 28 3 = BitVec.ofNat 3 mb → fld q 31 1 = BitVec.ofNat 1 z → decode32 q = .ok (named i)) :
    ∃ wide w, encode i = some (wide, w) ∧ w < (if wide then 2 ^ 32 else 2 ^ 16) ∧
      decode (w % 65536) (w / 65536) = .ok (named i) := by
  obtain ⟨q, hq⟩ : ∃ q, q = packV 0x2d (mb + 8 * z) m b a d := ⟨_, rfl⟩
  rw [← hq] at he
  unfold packV at hq
  refine of_word he (by omega) (by omega) (hd q ?_ ?_ ?_ ?_ ?_ ?_ ?_)
  · omega
  · apply fld_of; omega
  · apply fld_of; omega
  · apply fld_of; omega
  · apply fld_of; omega
  · apply fld_of; omega
  · apply fld_of; omega

theorem of_fc {i : Instr} {s op b a d : Nat} (h_s : s < 8) (h_op : op < 8) (h_b : b < 64) (h_a : a < 64) (h_d : d < 64)
    (he : encode i = some (true, packV 0x11 s op b a d))
    (hd : ∀ q, q / 2 % 64 = 17 → fld q 7 6 = BitVec.ofNat 6 d → fld q 13 6 = BitVec.ofNat 6 a → fld q 19 6 = BitVec.ofNat 6 b → fld q 25 3 = BitVec.ofNat 3 op → fld q 28 3 = BitVec.ofNat 3 s → fld q 31 1 = BitVec.ofNat 1 0 → decode32 q = .ok (named i)) :
    ∃ wide w, encode i = some (wide, w) ∧ w < (if wide then 2 ^ 32 else 2 ^ 16) ∧
      decode (w % 65536) (w / 65536) = .ok (named i) := by
  obtain ⟨q, hq⟩ : ∃ q, q = packV 0x11 s op b a d := ⟨_, rfl⟩
  rw [← hq] at he
  unfold packV at hq
  refine of_word he (by omega) (by omega) (hd q ?_ ?_ ?_ ?_ ?_ ?_ ?_)
  · omega
  · apply fld_of; omega
  · apply fld_of; omega
  · apply fld_of; omega
  · apply fld_of; omega
  · apply fld_of; omega
  · apply fld_of; omega

/-! One lemma per constructor. -/

theorem add (d : BitVec 6) (a : BitVec 6) (b : BitVec 6) : Statement (.add d a b) := fun _ hw =>
  of_rr (by decide) (by decide) (lt_of b (by decide)) (lt_of a (by decide)) (lt_of d (by decide)) rfl fun x hm h0 h1 h2 h3 => by
    simp only [decode32, hm, h0, h1, h2, h3, dec01]; simp_all [need, needP, vvv, vv0, vgg, vvg, mvv, mmm, mm0, gm0, isZ, copyOk, named, Instr.wf]

theorem sub (d : BitVec 6) (a : BitVec 6) (b : BitVec 6) : Statement (.sub d a b) := fun _ hw =>
  of_rr (by decide) (by decide) (lt_of b (by decide)) (lt_of a (by decide)) (lt_of d (by decide)) rfl fun x hm h0 h1 h2 h3 => by
    simp only [decode32, hm, h0, h1, h2, h3, dec01]; simp_all [need, needP, vvv, vv0, vgg, vvg, mvv, mmm, mm0, gm0, isZ, copyOk, named, Instr.wf]

theorem and (d : BitVec 6) (a : BitVec 6) (b : BitVec 6) : Statement (.and d a b) := fun _ hw =>
  of_rr (by decide) (by decide) (lt_of b (by decide)) (lt_of a (by decide)) (lt_of d (by decide)) rfl fun x hm h0 h1 h2 h3 => by
    simp only [decode32, hm, h0, h1, h2, h3, dec01]; simp_all [need, needP, vvv, vv0, vgg, vvg, mvv, mmm, mm0, gm0, isZ, copyOk, named, Instr.wf]

theorem or (d : BitVec 6) (a : BitVec 6) (b : BitVec 6) : Statement (.or d a b) := fun _ hw =>
  of_rr (by decide) (by decide) (lt_of b (by decide)) (lt_of a (by decide)) (lt_of d (by decide)) rfl fun x hm h0 h1 h2 h3 => by
    simp only [decode32, hm, h0, h1, h2, h3, dec01]; simp_all [need, needP, vvv, vv0, vgg, vvg, mvv, mmm, mm0, gm0, isZ, copyOk, named, Instr.wf]

theorem xor (d : BitVec 6) (a : BitVec 6) (b : BitVec 6) : Statement (.xor d a b) := fun _ hw =>
  of_rr (by decide) (by decide) (lt_of b (by decide)) (lt_of a (by decide)) (lt_of d (by decide)) rfl fun x hm h0 h1 h2 h3 => by
    simp only [decode32, hm, h0, h1, h2, h3, dec01]; simp_all [need, needP, vvv, vv0, vgg, vvg, mvv, mmm, mm0, gm0, isZ, copyOk, named, Instr.wf]

theorem shl (d : BitVec 6) (a : BitVec 6) (b : BitVec 6) : Statement (.shl d a b) := fun _ hw =>
  of_rr (by decide) (by decide) (lt_of b (by decide)) (lt_of a (by decide)) (lt_of d (by decide)) rfl fun x hm h0 h1 h2 h3 => by
    simp only [decode32, hm, h0, h1, h2, h3, dec01]; simp_all [need, needP, vvv, vv0, vgg, vvg, mvv, mmm, mm0, gm0, isZ, copyOk, named, Instr.wf]

theorem shr (d : BitVec 6) (a : BitVec 6) (b : BitVec 6) : Statement (.shr d a b) := fun _ hw =>
  of_rr (by decide) (by decide) (lt_of b (by decide)) (lt_of a (by decide)) (lt_of d (by decide)) rfl fun x hm h0 h1 h2 h3 => by
    simp only [decode32, hm, h0, h1, h2, h3, dec01]; simp_all [need, needP, vvv, vv0, vgg, vvg, mvv, mmm, mm0, gm0, isZ, copyOk, named, Instr.wf]

theorem sra (d : BitVec 6) (a : BitVec 6) (b : BitVec 6) : Statement (.sra d a b) := fun _ hw =>
  of_rr (by decide) (by decide) (lt_of b (by decide)) (lt_of a (by decide)) (lt_of d (by decide)) rfl fun x hm h0 h1 h2 h3 => by
    simp only [decode32, hm, h0, h1, h2, h3, dec01]; simp_all [need, needP, vvv, vv0, vgg, vvg, mvv, mmm, mm0, gm0, isZ, copyOk, named, Instr.wf]

theorem mul (d : BitVec 6) (a : BitVec 6) (b : BitVec 6) : Statement (.mul d a b) := fun _ hw =>
  of_rr (by decide) (by decide) (lt_of b (by decide)) (lt_of a (by decide)) (lt_of d (by decide)) rfl fun x hm h0 h1 h2 h3 => by
    simp only [decode32, hm, h0, h1, h2, h3, dec01]; simp_all [need, needP, vvv, vv0, vgg, vvg, mvv, mmm, mm0, gm0, isZ, copyOk, named, Instr.wf]

theorem mulh (d : BitVec 6) (a : BitVec 6) (b : BitVec 6) : Statement (.mulh d a b) := fun _ hw =>
  of_rr (by decide) (by decide) (lt_of b (by decide)) (lt_of a (by decide)) (lt_of d (by decide)) rfl fun x hm h0 h1 h2 h3 => by
    simp only [decode32, hm, h0, h1, h2, h3, dec01]; simp_all [need, needP, vvv, vv0, vgg, vvg, mvv, mmm, mm0, gm0, isZ, copyOk, named, Instr.wf]

theorem mulhn (d : BitVec 6) (a : BitVec 6) (b : BitVec 6) : Statement (.mulhn d a b) := fun _ hw =>
  of_rr (by decide) (by decide) (lt_of b (by decide)) (lt_of a (by decide)) (lt_of d (by decide)) rfl fun x hm h0 h1 h2 h3 => by
    simp only [decode32, hm, h0, h1, h2, h3, dec01]; simp_all [need, needP, vvv, vv0, vgg, vvg, mvv, mmm, mm0, gm0, isZ, copyOk, named, Instr.wf]

theorem div (d : BitVec 6) (a : BitVec 6) (b : BitVec 6) : Statement (.div d a b) := fun _ hw =>
  of_rr (by decide) (by decide) (lt_of b (by decide)) (lt_of a (by decide)) (lt_of d (by decide)) rfl fun x hm h0 h1 h2 h3 => by
    simp only [decode32, hm, h0, h1, h2, h3, dec01]; simp_all [need, needP, vvv, vv0, vgg, vvg, mvv, mmm, mm0, gm0, isZ, copyOk, named, Instr.wf]

theorem divn (d : BitVec 6) (a : BitVec 6) (b : BitVec 6) : Statement (.divn d a b) := fun _ hw =>
  of_rr (by decide) (by decide) (lt_of b (by decide)) (lt_of a (by decide)) (lt_of d (by decide)) rfl fun x hm h0 h1 h2 h3 => by
    simp only [decode32, hm, h0, h1, h2, h3, dec01]; simp_all [need, needP, vvv, vv0, vgg, vvg, mvv, mmm, mm0, gm0, isZ, copyOk, named, Instr.wf]

theorem rem (d : BitVec 6) (a : BitVec 6) (b : BitVec 6) : Statement (.rem d a b) := fun _ hw =>
  of_rr (by decide) (by decide) (lt_of b (by decide)) (lt_of a (by decide)) (lt_of d (by decide)) rfl fun x hm h0 h1 h2 h3 => by
    simp only [decode32, hm, h0, h1, h2, h3, dec01]; simp_all [need, needP, vvv, vv0, vgg, vvg, mvv, mmm, mm0, gm0, isZ, copyOk, named, Instr.wf]

theorem remn (d : BitVec 6) (a : BitVec 6) (b : BitVec 6) : Statement (.remn d a b) := fun _ hw =>
  of_rr (by decide) (by decide) (lt_of b (by decide)) (lt_of a (by decide)) (lt_of d (by decide)) rfl fun x hm h0 h1 h2 h3 => by
    simp only [decode32, hm, h0, h1, h2, h3, dec01]; simp_all [need, needP, vvv, vv0, vgg, vvg, mvv, mmm, mm0, gm0, isZ, copyOk, named, Instr.wf]

theorem min (d : BitVec 6) (a : BitVec 6) (b : BitVec 6) : Statement (.min d a b) := fun _ hw =>
  of_rr (by decide) (by decide) (lt_of b (by decide)) (lt_of a (by decide)) (lt_of d (by decide)) rfl fun x hm h0 h1 h2 h3 => by
    simp only [decode32, hm, h0, h1, h2, h3, dec01]; simp_all [need, needP, vvv, vv0, vgg, vvg, mvv, mmm, mm0, gm0, isZ, copyOk, named, Instr.wf]

theorem max (d : BitVec 6) (a : BitVec 6) (b : BitVec 6) : Statement (.max d a b) := fun _ hw =>
  of_rr (by decide) (by decide) (lt_of b (by decide)) (lt_of a (by decide)) (lt_of d (by decide)) rfl fun x hm h0 h1 h2 h3 => by
    simp only [decode32, hm, h0, h1, h2, h3, dec01]; simp_all [need, needP, vvv, vv0, vgg, vvg, mvv, mmm, mm0, gm0, isZ, copyOk, named, Instr.wf]

theorem minn (d : BitVec 6) (a : BitVec 6) (b : BitVec 6) : Statement (.minn d a b) := fun _ hw =>
  of_rr (by decide) (by decide) (lt_of b (by decide)) (lt_of a (by decide)) (lt_of d (by decide)) rfl fun x hm h0 h1 h2 h3 => by
    simp only [decode32, hm, h0, h1, h2, h3, dec01]; simp_all [need, needP, vvv, vv0, vgg, vvg, mvv, mmm, mm0, gm0, isZ, copyOk, named, Instr.wf]

theorem maxn (d : BitVec 6) (a : BitVec 6) (b : BitVec 6) : Statement (.maxn d a b) := fun _ hw =>
  of_rr (by decide) (by decide) (lt_of b (by decide)) (lt_of a (by decide)) (lt_of d (by decide)) rfl fun x hm h0 h1 h2 h3 => by
    simp only [decode32, hm, h0, h1, h2, h3, dec01]; simp_all [need, needP, vvv, vv0, vgg, vvg, mvv, mmm, mm0, gm0, isZ, copyOk, named, Instr.wf]

theorem slt (d : BitVec 6) (a : BitVec 6) (b : BitVec 6) : Statement (.slt d a b) := fun _ hw =>
  of_rr (by decide) (by decide) (lt_of b (by decide)) (lt_of a (by decide)) (lt_of d (by decide)) rfl fun x hm h0 h1 h2 h3 => by
    simp only [decode32, hm, h0, h1, h2, h3, dec01]; simp_all [need, needP, vvv, vv0, vgg, vvg, mvv, mmm, mm0, gm0, isZ, copyOk, named, Instr.wf]

theorem sltn (d : BitVec 6) (a : BitVec 6) (b : BitVec 6) : Statement (.sltn d a b) := fun _ hw =>
  of_rr (by decide) (by decide) (lt_of b (by decide)) (lt_of a (by decide)) (lt_of d (by decide)) rfl fun x hm h0 h1 h2 h3 => by
    simp only [decode32, hm, h0, h1, h2, h3, dec01]; simp_all [need, needP, vvv, vv0, vgg, vvg, mvv, mmm, mm0, gm0, isZ, copyOk, named, Instr.wf]

theorem clz (d : BitVec 6) (a : BitVec 6) : Statement (.clz d a) := fun _ hw =>
  of_rr (by decide) (by decide) (by decide) (lt_of a (by decide)) (lt_of d (by decide)) rfl fun x hm h0 h1 h2 h3 => by
    simp only [decode32, hm, h0, h1, h2, h3, dec01]; simp_all [need, needP, vvv, vv0, vgg, vvg, mvv, mmm, mm0, gm0, isZ, copyOk, named, Instr.wf]

theorem ctz (d : BitVec 6) (a : BitVec 6) : Statement (.ctz d a) := fun _ hw =>
  of_rr (by decide) (by decide) (by decide) (lt_of a (by decide)) (lt_of d (by decide)) rfl fun x hm h0 h1 h2 h3 => by
    simp only [decode32, hm, h0, h1, h2, h3, dec01]; simp_all [need, needP, vvv, vv0, vgg, vvg, mvv, mmm, mm0, gm0, isZ, copyOk, named, Instr.wf]

theorem popc (d : BitVec 6) (a : BitVec 6) : Statement (.popc d a) := fun _ hw =>
  of_rr (by decide) (by decide) (by decide) (lt_of a (by decide)) (lt_of d (by decide)) rfl fun x hm h0 h1 h2 h3 => by
    simp only [decode32, hm, h0, h1, h2, h3, dec01]; simp_all [need, needP, vvv, vv0, vgg, vvg, mvv, mmm, mm0, gm0, isZ, copyOk, named, Instr.wf]

theorem sel (d : BitVec 6) (a : BitVec 6) (b : BitVec 6) : Statement (.sel d a b) := fun _ hw =>
  of_rr (by decide) (by decide) (lt_of b (by decide)) (lt_of a (by decide)) (lt_of d (by decide)) rfl fun x hm h0 h1 h2 h3 => by
    simp only [decode32, hm, h0, h1, h2, h3, dec01]; simp_all [need, needP, vvv, vv0, vgg, vvg, mvv, mmm, mm0, gm0, isZ, copyOk, named, Instr.wf]

theorem addi (d : BitVec 6) (a : BitVec 6) (imm : BitVec 13) : Statement (.addi d a imm) := fun _ hw =>
  of_ri (by decide) (lt_of imm (by decide)) (lt_of a (by decide)) (lt_of d (by decide)) rfl fun x hm h0 h1 h2 => by
    simp only [decode32, hm, h0, h1, h2]; simp_all [need, needP, vvv, vv0, vgg, vvg, mvv, mmm, mm0, gm0, isZ, copyOk, named, Instr.wf]

theorem andi (d : BitVec 6) (a : BitVec 6) (imm : BitVec 13) : Statement (.andi d a imm) := fun _ hw =>
  of_ri (by decide) (lt_of imm (by decide)) (lt_of a (by decide)) (lt_of d (by decide)) rfl fun x hm h0 h1 h2 => by
    simp only [decode32, hm, h0, h1, h2]; simp_all [need, needP, vvv, vv0, vgg, vvg, mvv, mmm, mm0, gm0, isZ, copyOk, named, Instr.wf]

theorem ori (d : BitVec 6) (a : BitVec 6) (imm : BitVec 13) : Statement (.ori d a imm) := fun _ hw =>
  of_ri (by decide) (lt_of imm (by decide)) (lt_of a (by decide)) (lt_of d (by decide)) rfl fun x hm h0 h1 h2 => by
    simp only [decode32, hm, h0, h1, h2]; simp_all [need, needP, vvv, vv0, vgg, vvg, mvv, mmm, mm0, gm0, isZ, copyOk, named, Instr.wf]

theorem xori (d : BitVec 6) (a : BitVec 6) (imm : BitVec 13) : Statement (.xori d a imm) := fun _ hw =>
  of_ri (by decide) (lt_of imm (by decide)) (lt_of a (by decide)) (lt_of d (by decide)) rfl fun x hm h0 h1 h2 => by
    simp only [decode32, hm, h0, h1, h2]; simp_all [need, needP, vvv, vv0, vgg, vvg, mvv, mmm, mm0, gm0, isZ, copyOk, named, Instr.wf]

theorem shiShl (d : BitVec 6) (a : BitVec 6) (n : BitVec 6) : Statement (.shiShl d a n) := fun _ hw =>
  of_ri (by decide) (lt_of n (by decide)) (lt_of a (by decide)) (lt_of d (by decide)) rfl fun x hm h0 h1 h2 => by
    have hn := n.isLt
    have e : n.toNat % 8192 / 64 = 0 := by omega
    have e' : BitVec.ofNat 6 (n.toNat % 8192) = n := BitVec.eq_of_toNat_eq (by rw [BitVec.toNat_ofNat]; omega)
    simp only [decode32, hm, h0, h1, h2, decShi]; simp [named, e, e']

theorem shiShr (d : BitVec 6) (a : BitVec 6) (n : BitVec 6) : Statement (.shiShr d a n) := by
  intro _ hw
  have h_d := d.isLt
  have h_a := a.isLt
  have h_n := n.isLt
  obtain ⟨x, hx⟩ : ∃ x, x = packRI 0x06 (64 + n.toNat) a.toNat d.toNat := ⟨_, rfl⟩
  have he : encode (.shiShr d a n) = some (true, x) := by rw [hx]; rfl
  unfold packRI at hx
  refine of_word he (by omega) (by omega) ?_
  have hm : x / 2 % 64 = 6 := by omega
  have f0 : fld x 7 6 = d := fld_eq (by
    try simp only [BitVec.toNat_setWidth, BitVec.toNat_ofNat]
    omega)
  have f1 : fld x 13 6 = a := fld_eq (by
    try simp only [BitVec.toNat_setWidth, BitVec.toNat_ofNat]
    omega)
  have f2 : fld x 19 13 = (BitVec.ofNat 13 (64 + n.toNat * 1)) := fld_eq (by
    try simp only [BitVec.toNat_setWidth, BitVec.toNat_ofNat]
    omega)
  show decode32 x = _
  have hn := n.isLt
  have e : (64 + n.toNat) % 8192 / 64 = 1 := by omega
  have e' : BitVec.ofNat 6 ((64 + n.toNat) % 8192) = n := BitVec.eq_of_toNat_eq (by rw [BitVec.toNat_ofNat]; omega)
  simp only [decode32, hm, f0, f1, f2, decShi]; simp [named, e, e']

theorem shiSra (d : BitVec 6) (a : BitVec 6) (n : BitVec 6) : Statement (.shiSra d a n) := by
  intro _ hw
  have h_d := d.isLt
  have h_a := a.isLt
  have h_n := n.isLt
  obtain ⟨x, hx⟩ : ∃ x, x = packRI 0x06 (128 + n.toNat) a.toNat d.toNat := ⟨_, rfl⟩
  have he : encode (.shiSra d a n) = some (true, x) := by rw [hx]; rfl
  unfold packRI at hx
  refine of_word he (by omega) (by omega) ?_
  have hm : x / 2 % 64 = 6 := by omega
  have f0 : fld x 7 6 = d := fld_eq (by
    try simp only [BitVec.toNat_setWidth, BitVec.toNat_ofNat]
    omega)
  have f1 : fld x 13 6 = a := fld_eq (by
    try simp only [BitVec.toNat_setWidth, BitVec.toNat_ofNat]
    omega)
  have f2 : fld x 19 13 = (BitVec.ofNat 13 (128 + n.toNat * 1)) := fld_eq (by
    try simp only [BitVec.toNat_setWidth, BitVec.toNat_ofNat]
    omega)
  show decode32 x = _
  have hn := n.isLt
  have e : (128 + n.toNat) % 8192 / 64 = 2 := by omega
  have e' : BitVec.ofNat 6 ((128 + n.toNat) % 8192) = n := BitVec.eq_of_toNat_eq (by rw [BitVec.toNat_ofNat]; omega)
  simp only [decode32, hm, f0, f1, f2, decShi]; simp [named, e, e']

theorem slti (d : BitVec 6) (a : BitVec 6) (imm : BitVec 13) : Statement (.slti d a imm) := fun _ hw =>
  of_ri (by decide) (lt_of imm (by decide)) (lt_of a (by decide)) (lt_of d (by decide)) rfl fun x hm h0 h1 h2 => by
    simp only [decode32, hm, h0, h1, h2]; simp_all [need, needP, vvv, vv0, vgg, vvg, mvv, mmm, mm0, gm0, isZ, copyOk, named, Instr.wf]

theorem ldhi (d : BitVec 6) (imm : BitVec 19) : Statement (.ldhi d imm) := by
  intro _ hw
  have h_d := d.isLt
  have h_imm := imm.isLt
  obtain ⟨x, hx⟩ : ∃ x, x = 17 + 128 * d.toNat + 8192 * imm.toNat := ⟨_, rfl⟩
  have he : encode (.ldhi d imm) = some (true, x) := by rw [hx]; rfl
  refine of_word he (by omega) (by omega) ?_
  have hm : x / 2 % 64 = 8 := by omega
  have f0 : fld x 7 6 = d := fld_eq (by
    try simp only [BitVec.toNat_setWidth, BitVec.toNat_ofNat]
    omega)
  have f1 : fld x 13 19 = imm := fld_eq (by
    try simp only [BitVec.toNat_setWidth, BitVec.toNat_ofNat]
    omega)
  show decode32 x = _
  simp only [decode32, hm, f0, f1]; simp_all [need, needP, vvv, vv0, vgg, vvg, mvv, mmm, mm0, gm0, isZ, copyOk, named, Instr.wf]

theorem adr (d : BitVec 6) (imm : BitVec 19) : Statement (.adr d imm) := by
  intro _ hw
  have h_d := d.isLt
  have h_imm := imm.isLt
  obtain ⟨x, hx⟩ : ∃ x, x = 19 + 128 * d.toNat + 8192 * imm.toNat := ⟨_, rfl⟩
  have he : encode (.adr d imm) = some (true, x) := by rw [hx]; rfl
  refine of_word he (by omega) (by omega) ?_
  have hm : x / 2 % 64 = 9 := by omega
  have f0 : fld x 7 6 = d := fld_eq (by
    try simp only [BitVec.toNat_setWidth, BitVec.toNat_ofNat]
    omega)
  have f1 : fld x 13 19 = imm := fld_eq (by
    try simp only [BitVec.toNat_setWidth, BitVec.toNat_ofNat]
    omega)
  show decode32 x = _
  simp only [decode32, hm, f0, f1]; simp_all [need, needP, vvv, vv0, vgg, vvg, mvv, mmm, mm0, gm0, isZ, copyOk, named, Instr.wf]

theorem ldsI (w : BitVec 2) (d : BitVec 6) (a : BitVec 6) (imm : BitVec 10) : Statement (.ldsI w d a imm) := fun _ hw =>
  of_mem (by decide) (lt_of imm (by decide)) (by decide) (lt_of w (by decide)) (lt_of a (by decide)) (lt_of d (by decide)) rfl fun x hm h0 h1 h2 h3 h4 => by
    simp only [decode32, hm, h0, h1, h2, h3, h4]; simp_all [need, needP, vvv, vv0, vgg, vvg, mvv, mmm, mm0, gm0, isZ, copyOk, named, Instr.wf]

theorem ldsN (w : BitVec 2) (d : BitVec 6) (a : BitVec 6) (imm : BitVec 10) : Statement (.ldsN w d a imm) := fun _ hw =>
  of_mem (by decide) (lt_of imm (by decide)) (by decide) (lt_of w (by decide)) (lt_of a (by decide)) (lt_of d (by decide)) rfl fun x hm h0 h1 h2 h3 h4 => by
    simp only [decode32, hm, h0, h1, h2, h3, h4]; simp_all [need, needP, vvv, vv0, vgg, vvg, mvv, mmm, mm0, gm0, isZ, copyOk, named, Instr.wf]

theorem sts (w : BitVec 2) (d : BitVec 6) (a : BitVec 6) (imm : BitVec 10) : Statement (.sts w d a imm) := fun _ hw =>
  of_mem (by decide) (lt_of imm (by decide)) (by decide) (lt_of w (by decide)) (lt_of a (by decide)) (lt_of d (by decide)) rfl fun x hm h0 h1 h2 h3 h4 => by
    simp only [decode32, hm, h0, h1, h2, h3, h4]; simp_all [need, needP, vvv, vv0, vgg, vvg, mvv, mmm, mm0, gm0, isZ, copyOk, named, Instr.wf]

theorem amoSwap (w : BitVec 1) (scope : BitVec 3) (ord : BitVec 2) (d : BitVec 6) (a : BitVec 6) : Statement (.amoSwap w scope ord d a) := fun _ hw =>
  of_amo (lt_of w (by decide)) (lt_of scope (by decide)) (lt_of ord (by decide)) (by decide) (lt_of a (by decide)) (lt_of d (by decide)) rfl fun x hm h0 h1 h2 h3 h4 h5 h6 => by
    simp only [decode32, hm, h0, h1, h2, h3, h4, h5, h6, dec0C]; simp_all [need, needP, vvv, vv0, vgg, vvg, mvv, mmm, mm0, gm0, isZ, copyOk, named, Instr.wf]

theorem amoCas (w : BitVec 1) (scope : BitVec 3) (ord : BitVec 2) (d : BitVec 6) (a : BitVec 6) : Statement (.amoCas w scope ord d a) := fun _ hw =>
  of_amo (lt_of w (by decide)) (lt_of scope (by decide)) (lt_of ord (by decide)) (by decide) (lt_of a (by decide)) (lt_of d (by decide)) rfl fun x hm h0 h1 h2 h3 h4 h5 h6 => by
    simp only [decode32, hm, h0, h1, h2, h3, h4, h5, h6, dec0C]; simp_all [need, needP, vvv, vv0, vgg, vvg, mvv, mmm, mm0, gm0, isZ, copyOk, named, Instr.wf]

theorem amoAdd (w : BitVec 1) (scope : BitVec 3) (ord : BitVec 2) (d : BitVec 6) (a : BitVec 6) : Statement (.amoAdd w scope ord d a) := fun _ hw =>
  of_amo (lt_of w (by decide)) (lt_of scope (by decide)) (lt_of ord (by decide)) (by decide) (lt_of a (by decide)) (lt_of d (by decide)) rfl fun x hm h0 h1 h2 h3 h4 h5 h6 => by
    simp only [decode32, hm, h0, h1, h2, h3, h4, h5, h6, dec0C]; simp_all [need, needP, vvv, vv0, vgg, vvg, mvv, mmm, mm0, gm0, isZ, copyOk, named, Instr.wf]

theorem amoAnd (w : BitVec 1) (scope : BitVec 3) (ord : BitVec 2) (d : BitVec 6) (a : BitVec 6) : Statement (.amoAnd w scope ord d a) := fun _ hw =>
  of_amo (lt_of w (by decide)) (lt_of scope (by decide)) (lt_of ord (by decide)) (by decide) (lt_of a (by decide)) (lt_of d (by decide)) rfl fun x hm h0 h1 h2 h3 h4 h5 h6 => by
    simp only [decode32, hm, h0, h1, h2, h3, h4, h5, h6, dec0C]; simp_all [need, needP, vvv, vv0, vgg, vvg, mvv, mmm, mm0, gm0, isZ, copyOk, named, Instr.wf]

theorem amoOr (w : BitVec 1) (scope : BitVec 3) (ord : BitVec 2) (d : BitVec 6) (a : BitVec 6) : Statement (.amoOr w scope ord d a) := fun _ hw =>
  of_amo (lt_of w (by decide)) (lt_of scope (by decide)) (lt_of ord (by decide)) (by decide) (lt_of a (by decide)) (lt_of d (by decide)) rfl fun x hm h0 h1 h2 h3 h4 h5 h6 => by
    simp only [decode32, hm, h0, h1, h2, h3, h4, h5, h6, dec0C]; simp_all [need, needP, vvv, vv0, vgg, vvg, mvv, mmm, mm0, gm0, isZ, copyOk, named, Instr.wf]

theorem amoXor (w : BitVec 1) (scope : BitVec 3) (ord : BitVec 2) (d : BitVec 6) (a : BitVec 6) : Statement (.amoXor w scope ord d a) := fun _ hw =>
  of_amo (lt_of w (by decide)) (lt_of scope (by decide)) (lt_of ord (by decide)) (by decide) (lt_of a (by decide)) (lt_of d (by decide)) rfl fun x hm h0 h1 h2 h3 h4 h5 h6 => by
    simp only [decode32, hm, h0, h1, h2, h3, h4, h5, h6, dec0C]; simp_all [need, needP, vvv, vv0, vgg, vvg, mvv, mmm, mm0, gm0, isZ, copyOk, named, Instr.wf]

theorem amoMin (w : BitVec 1) (scope : BitVec 3) (ord : BitVec 2) (d : BitVec 6) (a : BitVec 6) : Statement (.amoMin w scope ord d a) := fun _ hw =>
  of_amo (lt_of w (by decide)) (lt_of scope (by decide)) (lt_of ord (by decide)) (by decide) (lt_of a (by decide)) (lt_of d (by decide)) rfl fun x hm h0 h1 h2 h3 h4 h5 h6 => by
    simp only [decode32, hm, h0, h1, h2, h3, h4, h5, h6, dec0C]; simp_all [need, needP, vvv, vv0, vgg, vvg, mvv, mmm, mm0, gm0, isZ, copyOk, named, Instr.wf]

theorem amoMax (w : BitVec 1) (scope : BitVec 3) (ord : BitVec 2) (d : BitVec 6) (a : BitVec 6) : Statement (.amoMax w scope ord d a) := fun _ hw =>
  of_amo (lt_of w (by decide)) (lt_of scope (by decide)) (lt_of ord (by decide)) (by decide) (lt_of a (by decide)) (lt_of d (by decide)) rfl fun x hm h0 h1 h2 h3 h4 h5 h6 => by
    simp only [decode32, hm, h0, h1, h2, h3, h4, h5, h6, dec0C]; simp_all [need, needP, vvv, vv0, vgg, vvg, mvv, mmm, mm0, gm0, isZ, copyOk, named, Instr.wf]

theorem amoMinn (w : BitVec 1) (scope : BitVec 3) (ord : BitVec 2) (d : BitVec 6) (a : BitVec 6) : Statement (.amoMinn w scope ord d a) := fun _ hw =>
  of_amo (lt_of w (by decide)) (lt_of scope (by decide)) (lt_of ord (by decide)) (by decide) (lt_of a (by decide)) (lt_of d (by decide)) rfl fun x hm h0 h1 h2 h3 h4 h5 h6 => by
    simp only [decode32, hm, h0, h1, h2, h3, h4, h5, h6, dec0C]; simp_all [need, needP, vvv, vv0, vgg, vvg, mvv, mmm, mm0, gm0, isZ, copyOk, named, Instr.wf]

theorem amoMaxn (w : BitVec 1) (scope : BitVec 3) (ord : BitVec 2) (d : BitVec 6) (a : BitVec 6) : Statement (.amoMaxn w scope ord d a) := fun _ hw =>
  of_amo (lt_of w (by decide)) (lt_of scope (by decide)) (lt_of ord (by decide)) (by decide) (lt_of a (by decide)) (lt_of d (by decide)) rfl fun x hm h0 h1 h2 h3 h4 h5 h6 => by
    simp only [decode32, hm, h0, h1, h2, h3, h4, h5, h6, dec0C]; simp_all [need, needP, vvv, vv0, vgg, vvg, mvv, mmm, mm0, gm0, isZ, copyOk, named, Instr.wf]

theorem bz (cond : BitVec 3) (a : BitVec 6) (off : BitVec 16) : Statement (.bz cond a off) := by
  intro _ hw
  have h_cond := cond.isLt
  have h_a := a.isLt
  have h_off := off.isLt
  obtain ⟨x, hx⟩ : ∃ x, x = 27 + 128 * a.toNat + 8192 * cond.toNat + 65536 * off.toNat := ⟨_, rfl⟩
  have he : encode (.bz cond a off) = some (true, x) := by rw [hx]; rfl
  refine of_word he (by omega) (by omega) ?_
  have hm : x / 2 % 64 = 13 := by omega
  have f0 : fld x 7 6 = a := fld_eq (by
    try simp only [BitVec.toNat_setWidth, BitVec.toNat_ofNat]
    omega)
  have f1 : fld x 13 3 = cond := fld_eq (by
    try simp only [BitVec.toNat_setWidth, BitVec.toNat_ofNat]
    omega)
  have f2 : fld x 16 16 = off := fld_eq (by
    try simp only [BitVec.toNat_setWidth, BitVec.toNat_ofNat]
    omega)
  show decode32 x = _
  simp only [decode32, hm, f0, f1, f2]; simp_all [need, needP, vvv, vv0, vgg, vvg, mvv, mmm, mm0, gm0, isZ, copyOk, named, Instr.wf]

theorem bc (cond : BitVec 3) (a : BitVec 6) (b : BitVec 6) (off : BitVec 10) : Statement (.bc cond a b off) := by
  intro _ hw
  have h_cond := cond.isLt
  have h_a := a.isLt
  have h_b := b.isLt
  have h_off := off.isLt
  obtain ⟨x, hx⟩ : ∃ x, x = 29 + 128 * a.toNat + 8192 * b.toNat + 524288 * cond.toNat + 4194304 * off.toNat := ⟨_, rfl⟩
  have he : encode (.bc cond a b off) = some (true, x) := by rw [hx]; rfl
  refine of_word he (by omega) (by omega) ?_
  have hm : x / 2 % 64 = 14 := by omega
  have f0 : fld x 7 6 = a := fld_eq (by
    try simp only [BitVec.toNat_setWidth, BitVec.toNat_ofNat]
    omega)
  have f1 : fld x 13 6 = b := fld_eq (by
    try simp only [BitVec.toNat_setWidth, BitVec.toNat_ofNat]
    omega)
  have f2 : fld x 19 3 = cond := fld_eq (by
    try simp only [BitVec.toNat_setWidth, BitVec.toNat_ofNat]
    omega)
  have f3 : fld x 22 10 = off := fld_eq (by
    try simp only [BitVec.toNat_setWidth, BitVec.toNat_ofNat]
    omega)
  show decode32 x = _
  simp only [decode32, hm, f0, f1, f2, f3]; simp_all [need, needP, vvv, vv0, vgg, vvg, mvv, mmm, mm0, gm0, isZ, copyOk, named, Instr.wf]

theorem jal (off : BitVec 25) : Statement (.jal off) := by
  intro _ hw
  have h_off := off.isLt
  obtain ⟨x, hx⟩ : ∃ x, x = 31 + 128 * off.toNat := ⟨_, rfl⟩
  have he : encode (.jal off) = some (true, x) := by rw [hx]; rfl
  refine of_word he (by omega) (by omega) ?_
  have hm : x / 2 % 64 = 15 := by omega
  have f0 : fld x 7 25 = off := fld_eq (by
    try simp only [BitVec.toNat_setWidth, BitVec.toNat_ofNat]
    omega)
  show decode32 x = _
  simp only [decode32, hm, f0]; simp_all [need, needP, vvv, vv0, vgg, vvg, mvv, mmm, mm0, gm0, isZ, copyOk, named, Instr.wf]

theorem jr (d : BitVec 6) (a : BitVec 6) (imm : BitVec 13) : Statement (.jr d a imm) := fun _ hw =>
  of_ri (by decide) (lt_of imm (by decide)) (lt_of a (by decide)) (lt_of d (by decide)) rfl fun x hm h0 h1 h2 => by
    simp only [decode32, hm, h0, h1, h2]; simp_all [need, needP, vvv, vv0, vgg, vvg, mvv, mmm, mm0, gm0, isZ, copyOk, named, Instr.wf]

theorem fenceAcq (scope : BitVec 3) : Statement (.fenceAcq scope) := fun _ hw =>
  of_fc (s := scope.toNat) (op := 0) (b := 0) (a := 0) (d := 1) (lt_of scope (by decide)) (by decide) (by decide) (by decide) (by decide) rfl fun x hm h0 h1 h2 h3 h4 h5 => by
    simp only [decode32, hm, h0, h1, h2, h3, h4, h5, dec11]; simp_all [need, needP, vvv, vv0, vgg, vvg, mvv, mmm, mm0, gm0, isZ, copyOk, named, Instr.wf]

theorem fenceRel (scope : BitVec 3) : Statement (.fenceRel scope) := fun _ hw =>
  of_fc (s := scope.toNat) (op := 0) (b := 0) (a := 0) (d := 2) (lt_of scope (by decide)) (by decide) (by decide) (by decide) (by decide) rfl fun x hm h0 h1 h2 h3 h4 h5 => by
    simp only [decode32, hm, h0, h1, h2, h3, h4, h5, dec11]; simp_all [need, needP, vvv, vv0, vgg, vvg, mvv, mmm, mm0, gm0, isZ, copyOk, named, Instr.wf]

theorem fenceAcqrel (scope : BitVec 3) : Statement (.fenceAcqrel scope) := fun _ hw =>
  of_fc (s := scope.toNat) (op := 0) (b := 0) (a := 0) (d := 3) (lt_of scope (by decide)) (by decide) (by decide) (by decide) (by decide) rfl fun x hm h0 h1 h2 h3 h4 h5 => by
    simp only [decode32, hm, h0, h1, h2, h3, h4, h5, dec11]; simp_all [need, needP, vvv, vv0, vgg, vvg, mvv, mmm, mm0, gm0, isZ, copyOk, named, Instr.wf]

theorem cwb (scope : BitVec 3) (a : BitVec 6) (b : BitVec 6) : Statement (.cwb scope a b) := fun _ hw =>
  of_fc (s := scope.toNat) (op := 1) (b := b.toNat) (a := a.toNat) (d := 0) (lt_of scope (by decide)) (by decide) (lt_of b (by decide)) (lt_of a (by decide)) (by decide) rfl fun x hm h0 h1 h2 h3 h4 h5 => by
    simp only [decode32, hm, h0, h1, h2, h3, h4, h5, dec11]; simp_all [need, needP, vvv, vv0, vgg, vvg, mvv, mmm, mm0, gm0, isZ, copyOk, named, Instr.wf]

theorem cinv (scope : BitVec 3) (a : BitVec 6) (b : BitVec 6) : Statement (.cinv scope a b) := fun _ hw =>
  of_fc (s := scope.toNat) (op := 2) (b := b.toNat) (a := a.toNat) (d := 0) (lt_of scope (by decide)) (by decide) (lt_of b (by decide)) (lt_of a (by decide)) (by decide) rfl fun x hm h0 h1 h2 h3 h4 h5 => by
    simp only [decode32, hm, h0, h1, h2, h3, h4, h5, dec11]; simp_all [need, needP, vvv, vv0, vgg, vvg, mvv, mmm, mm0, gm0, isZ, copyOk, named, Instr.wf]

theorem iinv (scope : BitVec 3) (a : BitVec 6) (b : BitVec 6) : Statement (.iinv scope a b) := fun _ hw =>
  of_fc (s := scope.toNat) (op := 3) (b := b.toNat) (a := a.toNat) (d := 0) (lt_of scope (by decide)) (by decide) (lt_of b (by decide)) (lt_of a (by decide)) (by decide) rfl fun x hm h0 h1 h2 h3 h4 h5 => by
    simp only [decode32, hm, h0, h1, h2, h3, h4, h5, dec11]; simp_all [need, needP, vvv, vv0, vgg, vvg, mvv, mmm, mm0, gm0, isZ, copyOk, named, Instr.wf]

theorem prefi (a : BitVec 6) (b : BitVec 6) : Statement (.prefi a b) := fun _ hw =>
  of_fc (s := 0) (op := 5) (b := b.toNat) (a := a.toNat) (d := 0) (by decide) (by decide) (lt_of b (by decide)) (lt_of a (by decide)) (by decide) rfl fun x hm h0 h1 h2 h3 h4 h5 => by
    simp only [decode32, hm, h0, h1, h2, h3, h4, h5, dec11]; simp_all [need, needP, vvv, vv0, vgg, vvg, mvv, mmm, mm0, gm0, isZ, copyOk, named, Instr.wf]

theorem cresz (d : BitVec 6) (a : BitVec 6) : Statement (.cresz d a) := fun _ hw =>
  of_fc (s := 0) (op := 6) (b := 0) (a := a.toNat) (d := d.toNat) (by decide) (by decide) (by decide) (lt_of a (by decide)) (lt_of d (by decide)) rfl fun x hm h0 h1 h2 h3 h4 h5 => by
    simp only [decode32, hm, h0, h1, h2, h3, h4, h5, dec11]; simp_all [need, needP, vvv, vv0, vgg, vvg, mvv, mmm, mm0, gm0, isZ, copyOk, named, Instr.wf]

theorem svcUnknown (n : BitVec 9) : Statement (.svcUnknown n) := fun _ hw =>
  of_sy (lt_of n (by decide)) (by decide) (by decide) (by decide) rfl fun x hm h0 h1 h2 h3 => by
    simp only [Instr.wf, decide_eq_true_eq] at hw
    have e : decSvc n = .svcUnknown n := by
      unfold decSvc
      split <;> first | rfl | omega
    simp only [decode32, hm, h0, h1, h2, h3, dec12, BitVec.ofNat_toNat, BitVec.setWidth_eq, e]
    rfl

theorem mfs (reg : BitVec 9) (d : BitVec 6) : Statement (.mfs reg d) := fun _ hw =>
  of_sy (lt_of reg (by decide)) (by decide) (lt_of d (by decide)) (by decide) rfl fun x hm h0 h1 h2 h3 => by
    simp only [decode32, hm, h0, h1, h2, h3, dec12, decSvc]; simp_all [need, needP, vvv, vv0, vgg, vvg, mvv, mmm, mm0, gm0, isZ, copyOk, named, Instr.wf]

theorem mts (reg : BitVec 9) (a : BitVec 6) : Statement (.mts reg a) := fun _ hw =>
  of_sy (lt_of reg (by decide)) (lt_of a (by decide)) (by decide) (by decide) rfl fun x hm h0 h1 h2 h3 => by
    simp only [decode32, hm, h0, h1, h2, h3, dec12, decSvc]; simp_all [need, needP, vvv, vv0, vgg, vvg, mvv, mmm, mm0, gm0, isZ, copyOk, named, Instr.wf]

theorem mon (d : BitVec 6) (a : BitVec 6) : Statement (.mon d a) := fun _ hw =>
  of_sy (by decide) (lt_of a (by decide)) (lt_of d (by decide)) (by decide) rfl fun x hm h0 h1 h2 h3 => by
    simp only [decode32, hm, h0, h1, h2, h3, dec12, decSvc]; simp_all [need, needP, vvv, vv0, vgg, vvg, mvv, mmm, mm0, gm0, isZ, copyOk, named, Instr.wf]

theorem mwait (d : BitVec 6) (a : BitVec 6) : Statement (.mwait d a) := fun _ hw =>
  of_sy (by decide) (lt_of a (by decide)) (lt_of d (by decide)) (by decide) rfl fun x hm h0 h1 h2 h3 => by
    simp only [decode32, hm, h0, h1, h2, h3, dec12, decSvc]; simp_all [need, needP, vvv, vv0, vgg, vvg, mvv, mmm, mm0, gm0, isZ, copyOk, named, Instr.wf]

theorem tlbiPage (a : BitVec 6) (d : BitVec 6) : Statement (.tlbiPage a d) := fun _ hw =>
  of_sy (by decide) (lt_of a (by decide)) (lt_of d (by decide)) (by decide) rfl fun x hm h0 h1 h2 h3 => by
    simp only [decode32, hm, h0, h1, h2, h3, dec12, decSvc]; simp_all [need, needP, vvv, vv0, vgg, vvg, mvv, mmm, mm0, gm0, isZ, copyOk, named, Instr.wf]

theorem tlbiAsid (d : BitVec 6) : Statement (.tlbiAsid d) := fun _ hw =>
  of_sy (by decide) (by decide) (lt_of d (by decide)) (by decide) rfl fun x hm h0 h1 h2 h3 => by
    simp only [decode32, hm, h0, h1, h2, h3, dec12, decSvc]; simp_all [need, needP, vvv, vv0, vgg, vvg, mvv, mmm, mm0, gm0, isZ, copyOk, named, Instr.wf]

theorem kslot (d : BitVec 6) (a : BitVec 6) : Statement (.kslot d a) := fun _ hw =>
  of_sy (by decide) (lt_of a (by decide)) (lt_of d (by decide)) (by decide) rfl fun x hm h0 h1 h2 h3 => by
    simp only [decode32, hm, h0, h1, h2, h3, dec12, decSvc]; simp_all [need, needP, vvv, vv0, vgg, vvg, mvv, mmm, mm0, gm0, isZ, copyOk, named, Instr.wf]

theorem kslotStat (d : BitVec 6) (a : BitVec 6) : Statement (.kslotStat d a) := fun _ hw =>
  of_sy (by decide) (lt_of a (by decide)) (lt_of d (by decide)) (by decide) rfl fun x hm h0 h1 h2 h3 => by
    simp only [decode32, hm, h0, h1, h2, h3, dec12, decSvc]; simp_all [need, needP, vvv, vv0, vgg, vvg, mvv, mmm, mm0, gm0, isZ, copyOk, named, Instr.wf]

theorem pfxMask (ce : BitVec 1) (copy : BitVec 6) (pred : BitVec 3) (neg : BitVec 1) : Statement (.pfxMask ce copy pred neg) := fun _ hw =>
  of_px (lt_of ce (by decide)) (lt_of copy (by decide)) (by decide) (lt_of pred (by decide)) (lt_of neg (by decide)) (by decide) rfl fun x hm h0 h1 h2 h3 h4 h5 h6 => by
    simp only [decode32, hm, h0, h1, h2, h3, h4, h5, h6, dec13]; simp_all [need, needP, vvv, vv0, vgg, vvg, mvv, mmm, mm0, gm0, isZ, copyOk, named, Instr.wf]

theorem pfxCond (ce : BitVec 1) (copy : BitVec 6) (cond : BitVec 3) (pred : BitVec 6) : Statement (.pfxCond ce copy cond pred) := fun _ hw =>
  of_px (lt_of ce (by decide)) (lt_of copy (by decide)) (lt_of cond (by decide)) (lt_of pred (by decide)) (by decide) (by decide) rfl fun x hm h0 h1 h2 h3 h4 h5 h6 => by
    simp only [decode32, hm, h0, h1, h2, h3, h4, h5, h6, dec13]; simp_all [need, needP, vvv, vv0, vgg, vvg, mvv, mmm, mm0, gm0, isZ, copyOk, named, Instr.wf]

theorem pfxCopy (copy : BitVec 6) : Statement (.pfxCopy copy) := fun _ hw =>
  of_px (by decide) (lt_of copy (by decide)) (by decide) (by decide) (by decide) (by decide) rfl fun x hm h0 h1 h2 h3 h4 h5 h6 => by
    simp only [decode32, hm, h0, h1, h2, h3, h4, h5, h6, dec13]; simp_all [need, needP, vvv, vv0, vgg, vvg, mvv, mmm, mm0, gm0, isZ, copyOk, named, Instr.wf]

theorem fadd (fmt : BitVec 2) (var : BitVec 2) (d : BitVec 6) (a : BitVec 6) (b : BitVec 6) : Statement (.fadd fmt var d a b) := fun _ hw =>
  of_fp (op := 0) (fmt := fmt.toNat) (var := var.toNat) (b := b.toNat) (a := a.toNat) (d := d.toNat) (by decide) (lt_of fmt (by decide)) (lt_of var (by decide)) (lt_of b (by decide)) (lt_of a (by decide)) (lt_of d (by decide)) (congrArg (fun w => some (true, w)) (by unfold packRR; omega)) fun x hm h0 h1 h2 h3 h4 h5 => by
    simp only [decode32, hm, h0, h1, h2, h3, h4, h5, dec14]; simp_all [need, needP, vvv, vv0, vgg, vvg, mvv, mmm, mm0, gm0, isZ, copyOk, named, Instr.wf]

theorem fsub (fmt : BitVec 2) (var : BitVec 2) (d : BitVec 6) (a : BitVec 6) (b : BitVec 6) : Statement (.fsub fmt var d a b) := fun _ hw =>
  of_fp (op := 1) (fmt := fmt.toNat) (var := var.toNat) (b := b.toNat) (a := a.toNat) (d := d.toNat) (by decide) (lt_of fmt (by decide)) (lt_of var (by decide)) (lt_of b (by decide)) (lt_of a (by decide)) (lt_of d (by decide)) (congrArg (fun w => some (true, w)) (by unfold packRR; omega)) fun x hm h0 h1 h2 h3 h4 h5 => by
    simp only [decode32, hm, h0, h1, h2, h3, h4, h5, dec14]; simp_all [need, needP, vvv, vv0, vgg, vvg, mvv, mmm, mm0, gm0, isZ, copyOk, named, Instr.wf]

theorem fmul (fmt : BitVec 2) (var : BitVec 2) (d : BitVec 6) (a : BitVec 6) (b : BitVec 6) : Statement (.fmul fmt var d a b) := fun _ hw =>
  of_fp (op := 2) (fmt := fmt.toNat) (var := var.toNat) (b := b.toNat) (a := a.toNat) (d := d.toNat) (by decide) (lt_of fmt (by decide)) (lt_of var (by decide)) (lt_of b (by decide)) (lt_of a (by decide)) (lt_of d (by decide)) (congrArg (fun w => some (true, w)) (by unfold packRR; omega)) fun x hm h0 h1 h2 h3 h4 h5 => by
    simp only [decode32, hm, h0, h1, h2, h3, h4, h5, dec14]; simp_all [need, needP, vvv, vv0, vgg, vvg, mvv, mmm, mm0, gm0, isZ, copyOk, named, Instr.wf]

theorem fdiv (fmt : BitVec 2) (var : BitVec 2) (d : BitVec 6) (a : BitVec 6) (b : BitVec 6) : Statement (.fdiv fmt var d a b) := fun _ hw =>
  of_fp (op := 3) (fmt := fmt.toNat) (var := var.toNat) (b := b.toNat) (a := a.toNat) (d := d.toNat) (by decide) (lt_of fmt (by decide)) (lt_of var (by decide)) (lt_of b (by decide)) (lt_of a (by decide)) (lt_of d (by decide)) (congrArg (fun w => some (true, w)) (by unfold packRR; omega)) fun x hm h0 h1 h2 h3 h4 h5 => by
    simp only [decode32, hm, h0, h1, h2, h3, h4, h5, dec14]; simp_all [need, needP, vvv, vv0, vgg, vvg, mvv, mmm, mm0, gm0, isZ, copyOk, named, Instr.wf]

theorem fma (fmt : BitVec 2) (d : BitVec 6) (a : BitVec 6) (b : BitVec 6) : Statement (.fma fmt d a b) := fun _ hw =>
  of_fp (op := 4) (fmt := fmt.toNat) (var := 0) (b := b.toNat) (a := a.toNat) (d := d.toNat) (by decide) (lt_of fmt (by decide)) (by decide) (lt_of b (by decide)) (lt_of a (by decide)) (lt_of d (by decide)) (congrArg (fun w => some (true, w)) (by unfold packRR; omega)) fun x hm h0 h1 h2 h3 h4 h5 => by
    simp only [decode32, hm, h0, h1, h2, h3, h4, h5, dec14]; simp_all [need, needP, vvv, vv0, vgg, vvg, mvv, mmm, mm0, gm0, isZ, copyOk, named, Instr.wf]

theorem fmaSub (fmt : BitVec 2) (d : BitVec 6) (a : BitVec 6) (b : BitVec 6) : Statement (.fmaSub fmt d a b) := fun _ hw =>
  of_fp (op := 4) (fmt := fmt.toNat) (var := 1) (b := b.toNat) (a := a.toNat) (d := d.toNat) (by decide) (lt_of fmt (by decide)) (by decide) (lt_of b (by decide)) (lt_of a (by decide)) (lt_of d (by decide)) (congrArg (fun w => some (true, w)) (by unfold packRR; omega)) fun x hm h0 h1 h2 h3 h4 h5 => by
    simp only [decode32, hm, h0, h1, h2, h3, h4, h5, dec14]; simp_all [need, needP, vvv, vv0, vgg, vvg, mvv, mmm, mm0, gm0, isZ, copyOk, named, Instr.wf]

theorem fmaNeg (fmt : BitVec 2) (d : BitVec 6) (a : BitVec 6) (b : BitVec 6) : Statement (.fmaNeg fmt d a b) := fun _ hw =>
  of_fp (op := 4) (fmt := fmt.toNat) (var := 2) (b := b.toNat) (a := a.toNat) (d := d.toNat) (by decide) (lt_of fmt (by decide)) (by decide) (lt_of b (by decide)) (lt_of a (by decide)) (lt_of d (by decide)) (congrArg (fun w => some (true, w)) (by unfold packRR; omega)) fun x hm h0 h1 h2 h3 h4 h5 => by
    simp only [decode32, hm, h0, h1, h2, h3, h4, h5, dec14]; simp_all [need, needP, vvv, vv0, vgg, vvg, mvv, mmm, mm0, gm0, isZ, copyOk, named, Instr.wf]

theorem fminmaxMin (fmt : BitVec 2) (d : BitVec 6) (a : BitVec 6) (b : BitVec 6) : Statement (.fminmaxMin fmt d a b) := fun _ hw =>
  of_fp (op := 5) (fmt := fmt.toNat) (var := 0) (b := b.toNat) (a := a.toNat) (d := d.toNat) (by decide) (lt_of fmt (by decide)) (by decide) (lt_of b (by decide)) (lt_of a (by decide)) (lt_of d (by decide)) (congrArg (fun w => some (true, w)) (by unfold packRR; omega)) fun x hm h0 h1 h2 h3 h4 h5 => by
    simp only [decode32, hm, h0, h1, h2, h3, h4, h5, dec14]; simp_all [need, needP, vvv, vv0, vgg, vvg, mvv, mmm, mm0, gm0, isZ, copyOk, named, Instr.wf]

theorem fminmaxMax (fmt : BitVec 2) (d : BitVec 6) (a : BitVec 6) (b : BitVec 6) : Statement (.fminmaxMax fmt d a b) := fun _ hw =>
  of_fp (op := 5) (fmt := fmt.toNat) (var := 1) (b := b.toNat) (a := a.toNat) (d := d.toNat) (by decide) (lt_of fmt (by decide)) (by decide) (lt_of b (by decide)) (lt_of a (by decide)) (lt_of d (by decide)) (congrArg (fun w => some (true, w)) (by unfold packRR; omega)) fun x hm h0 h1 h2 h3 h4 h5 => by
    simp only [decode32, hm, h0, h1, h2, h3, h4, h5, dec14]; simp_all [need, needP, vvv, vv0, vgg, vvg, mvv, mmm, mm0, gm0, isZ, copyOk, named, Instr.wf]

theorem fminmaxMinnum (fmt : BitVec 2) (d : BitVec 6) (a : BitVec 6) (b : BitVec 6) : Statement (.fminmaxMinnum fmt d a b) := fun _ hw =>
  of_fp (op := 5) (fmt := fmt.toNat) (var := 2) (b := b.toNat) (a := a.toNat) (d := d.toNat) (by decide) (lt_of fmt (by decide)) (by decide) (lt_of b (by decide)) (lt_of a (by decide)) (lt_of d (by decide)) (congrArg (fun w => some (true, w)) (by unfold packRR; omega)) fun x hm h0 h1 h2 h3 h4 h5 => by
    simp only [decode32, hm, h0, h1, h2, h3, h4, h5, dec14]; simp_all [need, needP, vvv, vv0, vgg, vvg, mvv, mmm, mm0, gm0, isZ, copyOk, named, Instr.wf]

theorem fminmaxMaxnum (fmt : BitVec 2) (d : BitVec 6) (a : BitVec 6) (b : BitVec 6) : Statement (.fminmaxMaxnum fmt d a b) := fun _ hw =>
  of_fp (op := 5) (fmt := fmt.toNat) (var := 3) (b := b.toNat) (a := a.toNat) (d := d.toNat) (by decide) (lt_of fmt (by decide)) (by decide) (lt_of b (by decide)) (lt_of a (by decide)) (lt_of d (by decide)) (congrArg (fun w => some (true, w)) (by unfold packRR; omega)) fun x hm h0 h1 h2 h3 h4 h5 => by
    simp only [decode32, hm, h0, h1, h2, h3, h4, h5, dec14]; simp_all [need, needP, vvv, vv0, vgg, vvg, mvv, mmm, mm0, gm0, isZ, copyOk, named, Instr.wf]

theorem fcvtFloat (fmt : BitVec 2) (src : BitVec 2) (d : BitVec 6) (a : BitVec 6) : Statement (.fcvtFloat fmt src d a) := fun _ hw =>
  of_fp (op := 6) (fmt := fmt.toNat) (var := 0) (b := src.toNat) (a := a.toNat) (d := d.toNat) (by decide) (lt_of fmt (by decide)) (by decide) (lt_of src (by decide)) (lt_of a (by decide)) (lt_of d (by decide)) (congrArg (fun w => some (true, w)) (by unfold packRR; omega)) fun x hm h0 h1 h2 h3 h4 h5 => by
    have := src.isLt
    have e : BitVec.ofNat 2 (src.toNat % 64) = src := BitVec.eq_of_toNat_eq (by rw [BitVec.toNat_ofNat]; omega)
    have e' : src.toNat % 64 < 4 := by omega
    simp only [decode32, hm, h0, h1, h2, h3, h4, h5, dec14]; simp [need, named, e, e']

theorem fcvtFromInt (fmt : BitVec 2) (uns : BitVec 1) (d : BitVec 6) (a : BitVec 6) : Statement (.fcvtFromInt fmt uns d a) := fun _ hw =>
  of_fp (op := 6) (fmt := fmt.toNat) (var := 1) (b := uns.toNat) (a := a.toNat) (d := d.toNat) (by decide) (lt_of fmt (by decide)) (by decide) (lt_of uns (by decide)) (lt_of a (by decide)) (lt_of d (by decide)) (congrArg (fun w => some (true, w)) (by unfold packRR; omega)) fun x hm h0 h1 h2 h3 h4 h5 => by
    have := uns.isLt
    have e : BitVec.ofNat 1 (uns.toNat % 64) = uns := BitVec.eq_of_toNat_eq (by rw [BitVec.toNat_ofNat]; omega)
    have e' : uns.toNat % 64 < 2 := by omega
    simp only [decode32, hm, h0, h1, h2, h3, h4, h5, dec14]; simp [need, named, e, e']

theorem fcvtToInt (fmt : BitVec 2) (uns : BitVec 1) (rtz : BitVec 1) (d : BitVec 6) (a : BitVec 6) : Statement (.fcvtToInt fmt uns rtz d a) := fun _ hw =>
  of_fp (op := 6) (fmt := fmt.toNat) (var := 2) (b := (uns.toNat + 2 * rtz.toNat)) (a := a.toNat) (d := d.toNat) (by decide) (lt_of fmt (by decide)) (by decide) (by have := uns.isLt; have := rtz.isLt; omega) (lt_of a (by decide)) (lt_of d (by decide)) (congrArg (fun w => some (true, w)) (by unfold packRR; omega)) fun x hm h0 h1 h2 h3 h4 h5 => by
    have := uns.isLt
    have := rtz.isLt
    have e : BitVec.ofNat 1 ((uns.toNat + 2 * rtz.toNat) % 64) = uns := BitVec.eq_of_toNat_eq (by rw [BitVec.toNat_ofNat]; omega)
    have e1 : BitVec.ofNat 1 ((uns.toNat + 2 * rtz.toNat) % 64 / 2) = rtz := BitVec.eq_of_toNat_eq (by rw [BitVec.toNat_ofNat]; omega)
    have e' : (uns.toNat + 2 * rtz.toNat) % 64 < 4 := by omega
    simp only [decode32, hm, h0, h1, h2, h3, h4, h5, dec14, BitVec.toNat_ofNat, need]; simp_all [named]

theorem fcmpEq (fmt : BitVec 2) (d : BitVec 6) (a : BitVec 6) (b : BitVec 6) : Statement (.fcmpEq fmt d a b) := fun _ hw =>
  of_fp (op := 7) (fmt := fmt.toNat) (var := 0) (b := b.toNat) (a := a.toNat) (d := d.toNat) (by decide) (lt_of fmt (by decide)) (by decide) (lt_of b (by decide)) (lt_of a (by decide)) (lt_of d (by decide)) (congrArg (fun w => some (true, w)) (by unfold packRR; omega)) fun x hm h0 h1 h2 h3 h4 h5 => by
    simp only [decode32, hm, h0, h1, h2, h3, h4, h5, dec14]; simp_all [need, needP, vvv, vv0, vgg, vvg, mvv, mmm, mm0, gm0, isZ, copyOk, named, Instr.wf]

theorem fcmpLt (fmt : BitVec 2) (d : BitVec 6) (a : BitVec 6) (b : BitVec 6) : Statement (.fcmpLt fmt d a b) := fun _ hw =>
  of_fp (op := 7) (fmt := fmt.toNat) (var := 1) (b := b.toNat) (a := a.toNat) (d := d.toNat) (by decide) (lt_of fmt (by decide)) (by decide) (lt_of b (by decide)) (lt_of a (by decide)) (lt_of d (by decide)) (congrArg (fun w => some (true, w)) (by unfold packRR; omega)) fun x hm h0 h1 h2 h3 h4 h5 => by
    simp only [decode32, hm, h0, h1, h2, h3, h4, h5, dec14]; simp_all [need, needP, vvv, vv0, vgg, vvg, mvv, mmm, mm0, gm0, isZ, copyOk, named, Instr.wf]

theorem fcmpLe (fmt : BitVec 2) (d : BitVec 6) (a : BitVec 6) (b : BitVec 6) : Statement (.fcmpLe fmt d a b) := fun _ hw =>
  of_fp (op := 7) (fmt := fmt.toNat) (var := 2) (b := b.toNat) (a := a.toNat) (d := d.toNat) (by decide) (lt_of fmt (by decide)) (by decide) (lt_of b (by decide)) (lt_of a (by decide)) (lt_of d (by decide)) (congrArg (fun w => some (true, w)) (by unfold packRR; omega)) fun x hm h0 h1 h2 h3 h4 h5 => by
    simp only [decode32, hm, h0, h1, h2, h3, h4, h5, dec14]; simp_all [need, needP, vvv, vv0, vgg, vvg, mvv, mmm, mm0, gm0, isZ, copyOk, named, Instr.wf]

theorem fcmpUn (fmt : BitVec 2) (d : BitVec 6) (a : BitVec 6) (b : BitVec 6) : Statement (.fcmpUn fmt d a b) := fun _ hw =>
  of_fp (op := 7) (fmt := fmt.toNat) (var := 3) (b := b.toNat) (a := a.toNat) (d := d.toNat) (by decide) (lt_of fmt (by decide)) (by decide) (lt_of b (by decide)) (lt_of a (by decide)) (lt_of d (by decide)) (congrArg (fun w => some (true, w)) (by unfold packRR; omega)) fun x hm h0 h1 h2 h3 h4 h5 => by
    simp only [decode32, hm, h0, h1, h2, h3, h4, h5, dec14]; simp_all [need, needP, vvv, vv0, vgg, vvg, mvv, mmm, mm0, gm0, isZ, copyOk, named, Instr.wf]

theorem setvl (blk : BitVec 3) (mpol : BitVec 1) (tail : BitVec 1) (grp : BitVec 2) (fmt : BitVec 5) (d : BitVec 6) (a : BitVec 6) : Statement (.setvl blk mpol tail grp fmt d a) := by
  intro _ hw
  have h_blk := blk.isLt
  have h_mpol := mpol.isLt
  have h_tail := tail.isLt
  have h_grp := grp.isLt
  have h_fmt := fmt.isLt
  have h_d := d.isLt
  have h_a := a.isLt
  obtain ⟨x, hx⟩ : ∃ x, x = 43 + 128 * d.toNat + 8192 * a.toNat + 1048576 * fmt.toNat + 33554432 * grp.toNat + 134217728 * tail.toNat + 268435456 * mpol.toNat + 536870912 * blk.toNat := ⟨_, rfl⟩
  have he : encode (.setvl blk mpol tail grp fmt d a) = some (true, x) := by rw [hx]; rfl
  refine of_word he (by omega) (by omega) ?_
  have hm : x / 2 % 64 = 21 := by omega
  have f0 : fld x 7 6 = d := fld_eq (by
    try simp only [BitVec.toNat_setWidth, BitVec.toNat_ofNat]
    omega)
  have f1 : fld x 13 6 = a := fld_eq (by
    try simp only [BitVec.toNat_setWidth, BitVec.toNat_ofNat]
    omega)
  have f2 : fld x 19 1 = 0#1 := fld_eq (by
    try simp only [BitVec.toNat_setWidth, BitVec.toNat_ofNat]
    omega)
  have f3 : fld x 20 5 = fmt := fld_eq (by
    try simp only [BitVec.toNat_setWidth, BitVec.toNat_ofNat]
    omega)
  have f4 : fld x 25 2 = grp := fld_eq (by
    try simp only [BitVec.toNat_setWidth, BitVec.toNat_ofNat]
    omega)
  have f5 : fld x 27 1 = tail := fld_eq (by
    try simp only [BitVec.toNat_setWidth, BitVec.toNat_ofNat]
    omega)
  have f6 : fld x 28 1 = mpol := fld_eq (by
    try simp only [BitVec.toNat_setWidth, BitVec.toNat_ofNat]
    omega)
  have f7 : fld x 29 3 = blk := fld_eq (by
    try simp only [BitVec.toNat_setWidth, BitVec.toNat_ofNat]
    omega)
  show decode32 x = _
  simp only [decode32, hm, f0, f1, f2, f3, f4, f5, f6, f7, dec15]; simp_all [need, needP, vvv, vv0, vgg, vvg, mvv, mmm, mm0, gm0, isZ, copyOk, named, Instr.wf]

theorem advmg (sh : BitVec 4) (d : BitVec 6) (a : BitVec 6) : Statement (.advmg sh d a) := by
  intro _ hw
  have h_sh := sh.isLt
  have h_d := d.isLt
  have h_a := a.isLt
  obtain ⟨x, hx⟩ : ∃ x, x = 524331 + 128 * d.toNat + 8192 * a.toNat + 1048576 * sh.toNat := ⟨_, rfl⟩
  have he : encode (.advmg sh d a) = some (true, x) := by rw [hx]; rfl
  refine of_word he (by omega) (by omega) ?_
  have hm : x / 2 % 64 = 21 := by omega
  have f0 : fld x 7 6 = d := fld_eq (by
    try simp only [BitVec.toNat_setWidth, BitVec.toNat_ofNat]
    omega)
  have f1 : fld x 13 6 = a := fld_eq (by
    try simp only [BitVec.toNat_setWidth, BitVec.toNat_ofNat]
    omega)
  have f2 : fld x 19 1 = 1#1 := fld_eq (by
    try simp only [BitVec.toNat_setWidth, BitVec.toNat_ofNat]
    omega)
  have f3 : fld x 20 4 = sh := fld_eq (by
    try simp only [BitVec.toNat_setWidth, BitVec.toNat_ofNat]
    omega)
  have f4 : fld x 24 8 = 0#8 := fld_eq (by
    try simp only [BitVec.toNat_setWidth, BitVec.toNat_ofNat]
    omega)
  show decode32 x = _
  simp only [decode32, hm, f0, f1, f2, f3, f4, dec15]; simp_all [need, needP, vvv, vv0, vgg, vvg, mvv, mmm, mm0, gm0, isZ, copyOk, named, Instr.wf]

theorem launch (d : BitVec 6) (a : BitVec 6) : Statement (.launch d a) := fun _ hw =>
  of_v (by decide) (by decide) (by decide) (by decide) (lt_of a (by decide)) (lt_of d (by decide)) rfl fun x hm h0 h1 h2 h3 h4 => by
    simp only [decode32, hm, h0, h1, h2, h3, h4, dec16]; simp_all [need, needP, vvv, vv0, vgg, vvg, mvv, mmm, mm0, gm0, isZ, copyOk, named, Instr.wf]

theorem spawn (m : BitVec 3) (d : BitVec 6) (a : BitVec 5) (b : BitVec 6) : Statement (.spawn m d a b) := fun _ hw =>
  of_v (by decide) (by decide) (lt_of m (by decide)) (lt_of b (by decide)) (lt_of a (by decide)) (lt_of d (by decide)) rfl fun x hm h0 h1 h2 h3 h4 => by
    simp only [decode32, hm, h0, h1, h2, h3, h4, dec16]; simp_all [need, needP, vvv, vv0, vgg, vvg, mvv, mmm, mm0, gm0, isZ, copyOk, named, Instr.wf]

theorem join (a : BitVec 6) : Statement (.join a) := fun _ hw =>
  of_v (by decide) (by decide) (by decide) (by decide) (lt_of a (by decide)) (by decide) rfl fun x hm h0 h1 h2 h3 h4 => by
    simp only [decode32, hm, h0, h1, h2, h3, h4, dec16]; simp_all [need, needP, vvv, vv0, vgg, vvg, mvv, mmm, mm0, gm0, isZ, copyOk, named, Instr.wf]

theorem tend (a : BitVec 6) : Statement (.tend a) := fun _ hw =>
  of_v (by decide) (by decide) (by decide) (by decide) (lt_of a (by decide)) (by decide) rfl fun x hm h0 h1 h2 h3 h4 => by
    simp only [decode32, hm, h0, h1, h2, h3, h4, dec16]; simp_all [need, needP, vvv, vv0, vgg, vvg, mvv, mmm, mm0, gm0, isZ, copyOk, named, Instr.wf]

theorem bar (d : BitVec 6) : Statement (.bar d) := fun _ hw =>
  of_v (by decide) (by decide) (by decide) (by decide) (by decide) (lt_of d (by decide)) rfl fun x hm h0 h1 h2 h3 h4 => by
    simp only [decode32, hm, h0, h1, h2, h3, h4, dec16]; simp_all [need, needP, vvv, vv0, vgg, vvg, mvv, mmm, mm0, gm0, isZ, copyOk, named, Instr.wf]

theorem post (a : BitVec 6) : Statement (.post a) := fun _ hw =>
  of_v (by decide) (by decide) (by decide) (by decide) (lt_of a (by decide)) (by decide) rfl fun x hm h0 h1 h2 h3 h4 => by
    simp only [decode32, hm, h0, h1, h2, h3, h4, dec16]; simp_all [need, needP, vvv, vv0, vgg, vvg, mvv, mmm, mm0, gm0, isZ, copyOk, named, Instr.wf]

theorem waiti (a : BitVec 6) : Statement (.waiti a) := fun _ hw =>
  of_v (by decide) (by decide) (by decide) (by decide) (lt_of a (by decide)) (by decide) rfl fun x hm h0 h1 h2 h3 h4 => by
    simp only [decode32, hm, h0, h1, h2, h3, h4, dec16]; simp_all [need, needP, vvv, vv0, vgg, vvg, mvv, mmm, mm0, gm0, isZ, copyOk, named, Instr.wf]

theorem vadd (m : BitVec 3) (d : BitVec 5) (a : BitVec 5) (b : BitVec 5) : Statement (.vadd m d a b) := fun _ hw =>
  of_v (by decide) (by decide) (lt_of m (by decide)) (lt_of b (by decide)) (lt_of a (by decide)) (lt_of d (by decide)) rfl fun x hm h0 h1 h2 h3 h4 => by
    simp only [decode32, hm, h0, h1, h2, h3, h4, dec18]; simp_all [need, needP, vvv, vv0, vgg, vvg, mvv, mmm, mm0, gm0, isZ, copyOk, named, Instr.wf]

theorem vsub (m : BitVec 3) (d : BitVec 5) (a : BitVec 5) (b : BitVec 5) : Statement (.vsub m d a b) := fun _ hw =>
  of_v (by decide) (by decide) (lt_of m (by decide)) (lt_of b (by decide)) (lt_of a (by decide)) (lt_of d (by decide)) rfl fun x hm h0 h1 h2 h3 h4 => by
    simp only [decode32, hm, h0, h1, h2, h3, h4, dec18]; simp_all [need, needP, vvv, vv0, vgg, vvg, mvv, mmm, mm0, gm0, isZ, copyOk, named, Instr.wf]

theorem vmul (m : BitVec 3) (d : BitVec 5) (a : BitVec 5) (b : BitVec 5) : Statement (.vmul m d a b) := fun _ hw =>
  of_v (by decide) (by decide) (lt_of m (by decide)) (lt_of b (by decide)) (lt_of a (by decide)) (lt_of d (by decide)) rfl fun x hm h0 h1 h2 h3 h4 => by
    simp only [decode32, hm, h0, h1, h2, h3, h4, dec18]; simp_all [need, needP, vvv, vv0, vgg, vvg, mvv, mmm, mm0, gm0, isZ, copyOk, named, Instr.wf]

theorem vdiv (m : BitVec 3) (d : BitVec 5) (a : BitVec 5) (b : BitVec 5) : Statement (.vdiv m d a b) := fun _ hw =>
  of_v (by decide) (by decide) (lt_of m (by decide)) (lt_of b (by decide)) (lt_of a (by decide)) (lt_of d (by decide)) rfl fun x hm h0 h1 h2 h3 h4 => by
    simp only [decode32, hm, h0, h1, h2, h3, h4, dec18]; simp_all [need, needP, vvv, vv0, vgg, vvg, mvv, mmm, mm0, gm0, isZ, copyOk, named, Instr.wf]

theorem vsqrt (m : BitVec 3) (d : BitVec 5) (a : BitVec 5) : Statement (.vsqrt m d a) := fun _ hw =>
  of_v (by decide) (by decide) (lt_of m (by decide)) (by decide) (lt_of a (by decide)) (lt_of d (by decide)) rfl fun x hm h0 h1 h2 h3 h4 => by
    simp only [decode32, hm, h0, h1, h2, h3, h4, dec18]; simp_all [need, needP, vvv, vv0, vgg, vvg, mvv, mmm, mm0, gm0, isZ, copyOk, named, Instr.wf]

theorem vmin (m : BitVec 3) (d : BitVec 5) (a : BitVec 5) (b : BitVec 5) : Statement (.vmin m d a b) := fun _ hw =>
  of_v (by decide) (by decide) (lt_of m (by decide)) (lt_of b (by decide)) (lt_of a (by decide)) (lt_of d (by decide)) rfl fun x hm h0 h1 h2 h3 h4 => by
    simp only [decode32, hm, h0, h1, h2, h3, h4, dec18]; simp_all [need, needP, vvv, vv0, vgg, vvg, mvv, mmm, mm0, gm0, isZ, copyOk, named, Instr.wf]

theorem vmax (m : BitVec 3) (d : BitVec 5) (a : BitVec 5) (b : BitVec 5) : Statement (.vmax m d a b) := fun _ hw =>
  of_v (by decide) (by decide) (lt_of m (by decide)) (lt_of b (by decide)) (lt_of a (by decide)) (lt_of d (by decide)) rfl fun x hm h0 h1 h2 h3 h4 => by
    simp only [decode32, hm, h0, h1, h2, h3, h4, dec18]; simp_all [need, needP, vvv, vv0, vgg, vvg, mvv, mmm, mm0, gm0, isZ, copyOk, named, Instr.wf]

theorem vabs (m : BitVec 3) (d : BitVec 5) (a : BitVec 5) : Statement (.vabs m d a) := fun _ hw =>
  of_v (by decide) (by decide) (lt_of m (by decide)) (by decide) (lt_of a (by decide)) (lt_of d (by decide)) rfl fun x hm h0 h1 h2 h3 h4 => by
    simp only [decode32, hm, h0, h1, h2, h3, h4, dec18]; simp_all [need, needP, vvv, vv0, vgg, vvg, mvv, mmm, mm0, gm0, isZ, copyOk, named, Instr.wf]

theorem vneg (m : BitVec 3) (d : BitVec 5) (a : BitVec 5) : Statement (.vneg m d a) := fun _ hw =>
  of_v (by decide) (by decide) (lt_of m (by decide)) (by decide) (lt_of a (by decide)) (lt_of d (by decide)) rfl fun x hm h0 h1 h2 h3 h4 => by
    simp only [decode32, hm, h0, h1, h2, h3, h4, dec18]; simp_all [need, needP, vvv, vv0, vgg, vvg, mvv, mmm, mm0, gm0, isZ, copyOk, named, Instr.wf]

theorem vfma (m : BitVec 3) (d : BitVec 5) (a : BitVec 5) (b : BitVec 5) : Statement (.vfma m d a b) := fun _ hw =>
  of_v (by decide) (by decide) (lt_of m (by decide)) (lt_of b (by decide)) (lt_of a (by decide)) (lt_of d (by decide)) rfl fun x hm h0 h1 h2 h3 h4 => by
    simp only [decode32, hm, h0, h1, h2, h3, h4, dec18]; simp_all [need, needP, vvv, vv0, vgg, vvg, mvv, mmm, mm0, gm0, isZ, copyOk, named, Instr.wf]

theorem vfms (m : BitVec 3) (d : BitVec 5) (a : BitVec 5) (b : BitVec 5) : Statement (.vfms m d a b) := fun _ hw =>
  of_v (by decide) (by decide) (lt_of m (by decide)) (lt_of b (by decide)) (lt_of a (by decide)) (lt_of d (by decide)) rfl fun x hm h0 h1 h2 h3 h4 => by
    simp only [decode32, hm, h0, h1, h2, h3, h4, dec18]; simp_all [need, needP, vvv, vv0, vgg, vvg, mvv, mmm, mm0, gm0, isZ, copyOk, named, Instr.wf]

theorem vfnma (m : BitVec 3) (d : BitVec 5) (a : BitVec 5) (b : BitVec 5) : Statement (.vfnma m d a b) := fun _ hw =>
  of_v (by decide) (by decide) (lt_of m (by decide)) (lt_of b (by decide)) (lt_of a (by decide)) (lt_of d (by decide)) rfl fun x hm h0 h1 h2 h3 h4 => by
    simp only [decode32, hm, h0, h1, h2, h3, h4, dec18]; simp_all [need, needP, vvv, vv0, vgg, vvg, mvv, mmm, mm0, gm0, isZ, copyOk, named, Instr.wf]

theorem vand (m : BitVec 3) (d : BitVec 5) (a : BitVec 5) (b : BitVec 5) : Statement (.vand m d a b) := fun _ hw =>
  of_v (by decide) (by decide) (lt_of m (by decide)) (lt_of b (by decide)) (lt_of a (by decide)) (lt_of d (by decide)) rfl fun x hm h0 h1 h2 h3 h4 => by
    simp only [decode32, hm, h0, h1, h2, h3, h4, dec19]; simp_all [need, needP, vvv, vv0, vgg, vvg, mvv, mmm, mm0, gm0, isZ, copyOk, named, Instr.wf]

theorem vor (m : BitVec 3) (d : BitVec 5) (a : BitVec 5) (b : BitVec 5) : Statement (.vor m d a b) := fun _ hw =>
  of_v (by decide) (by decide) (lt_of m (by decide)) (lt_of b (by decide)) (lt_of a (by decide)) (lt_of d (by decide)) rfl fun x hm h0 h1 h2 h3 h4 => by
    simp only [decode32, hm, h0, h1, h2, h3, h4, dec19]; simp_all [need, needP, vvv, vv0, vgg, vvg, mvv, mmm, mm0, gm0, isZ, copyOk, named, Instr.wf]

theorem vxor (m : BitVec 3) (d : BitVec 5) (a : BitVec 5) (b : BitVec 5) : Statement (.vxor m d a b) := fun _ hw =>
  of_v (by decide) (by decide) (lt_of m (by decide)) (lt_of b (by decide)) (lt_of a (by decide)) (lt_of d (by decide)) rfl fun x hm h0 h1 h2 h3 h4 => by
    simp only [decode32, hm, h0, h1, h2, h3, h4, dec19]; simp_all [need, needP, vvv, vv0, vgg, vvg, mvv, mmm, mm0, gm0, isZ, copyOk, named, Instr.wf]

theorem vnot (m : BitVec 3) (d : BitVec 5) (a : BitVec 5) : Statement (.vnot m d a) := fun _ hw =>
  of_v (by decide) (by decide) (lt_of m (by decide)) (by decide) (lt_of a (by decide)) (lt_of d (by decide)) rfl fun x hm h0 h1 h2 h3 h4 => by
    simp only [decode32, hm, h0, h1, h2, h3, h4, dec19]; simp_all [need, needP, vvv, vv0, vgg, vvg, mvv, mmm, mm0, gm0, isZ, copyOk, named, Instr.wf]

theorem vshl (m : BitVec 3) (d : BitVec 5) (a : BitVec 5) (b : BitVec 5) : Statement (.vshl m d a b) := fun _ hw =>
  of_v (by decide) (by decide) (lt_of m (by decide)) (lt_of b (by decide)) (lt_of a (by decide)) (lt_of d (by decide)) rfl fun x hm h0 h1 h2 h3 h4 => by
    simp only [decode32, hm, h0, h1, h2, h3, h4, dec19]; simp_all [need, needP, vvv, vv0, vgg, vvg, mvv, mmm, mm0, gm0, isZ, copyOk, named, Instr.wf]

theorem vshr (m : BitVec 3) (d : BitVec 5) (a : BitVec 5) (b : BitVec 5) : Statement (.vshr m d a b) := fun _ hw =>
  of_v (by decide) (by decide) (lt_of m (by decide)) (lt_of b (by decide)) (lt_of a (by decide)) (lt_of d (by decide)) rfl fun x hm h0 h1 h2 h3 h4 => by
    simp only [decode32, hm, h0, h1, h2, h3, h4, dec19]; simp_all [need, needP, vvv, vv0, vgg, vvg, mvv, mmm, mm0, gm0, isZ, copyOk, named, Instr.wf]

theorem vsra (m : BitVec 3) (d : BitVec 5) (a : BitVec 5) (b : BitVec 5) : Statement (.vsra m d a b) := fun _ hw =>
  of_v (by decide) (by decide) (lt_of m (by decide)) (lt_of b (by decide)) (lt_of a (by decide)) (lt_of d (by decide)) rfl fun x hm h0 h1 h2 h3 h4 => by
    simp only [decode32, hm, h0, h1, h2, h3, h4, dec19]; simp_all [need, needP, vvv, vv0, vgg, vvg, mvv, mmm, mm0, gm0, isZ, copyOk, named, Instr.wf]

theorem vcmpEq (m : BitVec 3) (d : BitVec 3) (a : BitVec 5) (b : BitVec 5) : Statement (.vcmpEq m d a b) := fun _ hw =>
  of_v (by decide) (by decide) (lt_of m (by decide)) (lt_of b (by decide)) (lt_of a (by decide)) (lt_of d (by decide)) rfl fun x hm h0 h1 h2 h3 h4 => by
    simp only [decode32, hm, h0, h1, h2, h3, h4, dec1A]; simp_all [need, needP, vvv, vv0, vgg, vvg, mvv, mmm, mm0, gm0, isZ, copyOk, named, Instr.wf]

theorem vcmpNe (m : BitVec 3) (d : BitVec 3) (a : BitVec 5) (b : BitVec 5) : Statement (.vcmpNe m d a b) := fun _ hw =>
  of_v (by decide) (by decide) (lt_of m (by decide)) (lt_of b (by decide)) (lt_of a (by decide)) (lt_of d (by decide)) rfl fun x hm h0 h1 h2 h3 h4 => by
    simp only [decode32, hm, h0, h1, h2, h3, h4, dec1A]; simp_all [need, needP, vvv, vv0, vgg, vvg, mvv, mmm, mm0, gm0, isZ, copyOk, named, Instr.wf]

theorem vcmpLt (m : BitVec 3) (d : BitVec 3) (a : BitVec 5) (b : BitVec 5) : Statement (.vcmpLt m d a b) := fun _ hw =>
  of_v (by decide) (by decide) (lt_of m (by decide)) (lt_of b (by decide)) (lt_of a (by decide)) (lt_of d (by decide)) rfl fun x hm h0 h1 h2 h3 h4 => by
    simp only [decode32, hm, h0, h1, h2, h3, h4, dec1A]; simp_all [need, needP, vvv, vv0, vgg, vvg, mvv, mmm, mm0, gm0, isZ, copyOk, named, Instr.wf]

theorem vcmpLe (m : BitVec 3) (d : BitVec 3) (a : BitVec 5) (b : BitVec 5) : Statement (.vcmpLe m d a b) := fun _ hw =>
  of_v (by decide) (by decide) (lt_of m (by decide)) (lt_of b (by decide)) (lt_of a (by decide)) (lt_of d (by decide)) rfl fun x hm h0 h1 h2 h3 h4 => by
    simp only [decode32, hm, h0, h1, h2, h3, h4, dec1A]; simp_all [need, needP, vvv, vv0, vgg, vvg, mvv, mmm, mm0, gm0, isZ, copyOk, named, Instr.wf]

theorem vcmpGt (m : BitVec 3) (d : BitVec 3) (a : BitVec 5) (b : BitVec 5) : Statement (.vcmpGt m d a b) := fun _ hw =>
  of_v (by decide) (by decide) (lt_of m (by decide)) (lt_of b (by decide)) (lt_of a (by decide)) (lt_of d (by decide)) rfl fun x hm h0 h1 h2 h3 h4 => by
    simp only [decode32, hm, h0, h1, h2, h3, h4, dec1A]; simp_all [need, needP, vvv, vv0, vgg, vvg, mvv, mmm, mm0, gm0, isZ, copyOk, named, Instr.wf]

theorem vcmpGe (m : BitVec 3) (d : BitVec 3) (a : BitVec 5) (b : BitVec 5) : Statement (.vcmpGe m d a b) := fun _ hw =>
  of_v (by decide) (by decide) (lt_of m (by decide)) (lt_of b (by decide)) (lt_of a (by decide)) (lt_of d (by decide)) rfl fun x hm h0 h1 h2 h3 h4 => by
    simp only [decode32, hm, h0, h1, h2, h3, h4, dec1A]; simp_all [need, needP, vvv, vv0, vgg, vvg, mvv, mmm, mm0, gm0, isZ, copyOk, named, Instr.wf]

theorem vcmpUn (m : BitVec 3) (d : BitVec 3) (a : BitVec 5) (b : BitVec 5) : Statement (.vcmpUn m d a b) := fun _ hw =>
  of_v (by decide) (by decide) (lt_of m (by decide)) (lt_of b (by decide)) (lt_of a (by decide)) (lt_of d (by decide)) rfl fun x hm h0 h1 h2 h3 h4 => by
    simp only [decode32, hm, h0, h1, h2, h3, h4, dec1A]; simp_all [need, needP, vvv, vv0, vgg, vvg, mvv, mmm, mm0, gm0, isZ, copyOk, named, Instr.wf]

theorem vsel (m : BitVec 3) (d : BitVec 5) (a : BitVec 5) (b : BitVec 5) : Statement (.vsel m d a b) := fun _ hw =>
  of_v (by decide) (by decide) (lt_of m (by decide)) (lt_of b (by decide)) (lt_of a (by decide)) (lt_of d (by decide)) rfl fun x hm h0 h1 h2 h3 h4 => by
    simp only [decode32, hm, h0, h1, h2, h3, h4, dec1A]; simp_all [need, needP, vvv, vv0, vgg, vvg, mvv, mmm, mm0, gm0, isZ, copyOk, named, Instr.wf]

theorem vmov (m : BitVec 3) (d : BitVec 5) (a : BitVec 5) : Statement (.vmov m d a) := fun _ hw =>
  of_v (by decide) (by decide) (lt_of m (by decide)) (by decide) (lt_of a (by decide)) (lt_of d (by decide)) rfl fun x hm h0 h1 h2 h3 h4 => by
    simp only [decode32, hm, h0, h1, h2, h3, h4, dec1A]; simp_all [need, needP, vvv, vv0, vgg, vvg, mvv, mmm, mm0, gm0, isZ, copyOk, named, Instr.wf]

theorem vbrd (m : BitVec 3) (d : BitVec 5) (a : BitVec 6) : Statement (.vbrd m d a) := fun _ hw =>
  of_v (by decide) (by decide) (lt_of m (by decide)) (by decide) (lt_of a (by decide)) (lt_of d (by decide)) rfl fun x hm h0 h1 h2 h3 h4 => by
    simp only [decode32, hm, h0, h1, h2, h3, h4, dec1A]; simp_all [need, needP, vvv, vv0, vgg, vvg, mvv, mmm, mm0, gm0, isZ, copyOk, named, Instr.wf]

theorem vidx (m : BitVec 3) (d : BitVec 5) (a : BitVec 6) (b : BitVec 6) : Statement (.vidx m d a b) := fun _ hw =>
  of_v (by decide) (by decide) (lt_of m (by decide)) (lt_of b (by decide)) (lt_of a (by decide)) (lt_of d (by decide)) rfl fun x hm h0 h1 h2 h3 h4 => by
    simp only [decode32, hm, h0, h1, h2, h3, h4, dec1A]; simp_all [need, needP, vvv, vv0, vgg, vvg, mvv, mmm, mm0, gm0, isZ, copyOk, named, Instr.wf]

theorem vcvt (m : BitVec 3) (sr : BitVec 1) (dfmt : BitVec 5) (d : BitVec 5) (a : BitVec 5) : Statement (.vcvt m sr dfmt d a) := by
  intro _ hw
  have h_m := m.isLt
  have h_sr := sr.isLt
  have h_dfmt := dfmt.isLt
  have h_d := d.isLt
  have h_a := a.isLt
  obtain ⟨x, hx⟩ : ∃ x, x = packV 0x1A 11 m.toNat (dfmt.toNat + 32 * sr.toNat) a.toNat d.toNat := ⟨_, rfl⟩
  have he : encode (.vcvt m sr dfmt d a) = some (true, x) := by rw [hx]; rfl
  unfold packV at hx
  refine of_word he (by omega) (by omega) ?_
  have hm : x / 2 % 64 = 26 := by omega
  have f0 : fld x 7 6 = (d.setWidth 6) := fld_eq (by
    try simp only [BitVec.toNat_setWidth, BitVec.toNat_ofNat]
    omega)
  have f1 : fld x 13 6 = (a.setWidth 6) := fld_eq (by
    try simp only [BitVec.toNat_setWidth, BitVec.toNat_ofNat]
    omega)
  have f2 : fld x 19 6 = (BitVec.ofNat 6 (dfmt.toNat * 1 + sr.toNat * 32)) := fld_eq (by
    try simp only [BitVec.toNat_setWidth, BitVec.toNat_ofNat]
    omega)
  have f3 : fld x 25 3 = m := fld_eq (by
    try simp only [BitVec.toNat_setWidth, BitVec.toNat_ofNat]
    omega)
  have f4 : fld x 28 4 = 11#4 := fld_eq (by
    try simp only [BitVec.toNat_setWidth, BitVec.toNat_ofNat]
    omega)
  show decode32 x = _
  have e : BitVec.ofNat 5 ((dfmt.toNat * 1 + sr.toNat * 32) % 2 ^ 6) = dfmt := BitVec.eq_of_toNat_eq (by rw [BitVec.toNat_ofNat]; omega)
  have e1 : BitVec.ofNat 1 ((dfmt.toNat * 1 + sr.toNat * 32) % 2 ^ 6 / 32) = sr := BitVec.eq_of_toNat_eq (by rw [BitVec.toNat_ofNat]; omega)
  have e' : BitVec.ofNat 5 ((dfmt.toNat * 1 + sr.toNat * 32) % 64) = dfmt := BitVec.eq_of_toNat_eq (by rw [BitVec.toNat_ofNat]; omega)
  have e1' : BitVec.ofNat 1 ((dfmt.toNat * 1 + sr.toNat * 32) % 64 / 32) = sr := BitVec.eq_of_toNat_eq (by rw [BitVec.toNat_ofNat]; omega)
  simp only [decode32, hm, f0, f1, f2, f3, f4, dec1A, BitVec.toNat_ofNat, e, e1, e', e1', isV_ext, toV_ext, need, named, Bool.and_self, if_true, Nat.reduceMod, Nat.reducePow]

theorem mand (m : BitVec 3) (d : BitVec 3) (a : BitVec 3) (b : BitVec 3) : Statement (.mand m d a b) := fun _ hw =>
  of_v (by decide) (by decide) (lt_of m (by decide)) (lt_of b (by decide)) (lt_of a (by decide)) (lt_of d (by decide)) rfl fun x hm h0 h1 h2 h3 h4 => by
    simp only [decode32, hm, h0, h1, h2, h3, h4, dec1B]; simp_all [need, needP, vvv, vv0, vgg, vvg, mvv, mmm, mm0, gm0, isZ, copyOk, named, Instr.wf]

theorem mor (m : BitVec 3) (d : BitVec 3) (a : BitVec 3) (b : BitVec 3) : Statement (.mor m d a b) := fun _ hw =>
  of_v (by decide) (by decide) (lt_of m (by decide)) (lt_of b (by decide)) (lt_of a (by decide)) (lt_of d (by decide)) rfl fun x hm h0 h1 h2 h3 h4 => by
    simp only [decode32, hm, h0, h1, h2, h3, h4, dec1B]; simp_all [need, needP, vvv, vv0, vgg, vvg, mvv, mmm, mm0, gm0, isZ, copyOk, named, Instr.wf]

theorem mxor (m : BitVec 3) (d : BitVec 3) (a : BitVec 3) (b : BitVec 3) : Statement (.mxor m d a b) := fun _ hw =>
  of_v (by decide) (by decide) (lt_of m (by decide)) (lt_of b (by decide)) (lt_of a (by decide)) (lt_of d (by decide)) rfl fun x hm h0 h1 h2 h3 h4 => by
    simp only [decode32, hm, h0, h1, h2, h3, h4, dec1B]; simp_all [need, needP, vvv, vv0, vgg, vvg, mvv, mmm, mm0, gm0, isZ, copyOk, named, Instr.wf]

theorem mnot (m : BitVec 3) (d : BitVec 3) (a : BitVec 3) : Statement (.mnot m d a) := fun _ hw =>
  of_v (by decide) (by decide) (lt_of m (by decide)) (by decide) (lt_of a (by decide)) (lt_of d (by decide)) rfl fun x hm h0 h1 h2 h3 h4 => by
    simp only [decode32, hm, h0, h1, h2, h3, h4, dec1B]; simp_all [need, needP, vvv, vv0, vgg, vvg, mvv, mmm, mm0, gm0, isZ, copyOk, named, Instr.wf]

theorem mpop (m : BitVec 3) (d : BitVec 6) (a : BitVec 3) : Statement (.mpop m d a) := fun _ hw =>
  of_v (by decide) (by decide) (lt_of m (by decide)) (by decide) (lt_of a (by decide)) (lt_of d (by decide)) rfl fun x hm h0 h1 h2 h3 h4 => by
    simp only [decode32, hm, h0, h1, h2, h3, h4, dec1B]; simp_all [need, needP, vvv, vv0, vgg, vvg, mvv, mmm, mm0, gm0, isZ, copyOk, named, Instr.wf]

theorem mfirst (m : BitVec 3) (d : BitVec 6) (a : BitVec 3) : Statement (.mfirst m d a) := fun _ hw =>
  of_v (by decide) (by decide) (lt_of m (by decide)) (by decide) (lt_of a (by decide)) (lt_of d (by decide)) rfl fun x hm h0 h1 h2 h3 h4 => by
    simp only [decode32, hm, h0, h1, h2, h3, h4, dec1B]; simp_all [need, needP, vvv, vv0, vgg, vvg, mvv, mmm, mm0, gm0, isZ, copyOk, named, Instr.wf]

theorem mbef (m : BitVec 3) (d : BitVec 3) (a : BitVec 3) : Statement (.mbef m d a) := fun _ hw =>
  of_v (by decide) (by decide) (lt_of m (by decide)) (by decide) (lt_of a (by decide)) (lt_of d (by decide)) rfl fun x hm h0 h1 h2 h3 h4 => by
    simp only [decode32, hm, h0, h1, h2, h3, h4, dec1B]; simp_all [need, needP, vvv, vv0, vgg, vvg, mvv, mmm, mm0, gm0, isZ, copyOk, named, Instr.wf]

theorem minc (m : BitVec 3) (d : BitVec 3) (a : BitVec 3) : Statement (.minc m d a) := fun _ hw =>
  of_v (by decide) (by decide) (lt_of m (by decide)) (by decide) (lt_of a (by decide)) (lt_of d (by decide)) rfl fun x hm h0 h1 h2 h3 h4 => by
    simp only [decode32, hm, h0, h1, h2, h3, h4, dec1B]; simp_all [need, needP, vvv, vv0, vgg, vvg, mvv, mmm, mm0, gm0, isZ, copyOk, named, Instr.wf]

theorem mtos (m : BitVec 3) (d : BitVec 6) (a : BitVec 3) (b : BitVec 6) : Statement (.mtos m d a b) := fun _ hw =>
  of_v (by decide) (by decide) (lt_of m (by decide)) (lt_of b (by decide)) (lt_of a (by decide)) (lt_of d (by decide)) rfl fun x hm h0 h1 h2 h3 h4 => by
    simp only [decode32, hm, h0, h1, h2, h3, h4, dec1B]; simp_all [need, needP, vvv, vv0, vgg, vvg, mvv, mmm, mm0, gm0, isZ, copyOk, named, Instr.wf]

theorem vrsum (m : BitVec 3) (d : BitVec 5) (a : BitVec 5) (b : BitVec 5) : Statement (.vrsum m d a b) := fun _ hw =>
  of_v (by decide) (by decide) (lt_of m (by decide)) (lt_of b (by decide)) (lt_of a (by decide)) (lt_of d (by decide)) rfl fun x hm h0 h1 h2 h3 h4 => by
    simp only [decode32, hm, h0, h1, h2, h3, h4, dec1C]; simp_all [need, needP, vvv, vv0, vgg, vvg, mvv, mmm, mm0, gm0, isZ, copyOk, named, Instr.wf]

theorem vrsumO (m : BitVec 3) (d : BitVec 5) (a : BitVec 5) (b : BitVec 5) : Statement (.vrsumO m d a b) := fun _ hw =>
  of_v (by decide) (by decide) (lt_of m (by decide)) (lt_of b (by decide)) (lt_of a (by decide)) (lt_of d (by decide)) rfl fun x hm h0 h1 h2 h3 h4 => by
    simp only [decode32, hm, h0, h1, h2, h3, h4, dec1C]; simp_all [need, needP, vvv, vv0, vgg, vvg, mvv, mmm, mm0, gm0, isZ, copyOk, named, Instr.wf]

theorem vrmax (m : BitVec 3) (d : BitVec 5) (a : BitVec 5) (b : BitVec 5) : Statement (.vrmax m d a b) := fun _ hw =>
  of_v (by decide) (by decide) (lt_of m (by decide)) (lt_of b (by decide)) (lt_of a (by decide)) (lt_of d (by decide)) rfl fun x hm h0 h1 h2 h3 h4 => by
    simp only [decode32, hm, h0, h1, h2, h3, h4, dec1C]; simp_all [need, needP, vvv, vv0, vgg, vvg, mvv, mmm, mm0, gm0, isZ, copyOk, named, Instr.wf]

theorem vrmin (m : BitVec 3) (d : BitVec 5) (a : BitVec 5) (b : BitVec 5) : Statement (.vrmin m d a b) := fun _ hw =>
  of_v (by decide) (by decide) (lt_of m (by decide)) (lt_of b (by decide)) (lt_of a (by decide)) (lt_of d (by decide)) rfl fun x hm h0 h1 h2 h3 h4 => by
    simp only [decode32, hm, h0, h1, h2, h3, h4, dec1C]; simp_all [need, needP, vvv, vv0, vgg, vvg, mvv, mmm, mm0, gm0, isZ, copyOk, named, Instr.wf]

theorem vrbitAnd (m : BitVec 3) (d : BitVec 5) (a : BitVec 5) (b : BitVec 5) : Statement (.vrbitAnd m d a b) := fun _ hw =>
  of_v (by decide) (by decide) (lt_of m (by decide)) (lt_of b (by decide)) (lt_of a (by decide)) (lt_of d (by decide)) rfl fun x hm h0 h1 h2 h3 h4 => by
    simp only [decode32, hm, h0, h1, h2, h3, h4, dec1C]; simp_all [need, needP, vvv, vv0, vgg, vvg, mvv, mmm, mm0, gm0, isZ, copyOk, named, Instr.wf]

theorem vrbitOr (m : BitVec 3) (d : BitVec 5) (a : BitVec 5) (b : BitVec 5) : Statement (.vrbitOr m d a b) := fun _ hw =>
  of_v (by decide) (by decide) (lt_of m (by decide)) (lt_of b (by decide)) (lt_of a (by decide)) (lt_of d (by decide)) rfl fun x hm h0 h1 h2 h3 h4 => by
    simp only [decode32, hm, h0, h1, h2, h3, h4, dec1C]; simp_all [need, needP, vvv, vv0, vgg, vvg, mvv, mmm, mm0, gm0, isZ, copyOk, named, Instr.wf]

theorem vrbitXor (m : BitVec 3) (d : BitVec 5) (a : BitVec 5) (b : BitVec 5) : Statement (.vrbitXor m d a b) := fun _ hw =>
  of_v (by decide) (by decide) (lt_of m (by decide)) (lt_of b (by decide)) (lt_of a (by decide)) (lt_of d (by decide)) rfl fun x hm h0 h1 h2 h3 h4 => by
    simp only [decode32, hm, h0, h1, h2, h3, h4, dec1C]; simp_all [need, needP, vvv, vv0, vgg, vvg, mvv, mmm, mm0, gm0, isZ, copyOk, named, Instr.wf]

theorem vscanAdd (m : BitVec 3) (d : BitVec 5) (a : BitVec 5) (b : BitVec 5) : Statement (.vscanAdd m d a b) := fun _ hw =>
  of_v (by decide) (by decide) (lt_of m (by decide)) (lt_of b (by decide)) (lt_of a (by decide)) (lt_of d (by decide)) rfl fun x hm h0 h1 h2 h3 h4 => by
    simp only [decode32, hm, h0, h1, h2, h3, h4, dec1C]; simp_all [need, needP, vvv, vv0, vgg, vvg, mvv, mmm, mm0, gm0, isZ, copyOk, named, Instr.wf]

theorem vscanMax (m : BitVec 3) (d : BitVec 5) (a : BitVec 5) (b : BitVec 5) : Statement (.vscanMax m d a b) := fun _ hw =>
  of_v (by decide) (by decide) (lt_of m (by decide)) (lt_of b (by decide)) (lt_of a (by decide)) (lt_of d (by decide)) rfl fun x hm h0 h1 h2 h3 h4 => by
    simp only [decode32, hm, h0, h1, h2, h3, h4, dec1C]; simp_all [need, needP, vvv, vv0, vgg, vvg, mvv, mmm, mm0, gm0, isZ, copyOk, named, Instr.wf]

theorem vscanMin (m : BitVec 3) (d : BitVec 5) (a : BitVec 5) (b : BitVec 5) : Statement (.vscanMin m d a b) := fun _ hw =>
  of_v (by decide) (by decide) (lt_of m (by decide)) (lt_of b (by decide)) (lt_of a (by decide)) (lt_of d (by decide)) rfl fun x hm h0 h1 h2 h3 h4 => by
    simp only [decode32, hm, h0, h1, h2, h3, h4, dec1C]; simp_all [need, needP, vvv, vv0, vgg, vvg, mvv, mmm, mm0, gm0, isZ, copyOk, named, Instr.wf]

theorem vsegr (m : BitVec 3) (d : BitVec 5) (a : BitVec 5) (b : BitVec 5) : Statement (.vsegr m d a b) := fun _ hw =>
  of_v (by decide) (by decide) (lt_of m (by decide)) (lt_of b (by decide)) (lt_of a (by decide)) (lt_of d (by decide)) rfl fun x hm h0 h1 h2 h3 h4 => by
    simp only [decode32, hm, h0, h1, h2, h3, h4, dec1C]; simp_all [need, needP, vvv, vv0, vgg, vvg, mvv, mmm, mm0, gm0, isZ, copyOk, named, Instr.wf]

theorem vslup (m : BitVec 3) (d : BitVec 5) (a : BitVec 5) (b : BitVec 6) : Statement (.vslup m d a b) := fun _ hw =>
  of_v (by decide) (by decide) (lt_of m (by decide)) (lt_of b (by decide)) (lt_of a (by decide)) (lt_of d (by decide)) rfl fun x hm h0 h1 h2 h3 h4 => by
    simp only [decode32, hm, h0, h1, h2, h3, h4, dec1D]; simp_all [need, needP, vvv, vv0, vgg, vvg, mvv, mmm, mm0, gm0, isZ, copyOk, named, Instr.wf]

theorem vsldn (m : BitVec 3) (d : BitVec 5) (a : BitVec 5) (b : BitVec 6) : Statement (.vsldn m d a b) := fun _ hw =>
  of_v (by decide) (by decide) (lt_of m (by decide)) (lt_of b (by decide)) (lt_of a (by decide)) (lt_of d (by decide)) rfl fun x hm h0 h1 h2 h3 h4 => by
    simp only [decode32, hm, h0, h1, h2, h3, h4, dec1D]; simp_all [need, needP, vvv, vv0, vgg, vvg, mvv, mmm, mm0, gm0, isZ, copyOk, named, Instr.wf]

theorem vperm (m : BitVec 3) (d : BitVec 5) (a : BitVec 5) (b : BitVec 5) : Statement (.vperm m d a b) := fun _ hw =>
  of_v (by decide) (by decide) (lt_of m (by decide)) (lt_of b (by decide)) (lt_of a (by decide)) (lt_of d (by decide)) rfl fun x hm h0 h1 h2 h3 h4 => by
    simp only [decode32, hm, h0, h1, h2, h3, h4, dec1D]; simp_all [need, needP, vvv, vv0, vgg, vvg, mvv, mmm, mm0, gm0, isZ, copyOk, named, Instr.wf]

theorem vcomp (m : BitVec 3) (d : BitVec 5) (a : BitVec 5) : Statement (.vcomp m d a) := fun _ hw =>
  of_v (by decide) (by decide) (lt_of m (by decide)) (by decide) (lt_of a (by decide)) (lt_of d (by decide)) rfl fun x hm h0 h1 h2 h3 h4 => by
    simp only [decode32, hm, h0, h1, h2, h3, h4, dec1D]; simp_all [need, needP, vvv, vv0, vgg, vvg, mvv, mmm, mm0, gm0, isZ, copyOk, named, Instr.wf]

theorem vexpd (m : BitVec 3) (d : BitVec 5) (a : BitVec 5) : Statement (.vexpd m d a) := fun _ hw =>
  of_v (by decide) (by decide) (lt_of m (by decide)) (by decide) (lt_of a (by decide)) (lt_of d (by decide)) rfl fun x hm h0 h1 h2 h3 h4 => by
    simp only [decode32, hm, h0, h1, h2, h3, h4, dec1D]; simp_all [need, needP, vvv, vv0, vgg, vvg, mvv, mmm, mm0, gm0, isZ, copyOk, named, Instr.wf]

theorem vzip (m : BitVec 3) (d : BitVec 5) (a : BitVec 5) (b : BitVec 5) : Statement (.vzip m d a b) := fun _ hw =>
  of_v (by decide) (by decide) (lt_of m (by decide)) (lt_of b (by decide)) (lt_of a (by decide)) (lt_of d (by decide)) rfl fun x hm h0 h1 h2 h3 h4 => by
    simp only [decode32, hm, h0, h1, h2, h3, h4, dec1D]; simp_all [need, needP, vvv, vv0, vgg, vvg, mvv, mmm, mm0, gm0, isZ, copyOk, named, Instr.wf]

theorem vunzipEv (m : BitVec 3) (d : BitVec 5) (a : BitVec 5) : Statement (.vunzipEv m d a) := fun _ hw =>
  of_v (by decide) (by decide) (lt_of m (by decide)) (by decide) (lt_of a (by decide)) (lt_of d (by decide)) rfl fun x hm h0 h1 h2 h3 h4 => by
    simp only [decode32, hm, h0, h1, h2, h3, h4, dec1D]; simp_all [need, needP, vvv, vv0, vgg, vvg, mvv, mmm, mm0, gm0, isZ, copyOk, named, Instr.wf]

theorem vunzipOd (m : BitVec 3) (d : BitVec 5) (a : BitVec 5) : Statement (.vunzipOd m d a) := fun _ hw =>
  of_v (by decide) (by decide) (lt_of m (by decide)) (by decide) (lt_of a (by decide)) (lt_of d (by decide)) rfl fun x hm h0 h1 h2 h3 h4 => by
    simp only [decode32, hm, h0, h1, h2, h3, h4, dec1D]; simp_all [need, needP, vvv, vv0, vgg, vvg, mvv, mmm, mm0, gm0, isZ, copyOk, named, Instr.wf]

theorem vconf (m : BitVec 3) (d : BitVec 3) (a : BitVec 5) : Statement (.vconf m d a) := fun _ hw =>
  of_v (by decide) (by decide) (lt_of m (by decide)) (by decide) (lt_of a (by decide)) (lt_of d (by decide)) rfl fun x hm h0 h1 h2 h3 h4 => by
    simp only [decode32, hm, h0, h1, h2, h3, h4, dec1E]; simp_all [need, needP, vvv, vv0, vgg, vvg, mvv, mmm, mm0, gm0, isZ, copyOk, named, Instr.wf]

theorem vld (pol : BitVec 2) (so : BitVec 1) (eo : BitVec 1) (m : BitVec 3) (c : BitVec 6) (a : BitVec 6) (d : BitVec 5) : Statement (.vld pol so eo m c a d) := fun _ hw =>
  of_vm (by decide) (lt_of pol (by decide)) (lt_of so (by decide)) (lt_of eo (by decide)) (lt_of m (by decide)) (lt_of c (by decide)) (lt_of a (by decide)) (lt_of d (by decide)) rfl fun x hm h0 h1 h2 h3 h4 h5 h6 => by
    simp only [decode32, hm, h0, h1, h2, h3, h4, h5, h6, decVM]; simp_all [need, needP, vvv, vv0, vgg, vvg, mvv, mmm, mm0, gm0, isZ, copyOk, named, Instr.wf]

theorem vst (pol : BitVec 2) (so : BitVec 1) (eo : BitVec 1) (m : BitVec 3) (c : BitVec 6) (a : BitVec 6) (d : BitVec 5) : Statement (.vst pol so eo m c a d) := fun _ hw =>
  of_vm (by decide) (lt_of pol (by decide)) (lt_of so (by decide)) (lt_of eo (by decide)) (lt_of m (by decide)) (lt_of c (by decide)) (lt_of a (by decide)) (lt_of d (by decide)) rfl fun x hm h0 h1 h2 h3 h4 h5 h6 => by
    simp only [decode32, hm, h0, h1, h2, h3, h4, h5, h6, decVM]; simp_all [need, needP, vvv, vv0, vgg, vvg, mvv, mmm, mm0, gm0, isZ, copyOk, named, Instr.wf]

theorem vldx (pol : BitVec 2) (so : BitVec 1) (eo : BitVec 1) (m : BitVec 3) (c : BitVec 5) (a : BitVec 6) (d : BitVec 5) : Statement (.vldx pol so eo m c a d) := fun _ hw =>
  of_vm (by decide) (lt_of pol (by decide)) (lt_of so (by decide)) (lt_of eo (by decide)) (lt_of m (by decide)) (lt_of c (by decide)) (lt_of a (by decide)) (lt_of d (by decide)) rfl fun x hm h0 h1 h2 h3 h4 h5 h6 => by
    simp only [decode32, hm, h0, h1, h2, h3, h4, h5, h6, decVM]; simp_all [need, needP, vvv, vv0, vgg, vvg, mvv, mmm, mm0, gm0, isZ, copyOk, named, Instr.wf]

theorem vstx (pol : BitVec 2) (so : BitVec 1) (eo : BitVec 1) (m : BitVec 3) (c : BitVec 5) (a : BitVec 6) (d : BitVec 5) : Statement (.vstx pol so eo m c a d) := fun _ hw =>
  of_vm (by decide) (lt_of pol (by decide)) (lt_of so (by decide)) (lt_of eo (by decide)) (lt_of m (by decide)) (lt_of c (by decide)) (lt_of a (by decide)) (lt_of d (by decide)) rfl fun x hm h0 h1 h2 h3 h4 h5 h6 => by
    simp only [decode32, hm, h0, h1, h2, h3, h4, h5, h6, decVM]; simp_all [need, needP, vvv, vv0, vgg, vvg, mvv, mmm, mm0, gm0, isZ, copyOk, named, Instr.wf]

theorem vstxAdd (pol : BitVec 2) (so : BitVec 1) (eo : BitVec 1) (m : BitVec 3) (c : BitVec 5) (a : BitVec 6) (d : BitVec 5) : Statement (.vstxAdd pol so eo m c a d) := fun _ hw =>
  of_vm (by decide) (lt_of pol (by decide)) (lt_of so (by decide)) (lt_of eo (by decide)) (lt_of m (by decide)) (lt_of c (by decide)) (lt_of a (by decide)) (lt_of d (by decide)) rfl fun x hm h0 h1 h2 h3 h4 h5 h6 => by
    simp only [decode32, hm, h0, h1, h2, h3, h4, h5, h6, decVM]; simp_all [need, needP, vvv, vv0, vgg, vvg, mvv, mmm, mm0, gm0, isZ, copyOk, named, Instr.wf]

theorem vldc (pol : BitVec 2) (so : BitVec 1) (m : BitVec 3) (c : BitVec 6) (a : BitVec 6) (d : BitVec 5) : Statement (.vldc pol so m c a d) := fun _ hw =>
  of_vm (by decide) (lt_of pol (by decide)) (lt_of so (by decide)) (by decide) (lt_of m (by decide)) (lt_of c (by decide)) (lt_of a (by decide)) (lt_of d (by decide)) rfl fun x hm h0 h1 h2 h3 h4 h5 h6 => by
    simp only [decode32, hm, h0, h1, h2, h3, h4, h5, h6, dec25]; simp_all [need, needP, vvv, vv0, vgg, vvg, mvv, mmm, mm0, gm0, isZ, copyOk, named, Instr.wf]

theorem vstc (pol : BitVec 2) (so : BitVec 1) (m : BitVec 3) (c : BitVec 6) (a : BitVec 6) (d : BitVec 5) : Statement (.vstc pol so m c a d) := fun _ hw =>
  of_vm (by decide) (lt_of pol (by decide)) (lt_of so (by decide)) (by decide) (lt_of m (by decide)) (lt_of c (by decide)) (lt_of a (by decide)) (lt_of d (by decide)) rfl fun x hm h0 h1 h2 h3 h4 h5 h6 => by
    simp only [decode32, hm, h0, h1, h2, h3, h4, h5, h6, dec25]; simp_all [need, needP, vvv, vv0, vgg, vvg, mvv, mmm, mm0, gm0, isZ, copyOk, named, Instr.wf]

theorem vpref (pol : BitVec 2) (m : BitVec 3) (c : BitVec 6) (a : BitVec 6) (lvl : BitVec 1) : Statement (.vpref pol m c a lvl) := fun _ hw =>
  of_vm (by decide) (lt_of pol (by decide)) (by decide) (by decide) (lt_of m (by decide)) (lt_of c (by decide)) (lt_of a (by decide)) (lt_of lvl (by decide)) rfl fun x hm h0 h1 h2 h3 h4 h5 h6 => by
    have hl := lvl.isLt
    have e : BitVec.ofNat 1 (lvl.toNat % 64) = lvl := BitVec.eq_of_toNat_eq (by rw [BitVec.toNat_ofNat]; omega)
    have e' : lvl.toNat % 64 < 2 := by omega
    simp only [decode32, hm, h0, h1, h2, h3, h4, h5, h6, decVM]; simp_all [need, isZ, Instr.wf, named]

theorem tld (pol : BitVec 2) (line : BitVec 1) (scope : BitVec 3) (c : BitVec 6) (a : BitVec 6) (d : BitVec 6) : Statement (.tld pol line scope c a d) := fun _ hw =>
  of_vm (by decide) (lt_of pol (by decide)) (by decide) (lt_of line (by decide)) (lt_of scope (by decide)) (lt_of c (by decide)) (lt_of a (by decide)) (lt_of d (by decide)) rfl fun x hm h0 h1 h2 h3 h4 h5 h6 => by
    simp only [decode32, hm, h0, h1, h2, h3, h4, h5, h6, dec27]; simp_all [need, needP, vvv, vv0, vgg, vvg, mvv, mmm, mm0, gm0, isZ, copyOk, named, Instr.wf]

theorem tst (pol : BitVec 2) (line : BitVec 1) (scope : BitVec 3) (c : BitVec 6) (a : BitVec 6) (d : BitVec 6) : Statement (.tst pol line scope c a d) := fun _ hw =>
  of_vm (by decide) (lt_of pol (by decide)) (by decide) (lt_of line (by decide)) (lt_of scope (by decide)) (lt_of c (by decide)) (lt_of a (by decide)) (lt_of d (by decide)) rfl fun x hm h0 h1 h2 h3 h4 h5 h6 => by
    simp only [decode32, hm, h0, h1, h2, h3, h4, h5, h6, dec27]; simp_all [need, needP, vvv, vv0, vgg, vvg, mvv, mmm, mm0, gm0, isZ, copyOk, named, Instr.wf]

theorem vamoSwap (scope : BitVec 3) (c : BitVec 5) (a : BitVec 6) (d : BitVec 5) : Statement (.vamoSwap scope c a d) := fun _ hw =>
  of_va (op := 0) (s := scope.toNat) (b := c.toNat) (a := a.toNat) (d := d.toNat) (by decide) (lt_of scope (by decide)) (lt_of c (by decide)) (lt_of a (by decide)) (lt_of d (by decide)) (congrArg (fun w => some (true, w)) (by unfold packRR; omega)) fun x hm h0 h1 h2 h3 h4 => by
    simp only [decode32, hm, h0, h1, h2, h3, h4, dec28]; simp_all [need, needP, vvv, vv0, vgg, vvg, mvv, mmm, mm0, gm0, isZ, copyOk, named, Instr.wf]

theorem vamoCas (scope : BitVec 3) (c : BitVec 5) (a : BitVec 6) (d : BitVec 5) : Statement (.vamoCas scope c a d) := fun _ hw =>
  of_va (op := 1) (s := scope.toNat) (b := c.toNat) (a := a.toNat) (d := d.toNat) (by decide) (lt_of scope (by decide)) (lt_of c (by decide)) (lt_of a (by decide)) (lt_of d (by decide)) (congrArg (fun w => some (true, w)) (by unfold packRR; omega)) fun x hm h0 h1 h2 h3 h4 => by
    simp only [decode32, hm, h0, h1, h2, h3, h4, dec28]; simp_all [need, needP, vvv, vv0, vgg, vvg, mvv, mmm, mm0, gm0, isZ, copyOk, named, Instr.wf]

theorem vamoAdd (scope : BitVec 3) (c : BitVec 5) (a : BitVec 6) (d : BitVec 5) : Statement (.vamoAdd scope c a d) := fun _ hw =>
  of_va (op := 2) (s := scope.toNat) (b := c.toNat) (a := a.toNat) (d := d.toNat) (by decide) (lt_of scope (by decide)) (lt_of c (by decide)) (lt_of a (by decide)) (lt_of d (by decide)) (congrArg (fun w => some (true, w)) (by unfold packRR; omega)) fun x hm h0 h1 h2 h3 h4 => by
    simp only [decode32, hm, h0, h1, h2, h3, h4, dec28]; simp_all [need, needP, vvv, vv0, vgg, vvg, mvv, mmm, mm0, gm0, isZ, copyOk, named, Instr.wf]

theorem vamoAnd (scope : BitVec 3) (c : BitVec 5) (a : BitVec 6) (d : BitVec 5) : Statement (.vamoAnd scope c a d) := fun _ hw =>
  of_va (op := 3) (s := scope.toNat) (b := c.toNat) (a := a.toNat) (d := d.toNat) (by decide) (lt_of scope (by decide)) (lt_of c (by decide)) (lt_of a (by decide)) (lt_of d (by decide)) (congrArg (fun w => some (true, w)) (by unfold packRR; omega)) fun x hm h0 h1 h2 h3 h4 => by
    simp only [decode32, hm, h0, h1, h2, h3, h4, dec28]; simp_all [need, needP, vvv, vv0, vgg, vvg, mvv, mmm, mm0, gm0, isZ, copyOk, named, Instr.wf]

theorem vamoOr (scope : BitVec 3) (c : BitVec 5) (a : BitVec 6) (d : BitVec 5) : Statement (.vamoOr scope c a d) := fun _ hw =>
  of_va (op := 4) (s := scope.toNat) (b := c.toNat) (a := a.toNat) (d := d.toNat) (by decide) (lt_of scope (by decide)) (lt_of c (by decide)) (lt_of a (by decide)) (lt_of d (by decide)) (congrArg (fun w => some (true, w)) (by unfold packRR; omega)) fun x hm h0 h1 h2 h3 h4 => by
    simp only [decode32, hm, h0, h1, h2, h3, h4, dec28]; simp_all [need, needP, vvv, vv0, vgg, vvg, mvv, mmm, mm0, gm0, isZ, copyOk, named, Instr.wf]

theorem vamoXor (scope : BitVec 3) (c : BitVec 5) (a : BitVec 6) (d : BitVec 5) : Statement (.vamoXor scope c a d) := fun _ hw =>
  of_va (op := 5) (s := scope.toNat) (b := c.toNat) (a := a.toNat) (d := d.toNat) (by decide) (lt_of scope (by decide)) (lt_of c (by decide)) (lt_of a (by decide)) (lt_of d (by decide)) (congrArg (fun w => some (true, w)) (by unfold packRR; omega)) fun x hm h0 h1 h2 h3 h4 => by
    simp only [decode32, hm, h0, h1, h2, h3, h4, dec28]; simp_all [need, needP, vvv, vv0, vgg, vvg, mvv, mmm, mm0, gm0, isZ, copyOk, named, Instr.wf]

theorem vamoMin (scope : BitVec 3) (c : BitVec 5) (a : BitVec 6) (d : BitVec 5) : Statement (.vamoMin scope c a d) := fun _ hw =>
  of_va (op := 6) (s := scope.toNat) (b := c.toNat) (a := a.toNat) (d := d.toNat) (by decide) (lt_of scope (by decide)) (lt_of c (by decide)) (lt_of a (by decide)) (lt_of d (by decide)) (congrArg (fun w => some (true, w)) (by unfold packRR; omega)) fun x hm h0 h1 h2 h3 h4 => by
    simp only [decode32, hm, h0, h1, h2, h3, h4, dec28]; simp_all [need, needP, vvv, vv0, vgg, vvg, mvv, mmm, mm0, gm0, isZ, copyOk, named, Instr.wf]

theorem vamoMax (scope : BitVec 3) (c : BitVec 5) (a : BitVec 6) (d : BitVec 5) : Statement (.vamoMax scope c a d) := fun _ hw =>
  of_va (op := 7) (s := scope.toNat) (b := c.toNat) (a := a.toNat) (d := d.toNat) (by decide) (lt_of scope (by decide)) (lt_of c (by decide)) (lt_of a (by decide)) (lt_of d (by decide)) (congrArg (fun w => some (true, w)) (by unfold packRR; omega)) fun x hm h0 h1 h2 h3 h4 => by
    simp only [decode32, hm, h0, h1, h2, h3, h4, dec28]; simp_all [need, needP, vvv, vv0, vgg, vvg, mvv, mmm, mm0, gm0, isZ, copyOk, named, Instr.wf]

theorem vamoMinn (scope : BitVec 3) (c : BitVec 5) (a : BitVec 6) (d : BitVec 5) : Statement (.vamoMinn scope c a d) := fun _ hw =>
  of_va (op := 8) (s := scope.toNat) (b := c.toNat) (a := a.toNat) (d := d.toNat) (by decide) (lt_of scope (by decide)) (lt_of c (by decide)) (lt_of a (by decide)) (lt_of d (by decide)) (congrArg (fun w => some (true, w)) (by unfold packRR; omega)) fun x hm h0 h1 h2 h3 h4 => by
    simp only [decode32, hm, h0, h1, h2, h3, h4, dec28]; simp_all [need, needP, vvv, vv0, vgg, vvg, mvv, mmm, mm0, gm0, isZ, copyOk, named, Instr.wf]

theorem vamoMaxn (scope : BitVec 3) (c : BitVec 5) (a : BitVec 6) (d : BitVec 5) : Statement (.vamoMaxn scope c a d) := fun _ hw =>
  of_va (op := 9) (s := scope.toNat) (b := c.toNat) (a := a.toNat) (d := d.toNat) (by decide) (lt_of scope (by decide)) (lt_of c (by decide)) (lt_of a (by decide)) (lt_of d (by decide)) (congrArg (fun w => some (true, w)) (by unfold packRR; omega)) fun x hm h0 h1 h2 h3 h4 => by
    simp only [decode32, hm, h0, h1, h2, h3, h4, dec28]; simp_all [need, needP, vvv, vv0, vgg, vvg, mvv, mmm, mm0, gm0, isZ, copyOk, named, Instr.wf]

theorem tcopy (scope : BitVec 3) (d : BitVec 6) (a : BitVec 6) (b : BitVec 6) : Statement (.tcopy scope d a b) := fun _ hw =>
  of_v (by decide) (by decide) (lt_of scope (by decide)) (lt_of b (by decide)) (lt_of a (by decide)) (lt_of d (by decide)) rfl fun x hm h0 h1 h2 h3 h4 => by
    simp only [decode32, hm, h0, h1, h2, h3, h4, dec29]; simp_all [need, needP, vvv, vv0, vgg, vvg, mvv, mmm, mm0, gm0, isZ, copyOk, named, Instr.wf]

theorem tcoll (scope : BitVec 3) (d : BitVec 6) (a : BitVec 6) (b : BitVec 6) : Statement (.tcoll scope d a b) := fun _ hw =>
  of_v (by decide) (by decide) (lt_of scope (by decide)) (lt_of b (by decide)) (lt_of a (by decide)) (lt_of d (by decide)) rfl fun x hm h0 h1 h2 h3 h4 => by
    simp only [decode32, hm, h0, h1, h2, h3, h4, dec2A]; simp_all [need, needP, vvv, vv0, vgg, vvg, mvv, mmm, mm0, gm0, isZ, copyOk, named, Instr.wf]

theorem tsend (scope : BitVec 3) (d : BitVec 6) (a : BitVec 6) (b : BitVec 6) : Statement (.tsend scope d a b) := fun _ hw =>
  of_v (by decide) (by decide) (lt_of scope (by decide)) (lt_of b (by decide)) (lt_of a (by decide)) (lt_of d (by decide)) rfl fun x hm h0 h1 h2 h3 h4 => by
    simp only [decode32, hm, h0, h1, h2, h3, h4, dec2B]; simp_all [need, needP, vvv, vv0, vgg, vvg, mvv, mmm, mm0, gm0, isZ, copyOk, named, Instr.wf]

theorem trecv (scope : BitVec 3) (d : BitVec 6) (a : BitVec 6) (b : BitVec 6) : Statement (.trecv scope d a b) := fun _ hw =>
  of_v (by decide) (by decide) (lt_of scope (by decide)) (lt_of b (by decide)) (lt_of a (by decide)) (lt_of d (by decide)) rfl fun x hm h0 h1 h2 h3 h4 => by
    simp only [decode32, hm, h0, h1, h2, h3, h4, dec2B]; simp_all [need, needP, vvv, vv0, vgg, vvg, mvv, mmm, mm0, gm0, isZ, copyOk, named, Instr.wf]

theorem tprobe (d : BitVec 6) (b : BitVec 6) : Statement (.tprobe d b) := fun _ hw =>
  of_v (by decide) (by decide) (by decide) (lt_of b (by decide)) (by decide) (lt_of d (by decide)) rfl fun x hm h0 h1 h2 h3 h4 => by
    simp only [decode32, hm, h0, h1, h2, h3, h4, dec2B]; simp_all [need, needP, vvv, vv0, vgg, vvg, mvv, mmm, mm0, gm0, isZ, copyOk, named, Instr.wf]

theorem opadd (z : BitVec 1) (mb : BitVec 3) (ma : BitVec 3) (b : BitVec 5) (a : BitVec 5) (s : BitVec 5) : Statement (.opadd z mb ma b a s) := fun _ hw =>
  of_oa (mb := mb.toNat) (z := z.toNat) (m := ma.toNat) (b := b.toNat) (a := a.toNat) (d := s.toNat) (lt_of mb (by decide)) (lt_of z (by decide)) (lt_of ma (by decide)) (lt_of b (by decide)) (lt_of a (by decide)) (lt_of s (by decide)) (congrArg (fun w => some (true, w)) (by unfold packV; omega)) fun x hm h0 h1 h2 h3 h4 h5 => by
    simp only [decode32, hm, h0, h1, h2, h3, h4, h5, decMX]; simp_all [need, needP, vvv, vv0, vgg, vvg, mvv, mmm, mm0, gm0, isZ, copyOk, named, Instr.wf]

theorem opsub (z : BitVec 1) (mb : BitVec 3) (ma : BitVec 3) (b : BitVec 5) (a : BitVec 5) (s : BitVec 5) : Statement (.opsub z mb ma b a s) := fun _ hw =>
  of_os (mb := mb.toNat) (z := z.toNat) (m := ma.toNat) (b := b.toNat) (a := a.toNat) (d := s.toNat) (lt_of mb (by decide)) (lt_of z (by decide)) (lt_of ma (by decide)) (lt_of b (by decide)) (lt_of a (by decide)) (lt_of s (by decide)) (congrArg (fun w => some (true, w)) (by unfold packV; omega)) fun x hm h0 h1 h2 h3 h4 h5 => by
    simp only [decode32, hm, h0, h1, h2, h3, h4, h5, decMX]; simp_all [need, needP, vvv, vv0, vgg, vvg, mvv, mmm, mm0, gm0, isZ, copyOk, named, Instr.wf]

theorem mzero (z : BitVec 1) : Statement (.mzero z) := fun _ hw =>
  of_mc (op := 0) (z := z.toNat) (b := 0) (a := 0) (d := 0) (by decide) (lt_of z (by decide)) (by decide) (by decide) (by decide) (congrArg (fun w => some (true, w)) (by unfold packRR; omega)) fun x hm h0 h1 h2 h3 h4 h5 => by
    simp only [decode32, hm, h0, h1, h2, h3, h4, h5, dec2E]; simp_all [need, needP, vvv, vv0, vgg, vvg, mvv, mmm, mm0, gm0, isZ, copyOk, named, Instr.wf]

theorem mswap (z : BitVec 1) : Statement (.mswap z) := fun _ hw =>
  of_mc (op := 1) (z := z.toNat) (b := 0) (a := 0) (d := 0) (by decide) (lt_of z (by decide)) (by decide) (by decide) (by decide) (congrArg (fun w => some (true, w)) (by unfold packRR; omega)) fun x hm h0 h1 h2 h3 h4 h5 => by
    simp only [decode32, hm, h0, h1, h2, h3, h4, h5, dec2E]; simp_all [need, needP, vvv, vv0, vgg, vvg, mvv, mmm, mm0, gm0, isZ, copyOk, named, Instr.wf]

theorem mext (z : BitVec 1) (a : BitVec 6) : Statement (.mext z a) := fun _ hw =>
  of_mc (op := 2) (z := z.toNat) (b := 0) (a := a.toNat) (d := 0) (by decide) (lt_of z (by decide)) (by decide) (lt_of a (by decide)) (by decide) (congrArg (fun w => some (true, w)) (by unfold packRR; omega)) fun x hm h0 h1 h2 h3 h4 h5 => by
    simp only [decode32, hm, h0, h1, h2, h3, h4, h5, dec2E]; simp_all [need, needP, vvv, vv0, vgg, vvg, mvv, mmm, mm0, gm0, isZ, copyOk, named, Instr.wf]

theorem mgang (z : BitVec 1) (d : BitVec 6) (a : BitVec 6) : Statement (.mgang z d a) := fun _ hw =>
  of_mc (op := 3) (z := z.toNat) (b := 0) (a := a.toNat) (d := d.toNat) (by decide) (lt_of z (by decide)) (by decide) (lt_of a (by decide)) (lt_of d (by decide)) (congrArg (fun w => some (true, w)) (by unfold packRR; omega)) fun x hm h0 h1 h2 h3 h4 h5 => by
    simp only [decode32, hm, h0, h1, h2, h3, h4, h5, dec2E]; simp_all [need, needP, vvv, vv0, vgg, vvg, mvv, mmm, mm0, gm0, isZ, copyOk, named, Instr.wf]

theorem mcls (z : BitVec 1) (d : BitVec 6) (a : BitVec 5) : Statement (.mcls z d a) := fun _ hw =>
  of_mc (op := 4) (z := z.toNat) (b := 0) (a := a.toNat) (d := d.toNat) (by decide) (lt_of z (by decide)) (by decide) (lt_of a (by decide)) (lt_of d (by decide)) (congrArg (fun w => some (true, w)) (by unfold packRR; omega)) fun x hm h0 h1 h2 h3 h4 h5 => by
    simp only [decode32, hm, h0, h1, h2, h3, h4, h5, dec2E]; simp_all [need, needP, vvv, vv0, vgg, vvg, mvv, mmm, mm0, gm0, isZ, copyOk, named, Instr.wf]

theorem mrowRead (z : BitVec 1) (m : BitVec 3) (a : BitVec 6) (d : BitVec 5) : Statement (.mrowRead z m a d) := fun _ hw =>
  of_mm (op := 0) (z := z.toNat) (m := m.toNat) (b := 0) (a := a.toNat) (d := d.toNat) (by decide) (lt_of z (by decide)) (lt_of m (by decide)) (by decide) (lt_of a (by decide)) (lt_of d (by decide)) (congrArg (fun w => some (true, w)) (by unfold packV; omega)) fun x hm h0 h1 h2 h3 h4 h5 h6 => by
    simp only [decode32, hm, h0, h1, h2, h3, h4, h5, h6, dec2F]; simp_all [need, needP, vvv, vv0, vgg, vvg, mvv, mmm, mm0, gm0, isZ, copyOk, named, Instr.wf]

theorem mrowWrite (z : BitVec 1) (m : BitVec 3) (a : BitVec 6) (d : BitVec 5) : Statement (.mrowWrite z m a d) := fun _ hw =>
  of_mm (op := 1) (z := z.toNat) (m := m.toNat) (b := 0) (a := a.toNat) (d := d.toNat) (by decide) (lt_of z (by decide)) (lt_of m (by decide)) (by decide) (lt_of a (by decide)) (lt_of d (by decide)) (congrArg (fun w => some (true, w)) (by unfold packV; omega)) fun x hm h0 h1 h2 h3 h4 h5 h6 => by
    simp only [decode32, hm, h0, h1, h2, h3, h4, h5, h6, dec2F]; simp_all [need, needP, vvv, vv0, vgg, vvg, mvv, mmm, mm0, gm0, isZ, copyOk, named, Instr.wf]

theorem mcolRead (z : BitVec 1) (m : BitVec 3) (a : BitVec 6) (d : BitVec 5) : Statement (.mcolRead z m a d) := fun _ hw =>
  of_mm (op := 2) (z := z.toNat) (m := m.toNat) (b := 0) (a := a.toNat) (d := d.toNat) (by decide) (lt_of z (by decide)) (lt_of m (by decide)) (by decide) (lt_of a (by decide)) (lt_of d (by decide)) (congrArg (fun w => some (true, w)) (by unfold packV; omega)) fun x hm h0 h1 h2 h3 h4 h5 h6 => by
    simp only [decode32, hm, h0, h1, h2, h3, h4, h5, h6, dec2F]; simp_all [need, needP, vvv, vv0, vgg, vvg, mvv, mmm, mm0, gm0, isZ, copyOk, named, Instr.wf]

theorem mcolWrite (z : BitVec 1) (m : BitVec 3) (a : BitVec 6) (d : BitVec 5) : Statement (.mcolWrite z m a d) := fun _ hw =>
  of_mm (op := 3) (z := z.toNat) (m := m.toNat) (b := 0) (a := a.toNat) (d := d.toNat) (by decide) (lt_of z (by decide)) (lt_of m (by decide)) (by decide) (lt_of a (by decide)) (lt_of d (by decide)) (congrArg (fun w => some (true, w)) (by unfold packV; omega)) fun x hm h0 h1 h2 h3 h4 h5 h6 => by
    simp only [decode32, hm, h0, h1, h2, h3, h4, h5, h6, dec2F]; simp_all [need, needP, vvv, vv0, vgg, vvg, mvv, mmm, mm0, gm0, isZ, copyOk, named, Instr.wf]

theorem gins (m : BitVec 3) (d : BitVec 5) (a : BitVec 5) : Statement (.gins m d a) := fun _ hw =>
  of_v (by decide) (by decide) (lt_of m (by decide)) (by decide) (lt_of a (by decide)) (lt_of d (by decide)) rfl fun x hm h0 h1 h2 h3 h4 => by
    simp only [decode32, hm, h0, h1, h2, h3, h4, dec30]; simp_all [need, needP, vvv, vv0, vgg, vvg, mvv, mmm, mm0, gm0, isZ, copyOk, named, Instr.wf]

theorem glkp (m : BitVec 3) (d : BitVec 5) (a : BitVec 5) : Statement (.glkp m d a) := fun _ hw =>
  of_v (by decide) (by decide) (lt_of m (by decide)) (by decide) (lt_of a (by decide)) (lt_of d (by decide)) rfl fun x hm h0 h1 h2 h3 h4 => by
    simp only [decode32, hm, h0, h1, h2, h3, h4, dec30]; simp_all [need, needP, vvv, vv0, vgg, vvg, mvv, mmm, mm0, gm0, isZ, copyOk, named, Instr.wf]

theorem glkpO (m : BitVec 3) (d : BitVec 5) (a : BitVec 5) : Statement (.glkpO m d a) := fun _ hw =>
  of_v (by decide) (by decide) (lt_of m (by decide)) (by decide) (lt_of a (by decide)) (lt_of d (by decide)) rfl fun x hm h0 h1 h2 h3 h4 => by
    simp only [decode32, hm, h0, h1, h2, h3, h4, dec30]; simp_all [need, needP, vvv, vv0, vgg, vvg, mvv, mmm, mm0, gm0, isZ, copyOk, named, Instr.wf]

theorem gacc (m : BitVec 3) (d : BitVec 5) (a : BitVec 5) (b : BitVec 5) : Statement (.gacc m d a b) := fun _ hw =>
  of_v (by decide) (by decide) (lt_of m (by decide)) (lt_of b (by decide)) (lt_of a (by decide)) (lt_of d (by decide)) rfl fun x hm h0 h1 h2 h3 h4 => by
    simp only [decode32, hm, h0, h1, h2, h3, h4, dec30]; simp_all [need, needP, vvv, vv0, vgg, vvg, mvv, mmm, mm0, gm0, isZ, copyOk, named, Instr.wf]

theorem gdrn (m : BitVec 3) (d : BitVec 5) (a : BitVec 6) : Statement (.gdrn m d a) := fun _ hw =>
  of_v (by decide) (by decide) (lt_of m (by decide)) (by decide) (lt_of a (by decide)) (lt_of d (by decide)) rfl fun x hm h0 h1 h2 h3 h4 => by
    simp only [decode32, hm, h0, h1, h2, h3, h4, dec30]; simp_all [need, needP, vvv, vv0, vgg, vvg, mvv, mmm, mm0, gm0, isZ, copyOk, named, Instr.wf]

theorem gcnt (d : BitVec 6) : Statement (.gcnt d) := fun _ hw =>
  of_v (by decide) (by decide) (by decide) (by decide) (by decide) (lt_of d (by decide)) rfl fun x hm h0 h1 h2 h3 h4 => by
    simp only [decode32, hm, h0, h1, h2, h3, h4, dec30]; simp_all [need, needP, vvv, vv0, vgg, vvg, mvv, mmm, mm0, gm0, isZ, copyOk, named, Instr.wf]

theorem vdotseg (m : BitVec 3) (d : BitVec 5) (a : BitVec 5) (b : BitVec 5) : Statement (.vdotseg m d a b) := fun _ hw =>
  of_v (by decide) (by decide) (lt_of m (by decide)) (lt_of b (by decide)) (lt_of a (by decide)) (lt_of d (by decide)) rfl fun x hm h0 h1 h2 h3 h4 => by
    simp only [decode32, hm, h0, h1, h2, h3, h4, dec31]; simp_all [need, needP, vvv, vv0, vgg, vvg, mvv, mmm, mm0, gm0, isZ, copyOk, named, Instr.wf]

theorem vexpm (m : BitVec 3) (d : BitVec 5) (a : BitVec 5) (b : BitVec 5) : Statement (.vexpm m d a b) := fun _ hw =>
  of_v (by decide) (by decide) (lt_of m (by decide)) (lt_of b (by decide)) (lt_of a (by decide)) (lt_of d (by decide)) rfl fun x hm h0 h1 h2 h3 h4 => by
    simp only [decode32, hm, h0, h1, h2, h3, h4, dec31]; simp_all [need, needP, vvv, vv0, vgg, vvg, mvv, mmm, mm0, gm0, isZ, copyOk, named, Instr.wf]

theorem vaccw (m : BitVec 3) (d : BitVec 5) (a : BitVec 5) (b : BitVec 5) : Statement (.vaccw m d a b) := fun _ hw =>
  of_v (by decide) (by decide) (lt_of m (by decide)) (lt_of b (by decide)) (lt_of a (by decide)) (lt_of d (by decide)) rfl fun x hm h0 h1 h2 h3 h4 => by
    simp only [decode32, hm, h0, h1, h2, h3, h4, dec31]; simp_all [need, needP, vvv, vv0, vgg, vvg, mvv, mmm, mm0, gm0, isZ, copyOk, named, Instr.wf]

theorem vrcp (m : BitVec 3) (d : BitVec 5) (a : BitVec 5) : Statement (.vrcp m d a) := fun _ hw =>
  of_v (by decide) (by decide) (lt_of m (by decide)) (by decide) (lt_of a (by decide)) (lt_of d (by decide)) rfl fun x hm h0 h1 h2 h3 h4 => by
    simp only [decode32, hm, h0, h1, h2, h3, h4, dec32]; simp_all [need, needP, vvv, vv0, vgg, vvg, mvv, mmm, mm0, gm0, isZ, copyOk, named, Instr.wf]

theorem vrsq (m : BitVec 3) (d : BitVec 5) (a : BitVec 5) : Statement (.vrsq m d a) := fun _ hw =>
  of_v (by decide) (by decide) (lt_of m (by decide)) (by decide) (lt_of a (by decide)) (lt_of d (by decide)) rfl fun x hm h0 h1 h2 h3 h4 => by
    simp only [decode32, hm, h0, h1, h2, h3, h4, dec32]; simp_all [need, needP, vvv, vv0, vgg, vvg, mvv, mmm, mm0, gm0, isZ, copyOk, named, Instr.wf]

theorem vexp2 (m : BitVec 3) (d : BitVec 5) (a : BitVec 5) : Statement (.vexp2 m d a) := fun _ hw =>
  of_v (by decide) (by decide) (lt_of m (by decide)) (by decide) (lt_of a (by decide)) (lt_of d (by decide)) rfl fun x hm h0 h1 h2 h3 h4 => by
    simp only [decode32, hm, h0, h1, h2, h3, h4, dec32]; simp_all [need, needP, vvv, vv0, vgg, vvg, mvv, mmm, mm0, gm0, isZ, copyOk, named, Instr.wf]

theorem vdraw (m : BitVec 3) (d : BitVec 5) (a : BitVec 6) (b : BitVec 6) : Statement (.vdraw m d a b) := fun _ hw =>
  of_v (by decide) (by decide) (lt_of m (by decide)) (lt_of b (by decide)) (lt_of a (by decide)) (lt_of d (by decide)) rfl fun x hm h0 h1 h2 h3 h4 => by
    simp only [decode32, hm, h0, h1, h2, h3, h4, dec32]; simp_all [need, needP, vvv, vv0, vgg, vvg, mvv, mmm, mm0, gm0, isZ, copyOk, named, Instr.wf]

theorem vclass (m : BitVec 3) (d : BitVec 5) (a : BitVec 5) : Statement (.vclass m d a) := fun _ hw =>
  of_v (by decide) (by decide) (lt_of m (by decide)) (by decide) (lt_of a (by decide)) (lt_of d (by decide)) rfl fun x hm h0 h1 h2 h3 h4 => by
    simp only [decode32, hm, h0, h1, h2, h3, h4, dec32]; simp_all [need, needP, vvv, vv0, vgg, vvg, mvv, mmm, mm0, gm0, isZ, copyOk, named, Instr.wf]

theorem breakpoint (tag : BitVec 25) : Statement (.breakpoint tag) := by
  intro _ hw
  have h_tag := tag.isLt
  obtain ⟨x, hx⟩ : ∃ x, x = 127 + 128 * tag.toNat := ⟨_, rfl⟩
  have he : encode (.breakpoint tag) = some (true, x) := by rw [hx]; rfl
  refine of_word he (by omega) (by omega) ?_
  have hm : x / 2 % 64 = 63 := by omega
  have f0 : fld x 7 25 = tag := fld_eq (by
    try simp only [BitVec.toNat_setWidth, BitVec.toNat_ofNat]
    omega)
  show decode32 x = _
  simp only [decode32, hm, f0]; simp_all [need, needP, vvv, vv0, vgg, vvg, mvv, mmm, mm0, gm0, isZ, copyOk, named, Instr.wf]

theorem addC (b : BitVec 5) (d : BitVec 5) : Statement (.addC b d) := fun _ hw =>
  of_c (by decide) (lt_of b (by decide)) (lt_of d (by decide)) rfl fun x hm h0 h1 => by
    simp only [decode16, hm, h0, h1]; simp_all [need, needP, vvv, vv0, vgg, vvg, mvv, mmm, mm0, gm0, isZ, copyOk, named, Instr.wf]

theorem subC (b : BitVec 5) (d : BitVec 5) : Statement (.subC b d) := fun _ hw =>
  of_c (by decide) (lt_of b (by decide)) (lt_of d (by decide)) rfl fun x hm h0 h1 => by
    simp only [decode16, hm, h0, h1]; simp_all [need, needP, vvv, vv0, vgg, vvg, mvv, mmm, mm0, gm0, isZ, copyOk, named, Instr.wf]

theorem andC (b : BitVec 5) (d : BitVec 5) : Statement (.andC b d) := fun _ hw =>
  of_c (by decide) (lt_of b (by decide)) (lt_of d (by decide)) rfl fun x hm h0 h1 => by
    simp only [decode16, hm, h0, h1]; simp_all [need, needP, vvv, vv0, vgg, vvg, mvv, mmm, mm0, gm0, isZ, copyOk, named, Instr.wf]

theorem orC (b : BitVec 5) (d : BitVec 5) : Statement (.orC b d) := fun _ hw =>
  of_c (by decide) (lt_of b (by decide)) (lt_of d (by decide)) rfl fun x hm h0 h1 => by
    simp only [decode16, hm, h0, h1]; simp_all [need, needP, vvv, vv0, vgg, vvg, mvv, mmm, mm0, gm0, isZ, copyOk, named, Instr.wf]

theorem xorC (b : BitVec 5) (d : BitVec 5) : Statement (.xorC b d) := fun _ hw =>
  of_c (by decide) (lt_of b (by decide)) (lt_of d (by decide)) rfl fun x hm h0 h1 => by
    simp only [decode16, hm, h0, h1]; simp_all [need, needP, vvv, vv0, vgg, vvg, mvv, mmm, mm0, gm0, isZ, copyOk, named, Instr.wf]

theorem shlC (b : BitVec 5) (d : BitVec 5) : Statement (.shlC b d) := fun _ hw =>
  of_c (by decide) (lt_of b (by decide)) (lt_of d (by decide)) rfl fun x hm h0 h1 => by
    simp only [decode16, hm, h0, h1]; simp_all [need, needP, vvv, vv0, vgg, vvg, mvv, mmm, mm0, gm0, isZ, copyOk, named, Instr.wf]

theorem shrC (b : BitVec 5) (d : BitVec 5) : Statement (.shrC b d) := fun _ hw =>
  of_c (by decide) (lt_of b (by decide)) (lt_of d (by decide)) rfl fun x hm h0 h1 => by
    simp only [decode16, hm, h0, h1]; simp_all [need, needP, vvv, vv0, vgg, vvg, mvv, mmm, mm0, gm0, isZ, copyOk, named, Instr.wf]

theorem sraC (b : BitVec 5) (d : BitVec 5) : Statement (.sraC b d) := fun _ hw =>
  of_c (by decide) (lt_of b (by decide)) (lt_of d (by decide)) rfl fun x hm h0 h1 => by
    simp only [decode16, hm, h0, h1]; simp_all [need, needP, vvv, vv0, vgg, vvg, mvv, mmm, mm0, gm0, isZ, copyOk, named, Instr.wf]

theorem mulC (b : BitVec 5) (d : BitVec 5) : Statement (.mulC b d) := fun _ hw =>
  of_c (by decide) (lt_of b (by decide)) (lt_of d (by decide)) rfl fun x hm h0 h1 => by
    simp only [decode16, hm, h0, h1]; simp_all [need, needP, vvv, vv0, vgg, vvg, mvv, mmm, mm0, gm0, isZ, copyOk, named, Instr.wf]

theorem minC (b : BitVec 5) (d : BitVec 5) : Statement (.minC b d) := fun _ hw =>
  of_c (by decide) (lt_of b (by decide)) (lt_of d (by decide)) rfl fun x hm h0 h1 => by
    simp only [decode16, hm, h0, h1]; simp_all [need, needP, vvv, vv0, vgg, vvg, mvv, mmm, mm0, gm0, isZ, copyOk, named, Instr.wf]

theorem maxC (b : BitVec 5) (d : BitVec 5) : Statement (.maxC b d) := fun _ hw =>
  of_c (by decide) (lt_of b (by decide)) (lt_of d (by decide)) rfl fun x hm h0 h1 => by
    simp only [decode16, hm, h0, h1]; simp_all [need, needP, vvv, vv0, vgg, vvg, mvv, mmm, mm0, gm0, isZ, copyOk, named, Instr.wf]

theorem minnC (b : BitVec 5) (d : BitVec 5) : Statement (.minnC b d) := fun _ hw =>
  of_c (by decide) (lt_of b (by decide)) (lt_of d (by decide)) rfl fun x hm h0 h1 => by
    simp only [decode16, hm, h0, h1]; simp_all [need, needP, vvv, vv0, vgg, vvg, mvv, mmm, mm0, gm0, isZ, copyOk, named, Instr.wf]

theorem maxnC (b : BitVec 5) (d : BitVec 5) : Statement (.maxnC b d) := fun _ hw =>
  of_c (by decide) (lt_of b (by decide)) (lt_of d (by decide)) rfl fun x hm h0 h1 => by
    simp only [decode16, hm, h0, h1]; simp_all [need, needP, vvv, vv0, vgg, vvg, mvv, mmm, mm0, gm0, isZ, copyOk, named, Instr.wf]

theorem sltC (b : BitVec 5) (d : BitVec 5) : Statement (.sltC b d) := fun _ hw =>
  of_c (by decide) (lt_of b (by decide)) (lt_of d (by decide)) rfl fun x hm h0 h1 => by
    simp only [decode16, hm, h0, h1]; simp_all [need, needP, vvv, vv0, vgg, vvg, mvv, mmm, mm0, gm0, isZ, copyOk, named, Instr.wf]

theorem sltnC (b : BitVec 5) (d : BitVec 5) : Statement (.sltnC b d) := fun _ hw =>
  of_c (by decide) (lt_of b (by decide)) (lt_of d (by decide)) rfl fun x hm h0 h1 => by
    simp only [decode16, hm, h0, h1]; simp_all [need, needP, vvv, vv0, vgg, vvg, mvv, mmm, mm0, gm0, isZ, copyOk, named, Instr.wf]

theorem addiC (imm : BitVec 5) (d : BitVec 5) : Statement (.addiC imm d) := fun _ hw =>
  of_c (by decide) (lt_of imm (by decide)) (lt_of d (by decide)) rfl fun x hm h0 h1 => by
    simp only [decode16, hm, h0, h1]; simp_all [need, needP, vvv, vv0, vgg, vvg, mvv, mmm, mm0, gm0, isZ, copyOk, named, Instr.wf]

theorem andiC (imm : BitVec 5) (d : BitVec 5) : Statement (.andiC imm d) := fun _ hw =>
  of_c (by decide) (lt_of imm (by decide)) (lt_of d (by decide)) rfl fun x hm h0 h1 => by
    simp only [decode16, hm, h0, h1]; simp_all [need, needP, vvv, vv0, vgg, vvg, mvv, mmm, mm0, gm0, isZ, copyOk, named, Instr.wf]

theorem shliC (imm : BitVec 5) (d : BitVec 5) : Statement (.shliC imm d) := fun _ hw =>
  of_c (by decide) (lt_of imm (by decide)) (lt_of d (by decide)) rfl fun x hm h0 h1 => by
    simp only [decode16, hm, h0, h1]; simp_all [need, needP, vvv, vv0, vgg, vvg, mvv, mmm, mm0, gm0, isZ, copyOk, named, Instr.wf]

theorem shriC (imm : BitVec 5) (d : BitVec 5) : Statement (.shriC imm d) := fun _ hw =>
  of_c (by decide) (lt_of imm (by decide)) (lt_of d (by decide)) rfl fun x hm h0 h1 => by
    simp only [decode16, hm, h0, h1]; simp_all [need, needP, vvv, vv0, vgg, vvg, mvv, mmm, mm0, gm0, isZ, copyOk, named, Instr.wf]

theorem sraiC (imm : BitVec 5) (d : BitVec 5) : Statement (.sraiC imm d) := fun _ hw =>
  of_c (by decide) (lt_of imm (by decide)) (lt_of d (by decide)) rfl fun x hm h0 h1 => by
    simp only [decode16, hm, h0, h1]; simp_all [need, needP, vvv, vv0, vgg, vvg, mvv, mmm, mm0, gm0, isZ, copyOk, named, Instr.wf]

theorem movC (b : BitVec 5) (d : BitVec 5) : Statement (.movC b d) := fun _ hw =>
  of_c (by decide) (lt_of b (by decide)) (lt_of d (by decide)) rfl fun x hm h0 h1 => by
    simp only [decode16, hm, h0, h1]; simp_all [need, needP, vvv, vv0, vgg, vvg, mvv, mmm, mm0, gm0, isZ, copyOk, named, Instr.wf]

theorem liC (imm : BitVec 5) (d : BitVec 5) : Statement (.liC imm d) := fun _ hw =>
  of_c (by decide) (lt_of imm (by decide)) (lt_of d (by decide)) rfl fun x hm h0 h1 => by
    simp only [decode16, hm, h0, h1]; simp_all [need, needP, vvv, vv0, vgg, vvg, mvv, mmm, mm0, gm0, isZ, copyOk, named, Instr.wf]

theorem ldsC (imm : BitVec 5) (d : BitVec 5) : Statement (.ldsC imm d) := fun _ hw =>
  of_c (by decide) (lt_of imm (by decide)) (lt_of d (by decide)) rfl fun x hm h0 h1 => by
    simp only [decode16, hm, h0, h1]; simp_all [need, needP, vvv, vv0, vgg, vvg, mvv, mmm, mm0, gm0, isZ, copyOk, named, Instr.wf]

theorem stsC (imm : BitVec 5) (d : BitVec 5) : Statement (.stsC imm d) := fun _ hw =>
  of_c (by decide) (lt_of imm (by decide)) (lt_of d (by decide)) rfl fun x hm h0 h1 => by
    simp only [decode16, hm, h0, h1]; simp_all [need, needP, vvv, vv0, vgg, vvg, mvv, mmm, mm0, gm0, isZ, copyOk, named, Instr.wf]

theorem illegalInstruction (word : BitVec 32) (detail : BitVec 8) : Statement (.illegalInstruction word detail) := fun h => nomatch h

theorem fetchFault (kind : BitVec 4) (addr : BitVec 64) : Statement (.fetchFault kind addr) := fun h => nomatch h

theorem preemptHalt (cut : BitVec 16) : Statement (.preemptHalt cut) := fun h => nomatch h

theorem bctxWrite (tag : BitVec 16) : Statement (.bctxWrite tag) := fun h => nomatch h

theorem bcmdRead (d : BitVec 6) : Statement (.bcmdRead d) := fun h => nomatch h

theorem bwinRead (d : BitVec 6) : Statement (.bwinRead d) := fun h => nomatch h

theorem bwinWrite (a : BitVec 6) : Statement (.bwinWrite a) := fun h => nomatch h

theorem bintClear (value : BitVec 64) : Statement (.bintClear value) := fun h => nomatch h

theorem bmsi (value : BitVec 64) : Statement (.bmsi value) := fun h => nomatch h

theorem fbar : Statement (.fbar) := fun _ hw =>
  of_fc (s := 0) (op := 4) (b := 0) (a := 0) (d := 0) (by decide) (by decide) (by decide) (by decide) (by decide) rfl fun x hm h0 h1 h2 h3 h4 h5 => by
    simp only [decode32, hm, h0, h1, h2, h3, h4, h5, dec11]; simp_all [need, needP, vvv, vv0, vgg, vvg, mvv, mmm, mm0, gm0, isZ, copyOk, named, Instr.wf]

theorem nop : Statement (.nop) := fun _ hw =>
  of_sy (by decide) (by decide) (by decide) (by decide) rfl fun x hm h0 h1 h2 h3 => by
    simp only [decode32, hm, h0, h1, h2, h3, dec12, decSvc]; simp_all [need, needP, vvv, vv0, vgg, vvg, mvv, mmm, mm0, gm0, isZ, copyOk, named, Instr.wf]

theorem svcRetire : Statement (.svcRetire) := fun _ hw =>
  of_sy (by decide) (by decide) (by decide) (by decide) rfl fun x hm h0 h1 h2 h3 => by
    simp only [decode32, hm, h0, h1, h2, h3, dec12, decSvc]; simp_all [need, needP, vvv, vv0, vgg, vvg, mvv, mmm, mm0, gm0, isZ, copyOk, named, Instr.wf]

theorem svcAbort : Statement (.svcAbort) := fun _ hw =>
  of_sy (by decide) (by decide) (by decide) (by decide) rfl fun x hm h0 h1 h2 h3 => by
    simp only [decode32, hm, h0, h1, h2, h3, dec12, decSvc]; simp_all [need, needP, vvv, vv0, vgg, vvg, mvv, mmm, mm0, gm0, isZ, copyOk, named, Instr.wf]

theorem svcReserve : Statement (.svcReserve) := fun _ hw =>
  of_sy (by decide) (by decide) (by decide) (by decide) rfl fun x hm h0 h1 h2 h3 => by
    simp only [decode32, hm, h0, h1, h2, h3, dec12, decSvc]; simp_all [need, needP, vvv, vv0, vgg, vvg, mvv, mmm, mm0, gm0, isZ, copyOk, named, Instr.wf]

theorem svcRelease : Statement (.svcRelease) := fun _ hw =>
  of_sy (by decide) (by decide) (by decide) (by decide) rfl fun x hm h0 h1 h2 h3 => by
    simp only [decode32, hm, h0, h1, h2, h3, dec12, decSvc]; simp_all [need, needP, vvv, vv0, vgg, vvg, mvv, mmm, mm0, gm0, isZ, copyOk, named, Instr.wf]

theorem svcFork : Statement (.svcFork) := fun _ hw =>
  of_sy (by decide) (by decide) (by decide) (by decide) rfl fun x hm h0 h1 h2 h3 => by
    simp only [decode32, hm, h0, h1, h2, h3, dec12, decSvc]; simp_all [need, needP, vvv, vv0, vgg, vvg, mvv, mmm, mm0, gm0, isZ, copyOk, named, Instr.wf]

theorem svcShootdown : Statement (.svcShootdown) := fun _ hw =>
  of_sy (by decide) (by decide) (by decide) (by decide) rfl fun x hm h0 h1 h2 h3 => by
    simp only [decode32, hm, h0, h1, h2, h3, dec12, decSvc]; simp_all [need, needP, vvv, vv0, vgg, vvg, mvv, mmm, mm0, gm0, isZ, copyOk, named, Instr.wf]

theorem svcExportWindow : Statement (.svcExportWindow) := fun _ hw =>
  of_sy (by decide) (by decide) (by decide) (by decide) rfl fun x hm h0 h1 h2 h3 => by
    simp only [decode32, hm, h0, h1, h2, h3, dec12, decSvc]; simp_all [need, needP, vvv, vv0, vgg, vvg, mvv, mmm, mm0, gm0, isZ, copyOk, named, Instr.wf]

theorem svcReopenGroup : Statement (.svcReopenGroup) := fun _ hw =>
  of_sy (by decide) (by decide) (by decide) (by decide) rfl fun x hm h0 h1 h2 h3 => by
    simp only [decode32, hm, h0, h1, h2, h3, dec12, decSvc]; simp_all [need, needP, vvv, vv0, vgg, vvg, mvv, mmm, mm0, gm0, isZ, copyOk, named, Instr.wf]

theorem rtn : Statement (.rtn) := fun _ hw =>
  of_sy (by decide) (by decide) (by decide) (by decide) rfl fun x hm h0 h1 h2 h3 => by
    simp only [decode32, hm, h0, h1, h2, h3, dec12, decSvc]; simp_all [need, needP, vvv, vv0, vgg, vvg, mvv, mmm, mm0, gm0, isZ, copyOk, named, Instr.wf]

theorem rtnBridge : Statement (.rtnBridge) := fun _ hw =>
  of_sy (by decide) (by decide) (by decide) (by decide) rfl fun x hm h0 h1 h2 h3 => by
    simp only [decode32, hm, h0, h1, h2, h3, dec12, decSvc]; simp_all [need, needP, vvv, vv0, vgg, vvg, mvv, mmm, mm0, gm0, isZ, copyOk, named, Instr.wf]

theorem halt : Statement (.halt) := fun _ hw =>
  of_sy (by decide) (by decide) (by decide) (by decide) rfl fun x hm h0 h1 h2 h3 => by
    simp only [decode32, hm, h0, h1, h2, h3, dec12, decSvc]; simp_all [need, needP, vvv, vv0, vgg, vvg, mvv, mmm, mm0, gm0, isZ, copyOk, named, Instr.wf]

theorem tlbiBerth : Statement (.tlbiBerth) := fun _ hw =>
  of_sy (by decide) (by decide) (by decide) (by decide) rfl fun x hm h0 h1 h2 h3 => by
    simp only [decode32, hm, h0, h1, h2, h3, dec12, decSvc]; simp_all [need, needP, vvv, vv0, vgg, vvg, mvv, mmm, mm0, gm0, isZ, copyOk, named, Instr.wf]

theorem yield : Statement (.yield) := fun _ hw =>
  of_v (by decide) (by decide) (by decide) (by decide) (by decide) (by decide) rfl fun x hm h0 h1 h2 h3 h4 => by
    simp only [decode32, hm, h0, h1, h2, h3, h4, dec16]; simp_all [need, needP, vvv, vv0, vgg, vvg, mvv, mmm, mm0, gm0, isZ, copyOk, named, Instr.wf]

theorem gclr : Statement (.gclr) := fun _ hw =>
  of_v (by decide) (by decide) (by decide) (by decide) (by decide) (by decide) rfl fun x hm h0 h1 h2 h3 h4 => by
    simp only [decode32, hm, h0, h1, h2, h3, h4, dec30]; simp_all [need, needP, vvv, vv0, vgg, vvg, mvv, mmm, mm0, gm0, isZ, copyOk, named, Instr.wf]

theorem nopC : Statement (.nopC) := fun _ hw =>
  of_c (by decide) (by decide) (by decide) rfl fun x hm h0 h1 => by
    simp only [decode16, hm, h0, h1]; simp_all [need, needP, vvv, vv0, vgg, vvg, mvv, mmm, mm0, gm0, isZ, copyOk, named, Instr.wf]

theorem mwaitWake : Statement (.mwaitWake) := fun h => nomatch h

theorem mwaitTimeout : Statement (.mwaitTimeout) := fun h => nomatch h

theorem contextSave : Statement (.contextSave) := fun h => nomatch h

theorem pilotPlace : Statement (.pilotPlace) := fun h => nomatch h

theorem dependenceCheck : Statement (.dependenceCheck) := fun h => nomatch h

theorem hostDependencePoll : Statement (.hostDependencePoll) := fun h => nomatch h

theorem launchSignal : Statement (.launchSignal) := fun h => nomatch h

theorem towExchange : Statement (.towExchange) := fun h => nomatch h

theorem barrierRelease : Statement (.barrierRelease) := fun h => nomatch h

theorem joinWake : Statement (.joinWake) := fun h => nomatch h

theorem beaconAdvance : Statement (.beaconAdvance) := fun h => nomatch h

theorem ringRefill : Statement (.ringRefill) := fun h => nomatch h

theorem lockBatchRefusal : Statement (.lockBatchRefusal) := fun h => nomatch h

theorem tenderCommandEntry : Statement (.tenderCommandEntry) := fun h => nomatch h

theorem tfdone : Statement (.tfdone) := fun h => nomatch h

theorem tfsend : Statement (.tfsend) := fun h => nomatch h

theorem tfrecv : Statement (.tfrecv) := fun h => nomatch h

theorem tfwait : Statement (.tfwait) := fun h => nomatch h

theorem tokenDelivery : Statement (.tokenDelivery) := fun h => nomatch h

theorem messageArrival : Statement (.messageArrival) := fun h => nomatch h

theorem messageRetry : Statement (.messageRetry) := fun h => nomatch h

theorem chunkComplete : Statement (.chunkComplete) := fun h => nomatch h

theorem collectiveTimeout : Statement (.collectiveTimeout) := fun h => nomatch h

theorem portFailure : Statement (.portFailure) := fun h => nomatch h

theorem btake : Statement (.btake) := fun h => nomatch h

theorem sync : Statement (.sync) := fun h => nomatch h

theorem retire : Statement (.retire) := fun h => nomatch h

theorem abort : Statement (.abort) := fun h => nomatch h

theorem spillAcc0 : Statement (.spillAcc0) := fun h => nomatch h

theorem spillAcc1 : Statement (.spillAcc1) := fun h => nomatch h

theorem loadAcc0 : Statement (.loadAcc0) := fun h => nomatch h

theorem loadAcc1 : Statement (.loadAcc1) := fun h => nomatch h

theorem msixDelivery : Statement (.msixDelivery) := fun h => nomatch h

theorem haltWake : Statement (.haltWake) := fun h => nomatch h

theorem heartbeat : Statement (.heartbeat) := fun h => nomatch h

theorem enableCheck : Statement (.enableCheck) := fun h => nomatch h

theorem functionLevelReset : Statement (.functionLevelReset) := fun h => nomatch h

theorem callNop : Statement (.callNop) := fun h => nomatch h

theorem callSpace : Statement (.callSpace) := fun h => nomatch h

theorem callMap : Statement (.callMap) := fun h => nomatch h

theorem callUnmap : Statement (.callUnmap) := fun h => nomatch h

theorem callLaunch : Statement (.callLaunch) := fun h => nomatch h

theorem callRelease : Statement (.callRelease) := fun h => nomatch h

theorem callRevoke : Statement (.callRevoke) := fun h => nomatch h

theorem callDebug : Statement (.callDebug) := fun h => nomatch h

theorem callResume : Statement (.callResume) := fun h => nomatch h

theorem callHwin : Statement (.callHwin) := fun h => nomatch h

theorem flush : Statement (.flush) := fun h => nomatch h

theorem lstatRead : Statement (.lstatRead) := fun h => nomatch h

theorem registerWrite : Statement (.registerWrite) := fun h => nomatch h

theorem inboundPostedWrite : Statement (.inboundPostedWrite) := fun h => nomatch h

theorem pieceAcknowledgement : Statement (.pieceAcknowledgement) := fun h => nomatch h

theorem inboundRead : Statement (.inboundRead) := fun h => nomatch h

theorem cxlMemRequest : Statement (.cxlMemRequest) := fun h => nomatch h

theorem outboundCompletion : Statement (.outboundCompletion) := fun h => nomatch h

theorem outboundReadTimeout : Statement (.outboundReadTimeout) := fun h => nomatch h

theorem hostSnoop : Statement (.hostSnoop) := fun h => nomatch h

theorem ident : Statement (.ident) := fun h => nomatch h

theorem attest : Statement (.attest) := fun h => nomatch h

theorem berth : Statement (.berth) := fun h => nomatch h

theorem keyset : Statement (.keyset) := fun h => nomatch h

theorem hdm : Statement (.hdm) := fun h => nomatch h

theorem stby : Statement (.stby) := fun h => nomatch h

theorem mgmtRelease : Statement (.mgmtRelease) := fun h => nomatch h

theorem resetRelease : Statement (.resetRelease) := fun h => nomatch h

theorem stageAdvance : Statement (.stageAdvance) := fun h => nomatch h

theorem dramTrainingDone : Statement (.dramTrainingDone) := fun h => nomatch h

theorem scrub : Statement (.scrub) := fun h => nomatch h

theorem errorDetected : Statement (.errorDetected) := fun h => nomatch h

theorem machineCheck : Statement (.machineCheck) := fun h => nomatch h

theorem fatalError : Statement (.fatalError) := fun h => nomatch h

theorem throttle : Statement (.throttle) := fun h => nomatch h

theorem supplyFault : Statement (.supplyFault) := fun h => nomatch h

theorem callUnknownOp : Statement (.callUnknownOp) := fun h => nomatch h

theorem hotReset : Statement (.hotReset) := fun h => nomatch h

theorem spuriousMonitorFire : Statement (.spuriousMonitorFire) := fun h => nomatch h

theorem throttleEnd : Statement (.throttleEnd) := fun h => nomatch h

theorem firmwareFault : Statement (.firmwareFault) := fun h => nomatch h

theorem contributionMismatch : Statement (.contributionMismatch) := fun h => nomatch h

theorem memberFailure : Statement (.memberFailure) := fun h => nomatch h

theorem spdmMessage : Statement (.spdmMessage) := fun h => nomatch h

end Sys2Proof.Laws.RoundTrip
end

