-- ==== Sys2Proof/Laws/Stores.lean ====
section
/-!
SUPPORT. Loads and stores in the terms of Safety: what an access changes beside its result, which bytes a store leaves,
and that it keeps the canonical form.
-/
namespace Sys2Proof.Machine

/-! What an access leaves beside its effect. -/

/-- A line's key stays when others are given theirs. -/
theorem Seen.keyOf_see (x : Seen) (line key n k : Nat) (h : x.keyOf n = some k) : (x.see line key).keyOf n = some k := by
  unfold Seen.see
  split
  · exact h
  · rename_i hn
    have hne : line ≠ n := by
      intro e
      subst e
      exact hn (by simp [h])
    simp only [Seen.keyOf, List.find?_cons, hne, decide_false]
    exact h

/-- An access leaves cached translations and gives a key to a line without one. -/
theorem State.fillTlb_eq (s : State) (sp : ASpace) (ea : Word) : s.fillTlb sp ea = s.withTlb (s.fillTlb sp ea) := rfl

theorem State.fillTlb_memory (s : State) (sp : ASpace) (ea : Word) : SameMemory s (s.fillTlb sp ea) := by
  refine ⟨fun l hl => ?_, fun n k h => ?_⟩
  · obtain ⟨sp', a⟩ := l
    cases sp'
    case cipher => exact absurd hl (Loc.not_real_cipher _ _)
    all_goals rfl
  · show (s.seenAfter sp ea).keyOf n = some k
    unfold State.seenAfter
    dsimp only
    split
    · exact h
    · split
      · split
        · exact Seen.keyOf_see _ _ _ _ _ h
        · exact h
      · exact h

theorem State.touch_eq (s : State) (ea : Word) (n : Nat) : s.touch ea n = s.withTlb (s.touch ea n) := rfl

theorem State.touch_memory (s : State) (ea : Word) (n : Nat) : SameMemory s (s.touch ea n) :=
  (State.fillTlb_memory s _ _).trans (State.fillTlb_memory _ _ _)

/-- A load's result after the access. -/
theorem loaded_retire (s : State) (ea : Word) (n : Nat) (d : BitVec 6) (x len : Word) :
    Loaded s (((s.touch ea n).wr d x).retire len) d x len := by
  obtain ⟨h1, h2, h3⟩ := wrote_retire (s.touch ea n) d x len
  refine ⟨?_, h2, (State.touch_memory s ea n).trans h3⟩
  have e1 : (((s.touch ea n).wr d x).retire len).core.tlb = (s.touch ea n).core.tlb := by
    rw [State.retire_eq]
    rfl
  have e2 : (((s.touch ea n).wr d x).retire len).ms.seen = (s.touch ea n).ms.seen := by
    rw [State.retire_eq]
    rfl
  generalize ((s.touch ea n).wr d x).retire len = t at h1 e1 e2 ⊢
  have e : (s.touch ea n).withDest t d = (s.withDest t d).withTlb t := by
    rw [State.touch_eq]
    simp only [State.withTlb, State.withDest, e1, e2]
  rw [← e]
  exact h1

/-- A load without a conflicting copy whose checks pass. -/
theorem State.loadN_run {s : State} {ea : Word} {n : Nat} {ls : List Loc}
    (hc : s.conflict false (eaBounds ea n).1 (eaBounds ea n).2 = none)
    (hk : s.check s.aspace Need.load ea n = .ok ls) (go : State → Nat → Out) :
    s.loadN ea n go = go (s.touch ea n) (ofBytes (s.bytes ls)) := by
  simp [State.loadN, State.clear, hc, hk]

/-- A load whose checks stop traps. -/
theorem State.loadN_trap {s : State} {ea : Word} {n : Nat} {st : Stop}
    (hc : s.conflict false (eaBounds ea n).1 (eaBounds ea n).2 = none)
    (hk : s.check s.aspace Need.load ea n = .error st) (go : State → Nat → Out) :
    s.loadN ea n go = s.trap (Trap.access st) := by
  simp [State.loadN, State.clear, hc, hk]

/-! Stored bytes. -/

/-- A write changes bytes alone. -/
theorem State.putByte_eq (s : State) (l : Loc) (b : Byte) :
    s.putByte l b = { s with
      ms := { s.ms with dram := (s.putByte l b).ms.dram, cxl := (s.putByte l b).ms.cxl, pcie := (s.putByte l b).ms.pcie }
      core := { s.core with pool := (s.putByte l b).core.pool } } := by
  obtain ⟨sp, a⟩ := l
  cases sp
  case pcie => simp only [State.putByte]; split <;> rfl
  all_goals rfl

theorem State.putBytes_eq (s : State) (ws : List (Loc × Byte)) :
    s.putBytes ws = { s with
      ms := { s.ms with dram := (s.putBytes ws).ms.dram, cxl := (s.putBytes ws).ms.cxl, pcie := (s.putBytes ws).ms.pcie }
      core := { s.core with pool := (s.putBytes ws).core.pool } } := by
  induction ws generalizing s with
  | nil => rfl
  | cons x t ih =>
    obtain ⟨l, b⟩ := x
    simp only [State.putBytes]
    rw [ih, State.putByte_eq]

@[simp] theorem State.putByte_dropped (s : State) (l : Loc) (b : Byte) : (s.putByte l b).ms.dropped = s.ms.dropped := by
  rw [State.putByte_eq]

@[simp] theorem State.putByte_seen (s : State) (l : Loc) (b : Byte) : (s.putByte l b).ms.seen = s.ms.seen := by
  rw [State.putByte_eq]

/-- The places of writes that the host takes. -/
def taken (s : State) (ws : List (Loc × Byte)) : List (Loc × Byte) := ws.filter fun w => s.takes w.1

/-- The bytes after writes in order to places of memory. -/
theorem State.byte_putBytes (s : State) (ws : List (Loc × Byte)) (h : s.MemWf) (hw : ∀ w ∈ ws, w.1.Real) {l : Loc}
    (hl : l.Real) : (s.putBytes ws).byte l = written (taken s ws) l (s.byte l) := by
  induction ws generalizing s with
  | nil => rfl
  | cons x t ih =>
    obtain ⟨k, b⟩ := x
    have hk : k.Real := hw _ List.mem_cons_self
    have ht : ∀ w ∈ t, w.1.Real := fun w hm => hw w (List.mem_cons_of_mem _ hm)
    have e1 : taken (s.putByte k b) t = taken s t := by simp [taken, State.takes]
    simp only [State.putBytes]
    rw [ih _ (h.putByte k b) ht, e1]
    by_cases hd : s.takes k = true
    · have e2 : taken s ((k, b) :: t) = (k, b) :: taken s t := by simp [taken, hd]
      rw [e2, written]
      by_cases e : k = l
      · subst e
        rw [State.byte_putByte_same h hk, if_pos rfl]
        intro hp
        simpa [State.takes, hp] using hd
      · rw [State.byte_putByte_other _ _ hl (fun x => e (by rw [x]; exact hk.symm)), if_neg e]
    · have e2 : taken s ((k, b) :: t) = taken s t := by simp [taken, hd]
      have e3 : s.putByte k b = s := by
        obtain ⟨sp, a⟩ := k
        cases sp <;> simp_all [State.takes, State.putByte]
      rw [e2, e3]

theorem State.Canonical.memWf {s : State} (h : s.Canonical) : s.MemWf :=
  { dram := h.1, cxl := h.2.1, pcie := h.2.2.1, pool := h.2.2.2.1 }

/-! The parts of a store. -/

theorem State.mayFetch_eq (s : State) (old : List (Nat × BitVec 16)) :
    s.mayFetch old = { s with
      core := { s.core with icache := (s.mayFetch old).core.icache }
      strand := { s.strand with fetchd := (s.mayFetch old).strand.fetchd }
      pop := (s.mayFetch old).pop } := rfl

theorem Hart.snoop_eq (h : Hart) (lines : List Loc) :
    h.snoop lines = { h with monFired := (h.snoop lines).monFired } := by
  unfold Hart.snoop
  split
  · split <;> rfl
  · rfl

theorem State.snoop_eq (s : State) (lines : List Loc) :
    s.snoop lines = { s with hart := { s.hart with monFired := (s.snoop lines).hart.monFired }, pop := (s.snoop lines).pop } := by
  unfold State.snoop
  simp only [State.setHart, State.setPop]
  rw [Hart.snoop_eq]

theorem samePop_refl (p : Pop) : SamePop p p := ⟨rfl, rfl, rfl, rfl, rfl⟩

theorem SamePop.trans {p q r : Pop} (h : SamePop p q) (k : SamePop q r) : SamePop p r :=
  ⟨k.1.trans h.1, k.2.1.trans h.2.1, k.2.2.1.trans h.2.2.1, k.2.2.2.1.trans h.2.2.2.1, k.2.2.2.2.trans h.2.2.2.2⟩

theorem State.mayFetch_pop (s : State) (old : List (Nat × BitVec 16)) : SamePop s.pop (s.mayFetch old).pop := by
  refine ⟨?_, ?_, rfl, rfl, rfl⟩
  · simp [State.mayFetch, State.setPop, State.setCore, State.setStrand, Ctx.core_, Function.comp_def]
  · simp [State.mayFetch, State.setPop, State.setCore, State.setStrand, Core.core_, Function.comp_def]

theorem State.snoop_pop (s : State) (lines : List Loc) : SamePop s.pop (s.snoop lines).pop := by
  refine ⟨?_, rfl, ?_, rfl, ?_⟩
  · simp only [State.snoop, State.setPop, State.setHart, List.map_map]
    refine List.map_congr_left fun c _ => ?_
    simp only [Ctx.core_, Function.comp_apply]
    rw [Hart.snoop_eq]
  · simp only [State.snoop, State.setPop, State.setHart, List.map_map]
    refine List.map_congr_left fun c _ => ?_
    simp only [BPark.core_, Function.comp_apply]
    rw [Hart.snoop_eq]
  · simp only [State.snoop, State.setPop, State.setHart, List.map_map]
    refine List.map_congr_left fun c _ => ?_
    simp only [TCore.core_, Function.comp_apply]
    split <;> rfl

theorem State.withStore_trans {s t u : State} (ht : t = s.withStore t) (hu : u = t.withStore u) : u = s.withStore u := by
  have e : t.withStore u = s.withStore u := by
    rw [ht]
    rfl
  rw [← e]
  exact hu

/-- Bytes written where old parcels may still be fetched, and a change of keys. -/
theorem State.rewrite_spec (s : State) (old : List (Nat × BitVec 16)) (ws : List (Loc × Byte)) (x : Seen) (h : s.MemWf) :
    let t := (s.mayFetch old).putBytes ws
    let u := t.setMs { t.ms with seen := x }
    u = s.withStore u ∧ u.MemWf ∧ u.ms.dropped = s.ms.dropped ∧ SamePop s.pop u.pop := by
  have hm : (s.mayFetch old).MemWf := ⟨h.dram, h.cxl, h.pcie, h.pool⟩
  have k := hm.putBytes ws
  refine ⟨?_, ⟨k.dram, k.cxl, k.pcie, k.pool⟩, ?_, ?_⟩
  · rw [State.putBytes_eq, State.mayFetch_eq]
    rfl
  · rw [State.putBytes_eq]
    rfl
  · rw [State.putBytes_eq]
    exact State.mayFetch_pop s _

/-- A line that comes to stand under another key: what it may change, and what stays. -/
theorem State.rekey_spec (s : State) (l : Loc) (h : s.MemWf) :
    s.rekey l = s.withStore (s.rekey l) ∧ (s.rekey l).MemWf ∧ (s.rekey l).ms.dropped = s.ms.dropped
      ∧ SamePop s.pop (s.rekey l).pop := by
  unfold State.rekey
  split
  · dsimp only
    split
    · exact ⟨rfl, h, rfl, samePop_refl _⟩
    · exact State.rewrite_spec s _ _ _ h
  · exact ⟨rfl, h, rfl, samePop_refl _⟩

theorem State.rekeys_spec (s : State) (ls : List Loc) (h : s.MemWf) :
    s.rekeys ls = s.withStore (s.rekeys ls) ∧ (s.rekeys ls).MemWf ∧ (s.rekeys ls).ms.dropped = s.ms.dropped
      ∧ SamePop s.pop (s.rekeys ls).pop := by
  induction ls generalizing s with
  | nil => exact ⟨rfl, h, rfl, samePop_refl _⟩
  | cons l t ih =>
    obtain ⟨h1, h2, h3, h4⟩ := State.rekey_spec s l h
    obtain ⟨k1, k2, k3, k4⟩ := ih (s.rekey l) h2
    exact ⟨State.withStore_trans h1 k1, k2, k3.trans h3, h4.trans k4⟩

/-- Places that the lines' own keys reach are written without another key. -/
theorem State.rekeys_real (s : State) {ls : List Loc} (h : ∀ l ∈ ls, l.Real) : s.rekeys ls = s := by
  induction ls with
  | nil => rfl
  | cons l t ih =>
    have e : s.rekey l = s := by
      obtain ⟨sp, a⟩ := l
      cases sp
      case cipher => exact absurd (h _ List.mem_cons_self) (Loc.not_real_cipher _ _)
      all_goals rfl
    show (s.rekey l).rekeys t = s
    rw [e]
    exact ih fun x hx => h x (List.mem_cons_of_mem _ hx)

/-- The writes of a store at their places. -/
theorem State.storeAt_spec (s : State) (width : Option Nat) (whole : List Loc) (ws : List (Loc × Byte)) (h : s.MemWf)
    (hw : ∀ w ∈ ws, w.1.Real) :
    s.storeAt width whole ws = s.withStore (s.storeAt width whole ws)
      ∧ (∀ l, l.Real → (s.storeAt width whole ws).byte l = written (taken s ws) l (s.byte l))
      ∧ (s.storeAt width whole ws).ms.seen = s.ms.seen ∧ SamePop s.pop (s.storeAt width whole ws).pop := by
  have hm : (s.mayFetch (s.parcels (ws.map (·.1)))).MemWf := ⟨h.dram, h.cxl, h.pcie, h.pool⟩
  refine ⟨?_, fun l hl => ?_, ?_, ?_⟩
  · unfold State.storeAt
    rw [State.snoop_eq, State.putBytes_eq, State.mayFetch_eq]
    simp [State.withStore, State.setMs, State.setCore]
  · have e := State.byte_putBytes (s.mayFetch (s.parcels (ws.map (·.1)))) ws hm hw hl
    have e2 : (s.mayFetch (s.parcels (ws.map (·.1)))).byte l = s.byte l := State.byte_congr rfl rfl rfl l
    have e3 : taken (s.mayFetch (s.parcels (ws.map (·.1)))) ws = taken s ws := rfl
    rw [e2, e3] at e
    rw [← e]
    unfold State.storeAt
    rw [State.snoop_eq]
    obtain ⟨sp, a⟩ := l
    cases sp
    case cipher => exact absurd hl (Loc.not_real_cipher _ _)
    all_goals rfl
  · unfold State.storeAt
    rw [State.snoop_eq, State.putBytes_eq]
    rfl
  · unfold State.storeAt
    refine SamePop.trans ?_ (State.snoop_pop _ _)
    simp only [State.setCore_pop, State.setMs_pop]
    rw [State.putBytes_eq]
    exact State.mayFetch_pop s _

/-- Everything that a store may change: the bytes it writes, and what follows writes. -/
theorem State.storePart_spec (s : State) (width : Option Nat) (part : Loc → Bool) (ws : List (Loc × Byte)) (h : s.MemWf) :
    s.storePart width part ws = s.withStore (s.storePart width part ws) ∧ Stored s (s.storePart width part ws) ws := by
  unfold State.storePart
  by_cases he : ws.isEmpty = true
  · simp only [he, if_true]
    have : ws = [] := List.isEmpty_iff.mp he
    subst this
    exact ⟨rfl, ⟨s, rfl, SameMemory.refl s, fun _ _ => rfl, fun _ _ h => h⟩, samePop_refl _⟩
  · rw [Bool.not_eq_true] at he
    simp only [he]
    obtain ⟨h1, h2, h3, h4⟩ := State.rekeys_spec s (ws.map (·.1)) h
    have hw : ∀ w ∈ plainWrites ws, w.1.Real := by
      intro w hm
      obtain ⟨v, -, rfl⟩ := List.mem_map.mp hm
      exact Loc.plain_plain v.1
    obtain ⟨k1, k2, k3, k4⟩ := State.storeAt_spec (s.rekeys (ws.map (·.1))) width
      ((ws.map (·.1.plain)).filter fun l => !part l) (plainWrites ws) h2 hw
    refine ⟨State.withStore_trans h1 k1, ⟨s, rfl, SameMemory.refl s, fun l hl => ?_, fun n k e => ?_⟩, h4.trans k4⟩
    · rw [if_neg (by decide), k2 l hl]
      congr 1
      simp only [taken, plainWrites, List.filter_map]
      congr 1
      refine List.filter_congr fun w _ => ?_
      obtain ⟨⟨sp, a⟩, b⟩ := w
      cases sp <;> simp [State.takes, Loc.plain, h3]
    · rw [if_neg (by decide), k3]
      exact e

theorem State.store_spec (s : State) (width : Option Nat) (ws : List (Loc × Byte)) (h : s.MemWf) :
    s.store width ws = s.withStore (s.store width ws) ∧ Stored s (s.store width ws) ws :=
  State.storePart_spec s width _ ws h

/-! Values and bytes. -/

theorem ofBytes_lt (bs : List Byte) : ofBytes bs < 256 ^ bs.length := by
  induction bs with
  | nil => simp [ofBytes]
  | cons b t ih => simp only [ofBytes, List.length_cons, Nat.pow_succ]; have := b.isLt; omega

theorem signedOf_bv (n x : Nat) (h : 0 < n) : BitVec.ofInt 64 (signedOf n x) = (BitVec.ofNat n x).signExtend 64 := by
  rw [BitVec.signExtend, BitVec.toInt_eq_toNat_cond, signedOf, BitVec.toNat_ofNat]
  obtain ⟨m, rfl⟩ := Nat.exists_eq_succ_of_ne_zero (by omega : n ≠ 0)
  have e : 2 ^ (m + 1) = 2 * 2 ^ m := by rw [Nat.pow_succ]; omega
  simp only [Nat.succ_eq_add_one, Nat.add_sub_cancel]
  have : (2 * (x % 2 ^ (m + 1)) < 2 ^ (m + 1)) ↔ x % 2 ^ (m+1) < 2 ^ m := by omega
  simp [this]

theorem toBytes_eq (n x : Nat) : toBytes n x = (List.range n).map fun i => BitVec.ofNat 8 (x / 256 ^ i) := by
  induction n generalizing x with
  | zero => rfl
  | succ n ih =>
    simp only [toBytes, ih, List.range_succ_eq_map, List.map_cons, List.map_map]
    congr 1
    · simp
    · refine List.map_congr_left fun i _ => ?_
      simp [Nat.div_div_eq_div_mul, Nat.pow_succ, Nat.mul_comm]

theorem bytesOf_eq (n x : Nat) : toBytes n x = bytesOf (BitVec.ofNat (8 * n) x) := by
  rw [toBytes_eq, bytesOf, Nat.mul_div_cancel_left _ (by decide : 0 < 8)]
  refine List.map_congr_left fun i hi => ?_
  have hi : i < n := List.mem_range.mp hi
  apply BitVec.eq_of_toNat_eq
  simp only [BitVec.extractLsb'_toNat, BitVec.toNat_ofNat, Nat.shiftRight_eq_div_pow]
  rw [show 256 ^ i = 2 ^ (8 * i) by rw [Nat.pow_mul]]
  have : 2 ^ (8 * n) = 2 ^ (8 * i) * 2 ^ (8 * (n - i)) := by rw [← Nat.pow_add]; congr 1; omega
  rw [this, Nat.mod_mul_right_div_self]
  have h2 : 2 ^ (8 * (n - i)) = 2 ^ 8 * 2 ^ (8 * (n - i) - 8) := by rw [← Nat.pow_add]; congr 1; omega
  rw [h2, Nat.mod_mul_right_mod]

theorem check_length {s : State} {sp : ASpace} {n : Need} {ea : Word} {size : Nat} {ls : List Loc}
    (h : s.check sp n ea size = .ok ls) : ls.length = size := by
  unfold State.check at h
  dsimp only at h
  split at h
  · cases h
  · split at h
    · cases h
    · split at h
      · cases h
      · injection h with h
        rw [← h]
        simp [eaRange]

theorem written_other {ws : List (Loc × Byte)} {l : Loc} (h : l ∉ ws.map (·.1)) (old : Byte) : written ws l old = old := by
  induction ws generalizing old with
  | nil => rfl
  | cons x t ih =>
    simp only [List.map_cons, List.mem_cons, not_or] at h
    rw [written, if_neg (fun e => h.1 e.symm), ih h.2]

/-- Writes under the lines' own keys leave every byte outside their places. -/
theorem Puts.other {s t : State} {ws : List (Loc × Byte)} (h : Puts s t ws) (hr : ∀ w ∈ ws, w.1.Real) {l : Loc}
    (hl : l.Real) (hn : l ∉ ws.map (·.1)) : t.byte l = s.byte l := by
  obtain ⟨u, -, h2, h3, -⟩ := h
  have hm : ∀ x ∈ ws.map (·.1), x.Real := by
    intro x hx
    obtain ⟨w, hw, rfl⟩ := List.mem_map.mp hx
    exact hr w hw
  rw [h3 l hl, State.rekeys_real u hm, written_other, h2.1 l hl]
  intro hx
  obtain ⟨v, hv, rfl⟩ := List.mem_map.mp hx
  obtain ⟨w, hw, rfl⟩ := List.mem_map.mp hv
  have hw := (List.mem_filter.mp hw).1
  refine hn (List.mem_map.mpr ⟨w, hw, ?_⟩)
  exact (hr w hw).symm

/-- A store after its access's translation. -/
theorem stored_touch (s : State) (ea : Word) (n : Nat) (width : Option Nat) (ws : List (Loc × Byte)) (h : s.MemWf) :
    (s.touch ea n).store width ws = s.withStore ((s.touch ea n).store width ws)
      ∧ Stored s ((s.touch ea n).store width ws) ws := by
  have hc : (s.touch ea n).MemWf := ⟨h.dram, h.cxl, h.pcie, h.pool⟩
  obtain ⟨h1, ⟨u, h2, h3, h4, h5⟩, h6⟩ := State.store_spec (s.touch ea n) width ws hc
  refine ⟨State.withStore_trans (t := s.touch ea n) rfl h1, ⟨u, ?_, (State.touch_memory s ea n).trans h3, h4, h5⟩, h6⟩
  rw [h2]
  rfl

theorem stored_retire (s t : State) (len : Word) (ws : List (Loc × Byte)) (h1 : t = s.withStore t) (h2 : Stored s t ws) :
    t.retire len = (s.withStore (t.retire len)).moved (t.retire len) len ∧ Stored s (t.retire len) ws := by
  have e : s.withStore (t.retire len) = t := by
    have e2 : s.withStore (t.retire len) = s.withStore t := by
      cases hp : t.priv <;>
        simp [State.retire, State.pass, State.tick, State.setHart, State.setCore, State.setBcore, State.setFresh, State.withStore, hp]
    rw [e2, ← h1]
  obtain ⟨⟨u, k1, k2, k3, k4⟩, k5⟩ := h2
  refine ⟨?_, ⟨u, k1, k2, fun l hl => ?_, fun n k x => ?_⟩, ?_⟩
  · rw [e]; exact State.retire_moved t len
  · rw [State.byte_retire]; exact k3 l hl
  · rw [State.retire_ms]; exact k4 n k x
  · rw [State.retire_pop]; exact k5

theorem storeN_run {s : State} {ea : Word} {n : Nat} {ls : List Loc} (h : s.Canonical) (hc : s.Clear true ea n)
    (hk : s.check s.aspace Need.store ea n = .ok ls) (x len : Word) :
    ∃ t, s.storeN ea n x len = .next t ∧ t = (s.withStore t).moved t len
      ∧ Stored s t (ls.zip (bytesOf (x.setWidth (8 * n)))) := by
  have hc' : s.conflict true (eaBounds ea n).1 (eaBounds ea n).2 = none := hc
  refine ⟨((s.touch ea n).store none (writesOf ls (toBytes n x.toNat))).retire len, ?_, ?_⟩
  · simp [State.storeN, State.clear, hc', hk]
  · have e : toBytes n x.toNat = bytesOf (x.setWidth (8 * n)) := by
      rw [bytesOf_eq]
      congr 1
      exact BitVec.eq_of_toNat_eq (by simp)
    rw [← e]
    obtain ⟨h1, h2⟩ := stored_touch s ea n none (writesOf ls (toBytes n x.toNat)) h.memWf
    exact stored_retire s _ len _ h1 h2

end Sys2Proof.Machine
end

