-- ==== Sys2Proof/Laws/Traps.lean ====
section
/-!
SUPPORT. Taking an exception in the terms of Safety.
-/
namespace Sys2Proof.Machine

/-- A strand's entry at TVEC. -/
theorem State.trapHandler_spec (s : State) (tr : Trap) :
    AtHandler s (s.trapHandler tr).tick tr.cause tr.detail tr.flg tr.tval tr.next := rfl

/-- Berths after one is replaced. -/
theorem State.berthAt_putBerth (s : State) (b k : Nat) (x : Berth) (hk : k < 16) :
    (s.putBerth b x).berthAt k = if k = b then x else s.berthAt k := by
  unfold State.putBerth State.berthAt
  simp only [State.setBerths]
  by_cases h : k = b
  · subst h; simp [vget_vset_same _ _ _ hk]
  · simp [h, vget_vset_other _ _ _ h]

@[simp] theorem State.berthAt_setHart (s : State) (x : Hart) (k : Nat) : (s.setHart x).berthAt k = s.berthAt k := rfl
@[simp] theorem State.berthAt_setStrand (s : State) (x : Strand) (k : Nat) : (s.setStrand x).berthAt k = s.berthAt k := rfl
@[simp] theorem State.berthAt_ringTrap (s : State) (b d k : Nat) : (s.ringTrap b d).berthAt k = s.berthAt k := rfl
@[simp] theorem State.berthAt_tick (s : State) (k : Nat) : s.tick.berthAt k = s.berthAt k := rfl

theorem tagBerth_lt (t : BitVec 16) : tagBerth t < 16 := by
  have := t.isLt
  unfold tagBerth
  omega

/-- A strand's trap to the Bridge. -/
theorem State.trapBridge_spec (s : State) (cause detail flg : Nat) (tr : Trap) :
    AtBridge s (s.trapBridge cause detail flg tr).tick cause detail flg tr.lvl tr.mal tr.rsv tr.tval tr.next := by
  have hb := tagBerth_lt s.strand.tag
  refine ⟨rfl, rfl, ?_, ?_, ?_, rfl, rfl, rfl, rfl, rfl, rfl, rfl, rfl, rfl, rfl, rfl⟩
  · simp only [State.trapBridge, State.berthAt_tick, State.berthAt_ringTrap, State.berthAt_putBerth _ _ _ _ hb, if_true,
      State.berthAt_setHart, State.berthAt_setStrand, State.setHart_strand, State.setStrand_strand]
  · intro k hk hne
    simp only [State.trapBridge, State.berthAt_tick, State.berthAt_ringTrap, State.berthAt_putBerth _ _ _ _ hk, hne, if_false,
      State.berthAt_setHart, State.berthAt_setStrand]
  · simp only [State.trapBridge, State.ringTrap, State.mapBcores, State.tick, State.setFresh, State.setPop, State.setBcore]
    refine List.map_congr_left fun x _ => ?_
    split <;> simp_all [State.putBerth, State.setBerths, State.setHart, State.setStrand]

/-! What goes to the host leaves the focused Bridge core. -/

@[simp] theorem State.putBytes_bcore (s : State) (ws : List (Loc × Byte)) : (s.putBytes ws).bcore = s.bcore := by
  rw [State.putBytes_eq]

@[simp] theorem State.mayFetch_bcore (s : State) (old : List (Nat × BitVec 16)) : (s.mayFetch old).bcore = s.bcore := rfl

@[simp] theorem State.snoop_bcore (s : State) (lines : List Loc) : (s.snoop lines).bcore = s.bcore := rfl

theorem State.rewrite_bcore (s : State) (old : List (Nat × BitVec 16)) (ws : List (Loc × Byte)) (x : Seen) :
    (((s.mayFetch old).putBytes ws).setMs { ((s.mayFetch old).putBytes ws).ms with seen := x }).bcore = s.bcore := by
  rw [State.setMs_bcore, State.putBytes_bcore, State.mayFetch_bcore]

@[simp] theorem State.rekey_bcore (s : State) (l : Loc) : (s.rekey l).bcore = s.bcore := by
  unfold State.rekey
  split
  · dsimp only
    split
    · rfl
    · exact State.rewrite_bcore s _ _ _
  · rfl

@[simp] theorem State.rekeys_bcore (s : State) (ls : List Loc) : (s.rekeys ls).bcore = s.bcore := by
  induction ls generalizing s with
  | nil => rfl
  | cons l t ih => exact (ih (s.rekey l)).trans (State.rekey_bcore s l)

@[simp] theorem State.store_bcore (s : State) (width : Option Nat) (ws : List (Loc × Byte)) : (s.store width ws).bcore = s.bcore := by
  unfold State.store State.storePart
  split
  · rfl
  · unfold State.storeAt
    simp only [State.snoop_bcore, State.setCore_bcore, State.setMs_bcore, State.putBytes_bcore, State.mayFetch_bcore,
      State.rekeys_bcore]

@[simp] theorem State.hostWord_bcore (s : State) (fn a : Nat) (x : Word) : (s.hostWord fn a x).bcore = s.bcore := by
  simp only [State.hostWord, State.hostWrite, State.store_bcore]

@[simp] theorem State.raiseMsix_bcore (s : State) (fn vec : Nat) : (s.raiseMsix fn vec).bcore = s.bcore := rfl

theorem State.reportFrom_bcore (s : State) (rs : List Report) : (s.reportFrom rs).bcore = s.bcore := by
  induction rs generalizing s with
  | nil => rfl
  | cons r t ih =>
    unfold State.reportFrom
    dsimp only
    split
    · rw [ih]
      simp [State.postReport]
    · rfl

theorem State.postFrom_bcore (s : State) (b : Nat) (es : List HostEvent) : (s.postFrom b es).bcore = s.bcore := by
  induction es generalizing s with
  | nil => rfl
  | cons e t ih =>
    unfold State.postFrom
    dsimp only
    split
    · rw [ih]
      simp [State.postEvent, State.putBerth]
    · rfl

@[simp] theorem State.report_bcore (s : State) (w0 w1 w2 : Word) (ctx : Option (BitVec 16)) (b : Option Nat) :
    (s.report w0 w1 w2 ctx b).bcore = s.bcore := by
  unfold State.report
  dsimp only
  split
  · simp only [State.postEvents, State.postReports, State.postFrom_bcore, State.reportFrom_bcore, State.putBerth,
      State.setBerths_bcore, State.setMgmt_bcore]
  · simp only [State.postReports, State.reportFrom_bcore, State.setMgmt_bcore]

@[simp] theorem State.postEvents_bcore (s : State) (b : Nat) : (s.postEvents b).bcore = s.bcore :=
  State.postFrom_bcore s b _

@[simp] theorem State.putBerth_bcore (s : State) (b : Nat) (x : Berth) : (s.putBerth b x).bcore = s.bcore := rfl

@[simp] theorem State.mapBcores_bcore (s : State) (f : BCore → BCore) : (s.mapBcores f).bcore = f s.bcore := rfl

/-- A failover restarts no core that has stopped, but the standby that takes the lead. -/
theorem State.failover_stopped (s : State) (b : Nat) (h : s.bcore.stopped = true) : (s.failover b).bcore.stopped = true := by
  cases hs : (s.berthAt b).stby with
  | none => simpa only [State.failover, hs] using h
  | some n =>
    simp only [State.failover, hs, State.postEvents_bcore, State.putBerth_bcore, State.mapBcores_bcore]
    by_cases h1 : s.bcore.id = n
    · rw [if_pos h1]
      exact h
    · rw [if_neg h1]
      by_cases h2 : (decide (s.bcore.berth.toNat = b) && s.bcore.lead) = true
      · rw [if_pos h2]
      · rw [if_neg h2]
        exact h

/-- The check of a Bridge core that is in focus stops it. -/
theorem State.machineCheckBridge_stops (s : State) (b : Nat) (lead : Bool) :
    (s.machineCheckBridge s.bcore.id b lead).bcore.stopped = true := by
  have h : (s.mapBcores fun c => if c.id = s.bcore.id then { c with stopped := true } else c).bcore.stopped = true := by
    simp only [State.mapBcores_bcore, if_true]
  have k : ∀ w0 w1 w2 x o, (State.report (s.mapBcores fun c => if c.id = s.bcore.id then { c with stopped := true } else c)
      w0 w1 w2 x o).bcore.stopped = true := fun _ _ _ _ _ => by rw [State.report_bcore]; exact h
  unfold State.machineCheckBridge
  dsimp only
  generalize reportWord _ _ _ _ _ _ _ _ _ = w
  cases lead
  · rw [if_neg (by decide)]
    exact k w 0 0 none _
  · rw [if_pos rfl]
    exact State.failover_stopped _ b (k w 0 0 none _)

@[simp] theorem State.tick_bcore (s : State) : s.tick.bcore = s.bcore := rfl

/-- A machine check stops the core. -/
theorem State.trapBridgeCore_stops (s : State) (tr : Trap) (h : s.bcore.intr = true) :
    (s.trapBridgeCore tr).tick.bcore.stopped = true := by
  rw [State.tick_bcore]
  simp only [State.trapBridgeCore, h, if_true]
  exact State.machineCheckBridge_stops _ _ _

/-- Everything that taking an exception does. -/
theorem State.takeTrap_spec (s : State) (tr : Trap) :
    Trapped s (s.takeTrap tr) tr.cause tr.detail tr.flg tr.lvl tr.mal tr.rsv tr.tval tr.next tr.bridge := by
  unfold Trapped State.takeTrap
  by_cases hp : s.priv = true
  · simp only [hp, if_true]
    by_cases hi : s.bcore.intr = true
    · simp only [hi, if_true]
      exact State.trapBridgeCore_stops s tr hi
    · simp only [hi, State.trapBridgeCore]
      exact rfl
  · simp only [hp]
    by_cases hb : tr.bridge = true ∨ s.strand.tvec = 0
    · have : (tr.bridge || decide (s.strand.tvec = 0)) = true := by simpa using hb
      simp only [this, if_true, hb, Bool.false_eq_true, if_false]
      exact State.trapBridge_spec s _ _ _ tr
    · have : (tr.bridge || decide (s.strand.tvec = 0)) = false := by
        simpa using hb
      simp only [this, hb, Bool.false_eq_true, if_false]
      by_cases hi : s.strand.inh = true
      · simp only [hi, if_true]
        exact State.trapBridge_spec s _ _ _ tr
      · simp only [hi, Bool.false_eq_true, if_false]
        exact rfl

/-- An instruction that traps with what `Trap.mk0` records. -/
theorem State.trap_traps (s : State) (cause detail : Nat) (tval : Word) (bridge : Bool) :
    ∃ t, s.trap (Trap.mk0 cause detail tval bridge) = .next t ∧ Traps s t cause detail tval bridge :=
  ⟨_, rfl, State.takeTrap_spec s (Trap.mk0 cause detail tval bridge)⟩

/-- The illegal-instruction trap reports the instruction's own word; only detail 4 must go to the Bridge. -/
theorem State.illegal_traps (s : State) {i : Instr} {wide : Bool} {w : Nat} (detail : Nat) (hw : encode i = some (wide, w)) :
    ∃ t, s.illegal i detail = .next t ∧ Traps s t 1 detail (BitVec.ofNat 64 w) (decide (detail = 4)) := by
  refine ⟨_, rfl, ?_⟩
  have e : wordOf i = w := by simp [wordOf, hw]
  rw [e]
  exact State.takeTrap_spec s (Trap.illegal w detail)

end Sys2Proof.Machine
end

