-- ==== Sys2Proof/Laws/Vector.lean ====
section
/-!
SUPPORT. Vector registers: elements read and written, what a destination group holds after a whole instruction, and
what issue, the made-good rule and retirement leave.
-/
namespace Sys2Proof.Machine

/-! Images. -/

/-- A width of an element format. -/
def Width (w : Nat) : Prop := w = 4 ∨ w = 8 ∨ w = 16 ∨ w = 32 ∨ w = 64

theorem vget_imageOf (w : Nat) (f : Nat → Nat) (b : Nat) (h : b < 2048) : vget (imageOf w f) b 0#8 = imageByte w f b := by
  simp [imageOf, h]

/-- An element of an image is what the image was made of, at its width. -/
theorem regElem_imageOf {w : Nat} (hw : Width w) (f : Nat → Nat) {e : Nat} (he : e < perReg w) :
    regElem (imageOf w f) w e = f e % 2 ^ w := by
  rcases hw with rfl | rfl | rfl | rfl | rfl
  · have h1 : e < 4096 := he
    simp only [regElem, if_true]
    rw [vget_imageOf _ _ _ (by omega)]
    simp only [imageByte, if_true, BitVec.toNat_ofNat]
    rcases Nat.mod_two_eq_zero_or_one e with h | h
    · have h2 : 2 * (e / 2) = e := by omega
      simp only [h, if_true, h2]
      omega
    · have h2 : 2 * (e / 2) + 1 = e := by omega
      simp only [h, h2]
      simp
      omega
  · have h1 : e < 2048 := he
    have : regElem (imageOf 8 f) 8 e = (vget (imageOf 8 f) e 0#8).toNat := rfl
    rw [this, vget_imageOf _ _ _ (by omega)]
    simp [imageByte, Nat.mod_one]
  · have h1 : e < 1024 := he
    have : regElem (imageOf 16 f) 16 e = (vget (imageOf 16 f) (2 * e) 0#8).toNat + 256 * (vget (imageOf 16 f) (2 * e + 1) 0#8).toNat := rfl
    rw [this, vget_imageOf _ _ _ (by omega), vget_imageOf _ _ _ (by omega)]
    have h2 : 2 * e / (16 / 8) = e := by omega
    have h3 : (2 * e + 1) / (16 / 8) = e := by omega
    have h4 : 2 * e % (16 / 8) = 0 := by omega
    have h5 : (2 * e + 1) % (16 / 8) = 1 := by omega
    simp only [imageByte, h2, h3, h4, h5]
    simp
    omega
  · have h1 : e < 512 := he
    have : regElem (imageOf 32 f) 32 e = (vget (imageOf 32 f) (4 * e) 0#8).toNat + 256 * (vget (imageOf 32 f) (4 * e + 1) 0#8).toNat
        + 65536 * (vget (imageOf 32 f) (4 * e + 2) 0#8).toNat + 16777216 * (vget (imageOf 32 f) (4 * e + 3) 0#8).toNat := rfl
    rw [this, vget_imageOf _ _ _ (by omega), vget_imageOf _ _ _ (by omega), vget_imageOf _ _ _ (by omega), vget_imageOf _ _ _ (by omega)]
    have h2 : 4 * e / (32 / 8) = e := by omega
    have h3 : (4 * e + 1) / (32 / 8) = e := by omega
    have h4 : (4 * e + 2) / (32 / 8) = e := by omega
    have h5 : (4 * e + 3) / (32 / 8) = e := by omega
    have h6 : 4 * e % (32 / 8) = 0 := by omega
    have h7 : (4 * e + 1) % (32 / 8) = 1 := by omega
    have h8 : (4 * e + 2) % (32 / 8) = 2 := by omega
    have h9 : (4 * e + 3) % (32 / 8) = 3 := by omega
    simp only [imageByte, h2, h3, h4, h5, h6, h7, h8, h9]
    simp
    omega
  · have h1 : e < 256 := he
    have : regElem (imageOf 64 f) 64 e = ofBytes (buildFrom (fun i => vget (imageOf 64 f) i 0#8) 8 (8 * e)) := rfl
    rw [this]
    have h : ∀ k < 8, vget (imageOf 64 f) (8 * e + k) 0#8 = BitVec.ofNat 8 (f e / 256 ^ k) := by
      intro k hk
      rw [vget_imageOf _ _ _ (by omega)]
      have h2 : (8 * e + k) / (64 / 8) = e := by omega
      have h3 : (8 * e + k) % (64 / 8) = k := by omega
      simp [imageByte, h2, h3]
    have h0 := h 0 (by omega)
    simp only [buildFrom, ofBytes, h 1 (by omega), h 2 (by omega), h 3 (by omega), h 4 (by omega), h 5 (by omega), h 6 (by omega), h 7 (by omega), Nat.add_assoc, Nat.reduceAdd, BitVec.toNat_ofNat]
    simp only [Nat.add_zero] at h0
    simp only [h0, BitVec.toNat_ofNat]
    omega

/-- An element is a code of its width. -/
theorem regElem_lt {w : Nat} (hw : Width w) (r : VReg) (e : Nat) : regElem r w e < 2 ^ w := by
  rcases hw with rfl | rfl | rfl | rfl | rfl
  · have h : regElem r 4 e = if e % 2 = 0 then (vget r (e / 2) 0#8).toNat % 16 else (vget r (e / 2) 0#8).toNat / 16 := rfl
    have := (vget r (e / 2) 0#8).isLt
    rw [h]
    split <;> omega
  · exact (vget r e 0#8).isLt
  · have h : regElem r 16 e = (vget r (2 * e) 0#8).toNat + 256 * (vget r (2 * e + 1) 0#8).toNat := rfl
    have h1 := (vget r (2 * e) 0#8).isLt
    have h2 := (vget r (2 * e + 1) 0#8).isLt
    omega
  · have h : regElem r 32 e = (vget r (4 * e) 0#8).toNat + 256 * (vget r (4 * e + 1) 0#8).toNat
      + 65536 * (vget r (4 * e + 2) 0#8).toNat + 16777216 * (vget r (4 * e + 3) 0#8).toNat := rfl
    have h1 := (vget r (4 * e) 0#8).isLt
    have h2 := (vget r (4 * e + 1) 0#8).isLt
    have h3 := (vget r (4 * e + 2) 0#8).isLt
    have h4 := (vget r (4 * e + 3) 0#8).isLt
    omega
  · have h : regElem r 64 e = ofBytes (buildFrom (fun i => vget r i 0#8) 8 (8 * e)) := rfl
    have := ofBytes_lt (buildFrom (fun i => vget r i 0#8) 8 (8 * e))
    rw [buildFrom_length] at this
    rw [h]
    exact this

/-! Folds over the members of a group. -/

theorem buildFrom_id_snoc (n i : Nat) : buildFrom id (n + 1) i = buildFrom id n i ++ [i + n] := by
  induction n generalizing i with
  | zero => rfl
  | succ n ih =>
    rw [buildFrom, ih, buildFrom]
    simp
    omega

/-- Distinct members of a group of at most 32 are distinct registers. -/
theorem member_inj {d j k : Nat} (hj : j < 32) (hk : k < 32) (h : (d + j) % 32 = (d + k) % 32) : j = k := by
  omega

/-- The strand after the first `m` members of a group are written. -/
theorem writeMembers {f : Strand → Nat → Strand} {img : Nat → VReg} {td : Nat → Nat} {d : Nat}
    (hf : ∀ acc j, f acc j = { acc with v := vset acc.v ((d + j) % 32) (img j), tide := vset acc.tide ((d + j) % 32) (td j)
                                        sw := vset acc.sw ((d + j) % 32) { code := 0, len := 0 } })
    (st : Strand) {m : Nat} (hm : m ≤ 32) :
    let st' := (buildFrom id m 0).foldl f st
    st' = { st with v := st'.v, tide := st'.tide, sw := st'.sw }
    ∧ (∀ j < m, st'.vreg (d + j) = img j ∧ vget st'.tide ((d + j) % 32) 0 = td j)
    ∧ ∀ r < 32, (∀ j < m, (d + j) % 32 ≠ r) → st'.vreg r = st.vreg r ∧ vget st'.tide r 0 = vget st.tide r 0
        ∧ vget st'.sw r Swatch.creation = vget st.sw r Swatch.creation := by
  induction m with
  | zero => exact ⟨rfl, fun j hj => absurd hj (by omega), fun r _ _ => ⟨rfl, rfl, rfl⟩⟩
  | succ m ih =>
    obtain ⟨h1, h2, h3⟩ := ih (by omega)
    simp only [buildFrom_id_snoc, List.foldl_append, List.foldl_cons, List.foldl_nil, Nat.zero_add]
    generalize (buildFrom id m 0).foldl f st = acc at h1 h2 h3 ⊢
    rw [hf]
    refine ⟨by rw [h1], fun j hj => ?_, fun r hr hne => ?_⟩
    · by_cases e : j = m
      · subst e
        simp only [Strand.vreg]
        have : (d + j) % 32 < 32 := Nat.mod_lt _ (by omega)
        exact ⟨vget_vset_same _ _ _ this, vget_vset_same _ _ _ this⟩
      · have ne : (d + j) % 32 ≠ (d + m) % 32 := fun h => e (member_inj (by omega) (by omega) h)
        obtain ⟨a, b⟩ := h2 j (by omega)
        simp only [Strand.vreg] at a ⊢
        exact ⟨by rw [vget_vset_other _ _ _ ne]; exact a, by rw [vget_vset_other _ _ _ ne]; exact b⟩
    · have ne : r ≠ (d + m) % 32 := fun h => hne m (by omega) h.symm
      obtain ⟨a, b, c⟩ := h3 r hr fun j hj => hne j (by omega)
      have hr' : r % 32 = r := Nat.mod_eq_of_lt hr
      simp only [Strand.vreg, hr'] at a ⊢
      exact ⟨by rw [vget_vset_other _ _ _ ne]; exact a, by rw [vget_vset_other _ _ _ ne]; exact b,
        by rw [vget_vset_other _ _ _ ne]; exact c⟩

/-- Element `i` of a group is element `i % perReg` of member `i / perReg`. -/
theorem writeGroup_elem (s : State) (use : Nat) (x : Dest) {i : Nat} (hw : Width x.w) (hs : x.size ≤ 32)
    (hi : i < x.size * perReg x.w) :
    (s.writeGroup use x).strand.elem x.d x.w i
      = x.elem (s.strand.elem x.d x.w i) (s.free use ((x.d + i / perReg x.w) % 32 * 4096 + i % perReg x.w)) i % 2 ^ x.w := by
  have hp : 0 < perReg x.w := by rcases hw with h | h | h | h | h <;> rw [h] <;> decide
  have hj : i / perReg x.w < x.size := Nat.div_lt_of_lt_mul (by rwa [Nat.mul_comm] at hi)
  have he : i % perReg x.w < perReg x.w := Nat.mod_lt _ hp
  unfold State.writeGroup
  simp only [State.setStrand_strand]
  obtain ⟨-, h2, -⟩ := writeMembers (d := x.d)
    (img := fun j => imageOf x.w fun e => x.elem (regElem (s.strand.vreg ((x.d + j) % 32)) x.w e)
      (s.free use ((x.d + j) % 32 * 4096 + e)) (j * perReg x.w + e))
    (td := x.tide) (f := _) (fun _ _ => rfl) s.strand hs
  have h := (h2 _ hj).1
  unfold Strand.elem
  rw [h, regElem_imageOf hw _ he]
  have hm : (x.d + i / perReg x.w) % 32 % 32 = (x.d + i / perReg x.w) % 32 := Nat.mod_mod _ _
  have e1 : s.strand.vreg ((x.d + i / perReg x.w) % 32) = s.strand.vreg (x.d + i / perReg x.w) := by
    unfold Strand.vreg
    rw [hm]
  rw [e1, Nat.mul_comm (i / perReg x.w), Nat.div_add_mod]

/-- What a destination group leaves of the rest. -/
theorem writeGroup_frame (s : State) (use : Nat) (x : Dest) (hs : x.size ≤ 32) :
    s.writeGroup use x = s.withVec (s.writeGroup use x)
      ∧ (∀ j < x.size, vget (s.writeGroup use x).strand.tide ((x.d + j) % 32) 0 = x.tide j)
      ∧ OtherRegs s (s.writeGroup use x) { start := x.d, size := x.size } := by
  unfold State.writeGroup
  obtain ⟨h1, h2, h3⟩ := writeMembers (d := x.d)
    (img := fun j => imageOf x.w fun e => x.elem (regElem (s.strand.vreg ((x.d + j) % 32)) x.w e)
      (s.free use ((x.d + j) % 32 * 4096 + e)) (j * perReg x.w + e))
    (td := x.tide) (f := _) (fun _ _ => rfl) s.strand hs
  refine ⟨?_, fun j hj => (h2 j hj).2, fun r hr hne => h3 r hr fun j hj e => hne ⟨j, hj, e⟩⟩
  simp only [State.withVec, State.setStrand_strand]
  unfold State.setStrand
  congr 1

/-- An element of a destination of which all was made good. -/
theorem Dest.elem_whole (x : Dest) (hk : x.k = x.n) (hsk : x.skip = fun _ => false) (old fv i : Nat) :
    (i < x.n → x.act i = true → x.elem old fv i = x.res i)
    ∧ (i < x.n → x.act i = false → x.elem old fv i = old ∨ (x.free = true ∧ x.elem old fv i = ones x.w))
    ∧ (x.n ≤ i → x.elem old fv i = old ∨ (x.keep = false ∧ (x.elem old fv i = ones x.w ∨ x.elem old fv i = 0))) := by
  refine ⟨fun h ha => ?_, fun h ha => ?_, fun h => ?_⟩
  · simp [Dest.elem, hsk, hk, h, ha]
  · simp only [Dest.elem, hsk, hk, h, ha]
    by_cases hf : x.free = true <;> by_cases hv : fv % 2 = 1 <;> simp [hf, hv]
  · have h' : ¬ i < x.n := by omega
    simp only [Dest.elem, hsk, hk, h']
    cases hkp : x.keep
    · simp
      split <;> simp
    · simp

/-- A destination group that a whole instruction has written. -/
theorem writeGroup_whole (s : State) (use : Nat) (g : Grp) {w : Nat} (act : Nat → Bool) (res : Nat → Nat) (hw : Width w)
    (hs : g.size ≤ 32) :
    let t := s.writeGroup use (s.dest g w s.n s.n act res)
    t = s.withVec t ∧ Elements s t g w s.n act res ∧ Tides s t g w s.n ∧ OtherRegs s t g := by
  intro t
  obtain ⟨h1, h2, h3⟩ := writeGroup_frame s use (s.dest g w s.n s.n act res) hs
  refine ⟨h1, fun i hi => ?_, fun j hj => h2 j hj, h3⟩
  have e : t.strand.elem g.start w i = (s.dest g w s.n s.n act res).elem (s.strand.elem g.start w i)
      (s.free use ((g.start + i / perReg w) % 32 * 4096 + i % perReg w)) i % 2 ^ w :=
    writeGroup_elem s use (s.dest g w s.n s.n act res) (i := i) hw hs hi
  have old : s.strand.elem g.start w i % 2 ^ w = s.strand.elem g.start w i := Nat.mod_eq_of_lt (regElem_lt hw _ _)
  have hone : ones w % 2 ^ w = ones w := Nat.mod_eq_of_lt (by
    unfold ones
    have := Nat.two_pow_pos w
    omega)
  obtain ⟨a, b, c⟩ := Dest.elem_whole (s.dest g w s.n s.n act res) rfl rfl (s.strand.elem g.start w i)
    (s.free use ((g.start + i / perReg w) % 32 * 4096 + i % perReg w)) i
  refine ⟨fun hn ha => ?_, fun hn ha => ?_, fun hn => ?_⟩
  · rw [e, a hn ha]
    rfl
  · rw [e]
    rcases b hn ha with h | ⟨hf, h⟩
    · left; rw [h]; exact old
    · right; exact ⟨hf, by rw [h]; exact hone⟩
  · rw [e]
    rcases c hn with h | ⟨hf, h | h⟩
    · left; rw [h]; exact old
    · right; exact ⟨hf, Or.inl (by rw [h]; exact hone)⟩
    · right; exact ⟨hf, Or.inr (by rw [h]; exact Nat.zero_mod _)⟩

/-! Issue and retirement. -/

/-- The loan that a pfx of a mask without a copy leaves. -/
theorem loanOf_lent : ∀ k < 8, ∀ neg < 2, loanOf (BitVec.ofNat 32 (0x27 + 2 ^ 9 * neg + 2 ^ 10 * k)) = .mask k (neg = 1) none := by
  decide

/-- No loan: a vector instruction whose own checks pass runs its effect. -/
theorem State.vector_run {s : State} {i : Instr} {f : VForm} (h : s.VectorReady f.regs) (body : Loan → Option Nat → Out) :
    s.vector i true f body = body .none none := by
  obtain ⟨⟨hp, hl, ht⟩, -⟩ := h
  simp [State.vector, hp, vectorPairing, hl, loanOf_zero, copyGroupOk, State.await_none ht]

/-- A vector instruction whose own checks pass runs its effect, under what its mask field or a lent mask makes active. -/
theorem State.vector_lent {s : State} {i : Instr} {m : BitVec 3} {f : VForm} (h : s.LentReady m f.regs) (hl : f.loanable = true)
    (hf : f.field = m.toNat) (body : Loan → Option Nat → Out) :
    ∃ loan, s.vector i true f body = body loan none ∧ s.strand.active m.toNat loan = s.act m := by
  obtain ⟨hp, ht, -, h0 | ⟨rfl, k, neg, hk, hn, hw⟩⟩ := h
  · refine ⟨.none, by simp [State.vector, hp, vectorPairing, h0, loanOf_zero, copyGroupOk, State.await_none ht], ?_⟩
    funext i
    have h : (m.toNat = 0) ↔ m = 0 := by rw [BitVec.toNat_eq]; rfl
    by_cases hm : m = 0
    · simp [Strand.active, State.act, hm, h0]
    · have h2 : ¬ m.toNat = 0 := fun e => hm (h.mp e)
      simp only [Strand.active, State.act, h2, if_false]
      rw [if_pos hm]
  · refine ⟨.mask k (neg = 1) none, ?_, ?_⟩
    · have hm := loanOf_lent k hk neg hn
      rw [← hw] at hm
      simp [State.vector, hp, vectorPairing, hm, copyGroupOk, State.await_none ht, hl, hf]
    · have e : ∀ k < 8, ∀ neg < 2, BitVec.ofNat 32 (0x27 + 2 ^ 9 * neg + 2 ^ 10 * k) ≠ 0
          ∧ (BitVec.ofNat 32 (0x27 + 2 ^ 9 * neg + 2 ^ 10 * k)).toNat / 2 ^ 10 % 8 = k
          ∧ (BitVec.ofNat 32 (0x27 + 2 ^ 9 * neg + 2 ^ 10 * k)).getLsbD 9 = decide (neg = 1) := by decide
      obtain ⟨e1, e2, e3⟩ := e k hk neg hn
      funext i
      simp only [Strand.active, State.act, hw, e1, e2, e3]
      simp

/-- A vector instruction whose own checks fail raises the illegal-instruction trap, detail 2. -/
theorem State.vector_illegal {s : State} {i : Instr} {f : VForm} (hp : s.priv = false) (body : Loan → Option Nat → Out) :
    s.vector i false f body = s.illegal i 2 := by
  simp [State.vector, hp]

/-- The effective length of a strand of which no pre-emption is pending is MGS. -/
theorem State.n_eq {s : State} (hc : s.strand.cutReq = none) : s.n = s.strand.mgs.toNat := by simp [State.n, hc]

/-- What a cut can be: whole granules, above 0 and below what the instruction would make good, and never of one that a
pre-emption does not cut (R46, R52). -/
theorem State.cutAt_some {s : State} {cuts : Cuts} {k c : Nat} (h : s.cutAt cuts k = some c) :
    cuts ≠ .never ∧ 0 < c ∧ c < k ∧ s.strand.gran ∣ c := by
  unfold State.cutAt at h
  split at h
  · dsimp only at h
    split at h
    · rename_i hc
      cases h
      simp only [Bool.and_eq_true, decide_eq_true_eq] at hc
      exact ⟨hc.1.1, hc.1.2, hc.2, Nat.dvd_mul_right _ _⟩
    · cases h
  · cases h

/-- Without a request of a pre-emption nothing halts before the next instruction, which issues as it stands (R46). -/
theorem State.haltsHere_uncut {s : State} (h : s.strand.cutReq = none) : s.haltsHere = false := by simp [State.haltsHere, h]

theorem State.issueStrand_uncut {s : State} (h : s.strand.cutReq = none) : s.issueStrand = s.issue := by simp [State.issueStrand, h]

/-- Behind an instruction that was cut a never-cut one does not begin (R52, R291). -/
theorem State.haltsHere_never {s : State} (hb : s.behindCut = true) (hn : neverCut s.fetchStep = true)
    (hr : ∀ x, runsAhead x s.fetchStep = false) : s.haltsHere = true := by
  simp only [State.behindCut, Bool.and_eq_true, Option.isSome_iff_exists] at hb
  obtain ⟨⟨c, hc⟩, ⟨x, hx⟩⟩ := hb
  simp [State.haltsHere, hc, hx, hn, hr]

/-- The end of an instruction that nothing stops or cuts. -/
theorem State.finish_run {s : State} (hc : s.strand.cutReq = none) (cuts : Cuts) (commit : Nat → State)
    {hold : Cut → Cut} (hk : (commit s.n).strand.cutReq = none) :
    s.finish s.n cuts none commit hold = .next (((commit s.n).madeGood s.n 0 0).retire 4) := by
  have e : s.cutAt cuts s.n = none := by simp [State.cutAt, hc]
  have e2 : ((commit s.n).madeGood s.n 0 0).strand.cutReq = none := by
    unfold State.madeGood
    dsimp only
    split <;> exact hk
  have e3 : (((commit s.n).madeGood s.n 0 0).retire 4).haltIfAsked = ((commit s.n).madeGood s.n 0 0).retire 4 := by
    unfold State.haltIfAsked
    rw [State.retire_strand, e2]
    rfl
  have e4 : ((commit s.n).madeGood s.n 0 0).noteShort 0 s.n s.strand.pos 0 = (commit s.n).madeGood s.n 0 0 := by
    simp [State.noteShort]
  simp only [State.finish, State.endAt, e, e4, e3]

/-- The whole effective length made good. -/
theorem State.madeGood_whole {s : State} (n : Nat) (h : s.strand.mgs.toNat = n) :
    s.madeGood n 0 0 = s.setStrand { s.strand with mg := BitVec.ofNat 64 n, pos := min (s.strand.pos + 1) 0xFFFF } := by
  simp [State.madeGood, h]

theorem firstIdx_none {p : Nat → Bool} {m i : Nat} (h : ∀ j, i ≤ j → j < i + m → p j = false) : firstIdx p m i = none := by
  induction m generalizing i with
  | zero => rfl
  | succ m ih =>
    simp only [firstIdx, h i (by omega) (by omega), Bool.false_eq_true, if_false]
    exact ih fun j h1 h2 => h j (by omega) (by omega)

/-- No enabled exception, no stop. -/
theorem State.arithStop_none {s : State} {act : Nat → Bool} {fl : Nat → Flags} (h : s.NoTrap act fl) :
    s.arithStop s.n act fl = none := by
  unfold State.arithStop
  dsimp only
  split
  · rfl
  · rw [firstIdx_none]
    intro j _ hj
    by_cases ha : act j = true
    · simp [h j (by omega) ha]
    · simp [ha]

/-- Statements about elements look at the vector registers, tide marks and swatches only. -/
theorem Elements.congr {s t u : State} (hv : t.strand.v = u.strand.v) {g : Grp} {w n : Nat} {act : Nat → Bool} {res : Nat → Nat}
    (h : Elements s u g w n act res) : Elements s t g w n act res := by
  have e : t.strand.elem = u.strand.elem := by
    funext a b c
    simp [Strand.elem, Strand.vreg, hv]
  intro i hi
  rw [e]
  exact h i hi

theorem Tides.congr {s t u : State} (hv : t.strand.tide = u.strand.tide) {g : Grp} {w n : Nat} (h : Tides s u g w n) :
    Tides s t g w n := by
  intro j hj
  rw [hv]
  exact h j hj

theorem OtherRegs.congr {s t u : State} (hv : t.strand.v = u.strand.v) (ht : t.strand.tide = u.strand.tide)
    (hs : t.strand.sw = u.strand.sw) {g : Grp} (h : OtherRegs s u g) : OtherRegs s t g := by
  intro r hr hn
  have := h r hr hn
  simp only [Strand.vreg, hv, ht, hs] at this ⊢
  exact this

/-- The counts and the retirement after a commitment to vector registers. -/
theorem counted_retire {s u : State} (hc : s.strand.cutReq = none) (h : u = s.withVec u) (fl : Flags) :
    let t := ((u.orFlags fl).madeGood s.n 0 0).retire 4
    t = ((s.withVec t).counted fl).moved t 4 ∧ t.strand.v = u.strand.v ∧ t.strand.tide = u.strand.tide
      ∧ t.strand.sw = u.strand.sw ∧ SameMemory s t := by
  have hm : (u.orFlags fl).strand.mgs.toNat = s.n := by rw [State.n_eq hc, h]; rfl
  rw [State.madeGood_whole _ hm]
  refine ⟨?_, ?_, ?_, ?_, ?_⟩
  · have key : ∀ x : State, x = (s.withVec x).counted fl →
        x.retire 4 = ((s.withVec (x.retire 4)).counted fl).moved (x.retire 4) 4 := by
      intro x hx
      have : s.withVec (x.retire 4) = s.withVec x := by simp [State.withVec]
      rw [this, ← hx]
      exact State.retire_moved x 4
    apply key
    rw [h]
    rfl
  · rw [State.retire_strand]; rfl
  · rw [State.retire_strand]; rfl
  · rw [State.retire_strand]; rfl
  · rw [h, State.retire_eq]
    exact sameMemory_of_ms rfl rfl

/-- A destination group, the counts, and retirement: the whole of a vector instruction. -/
theorem vecWrote_retire {s u : State} {g : Grp} {w : Nat} {act : Nat → Bool} {res : Nat → Nat}
    (hc : s.strand.cutReq = none) (h1 : u = s.withVec u) (h2 : Elements s u g w s.n act res) (h3 : Tides s u g w s.n) (h4 : OtherRegs s u g) (fl : Flags) :
    VecWrote s (((u.orFlags fl).madeGood s.n 0 0).retire 4) g w act res fl := by
  obtain ⟨a, b, c, d, e⟩ := counted_retire hc h1 fl
  exact ⟨a, h2.congr b, h3.congr c, h4.congr b c d, e⟩

/-- Everything that a whole elementwise instruction does. -/
theorem State.elements_run {s : State} {g : Grp} {w : Nat} {act : Nat → Bool} {op : Nat → FRes} (hn : 0 < s.n)
    (hc : s.strand.cutReq = none) (hw : Width w) (hs : g.size ≤ 32) (ht : s.NoTrap act fun i => (op i).fl) :
    ∃ t, s.elements g w act none op = .next t
      ∧ VecWrote s t g w act (fun i => (op i).code) (activeFlags act (fun i => (op i).fl) s.n) := by
  obtain ⟨h1, h2, h3, h4⟩ := writeGroup_whole s 10 g act (fun i => (op i).code) hw hs
  have hn' : s.n ≠ 0 := by omega
  unfold State.elements
  simp only [hn', if_false, State.arithStop_none ht, State.writeDest]
  rw [State.finish_run hc]
  · exact ⟨_, rfl, vecWrote_retire hc h1 h2 h3 h4 _⟩
  · rw [h1]; exact hc

/-! Mask destinations. -/

/-- Bits of mask registers after one is written whole. -/
theorem mbit_set (st : Strand) (m : Vector MReg 8) (d k i : Nat) (f : Nat → Bool) (hd : d < 8) (hi : i < 32768)
    (h : m = vset st.m d (mkVec 32768 f)) :
    Strand.mbit { st with m := m } k i = if k = d then f i else st.mbit k i := by
  subst h
  unfold Strand.mbit
  by_cases e : k = d
  · subst e
    simp [vget_vset_same _ _ _ hd, hi]
  · simp [e, vget_vset_other _ _ _ e]

theorem bitAt_bit (b : Bool) : bitAt (if b = true then 1 else 0) 0 = b := by cases b <;> rfl

/-- A mask destination, the counts, and retirement. -/
theorem State.maskBits_run {s : State} {md : BitVec 3} {act : Nat → Bool} {op : Nat → FRes} (hn : 0 < s.n)
    (hc : s.strand.cutReq = none) (ht : s.NoTrap act fun i => (op i).fl) :
    ∃ t, s.maskBits md act op = .next t
      ∧ MaskWrote s t md act (fun i => bitAt (op i).code 0) (activeFlags act (fun i => (op i).fl) s.n) := by
  have hn' : s.n ≠ 0 := by omega
  have hmd : md.toNat < 8 := md.isLt
  unfold State.maskBits
  simp only [hn', if_false, State.arithStop_none ht]
  rw [State.finish_run hc _ _ hc]
  refine ⟨_, rfl, ?_⟩
  generalize hx : s.dest { start := md.toNat, size := 1 } 1 s.n s.n act (fun i => (op i).code) = x
  generalize hfl : activeFlags act (fun i => (op i).fl) s.n = fl
  have hm : ((s.writeMask 10 x).orFlags fl).strand.mgs.toNat = s.n := (State.n_eq hc).symm
  rw [State.madeGood_whole _ hm]
  have hb : ∀ T : State, T.strand.m = (s.writeMask 10 x).strand.m → ∀ k i, i < 32768 → T.strand.mbit k i
      = if k = md.toNat then bitAt (x.elem (if s.strand.mbit md.toNat i then 1 else 0) (s.free 10 i) i) 0 else s.strand.mbit k i := by
    intro T hT k i hi
    have := mbit_set s.strand (s.writeMask 10 x).strand.m md.toNat k i
      (fun i => bitAt (x.elem (if s.strand.mbit md.toNat i then 1 else 0) (s.free 10 i) i) 0) hmd hi (by rw [← hx]; rfl)
    rw [← this]
    simp [Strand.mbit, hT]
  have hr : ∀ T : State, (T.retire 4).strand.m = T.strand.m := fun T => by rw [State.retire_strand]
  have hx2 : ∀ old fv i, _ := fun old fv i => Dest.elem_whole x (by rw [← hx]; rfl) (by rw [← hx]; rfl) old fv i
  have hxn : x.n = s.n := by rw [← hx]; rfl
  have hxa : x.act = act := by rw [← hx]; rfl
  have hxr : x.res = fun i => (op i).code := by rw [← hx]; rfl
  have hxw : x.w = 1 := by rw [← hx]; rfl
  have hxf : x.free = s.ty.free := by rw [← hx]; rfl
  have hxk : x.keep = s.ty.keep := by rw [← hx]; rfl
  refine ⟨?_, fun i hi hin ha => ?_, fun i hi hin ha => ?_, fun i hi hin hk => ?_, fun k hk i => ?_, ?_⟩
  · have key : ∀ x : State, x = (s.withMask x).counted fl →
        x.retire 4 = ((s.withMask (x.retire 4)).counted fl).moved (x.retire 4) 4 := by
      intro x hx
      have : s.withMask (x.retire 4) = s.withMask x := by simp [State.withMask]
      rw [this, ← hx]
      exact State.retire_moved x 4
    exact key _ rfl
  · rw [hb _ (by rw [hr]; rfl) _ _ hi, if_pos rfl, (hx2 _ _ _).1 (by omega) (by rw [hxa]; exact ha), hxr]
  · rw [hb _ (by rw [hr]; rfl) _ _ hi, if_pos rfl]
    rcases (hx2 (if s.strand.mbit md.toNat i = true then 1 else 0) (s.free 10 i) i).2.1 (by omega) (by rw [hxa]; exact ha) with h | ⟨h1, h2⟩
    · left; rw [h]; exact bitAt_bit _
    · right; exact ⟨by rw [← hxf]; exact h1, by rw [h2, hxw]; rfl⟩
  · rw [hb _ (by rw [hr]; rfl) _ _ hi, if_pos rfl]
    rcases (hx2 (if s.strand.mbit md.toNat i = true then 1 else 0) (s.free 10 i) i).2.2 (by omega) with h | ⟨h1, -⟩
    · rw [h]; exact bitAt_bit _
    · rw [hxk, hk] at h1; cases h1
  · by_cases hi : i < 32768
    · rw [hb _ (by rw [hr]; rfl) _ _ hi, if_neg hk]
    · rw [State.retire_strand]
      have e : ∀ v : Vector Bool 32768, vget v i false = false := by
        intro v
        simp only [vget, List.getD_eq_getElem?_getD]
        rw [List.getElem?_eq_none]
        · rfl
        · simp; omega
      simp [Strand.mbit, e]
  · rw [State.retire_eq]
    exact sameMemory_of_ms rfl rfl

/-- A scalar result of a whole length-bearing instruction. -/
theorem vecScalar_retire {s : State} (hc : s.strand.cutReq = none) (d : BitVec 6) (x : Word) :
    VecScalar s (((s.wr d x).madeGood s.n 0 0).retire 4) d x := by
  have hm : (s.wr d x).strand.mgs.toNat = s.n := (State.n_eq hc).symm
  rw [State.madeGood_whole _ hm]
  refine ⟨?_, fun r => ?_, ?_⟩
  · have key : ∀ u : State, u = (s.withDest u d).counted 0 →
        u.retire 4 = ((s.withDest (u.retire 4) d).counted 0).moved (u.retire 4) 4 := by
      intro u hu
      have : s.withDest (u.retire 4) d = s.withDest u d := by simp [State.withDest]
      rw [this, ← hu]
      exact State.retire_moved u 4
    refine key _ ?_
    have h := State.wr_eq s d x
    generalize s.wr d x = u at h ⊢
    rw [h]
    simp [State.counted, State.withDest, State.setStrand, fcsOr, State.n]
  · rw [State.g_retire]
    exact State.g_wr s d r x
  · rw [State.retire_eq]
    exact sameMemory_of_ms rfl rfl

/-! Instructions on groups. -/

theorem activeFlags_congr {act : Nat → Bool} {f g : Nat → Flags} {n : Nat} (h : ∀ i < n, f i = g i) :
    activeFlags act f n = activeFlags act g n := by
  have aux : ∀ k i, (∀ j, i ≤ j → j < i + k → f j = g j) →
      flagsUpTo (fun i => if act i then f i else 0) k i = flagsUpTo (fun i => if act i then g i else 0) k i := by
    intro k
    induction k with
    | zero => intros; rfl
    | succ k ih =>
      intro i hj
      simp only [flagsUpTo]
      rw [hj i (by omega) (by omega), ih (i + 1) fun j h1 h2 => hj j (by omega) (by omega)]
  exact aux n 0 fun j _ hj => h j (by omega)

theorem VecWrote.congr {s t : State} {g : Grp} {w : Nat} {act : Nat → Bool} {res res' : Nat → Nat} {fl : Flags}
    (h : VecWrote s t g w act res fl) (e : ∀ i < s.n, res i % 2 ^ w = res' i % 2 ^ w) : VecWrote s t g w act res' fl := by
  obtain ⟨h1, h2, h3⟩ := h
  refine ⟨h1, fun i hi => ?_, h3⟩
  obtain ⟨a, b⟩ := h2 i hi
  exact ⟨fun hn ha => by rw [a hn ha, e i hn], b⟩

/-- The width of a legal type. -/
theorem fmtWidth_width {f : Nat} (h : fmtWidth f ≠ 0) : Width (fmtWidth f) := by
  unfold fmtWidth at *
  unfold Width
  split at h <;> first | (exact absurd rfl h) | decide

theorem State.ty_g_le (s : State) : s.ty.g ≤ 8 := by
  have : bitsAt s.strand.type.toNat 5 2 < 4 := Nat.mod_lt _ (by decide)
  have h : s.ty.g = 2 ^ bitsAt s.strand.type.toNat 5 2 := rfl
  rw [h]
  calc 2 ^ bitsAt s.strand.type.toNat 5 2 ≤ 2 ^ 3 := Nat.pow_le_pow_right (by decide) (by omega)
    _ = 8 := rfl

/-- An operand's element below the type's length. -/
theorem State.el_eq {s : State} (hw : Width s.ty.w) (hn : s.n ≤ s.ty.vmax) (v : BitVec 5) {e : Nat} (he : e < s.n) :
    s.el v e = s.strand.elem v.toNat s.ty.w e := by
  have hc : s.ty.vmax = (s.grp v).cap s.ty.w := by
    unfold VType.vmax Grp.cap State.grp perReg
    dsimp only
    rcases hw with h | h | h | h | h <;> rw [h] <;> omega
  unfold State.el State.rd
  rw [if_pos (by omega)]
  rfl

/-- What an instruction on elements does, from the way it runs. -/
theorem State.vectors_of {s : State} {i : Instr} {m : BitVec 3} {d : BitVec 5} {op op' : Nat → FRes} {rs : List (BitVec 6)}
    {vs : List (BitVec 5)} (h : s.Groups m rs vs) (hw : Width s.ty.w)
    (hrun : exec i s = s.elements (s.grp d) s.ty.w (s.act m) none op)
    (hop : ∀ e < s.n, (op e).code % 2 ^ s.ty.w = (op' e).code % 2 ^ s.ty.w ∧ (op e).fl = (op' e).fl) :
    s.Vectors i m d op' := by
  intro ht
  have ht' : s.NoTrap (s.act m) fun e => (op e).fl := by
    intro e he ha
    show (op e).fl &&& _ = 0
    rw [(hop e he).2]
    exact ht e he ha
  rw [hrun]
  obtain ⟨t, h1, h2⟩ := State.elements_run (g := s.grp d) (w := s.ty.w) h.2.1 h.1.2.2.1 hw
    (by have := s.ty_g_le; show s.ty.g ≤ 32; omega) ht'
  refine ⟨t, h1, ?_⟩
  rw [← activeFlags_congr fun e he => (hop e he).2]
  exact h2.congr fun e he => (hop e he).1

theorem allSameOr_sub {x y z : Grp} (h : allSameOr [x, y, z] = true) : allSameOr [x, y] = true := by
  simp only [allSameOr, List.all_cons, List.all_nil, Bool.and_true, Bool.and_eq_true] at *
  exact h.1.1

/-- An elementwise instruction whose type and groups are legal. -/
theorem State.elementwise_run {s : State} {i : Instr} {m : BitVec 3} {d : BitVec 5} {srcs : List (BitVec 5)}
    {regs : List (BitVec 6)} (op : Nat → FRes) (h : s.LentReady m regs) {ok : Bool} (hok : ok = true)
    (hg : allSameOr (s.grp d :: srcs.map s.grp) = true) :
    s.elementwise i ok m d srcs regs op = s.elements (s.grp d) s.ty.w (s.act m) none op := by
  unfold State.elementwise
  simp only [hok, hg, Bool.and_self]
  obtain ⟨loan, h1, h2⟩ := State.vector_lent (i := i)
    (f := { loanable := true, field := m.toNat, dest := some (s.grp d), others := srcs.map s.grp, regs := regs }) h rfl rfl
    fun loan copy => s.elements (s.grp d) s.ty.w (s.strand.active m.toNat loan) copy op
  rw [h1, h2]

/-- What an elementwise instruction does, from its meaning. -/
theorem State.vectors_elementwise {s : State} {i j : Instr} {m : BitVec 3} {d : BitVec 5} {srcs vs : List (BitVec 5)}
    {rs regs : List (BitVec 6)} {ok : Bool} {op op' : Nat → FRes} (hexec : exec i s = s.elementwise j ok m d srcs regs op)
    (h : s.Groups m rs vs) (hw : Width s.ty.w) (hr : s.LentReady m regs) (hok : ok = true)
    (hg : allSameOr (s.grp d :: srcs.map s.grp) = true)
    (hop : ∀ e < s.n, (op e).code % 2 ^ s.ty.w = (op' e).code % 2 ^ s.ty.w ∧ (op e).fl = (op' e).fl) :
    s.Vectors i m d op' :=
  State.vectors_of h hw (by rw [hexec, State.elementwise_run op hr hok hg]) hop

end Sys2Proof.Machine
end

