-- ==== Sys2Proof/Tests/Slice0.lean ====
section
/-!
SUPPORT. Tests of the model against words, examples and rules of the manual, and for each statement a state with operands
that meet its hypotheses. Every test is about one word, one operation or one step.
-/
set_option Elab.async false

namespace Sys2Proof.Tests

open Sys2Proof Sys2Proof.Machine

/-! Well-formedness: a term for each check, which the check refuses. -/

/-- R55 to R60, R64, R68, R118, R135, R242, R246, R356, R379: reserved scopes, conditions and formats, an odd pair, a copy
field without CE, services that have rows of their own, registers out of range. -/
theorem test_wf_refuses : ([.amoSwap 0 5 0 1 2, .amoCas 0 5 0 2 2, .amoCas 0 0 0 3 2, .amoAdd 0 6 0 1 2, .amoAnd 0 7 0 1 2,
    .amoOr 1 5 0 1 2, .amoXor 1 5 0 1 2, .amoMin 1 5 0 1 2, .amoMax 1 5 0 1 2, .amoMinn 1 5 0 1 2, .amoMaxn 1 5 0 1 2,
    .bz 6 1 0, .bc 7 1 2 0, .fenceAcq 5, .fenceRel 6, .fenceAcqrel 7, .cwb 5 1 2, .cinv 5 1 2, .iinv 5 1 2, .svcUnknown 7,
    .pfxMask 0 1 0 0, .pfxCond 0 1 0 0, .pfxCond 1 1 6 0, .setvl 0 0 0 0 6 1 2, .setvl 1 0 0 0 1 1 2, .setvl 6 0 0 0 5 1 2,
    .tld 0 0 5 0 1 0, .tld 0 0 0 0 1 34, .tst 0 0 5 0 1 0, .tst 0 0 0 0 1 34, .vpref 3 0 0 1 0, .vamoSwap 5 1 1 1,
    .vamoCas 5 1 1 1, .vamoAdd 5 1 1 1, .vamoAnd 5 1 1 1, .vamoOr 5 1 1 1, .vamoXor 5 1 1 1, .vamoMin 5 1 1 1,
    .vamoMax 5 1 1 1, .vamoMinn 5 1 1 1, .vamoMaxn 5 1 1 1, .tcopy 5 1 2 4, .tcopy 0 0 2 4, .tcopy 0 1 0 4, .tcopy 0 1 63 4,
    .tcopy 0 1 2 0, .tcopy 0 1 2 63, .tcoll 1 1 2 4, .tcoll 2 0 2 4, .tsend 1 1 2 4, .tsend 2 0 2 4, .trecv 5 1 2 4,
    .trecv 2 0 2 4] : List Instr).all (fun i => !i.wf) = true := by decide

/-- The same terms within their bounds. -/
theorem test_wf_accepts : ([.amoSwap 0 4 0 1 2, .amoCas 0 4 0 2 2, .bz 5 1 0, .bc 5 1 2 0, .fenceAcq 4, .svcUnknown 8,
    .pfxMask 0 0 0 0, .pfxCond 1 63 5 0, .setvl 5 0 0 0 5 1 2, .tld 0 0 4 0 1 33, .vpref 2 0 0 1 0, .vamoSwap 4 1 1 1,
    .tcopy 0 1 1 62, .tcoll 2 1 2 4, .trecv 4 63 2 4] : List Instr).all Instr.wf = true := by decide

/-! Decoding. -/

/-- Every word decodes to its instruction. -/
def readsAll (l : List (Nat × Instr)) : Bool :=
  l.all fun x => match decode (x.1 % 65536) (x.1 / 65536) with
    | .ok i => decide (i = x.2)
    | .error _ => false

/-- Every word is refused for its reason. -/
def refusesAll (l : List (Nat × DecodeError)) : Bool :=
  l.all fun x => match decode (x.1 % 65536) (x.1 / 65536) with
    | .ok _ => false
    | .error e => decide (e = x.2)

/-- Words with every field set, from the encodings of R113, R114, R115. -/
theorem test_decode_integer : readsAll [
    (0x00396A83, .add 0x15 0xb 7), (0x02396A83, .sub 0x15 0xb 7), (0x04396A83, .and 0x15 0xb 7),
    (0x06396A83, .or 0x15 0xb 7), (0x08396A83, .xor 0x15 0xb 7), (0x0A396A83, .shl 0x15 0xb 7),
    (0x0C396A83, .shr 0x15 0xb 7), (0x0E396A83, .sra 0x15 0xb 7), (0x10396A83, .mul 0x15 0xb 7),
    (0x12396A83, .mulh 0x15 0xb 7), (0x14396A83, .mulhn 0x15 0xb 7), (0x16396A83, .div 0x15 0xb 7),
    (0x18396A83, .divn 0x15 0xb 7), (0x1A396A83, .rem 0x15 0xb 7), (0x1C396A83, .remn 0x15 0xb 7),
    (0x1E396A83, .min 0x15 0xb 7), (0x20396A83, .max 0x15 0xb 7), (0x22396A83, .minn 0x15 0xb 7),
    (0x24396A83, .maxn 0x15 0xb 7), (0x26396A83, .slt 0x15 0xb 7), (0x28396A83, .sltn 0x15 0xb 7),
    (0x2A016A83, .clz 0x15 0xb), (0x2C016A83, .ctz 0x15 0xb), (0x2E016A83, .popc 0x15 0xb),
    (0x30396A83, .sel 0x15 0xb 7), (0x2DA96A85, .addi 0x15 0xb 0x5b5)] = true := by
  decide

/-- Words with every field set, from the encodings of R58, R115. -/
theorem test_decode_integer_more : readsAll [
    (0x2DA96A87, .andi 0x15 0xb 0x5b5), (0x2DA96A89, .ori 0x15 0xb 0x5b5), (0x2DA96A8B, .xori 0x15 0xb 0x5b5),
    (0x01296A8D, .shiShl 0x15 0xb 0x25), (0x03296A8D, .shiShr 0x15 0xb 0x25), (0x05296A8D, .shiSra 0x15 0xb 0x25),
    (0x2DA96A8F, .slti 0x15 0xb 0x5b5), (0x34B6AA91, .ldhi 0x15 0x1a5b5), (0x34B6AA93, .adr 0x15 0x1a5b5)] = true := by
  decide

/-- Words with every field set, from the encodings of R116, R118. -/
theorem test_decode_memory : readsAll [
    (0x6D716A95, .ldsI 2 0x15 0xb 0x1b5), (0x6D516A95, .ldsN 2 0x15 0xb 0x1b5), (0x6D516A97, .sts 2 0x15 0xb 0x1b5),
    (0x17016A99, .amoSwap 1 3 2 0x15 0xb), (0x17096A19, .amoCas 1 3 2 0x14 0xb),
    (0x17116A99, .amoAdd 1 3 2 0x15 0xb), (0x17196A99, .amoAnd 1 3 2 0x15 0xb), (0x17216A99, .amoOr 1 3 2 0x15 0xb),
    (0x17296A99, .amoXor 1 3 2 0x15 0xb), (0x17316A99, .amoMin 1 3 2 0x15 0xb), (0x17396A99, .amoMax 1 3 2 0x15 0xb),
    (0x17416A99, .amoMinn 1 3 2 0x15 0xb), (0x17496A99, .amoMaxn 1 3 2 0x15 0xb)] = true := by
  decide

/-- Words with every field set, from the encodings of R120. -/
theorem test_decode_branches : readsAll [
    (0xA9F5859B, .bz 4 0xb 0xa9f5), (0x7D60E59D, .bc 4 0xb 7 0x1f5), (0xE1D4FA9F, .jal 0x1c3a9f5),
    (0x2DA96AA1, .jr 0x15 0xb 0x5b5)] = true := by
  decide

/-- Words with every field set, from the encodings of R64, R127, R128, R129, R130, R131, R132, R134, R135, R136, R137, R138, R382, R392, R400. -/
theorem test_decode_fences_and_system : readsAll [
    (0x300000A3, .fenceAcq 3), (0x30000123, .fenceRel 3), (0x300001A3, .fenceAcqrel 3), (0x32396023, .cwb 3 0xb 7),
    (0x34396023, .cinv 3 0xb 7), (0x36396023, .iinv 3 0xb 7), (0x0A396023, .prefi 0xb 7),
    (0x0C016AA3, .cresz 0x15 0xb), (0x128000A5, .svcUnknown 0x25), (0x2880A9A5, .mfs 0x51 0x15),
    (0x28960225, .mts 0x51 0xb), (0x0016AAA5, .mon 0x15 0xb), (0x0016AB25, .mwait 0x15 0xb),
    (0x0016AC25, .tlbiPage 0xb 0x15), (0x0080AC25, .tlbiAsid 0x15), (0x0016ACA5, .kslot 0x15 0xb),
    (0x0096ACA5, .kslotStat 0x15 0xb), (0x02481627, .pfxMask 1 9 5 1), (0x024C14A7, .pfxCond 1 9 4 5),
    (0x02480127, .pfxCopy 9), (0x08000023, .fbar), (0x00000025, .nop), (0x000000A5, .svcRetire),
    (0x008000A5, .svcAbort), (0x010000A5, .svcReserve), (0x018000A5, .svcRelease)] = true := by
  decide

/-- Words with every field set, from the encodings of R139, R143, R271, R382, R392, R393. -/
theorem test_decode_fences_and_system_more : readsAll [
    (0x020000A5, .svcFork), (0x028000A5, .svcShootdown), (0x030000A5, .svcExportWindow),
    (0x038000A5, .svcReopenGroup), (0x00000125, .rtn), (0x000003A5, .halt), (0x01000425, .tlbiBerth)] = true := by
  decide

/-- Words with every field set, from the encodings of R123, R126. -/
theorem test_decode_scalar_floats : readsAll [
    (0x90396AA9, .fadd 1 2 0x15 0xb 7), (0x92396AA9, .fsub 1 2 0x15 0xb 7), (0x94396AA9, .fmul 1 2 0x15 0xb 7),
    (0x96396AA9, .fdiv 1 2 0x15 0xb 7), (0x18396AA9, .fma 1 0x15 0xb 7), (0x58396AA9, .fmaSub 1 0x15 0xb 7),
    (0x98396AA9, .fmaNeg 1 0x15 0xb 7), (0x1A396AA9, .fminmaxMin 1 0x15 0xb 7),
    (0x5A396AA9, .fminmaxMax 1 0x15 0xb 7), (0x9A396AA9, .fminmaxMinnum 1 0x15 0xb 7),
    (0xDA396AA9, .fminmaxMaxnum 1 0x15 0xb 7), (0x1C116AA9, .fcvtFloat 1 2 0x15 0xb),
    (0x5C096AA9, .fcvtFromInt 1 1 0x15 0xb), (0x9C196AA9, .fcvtToInt 1 1 1 0x15 0xb),
    (0x1E396AA9, .fcmpEq 1 0x15 0xb 7), (0x5E396AA9, .fcmpLt 1 0x15 0xb 7), (0x9E396AA9, .fcmpLe 1 0x15 0xb 7),
    (0xDE396AA9, .fcmpUn 1 0x15 0xb 7)] = true := by
  decide

/-- Words with every field set, from the encodings of R174, R175, R327, R337, R338, R340, R341, R342, R343. -/
theorem test_decode_strips_and_pilot : readsAll [
    (0x7CC16AAB, .setvl 3 1 1 2 0xc 0x15 0xb), (0x00996AAB, .advmg 9 0x15 0xb), (0x00016AAD, .launch 0x15 0xb),
    (0x16396AAD, .spawn 3 0x15 0xb 7), (0x2001602D, .join 0xb), (0x3001602D, .tend 0xb), (0x40000AAD, .bar 0x15),
    (0x5001602D, .post 0xb), (0x6001602D, .waiti 0xb), (0x7000002D, .yield)] = true := by
  decide

/-- Words with every field set, from the encodings of R181, R182. -/
theorem test_decode_vector_arithmetic : readsAll [
    (0x06396AB1, .vadd 3 0x15 0xb 7), (0x16396AB1, .vsub 3 0x15 0xb 7), (0x26396AB1, .vmul 3 0x15 0xb 7),
    (0x36396AB1, .vdiv 3 0x15 0xb 7), (0x46016AB1, .vsqrt 3 0x15 0xb), (0x56396AB1, .vmin 3 0x15 0xb 7),
    (0x66396AB1, .vmax 3 0x15 0xb 7), (0x76016AB1, .vabs 3 0x15 0xb), (0x86016AB1, .vneg 3 0x15 0xb),
    (0x96396AB1, .vfma 3 0x15 0xb 7), (0xA6396AB1, .vfms 3 0x15 0xb 7), (0xB6396AB1, .vfnma 3 0x15 0xb 7),
    (0x06396AB3, .vand 3 0x15 0xb 7), (0x16396AB3, .vor 3 0x15 0xb 7), (0x26396AB3, .vxor 3 0x15 0xb 7),
    (0x36016AB3, .vnot 3 0x15 0xb), (0x46396AB3, .vshl 3 0x15 0xb 7), (0x56396AB3, .vshr 3 0x15 0xb 7),
    (0x66396AB3, .vsra 3 0x15 0xb 7)] = true := by
  decide

/-- Words with every field set, from the encodings of R183, R184, R185, R186, R187, R188, R191, R192. -/
theorem test_decode_vector_comparisons : readsAll [
    (0x063962B5, .vcmpEq 3 5 0xb 7), (0x163962B5, .vcmpNe 3 5 0xb 7), (0x263962B5, .vcmpLt 3 5 0xb 7),
    (0x363962B5, .vcmpLe 3 5 0xb 7), (0x463962B5, .vcmpGt 3 5 0xb 7), (0x563962B5, .vcmpGe 3 5 0xb 7),
    (0x663962B5, .vcmpUn 3 5 0xb 7), (0x76396AB5, .vsel 3 0x15 0xb 7), (0x86016AB5, .vmov 3 0x15 0xb),
    (0x96016AB5, .vbrd 3 0x15 0xb), (0xA6396AB5, .vidx 3 0x15 0xb 7), (0xB7216AB5, .vcvt 3 1 4 0x15 0xb),
    (0x063862B7, .mand 3 5 3 7), (0x163862B7, .mor 3 5 3 7), (0x263862B7, .mxor 3 5 3 7), (0x360062B7, .mnot 3 5 3),
    (0x46006AB7, .mpop 3 0x15 3), (0x56006AB7, .mfirst 3 0x15 3), (0x660062B7, .mbef 3 5 3),
    (0x760062B7, .minc 3 5 3), (0x86386AB7, .mtos 3 0x15 3 7)] = true := by
  decide

/-- Words with every field set, from the encodings of R202, R205, R206, R207, R209, R210, R211. -/
theorem test_decode_reductions : readsAll [
    (0x06396AB9, .vrsum 3 0x15 0xb 7), (0x16396AB9, .vrsumO 3 0x15 0xb 7), (0x26396AB9, .vrmax 3 0x15 0xb 7),
    (0x36396AB9, .vrmin 3 0x15 0xb 7), (0x46396AB9, .vrbitAnd 3 0x15 0xb 7), (0x56396AB9, .vrbitOr 3 0x15 0xb 7),
    (0x66396AB9, .vrbitXor 3 0x15 0xb 7), (0x76396AB9, .vscanAdd 3 0x15 0xb 7), (0x86396AB9, .vscanMax 3 0x15 0xb 7),
    (0x96396AB9, .vscanMin 3 0x15 0xb 7), (0xA6396AB9, .vsegr 3 0x15 0xb 7), (0x06396ABB, .vslup 3 0x15 0xb 7),
    (0x16396ABB, .vsldn 3 0x15 0xb 7), (0x26396ABB, .vperm 3 0x15 0xb 7), (0x36016ABB, .vcomp 3 0x15 0xb),
    (0x46016ABB, .vexpd 3 0x15 0xb), (0x56396ABB, .vzip 3 0x15 0xb 7), (0x66016ABB, .vunzipEv 3 0x15 0xb),
    (0x66096ABB, .vunzipOd 3 0x15 0xb), (0x060162BD, .vconf 3 5 0xb)] = true := by
  decide

/-- Words with every field set, from the encodings of R227, R228, R230, R232, R236, R241, R246. -/
theorem test_decode_vector_memory : readsAll [
    (0xB6996AC1, .vld 2 1 1 3 0x13 0xb 0x15), (0xB6996AC3, .vst 2 1 1 3 0x13 0xb 0x15),
    (0xB6996AC5, .vldx 2 1 1 3 0x13 0xb 0x15), (0xB6996AC7, .vstx 2 1 1 3 0x13 0xb 0x15),
    (0xB6996AC9, .vstxAdd 2 1 1 3 0x13 0xb 0x15), (0xA6996ACB, .vldc 2 1 3 0x13 0xb 0x15),
    (0xB6996ACB, .vstc 2 1 3 0x13 0xb 0x15), (0x869960CD, .vpref 2 3 0x13 0xb 1),
    (0x969970CF, .tld 2 1 3 0x13 0xb 0x21), (0xB69970CF, .tst 2 1 3 0x13 0xb 0x21)] = true := by
  decide

/-- Words with every field set, from the encodings of R234. -/
theorem test_decode_vector_atomics : readsAll [
    (0x60996AD1, .vamoSwap 3 0x13 0xb 0x15), (0x62996AD1, .vamoCas 3 0x13 0xb 0x15),
    (0x64996AD1, .vamoAdd 3 0x13 0xb 0x15), (0x66996AD1, .vamoAnd 3 0x13 0xb 0x15),
    (0x68996AD1, .vamoOr 3 0x13 0xb 0x15), (0x6A996AD1, .vamoXor 3 0x13 0xb 0x15),
    (0x6C996AD1, .vamoMin 3 0x13 0xb 0x15), (0x6E996AD1, .vamoMax 3 0x13 0xb 0x15),
    (0x70996AD1, .vamoMinn 3 0x13 0xb 0x15), (0x72996AD1, .vamoMaxn 3 0x13 0xb 0x15)] = true := by
  decide

/-- Words with every field set, from the encodings of R358, R360, R366, R367, R370. -/
theorem test_decode_tenders : readsAll [
    (0x06396AD3, .tcopy 3 0x15 0xb 7), (0x06396AD5, .tcoll 3 0x15 0xb 7), (0x06396AD7, .tsend 3 0x15 0xb 7),
    (0x16396AD7, .trecv 3 0x15 0xb 7), (0x20380AD7, .tprobe 0x15 7)] = true := by
  decide

/-- Words with every field set, from the encodings of R288, R294, R295, R296. -/
theorem test_decode_matrix : readsAll [
    (0xC63964D9, .opadd 1 4 3 7 0xb 9), (0xC63964DB, .opsub 1 4 3 7 0xb 9), (0x8000005D, .mzero 1),
    (0x8200005D, .mswap 1), (0x8401605D, .mext 1 0xb), (0x86016ADD, .mgang 1 0x15 0xb),
    (0x88016ADD, .mcls 1 0x15 0xb), (0x86016ADF, .mrowRead 1 3 0xb 0x15), (0x96016ADF, .mrowWrite 1 3 0xb 0x15),
    (0xA6016ADF, .mcolRead 1 3 0xb 0x15), (0xB6016ADF, .mcolWrite 1 3 0xb 0x15)] = true := by
  decide

/-- Words with every field set, from the encodings of R193, R194, R195, R214, R215, R216, R314, R315, R316, R317. -/
theorem test_decode_gazetteer_and_attention : readsAll [
    (0x06016AE1, .gins 3 0x15 0xb), (0x16016AE1, .glkp 3 0x15 0xb), (0x16096AE1, .glkpO 3 0x15 0xb),
    (0x26396AE1, .gacc 3 0x15 0xb 7), (0x36016AE1, .gdrn 3 0x15 0xb), (0x50000AE1, .gcnt 0x15),
    (0x06396AE3, .vdotseg 3 0x15 0xb 7), (0x16396AE3, .vexpm 3 0x15 0xb 7), (0x26396AE3, .vaccw 3 0x15 0xb 7),
    (0x06016AE5, .vrcp 3 0x15 0xb), (0x16016AE5, .vrsq 3 0x15 0xb), (0x26016AE5, .vexp2 3 0x15 0xb),
    (0x36396AE5, .vdraw 3 0x15 0xb 7), (0x46016AE5, .vclass 3 0x15 0xb), (0x40000061, .gclr)] = true := by
  decide

/-- Compact parcels (R61). -/
theorem test_decode_compact : readsAll [
    (0x3D42, .addC 7 0x15), (0x3D44, .subC 7 0x15), (0x3D46, .andC 7 0x15), (0x3D48, .orC 7 0x15),
    (0x3D4A, .xorC 7 0x15), (0x3D4C, .shlC 7 0x15), (0x3D4E, .shrC 7 0x15), (0x3D50, .sraC 7 0x15),
    (0x3D52, .mulC 7 0x15), (0x3D54, .minC 7 0x15), (0x3D56, .maxC 7 0x15), (0x3D58, .minnC 7 0x15),
    (0x3D5A, .maxnC 7 0x15), (0x3D5C, .sltC 7 0x15), (0x3D5E, .sltnC 7 0x15), (0xAD60, .addiC 0x15 0x15),
    (0xAD62, .andiC 0x15 0x15), (0xAD64, .shliC 0x15 0x15), (0xAD66, .shriC 0x15 0x15), (0xAD68, .sraiC 0x15 0x15),
    (0x3D6A, .movC 7 0x15), (0xAD6C, .liC 0x15 0x15), (0xAD6E, .ldsC 0x15 0x15), (0xAD70, .stsC 0x15 0x15),
    (0x0032, .nopC)] = true := by
  decide

/-- The breakpoint (R77) and what no family above holds. -/
theorem test_decode_rest : readsAll [
    (0x91A2B3FF, .breakpoint 0x1234567)] = true := by
  decide
/-- R76: an unassigned function, op and major; a kept major; a vector number above 31, a reserved format, an odd pair, a field
that is not 0. -/
theorem test_decode_refuses : refusesAll [(0xC01840B1, .unassigned), (0x0034, .unassigned), (0x00000001, .unassigned),
    (0x00000067, .futureMajor), (0x0000007D, .futureMajor), (0x001850B1, .reserved), (0x0060E32B, .reserved), (0x16888499, .reserved),
    (0x401803B1, .reserved), (0x40000125, .rtnReserved), (0x400003A5, .privilegedReserved)] = true := by decide

/-- The spec's bits count from the first parcel's bit 0: a word given by its number is the word that the fetch reads. -/
theorem test_table_word : decodeTableWord 32 0x0238C283 = some (.sub 5 6 7) ∧ decodeTableWord 16 0x3142 = some (.addC 6 5) := by decide

/-! States for the tests. -/

/-- A running strand of berth 0 whose page at 0 is DRAM page 0x6_0000, with the word at 0. -/
def strand (w : Nat) : State := State.reset.withFetchWord 32 w

/-- The same with one register set. -/
def withReg (s : State) (r : BitVec 6) (x : Word) : State := { s with hart := { s.hart with g := vset s.hart.g r.toNat x } }

/-- The same with the pc set. -/
def atPc (s : State) (pc : Word) : State := { s with hart := { s.hart with pc := pc } }

/-- Bridge core 0 in focus, with the same memory. -/
def bridge (w : Nat) : State :=
  let s := strand w
  { s with priv := true, bcore := { s.bcore with broot := 0x10000 }, turns := [.bridge 0] }

/-- A strip of `n` elements of a type. -/
def strip (type : BitVec 12) (n : Nat) : State :=
  let s := strand 0x25
  { s with strand := { s.strand with type := type, mgs := BitVec.ofNat 64 n, sreq := BitVec.ofNat 64 n } }

/-- Bytes of the page. -/
def withBytes (s : State) (ws : List (Nat × Nat × Nat)) : State :=
  { s with ms := { s.ms with dram := withDram s.ms.dram (ws.map fun w => (0x60000 + w.1, w.2)) } }

/-- The places of bytes of the page. -/
def page (ea n : Nat) : List Loc := locRange .dram (0x60000 + ea) n

/-! For each statement, a state and operands that meet its hypotheses, and those of its clauses. -/

theorem witness_DecodeEncode : (∃ i : Instr, i.encoded = true ∧ i.wf = true ∧ i = .rtnBridge)
    ∧ ∃ i : Instr, i.encoded = true ∧ i.wf = true ∧ i = .nopC := ⟨⟨_, rfl, rfl, rfl⟩, _, rfl, rfl, rfl⟩

theorem witness_EncodeDecode : ∃ (p0 p1 : Nat) (i : Instr), p0 < 65536 ∧ p1 < 65536 ∧ decode p0 p1 = .ok i ∧ p0 % 2 = 1 :=
  ⟨0x0025, 0, .nop, by decide, by decide, rfl, rfl⟩

theorem witness_StepRunsDecoded :
    (∃ (s : State) (p0 p1 : BitVec 16) (i : Instr),
      let f := ({ s with turns := [] } : State).focus 0
      s.turns = [.strand 0] ∧ s.live = true ∧ f.priv = false ∧ f.strand.tag = 0 ∧ f.strand.status = .running
        ∧ f.strand.rfpois = none ∧ f.strand.cutReq = none ∧ f.hart.wait = .running ∧ f.fetchParcel f.hart.pc 0 = .ok p0
        ∧ f.fetchParcel (f.hart.pc + 2) 1 = .ok p1 ∧ decode p0.toNat p1.toNat = .ok i ∧ f = { s with turns := [] })
    ∧ (∃ s : State, let f := ({ s with turns := [] } : State).focus 0
        s.turns = [.strand 0] ∧ s.live = true ∧ f.priv = false ∧ f.strand.tag = 0 ∧ f.strand.status ≠ .running)
    ∧ (∃ (s : State) (p0 p1 : BitVec 16),
        let b := ({ s with turns := [] } : State).focusBridge 0
        s.turns = [.bridge 0] ∧ s.bridgeLive 0 = true ∧ s.priv = true ∧ s.bcore.id = 0 ∧ s.bcore.stopped = false
          ∧ s.hart.wait = .running ∧ b.fetchParcel b.hart.pc 0 = .ok p0 ∧ b.fetchParcel (b.hart.pc + 2) 1 = .ok p1
          ∧ decode p0.toNat p1.toNat = .ok .rtn ∧ bridgeMajor (p0.toNat + 65536 * p1.toNat) = true)
    ∧ (∃ s : State, s.turns = [.event .scrub Input.none] ∧ s.live = true ∧ isEvent .scrub = true)
    ∧ (∃ s : State, s.turns = [.tender 63] ∧ s.live = true ∧ (s.pop.tenderAt 63).stopped = false)
    ∧ ∃ (s : State) (l : Loc), inPool 0 = false ∧ s.check s.aspace Need.fetch 0 2 = .ok [l, { l with addr := l.addr + 1 }] ∧ s.oldParcels l = [] :=
  ⟨⟨strand 0x02308295, 0x8295, 0x0230, _, rfl, rfl, rfl, rfl, rfl, rfl, rfl, rfl, rfl, rfl, rfl, rfl⟩,
   ⟨{ strand 0 with strand := { (strand 0).strand with status := .halted } }, rfl, rfl, rfl, rfl, by decide⟩,
   ⟨bridge 0x125, 0x125, 0, rfl, rfl, rfl, rfl, rfl, rfl, rfl, rfl, rfl, rfl⟩,
   ⟨{ strand 0 with turns := [.event .scrub Input.none] }, rfl, rfl, rfl⟩, ⟨{ strand 0 with turns := [.tender 63] }, rfl, rfl, rfl⟩,
   strand 0, { space := .dram, addr := 0x60000 }, rfl, rfl, rfl⟩

theorem witness_StepKeepsCanonical : (strand 0x25).Canonical ∧ ∃ t, step (strand 0x25) = .next t :=
  ⟨⟨rfl, rfl, rfl, rfl, (fun _ h => nomatch h), fun _ h => nomatch h⟩, _, rfl⟩

theorem witness_FetchTraps :
    (strand 0x7F).priv = false ∧ (bridge 0x7F).priv = true
    ∧ (∃ st, (strand 0).check (strand 0).aspace Need.fetch 0x10000 2 = .error st)
    ∧ (∃ ls, (strand 0).check (strand 0).aspace Need.fetch 0xFFFE 2 = .ok ls)
    ∧ inPool (atPc (strand 0) 0xFFFFFFFFFFFC0000).hart.pc = true
    ∧ (∃ st, (atPc (strand 0) 0x10000).fetchParcel 0x10000 0 = .error st ∧ st.kind < 16)
    ∧ (∃ (p0 : BitVec 16) (st : Stop), let s := withBytes (strand 0) [(0xFFFE, 2, 0x25)]
        s.fetchParcel 0xFFFE 0 = .ok p0 ∧ p0.toNat % 2 = 1 ∧ s.fetchParcel 0x10000 1 = .error st ∧ st.kind < 16)
    ∧ (∃ p0 p1 : BitVec 16, (strand 0x67).fetchParcel 0 0 = .ok p0 ∧ p0.toNat % 2 = 1 ∧ (strand 0x67).fetchParcel 2 1 = .ok p1
        ∧ (p0.toNat + 65536 * p1.toNat) / 2 % 64 = 0x33)
    ∧ (∃ p0 p1 : BitVec 16, (bridge 0x1000002D).fetchParcel 0 0 = .ok p0 ∧ p0.toNat % 2 = 1
        ∧ (bridge 0x1000002D).fetchParcel 2 1 = .ok p1 ∧ (p0.toNat + 65536 * p1.toNat) / 2 % 64 = 0x16
        ∧ 1 ≤ (p0.toNat + 65536 * p1.toNat) / 2 ^ 28)
    ∧ ∃ p0 : BitVec 16, (strand 0).fetchParcel 0 0 = .ok p0 ∧ p0.toNat % 2 = 0 ∧ p0.toNat / 2 % 32 = 0 :=
  ⟨rfl, rfl, ⟨_, rfl⟩, ⟨_, rfl⟩, rfl, ⟨_, rfl, by decide⟩, ⟨_, _, rfl, by decide, rfl, by decide⟩, ⟨_, _, rfl, by decide, rfl, by decide⟩,
   ⟨_, _, rfl, by decide, rfl, by decide, by decide⟩, _, rfl, by decide, by decide⟩

theorem witness_IntegerResults : (strand 0x25).Ready [0, 63, 1] ∧ (bridge 0x25).Ready [1, 2] := ⟨⟨rfl, rfl⟩, rfl, rfl⟩

theorem witness_ImmediateAndCompactResults : (strand 0x25).Ready [1, 2] ∧ (strand 0x25).StrandReady [1, 0, 2] :=
  ⟨⟨rfl, rfl⟩, rfl, rfl, rfl⟩

theorem witness_BranchesAndJumps : (strand 0x25).Ready [63, 63, 1, 2] := ⟨rfl, rfl⟩

/-- The last eight bytes of the page, and the compact form at LASTD. -/
theorem witness_ScalarLoads :
    let s := withReg (withReg (strand 0x25) 2 0xFFF8) 0 0
    s.Ready [1, 2] ∧ s.Clear false 0xFFF8 8 ∧ s.check s.aspace Need.load 0xFFF8 8 = .ok (page 0xFFF8 8)
      ∧ s.StrandReady [1, s.hart.lastd] ∧ s.Clear false 8 8 ∧ s.check s.aspace Need.load 8 8 = .ok (page 8 8) :=
  ⟨⟨rfl, rfl⟩, rfl, rfl, ⟨rfl, rfl, rfl⟩, rfl, rfl⟩

theorem strand_canonical : (strand 0x25).Canonical := ⟨rfl, rfl, rfl, rfl, (fun _ h => nomatch h), fun _ h => nomatch h⟩

theorem witness_ScalarStores :
    let s := strand 0x25
    s.Canonical ∧ s.Ready [1, 2] ∧ s.Clear true 0 1 ∧ s.check s.aspace Need.store 0 1 = .ok (page 0 1)
      ∧ s.StrandReady [1, s.hart.lastd] ∧ s.Clear true 8 8 ∧ s.check s.aspace Need.store 8 8 = .ok (page 8 8) :=
  ⟨strand_canonical, ⟨rfl, rfl⟩, rfl, rfl, ⟨rfl, rfl, rfl⟩, rfl, rfl⟩

theorem witness_ScalarAtomics :
    let s := withReg (strand 0x25) 2 0xFFF8
    s.Canonical ∧ s.Ready [4, 2, 5] ∧ s.NoCopies ∧ (s.g 2).toNat % 8 = 0 ∧ s.Clear true (s.g 2) 8
      ∧ s.check s.aspace Need.rmw (s.g 2) 8 = .ok (page 0xFFF8 8) :=
  ⟨strand_canonical, ⟨rfl, rfl⟩, .inr rfl, by decide, rfl, rfl⟩

/-- A failed check at the first unmapped byte, under a register and under LASTD, and a misaligned address. -/
theorem witness_ScalarAccessTraps :
    (let s := withReg (strand 0x25) 2 0x10000
     s.Ready [1, 2, 2] ∧ s.priv = false ∧ s.strand.irt = [] ∧ (s.g 2).toNat % 8 = 0 ∧ s.Clear false (s.g 2) 8 ∧ s.Clear true (s.g 2) 8
      ∧ (∃ st, s.check s.aspace Need.load (s.g 2) 8 = .error st) ∧ (∃ st, s.check s.aspace Need.store (s.g 2) 8 = .error st)
      ∧ ∃ st, s.check s.aspace Need.rmw (s.g 2) 8 = .error st)
    ∧ (let u := withReg (strand 0x25) 2 0x10000
       let s := { u with hart := { u.hart with lastd := 2 } }
       s.StrandReady [1, s.hart.lastd] ∧ s.Clear false (s.g s.hart.lastd + 8) 8 ∧ s.Clear true (s.g s.hart.lastd + 8) 8
         ∧ (∃ st, s.check s.aspace Need.load (s.g s.hart.lastd + 8) 8 = .error st)
         ∧ ∃ st, s.check s.aspace Need.store (s.g s.hart.lastd + 8) 8 = .error st)
    ∧ (withReg (strand 0x25) 2 4).Ready [1, 2, 2] ∧ ((withReg (strand 0x25) 2 4).g 2).toNat % 8 ≠ 0 :=
  ⟨⟨⟨rfl, rfl⟩, rfl, rfl, by decide, rfl, rfl, ⟨_, rfl⟩, ⟨_, rfl⟩, _, rfl⟩, ⟨⟨rfl, rfl, rfl⟩, rfl, rfl, ⟨_, rfl⟩, _, rfl⟩,
   ⟨rfl, rfl⟩, by decide⟩

/-- No exception enabled, and an enabled one: 1 / 0 with division by zero enabled. -/
theorem witness_ScalarFloats :
    (strand 0x25).Ready [1, 2, 3]
    ∧ ∃ en : BitVec 5, (fpDiv ffF64 .rne (decodeNum ffF64 0x3FF0000000000000) (decodeNum ffF64 0)).fl &&& en ≠ 0 :=
  ⟨⟨rfl, rfl⟩, 0x1F, by decide⟩

/-- The largest finite f32, and infinity. -/
theorem witness_RoundingExact :
    (0x7F7FFFFF < 2 ^ (ffOf 1).width ∧ ∃ n m e, decodeNum (ffOf 1) 0x7F7FFFFF = .fin n m e)
    ∧ ∃ n, decodeNum (ffOf 1) 0x7F800000 = .inf n := ⟨⟨by decide, _, _, _, rfl⟩, _, rfl⟩

theorem witness_CachesAndScratchpad :
    (strand 0x25).Ready [1, 2] ∧ (strand 0x25).NoCopies ∧ (strand 0x25).strand.irt = [] ∧ (strand 0x25).priv = false ∧ (bridge 0x25).Ready [1, 2] :=
  ⟨⟨rfl, rfl⟩, .inr rfl, rfl, rfl, rfl, rfl⟩

theorem witness_ServiceCallsAndReturns :
    (strand 0x25).Ready [] ∧ (strand 0x25).priv = false ∧ (strand 0x25).strand.inh = false
    ∧ ∃ s : State, s.priv = false ∧ s.Ready [] ∧ s.strand.inh = true :=
  ⟨⟨rfl, rfl⟩, rfl, rfl, { strand 0 with strand := { (strand 0).strand with inh := true } }, rfl, ⟨rfl, rfl⟩, rfl⟩

/-- A monitor in each of its four states, and each wait with what ends it. -/
theorem witness_MonitorsAndWaits :
    (let s := strand 0x25
     s.Ready [1, 2] ∧ (s.g 2).toNat % 8 = 0 ∧ s.Clear false (s.g 2) 8
       ∧ ∃ l ls, s.check s.aspace Need.load (s.g 2) 8 = .ok (l :: ls))
    ∧ (∀ armed fired, ∃ s : State, s.Ready [1, 2] ∧ s.hart.monArmed = armed ∧ s.hart.monFired = fired)
    ∧ (∀ fired armed flag, ∃ s : State, s.priv = false ∧ s.hart.wait = .mwait 1 (some (0, 0)) ∧ s.inp.flag = flag
        ∧ s.hart.monFired = fired ∧ s.hart.monArmed = armed ∧ 0 ≤ (s.core.ran - 0).toNat)
    ∧ (∃ s : State, s.hart.wait = .mwait 1 (some (0, 1)) ∧ (s.core.ran - 0).toNat < 1)
    ∧ ∀ b : BitVec 3, ∃ s : State, s.priv = true ∧ s.Ready [] ∧ s.hart.wait = .halt ∧ s.bcore.bint = b := by
  refine ⟨⟨⟨rfl, rfl⟩, by decide, rfl, _, _, rfl⟩, fun armed fired => ?_, fun fired armed flag => ?_, ?_, fun b => ?_⟩
  · exact ⟨{ strand 0 with hart := { Hart.reset with monArmed := armed, monFired := fired } }, ⟨rfl, rfl⟩, rfl, rfl⟩
  · exact ⟨{ strand 0 with hart := { Hart.reset with wait := .mwait 1 (some (0, 0)), monArmed := armed, monFired := fired }
                           inp := { Input.none with flag := flag } }, rfl, rfl, rfl, rfl, rfl, Nat.zero_le _⟩
  · exact ⟨{ strand 0 with hart := { Hart.reset with wait := .mwait 1 (some (0, 1)) } }, rfl, by decide⟩
  · exact ⟨{ bridge 0 with hart := { Hart.reset with wait := .halt }, bcore := { BCore.reset 0 with bint := b } }, rfl, ⟨rfl, rfl⟩, rfl, rfl⟩

/-- A strand with a strip of `n` elements, to which `i` has been lent. -/
def lend (i : Instr) (type : BitVec 12) (n : Nat) : State :=
  let s := strip type n
  { s with hart := { s.hart with pfxs := BitVec.ofNat 32 (((encode i).map (·.2)).getD 0) } }

/-- The loan `i` is pending. -/
def Pending (i : Instr) (s : State) : Prop := ∃ w, encode i = some (true, w) ∧ i.wf = true ∧ s.hart.pfxs = BitVec.ofNat 32 w

/-- Each pfx about to run; a condition that holds and one that does not, with a copy register and without; a copy before a
scalar successor; every class of successor that may take no loan, nop among them; a vector successor with each loan, with a copy
group apart, the destination's own, one that overlaps it, and one beyond the registers; a load that reaches memory. -/
theorem witness_Loans :
    (∀ i ∈ [Instr.pfxMask 0 0 7 1, .pfxCond 1 63 5 0, .pfxCopy 9], ∃ w, encode i = some (true, w) ∧ i.wf = true)
    ∧ (strand 0x25).Ready []
    ∧ (∀ cond : BitVec 3, cond = 0 ∨ cond = 1 → ∀ ce : BitVec 1, let i := Instr.pfxCond ce (if ce = 1 then 9 else 0) cond 4
        let s := lend i 0 0
        Pending i s ∧ s.pendingOn [4, 1, 2, 3, 9] = none ∧ s.g 4 = 0)
    ∧ (let s := lend (.pfxCopy 9) 0 0
       Pending (.pfxCopy 9) s ∧ s.pendingOn [4, 1, 2, 3, 9] = none)
    ∧ (∀ j ∈ [Instr.vadd 0 3 4 5, .vld 0 0 0 0 0 1 2, .opadd 0 0 0 1 2 0, .setvl 0 0 0 1 0x0A 3 1, .launch 3 4, .nop, .vdotseg 0 1 2 3],
        ∃ w, encode j = some (true, w) ∧ j.wf = true) ∧ encode .nopC = some (false, 0x32)
    ∧ (∀ i ∈ [Instr.pfxCopy 9, .pfxCond 1 9 0 4, .pfxMask 0 0 1 0], Pending i (lend i 0 0) ∧ (lend i 0 0).priv = false)
    ∧ (∀ i ∈ [Instr.pfxMask 0 0 1 0, .pfxMask 1 9 1 1, .pfxMask 1 3 1 0, .pfxCopy 9, .pfxCopy 3, .pfxCopy 32, .pfxCond 0 0 0 4],
        let s := lend i 0x0B 256
        Pending i s ∧ s.strand.cutReq = none ∧ 0 < s.n ∧ s.n ≤ s.ty.vmax ∧ s.ty.isInt8 = true
          ∧ allSameOr [s.grp 3, s.grp 4, s.grp 5] = true)
    ∧ (let s := lend (.pfxCopy 4) 0x2B 512
       s.ty.isInt8 = true ∧ s.n ≤ s.ty.vmax ∧ ({ start := 9, size := s.ty.g } : Grp).disjoint (s.grp 3) = true
         ∧ ({ start := 4, size := s.ty.g } : Grp).disjoint (s.grp 3) = false)
    ∧ (let s := lend (.pfxCond 0 0 0 4) 0 0
       ∃ t, exec (.add 1 2 3) { s with hart := { s.hart with pfxs := 0 } } = .next t ∧ t.hart.insn = s.hart.insn + 1)
    ∧ (let s := lend (.pfxCopy 9) 0x0B 1
       8 ≤ s.ty.w ∧ s.ty.blk = 0 ∧ s.strand.irt.length < 16 ∧ s.pendingOn [1, 0] = none ∧ s.Clear false (s.g 1) 8
         ∧ s.check s.aspace Need.load (s.g 1) 8 = .ok (page 0 8) ∧ (s.grp 3).disjoint (s.grp 4) = true) := by
  refine ⟨fun i h => ?_, ⟨rfl, rfl⟩, fun cond h ce => ?_, ⟨⟨_, rfl, rfl, rfl⟩, rfl⟩, fun j h => ?_, rfl, fun i h => ?_, fun i h => ?_,
    ⟨rfl, by decide, rfl, rfl⟩, ⟨_, rfl, rfl⟩, by decide, rfl, by decide, rfl, rfl, rfl, rfl⟩
  · simp only [List.mem_cons, List.not_mem_nil, or_false] at h
    rcases h with rfl | rfl | rfl <;> exact ⟨_, rfl, rfl⟩
  · rcases (by omega : ce.toNat = 0 ∨ ce.toNat = 1) with e | e
    · obtain rfl : ce = 0 := BitVec.eq_of_toNat_eq e
      rcases h with rfl | rfl <;> exact ⟨⟨_, rfl, rfl, rfl⟩, rfl, rfl⟩
    · obtain rfl : ce = 1 := BitVec.eq_of_toNat_eq e
      rcases h with rfl | rfl <;> exact ⟨⟨_, rfl, rfl, rfl⟩, rfl, rfl⟩
  · simp only [List.mem_cons, List.not_mem_nil, or_false] at h
    rcases h with rfl | rfl | rfl | rfl | rfl | rfl | rfl <;> exact ⟨_, rfl, rfl⟩
  · simp only [List.mem_cons, List.not_mem_nil, or_false] at h
    rcases h with rfl | rfl | rfl <;> exact ⟨⟨_, rfl, rfl, rfl⟩, rfl⟩
  · simp only [List.mem_cons, List.not_mem_nil, or_false] at h
    rcases h with rfl | rfl | rfl | rfl | rfl | rfl | rfl <;> exact ⟨⟨_, rfl, rfl, rfl⟩, rfl, by decide, by decide, rfl, rfl⟩

theorem witness_StripControl : (strand 0x25).StrandReady [1, 2] ∧ typeOk 5 0x05 = true ∧ typeOk 0 0 = true :=
  ⟨⟨rfl, rfl, rfl⟩, rfl, rfl⟩

/-- A strand with the complement of m3 lent to mask field 0: the word of R57 `pfx !m3`. -/
def lentStrip : State :=
  let s := strip 0x0B 256
  { s with hart := { s.hart with pfxs := 0x0E27 } }

theorem test_pfx_lent : encode (.pfxMask 0 0 3 1) = some (true, 0x0E27) := rfl

/-- R66: under `pfx !m3` the elements are active where m3 is 0. -/
theorem witness_Lent : lentStrip.Groups 0 [1, 2] [3, 3, 4] ∧ lentStrip.hart.pfxs ≠ 0 ∧ lentStrip.act 0 0 = true
    ∧ { lentStrip with strand := { lentStrip.strand with m := mkVec 8 fun _ => mkVec 32768 fun _ => true } }.act 0 0 = false :=
  ⟨⟨⟨rfl, rfl, rfl, .inr ⟨rfl, 3, 1, by decide, by decide, rfl⟩⟩, by decide, by decide, rfl⟩, by decide, rfl, rfl⟩

/-- Integers of 64 bits in one register: the whole register, and one element. -/
theorem witness_VectorIntegers : (strip 0x0B 256).Groups 0 [1, 2] [3, 3, 4] ∧ (strip 0x0B 256).ty.isInt8 = true
    ∧ (strip 0x0C 1).Groups 0 [1, 2] [3, 4, 5] ∧ (strip 0x0C 1).ty.isInt8 = true
    ∧ (strip 0x0B 256).NoTrap (fun _ => true) (fun _ => 0) :=
  ⟨⟨⟨rfl, rfl, rfl, .inl rfl⟩, by decide, by decide, rfl⟩, rfl, ⟨⟨rfl, rfl, rfl, .inl rfl⟩, by decide, by decide, rfl⟩, rfl,
   fun _ _ _ => BitVec.zero_and⟩

theorem witness_VectorFloats : (strip 1 512).Groups 0 [] [3, 3, 4] ∧ (strip 1 512).ty.isFloat = true
    ∧ ∀ fl, (strip 1 512).NoTrap ((strip 1 512).act 0) fl :=
  ⟨⟨⟨rfl, rfl, rfl, .inl rfl⟩, by decide, by decide, rfl⟩, rfl, fun _ _ _ _ => BitVec.and_zero⟩

theorem witness_MaskResults : (strip 1 512).Groups 0 [] [3, 4] ∧ (strip 1 512).ty.isFloat = true
    ∧ (strip 0x0B 1).Groups 0 [] [3, 3] ∧ (strip 0x0B 1).ty.isInt8 = true :=
  ⟨⟨⟨rfl, rfl, rfl, .inl rfl⟩, by decide, by decide, rfl⟩, rfl, ⟨⟨rfl, rfl, rfl, .inl rfl⟩, by decide, by decide, rfl⟩, rfl⟩

theorem witness_VectorMoves : (strip 0x0C 2048).Groups 0 [1, 2] [3, 4, 5] ∧ (strip 0x0C 2048).ty.w ≠ 0 ∧ (strip 0x0C 2048).ty.fmt = 12
    ∧ (strip 0x0F 1).Groups 0 [1, 2] [3, 4, 5] ∧ (strip 0x0F 1).ty.fmt = 15 :=
  ⟨⟨⟨rfl, rfl, rfl, .inl rfl⟩, by decide, by decide, rfl⟩, by decide, rfl, ⟨⟨rfl, rfl, rfl, .inl rfl⟩, by decide, by decide, rfl⟩, rfl⟩

/-- f32 to bf16, and e4m3 with blocks of 32 to f32 with its scale register behind the destination. -/
theorem witness_VectorConversions :
    (let s := strip 1 512
     s.Groups 0 [] [8] ∧ s.ty.w ≠ 0 ∧ fmtWidth 3 ≠ 0 ∧ (s.grp 8).disjoint { start := 4, size := ceilDiv (s.ty.g * 16) s.ty.w } = true)
    ∧ (let s := strip 0x605 2048
       let dg : Grp := { start := 0, size := ceilDiv (s.ty.g * 32) s.ty.w }
       let ag : Grp := { start := 4, size := ceilDiv (16384 * s.ty.g / s.ty.w) (2048 * s.ty.blk) }
       s.Groups 0 [] [8] ∧ s.ty.blk ≠ 0 ∧ dg.size ≤ 8 ∧ ag.size ≤ 8 ∧ (s.grp 8).disjoint dg = true ∧ ag.disjoint dg = true
         ∧ ag.disjoint (s.grp 8) = true) :=
  ⟨⟨⟨⟨rfl, rfl, rfl, .inl rfl⟩, by decide, by decide, rfl⟩, by decide, by decide, rfl⟩,
   ⟨⟨rfl, rfl, rfl, .inl rfl⟩, by decide, by decide, rfl⟩, by decide, by decide, by decide, rfl, rfl, rfl⟩

theorem witness_MaskScalars : (strip 0 64).LentReady 0 [1, 2] ∧ 0 < (strip 0 64).n := ⟨⟨rfl, rfl, rfl, .inl rfl⟩, by decide⟩

theorem witness_Permutations : (strip 0x0B 256).Groups 0 [1] [] ∧ (strip 0x0B 256).ty.w ≠ 0
    ∧ ((strip 0x0B 256).grp 0).disjoint ((strip 0x0B 256).grp 1) = true ∧ (strip 0x0B 256).ty.isInt8 = true :=
  ⟨⟨⟨rfl, rfl, rfl, .inl rfl⟩, by decide, by decide, rfl⟩, by decide, rfl, rfl⟩

theorem witness_Reductions :
    (∃ s : State, s.Groups 0 [] [8] ∧ s.ty.w ≠ 0 ∧ (∀ j < s.ty.g, (8 + j) % 32 ≠ 4 ∧ (8 + j) % 32 ≠ 4) ∧ s.ty.isInt = true ∧ s.ty.blk = 0
      ∧ s.ty.isInt8 = true)
    ∧ ∃ s : State, s.Groups 0 [] [8] ∧ s.ty.isFloat = true ∧ (∀ x ∈ s.sumScales 4, x.disjoint (s.grp 8) = true) ∧ fcsEn s.strand.vfcs = 0 :=
  ⟨⟨strip 0x0B 256, ⟨⟨rfl, rfl, rfl, .inl rfl⟩, by decide, by decide, rfl⟩, by decide, by decide, rfl, rfl, rfl⟩,
   strip 1 1, ⟨⟨rfl, rfl, rfl, .inl rfl⟩, by decide, by decide, rfl⟩, rfl, by decide, rfl⟩

theorem witness_ScansAndSegments :
    (∃ s : State, s.Groups 0 [] [10, 2] ∧ s.ty.arith = true ∧ ∀ j < s.ty.g, (2 + j) % 32 ≠ 5 ∧ (10 + j) % 32 ≠ 5)
    ∧ ∃ s : State, s.Groups 0 [] [] ∧ s.ty.isFloat = true ∧ fcsEn s.strand.vfcs = 0
        ∧ ∀ j < s.ty.g, ∀ k < 2, (2 + j) % 32 ≠ (12 + k) % 32 ∧ (3 + j) % 32 ≠ (12 + k) % 32 :=
  ⟨⟨strip 0x0B 256, ⟨⟨rfl, rfl, rfl, .inl rfl⟩, by decide, by decide, rfl⟩, rfl, by decide⟩,
   strip 0 256, ⟨⟨rfl, rfl, rfl, .inl rfl⟩, by decide, by decide, rfl⟩, rfl, rfl, by decide⟩

theorem witness_AttentionChain :
    ∃ s : State, s.Groups 0 [] [8] ∧ s.ty.fmt = 1 ∧ s.ty.vmax / 2 ^ s.strand.ach.toNat ≤ 512 ∧ s.n % 2 ^ s.strand.ach.toNat = 0
      ∧ (∀ j < s.ty.g, (8 + j) % 32 ≠ 10 ∧ (8 + j) % 32 ≠ 1) ∧ fcsEn s.strand.vfcs = 0 :=
  ⟨let s := strip 1 512
   { s with strand := { s.strand with ach := 7 } }, ⟨⟨rfl, rfl, rfl, .inl rfl⟩, by decide, by decide, rfl⟩, rfl, by decide, by decide, by decide, rfl⟩

theorem witness_ZeroLength : (strip 1 0).LentReady 0 [1, 2] ∧ (strip 1 0).n = 0 ∧ (strip 1 0).ty.arith = true
    ∧ allSameOr [(strip 1 0).grp 1, (strip 1 0).grp 2, (strip 1 0).grp 3] = true := ⟨⟨rfl, rfl, rfl, .inl rfl⟩, rfl, rfl, rfl⟩

/-- A strip of f32 elements with every exception enabled, in which element `e` of v2 is infinity and v3 is zero: its
product is invalid, and the products before it are exact. -/
def stops (e : Nat) : State :=
  let s := strip 1 4
  let st := { s.strand with vfcs := 0x1F0000 }
  { s with strand := { st with v := vset st.v 2 (vset (vset (st.vreg 2) (4 * e + 2) 0x80) (4 * e + 3) 0x7F) } }

theorem witness_ArithmeticStops : ∀ e < 2,
    let s := stops e
    let op := fun i => fpMul ffF32 (fcsRm s.strand.vfcs) (decodeNum ffF32 (s.strand.elem 2 32 i)) (decodeNum ffF32 (s.strand.elem 3 32 i))
    s.Groups 0 [] [1, 2, 3] ∧ s.ty.isFloat = true ∧ s.ty.blk = 0 ∧ e < s.n ∧ s.act 0 e = true ∧ (op e).fl &&& fcsEn s.strand.vfcs ≠ 0
      ∧ ∀ j < e, (op j).fl &&& fcsEn s.strand.vfcs = 0 := by
  intro e h
  match e, h with
  | 0, _ => exact ⟨⟨⟨rfl, rfl, rfl, .inl rfl⟩, by decide, by decide, rfl⟩, rfl, rfl, by decide, rfl, by decide, by decide⟩
  | 1, _ => exact ⟨⟨⟨rfl, rfl, rfl, .inl rfl⟩, by decide, by decide, rfl⟩, rfl, rfl, by decide, rfl, by decide, by decide⟩

theorem witness_VectorIllegal :
    (strip 0x0B 1).priv = false ∧ (strip 0x0B 1).ty.isFloat = false ∧ (strip 1 1).ty.isInt8 = false
    ∧ (strip 0x18 1).ty.isFloat = false ∧ (strip 0x18 1).ty.isInt8 = false
    ∧ ((strip 0x21 1).grp 0).sameOr ((strip 0x21 1).grp 1) = false ∧ ((strip 1 1).grp 1).disjoint ((strip 1 1).grp 1) = false
    ∧ (bridge 0x25).priv = true := ⟨rfl, rfl, rfl, rfl, rfl, rfl, rfl, rfl⟩

theorem below_two {i : Nat} (h : i < 2) : i = 0 ∨ i = 1 := by omega

/-- Two f64 elements at the end of the page, plain and indexed; two nibbles of its last byte; a chart at 0 over a table
at 0x40 whose block is the page's second half. -/
theorem witness_VectorLoads :
    (let s := withReg (strip 0 2) 4 0xFFF0
     let L := fun i => page (0xFFF0 + 8 * i) 8
     s.LentReady 0 [4, 0] ∧ 0 < s.n ∧ s.n ≤ s.ty.vmax ∧ 8 ≤ s.ty.w ∧ s.strand.irt.length < 16
       ∧ s.Reaches Need.load 0 8 (fun i => s.g 4 + BitVec.ofNat 64 i * BitVec.ofNat 64 8) L
       ∧ (s.grp 2).disjoint { start := 5, size := ceilDiv (s.ty.g * 64) s.ty.w } = true
       ∧ s.Reaches Need.load 0 8 (fun i => s.g 4 + BitVec.ofInt 64 (signedOf 64 (s.strand.elem 5 64 i) * (8 : Nat))) (fun _ => page 0xFFF0 8))
    ∧ (let s := withReg (strip 0x10 2) 4 0xFFFF
       s.LentReady 0 [4, 0] ∧ s.ty.w = 4
         ∧ s.Reaches Need.load 0 1 (fun i => s.g 4 + BitVec.ofNat 64 (i / 2)) fun _ => page 0xFFFF 1)
    ∧ ∃ x : Chart,
      let s := withBytes (strip 0 1) [(0, 8, 0x40), (8, 8, 16), (24, 8, 8), (0x40, 8, 0x8000)]
      s.Clear false (s.g 1) 64 ∧ s.readChart (s.g 1) = .ok x ∧ s.Clear false x.tbl 8 ∧ s.load8 s.aspace x.tbl = .ok 0x8000
        ∧ s.check s.aspace Need.load 0x8000 8 = .ok (page 0x8000 8) ∧ s.check s.aspace Need.store 0x8000 8 = .ok (page 0x8000 8)
        ∧ s.Clear true 0x8000 8 ∧ s.LentReady 0 [1, 0] ∧ s.n = 1 ∧ s.Canonical := by
  refine ⟨⟨⟨rfl, rfl, rfl, .inl rfl⟩, by decide, by decide, by decide, by decide, fun i h _ => ?_, rfl, fun i h _ => ?_⟩,
    ⟨⟨rfl, rfl, rfl, .inl rfl⟩, rfl, fun i h _ => ?_⟩, _, rfl, rfl, rfl, rfl, rfl, rfl, rfl, ⟨rfl, rfl, rfl, .inl rfl⟩, rfl,
    ⟨rfl, rfl, rfl, rfl, (fun _ h => nomatch h), fun _ h => nomatch h⟩⟩
  · rcases below_two h with rfl | rfl <;> exact ⟨rfl, rfl⟩
  · rcases below_two h with rfl | rfl <;> exact ⟨rfl, rfl⟩
  · rcases below_two h with rfl | rfl <;> exact ⟨rfl, rfl⟩

theorem witness_VectorStores :
    (let s := withReg (strip 0 2) 4 0xFFF0
     s.Canonical ∧ s.LentReady 0 [4, 0] ∧ 0 < s.n ∧ s.n ≤ s.ty.vmax ∧ 8 ≤ s.ty.w ∧ s.strand.irt.length < 16
       ∧ s.Reaches Need.store 0 8 (fun i => s.g 4 + BitVec.ofNat 64 i * BitVec.ofNat 64 8) fun i => page (0xFFF0 + 8 * i) 8)
    ∧ (let s := withReg (strip 0x10 1) 4 0xFFFF
       s.LentReady 0 [4, 0] ∧ s.ty.w = 4
         ∧ s.Reaches Need.store 0 1 (fun i => s.g 4 + BitVec.ofNat 64 (i / 2)) fun _ => page 0xFFFF 1) := by
  refine ⟨⟨strand_canonical, ⟨rfl, rfl, rfl, .inl rfl⟩, by decide, by decide, by decide, by decide, fun i h _ => ?_⟩,
    ⟨rfl, rfl, rfl, .inl rfl⟩, rfl, fun i h _ => ?_⟩
  · rcases below_two h with rfl | rfl <;> exact ⟨rfl, rfl⟩
  · obtain rfl : i = 0 := Nat.lt_one_iff.1 h
    exact ⟨rfl, rfl⟩

/-- One element of i32, of f32 and of n64 at the page's start; a compare-and-swap whose three groups are apart. -/
theorem witness_VectorAtomics :
    (∀ x : BitVec 12 × Nat, x = (0x0A, 4) ∨ x = (1, 4) ∨ x = (0x0F, 8) →
      let s := strip x.1 1
      s.Canonical ∧ s.LentReady 0 [4] ∧ 0 < s.n ∧ s.n ≤ s.ty.vmax ∧ 8 ≤ s.ty.w ∧ s.strand.irt = [] ∧ (s.g 4).toNat % x.2 = 0
        ∧ s.Reaches Need.rmw 0 x.2 (fun i => s.g 4 + BitVec.ofInt 64 (signedOf (max s.ty.w 32) (s.strand.elem 6 (max s.ty.w 32) i) * x.2))
            (fun _ => page 0 x.2))
    ∧ (strip 0x0A 1).ty.isInt8 = true ∧ (strip 1 1).ty.isFloat = true ∧ (strip 0x0F 1).ty.fmt = 15
    ∧ ({ start := 4 + 1, size := 1 } : Grp).disjoint ((strip 0x0F 1).grp 4) = true
    ∧ ({ start := 4 + 1, size := 1 } : Grp).disjoint { start := 6, size := 1 } = true := by
  refine ⟨fun x h => ?_, rfl, rfl, rfl, rfl, rfl⟩
  rcases h with rfl | rfl | rfl <;>
    refine ⟨strand_canonical, ⟨rfl, rfl, rfl, .inl rfl⟩, by decide, by decide, by decide, rfl, by decide, fun i h _ => ?_⟩ <;>
    obtain rfl : i = 0 := Nat.lt_one_iff.1 h <;> exact ⟨rfl, rfl⟩

/-- The first of two f64 elements stops, or the second, in a load and a store and as the target of an atomic; a misaligned
atomic; a chart that cannot be read, and one whose table cannot. -/
theorem witness_VectorAccessStops :
    (∀ need, need = Need.load ∨ need = Need.store ∨ need = Need.rmw → ∀ e < 2,
      let s := withReg (strip 0 2) 4 (BitVec.ofNat 64 (0x10000 - 8 * e))
      ∃ st, s.StopsAt need false 0 8 (fun i => .ok (s.g 4 + BitVec.ofNat 64 i * 8)) e 0x10000 st)
    ∧ (∃ st, let s := withReg (strip 0x0F 2) 4 4
        s.StopsAt Need.rmw true 0 8 (fun i => .ok (s.g 4 + BitVec.ofNat 64 i * 8)) 0 4 st)
    ∧ (∃ st, let s := withReg (strip 0 2) 4 0x10000
        s.Clear false (s.g 4) 64 ∧ s.readChart (s.g 4) = .error st
          ∧ s.StopsAt Need.load false 0 8 (fun _ => .error { st with addr := 0x20000 }) 0 0x20000 { st with addr := 0x20000 })
    ∧ (let s := withReg (strip 0 2) 4 0xFFF8
       s.LentReady 0 [4, 0] ∧ 1 < s.n ∧ s.n ≤ s.ty.vmax ∧ 8 ≤ s.ty.w ∧ s.ty.blk = 0 ∧ s.Canonical ∧ s.strand.irt = []
         ∧ s.performed 0 0 = true ∧ s.check s.aspace Need.load (s.g 4) 8 = .ok (page 0xFFF8 8)
         ∧ s.check s.aspace Need.store (s.g 4) 8 = .ok (page 0xFFF8 8)) := by
  refine ⟨fun need hn e h => ?_, ?_, ?_, ⟨rfl, rfl, rfl, .inl rfl⟩, by decide, by decide, by decide, rfl, strand_canonical, rfl, rfl, rfl, rfl⟩
  · rcases hn with rfl | rfl | rfl <;> rcases below_two h with rfl | rfl <;>
      refine ⟨_, by decide, rfl, rfl, fun i hi _ => ?_, fun i hi _ ea ha => ?_⟩ <;> first
        | (cases ha; rcases below_two hi with rfl | rfl <;> rfl)
        | exact absurd hi (Nat.not_lt_zero _)
        | (obtain rfl : i = 0 := Nat.lt_one_iff.1 hi; rfl)
  · refine ⟨_, by decide, rfl, rfl, fun i hi _ => absurd hi (Nat.not_lt_zero _), fun i hi _ ea ha => ?_⟩
    cases ha; rcases below_two hi with rfl | rfl <;> rfl
  · exact ⟨_, rfl, rfl, by decide, rfl, rfl, fun i hi _ => absurd hi (Nat.not_lt_zero _), fun _ _ _ _ ha => nomatch ha⟩

theorem witness_SystemReadsAndWrites : (strand 0x25).StrandReady [1]
    ∧ ∃ s : State, s.StrandReady [1] ∧ s.strand.inh = true :=
  ⟨⟨rfl, rfl, rfl⟩, { strand 0 with strand := { (strand 0).strand with inh := true } }, ⟨rfl, rfl, rfl⟩, rfl⟩

theorem witness_SystemRefusals : (strand 0x25).priv = false ∧ (strand 0x25).strand.inh = false ∧ (bridge 0x25).priv = true := ⟨rfl, rfl, rfl⟩

theorem witness_BridgeRegisters : (bridge 0x25).priv = true ∧ (bridge 0x25).Ready [1, 2] := ⟨rfl, rfl, rfl⟩

/-- Accumulators that nobody owns; an extent at its bounds and beyond; a row at the extent's last and first beyond. -/
theorem witness_MatrixInstructions :
    (∀ x : Word, x = 0x18040 ∨ x = 0x18041 ∨ x = 16 ∨ x = 17 →
      let s := withReg (strip 1 64) 4 x
      s.VectorReady [5, 4] ∧ s.MayUse 0 ∧ 0 < s.n ∧ (s.g 4).toNat = x.toNat)
    ∧ (∀ x : Word, x = 63 ∨ x = 64 ∨ x = 127 ∨ x = 128 →
      let s := withReg (strip 1 64) 4 x
      s.VectorReady [4] ∧ s.MayUse 0 ∧ 0 < s.n ∧ s.n ≤ s.ty.vmax ∧ s.ty.isAf (s.accNow 0).af = true ∧ (s.accNow 0).vis.poison = false
        ∧ (s.accNow 0).er = 64 ∧ (s.accNow 0).ec = 128)
    ∧ ∃ s : State, s.VectorReady [4] ∧ s.MayUse 0 ∧ 0 < s.n ∧ s.n ≤ s.ty.vmax ∧ s.ty.isAf (s.accNow 0).af = true
        ∧ (s.accNow 0).vis.poison = true := by
  refine ⟨fun x h => ?_, fun x h => ?_, let s := strip 1 64
    s.setAcc 0 { Acc.reset with own := 0, owned := true, vis := { Bank.reset with poison := true } },
    ⟨⟨rfl, rfl, rfl⟩, rfl⟩, .inl rfl, by decide, by decide, rfl, rfl⟩
  · rcases h with rfl | rfl | rfl | rfl <;> exact ⟨⟨⟨rfl, rfl, rfl⟩, rfl⟩, .inr ⟨rfl, rfl⟩, by decide, rfl⟩
  · rcases h with rfl | rfl | rfl | rfl <;>
      exact ⟨⟨⟨rfl, rfl, rfl⟩, rfl⟩, .inr ⟨rfl, rfl⟩, by decide, by decide, rfl, rfl, rfl, rfl⟩

/-- A pair of formats that the accumulator takes and one that it does not; a poisoned bank; enabled exceptions at row 0 and
at row 1. -/
theorem witness_OuterProducts :
    (let s := strip 1 64
     s.VectorReady [] ∧ s.MayUse 0 ∧ 0 < s.n ∧ s.ty.opOk = true ∧ s.ty.pairOk (s.accNow 0).af = true ∧ (s.accNow 0).work.poison = false
       ∧ fcsEn s.strand.vfcs = 0)
    ∧ (let s := strip 0 64
       s.VectorReady [] ∧ s.MayUse 0 ∧ 0 < s.n ∧ s.ty.opOk = true ∧ s.ty.pairOk (s.accNow 0).af = false)
    ∧ (∃ s : State, s.VectorReady [] ∧ s.MayUse 0 ∧ 0 < s.n ∧ s.ty.opOk = true ∧ s.ty.pairOk (s.accNow 0).af = true
        ∧ (s.accNow 0).work.poison = true)
    ∧ ∀ e < 2, let s := stops e
        infZero (s.opVal 2 0 0 e) (s.opVal 3 0 16 0) = true ∧ fcsEn s.strand.vfcs = 0x1F
          ∧ ∀ r < e, zeroProduct (s.opVal 2 0 0 r) (s.opVal 3 0 16 0) = true := by
  refine ⟨⟨⟨⟨rfl, rfl, rfl⟩, rfl⟩, .inr ⟨rfl, rfl⟩, by decide, rfl, rfl, rfl, rfl⟩,
    ⟨⟨⟨rfl, rfl, rfl⟩, rfl⟩, .inr ⟨rfl, rfl⟩, by decide, rfl, rfl⟩, ?_, by decide⟩
  exact ⟨let s := strip 1 64
    s.setAcc 0 { Acc.reset with own := 0, owned := true, work := { Bank.reset with poison := true } },
    ⟨⟨rfl, rfl, rfl⟩, rfl⟩, .inl rfl, by decide, rfl, rfl, rfl⟩

/-- A strip of f32 whose second page is a host window of its berth. -/
def hosted : State :=
  let s := withReg (strip 1 4) 4 0x10000
  { s with ms := { s.ms with dram := withDram s.ms.dram [(0x50008, 8, 0x1801F)] }
           berths := vset s.berths 0 { s.berthAt 0 with wins := [(0x10000, 0x10000)] } }

/-- A foreign owner; a saved bit; a tile of length 0; one whose first element stops; one at a window of host memory. -/
theorem witness_AccumulatorAndTileStops :
    (∃ s : State, s.VectorReady [1, 2, 3] ∧ ¬ s.MayUse 0 ∧ (s.acc 0).owned = true ∧ s.ty.opOk = true ∧ s.ty.fmt = 1)
    ∧ (∃ s : State, s.VectorReady [1, 2, 3] ∧ ¬ s.MayUse 0 ∧ s.savedBit 0 = true)
    ∧ ((strip 1 0).VectorReady [1, 2] ∧ (strip 1 0).n = 0 ∧ 8 ≤ (strip 1 0).ty.w)
    ∧ (let s := withReg (strip 1 4) 4 0x10000
       s.VectorReady [4, 0] ∧ 0 < s.n ∧ s.n ≤ s.ty.vmax ∧ s.ty.blk = 0 ∧ s.strand.tshp.toNat % 512 = 1 ∧ s.strand.irt = []
         ∧ (∃ st, s.check s.aspace Need.load (s.g 4) 4 = .error st) ∧ ∃ st, s.check s.aspace Need.store (s.g 4) 4 = .error st)
    ∧ ∃ (s : State) (l : Loc) (ls : List Loc), s.VectorReady [4, 0] ∧ 0 < s.n ∧ s.n ≤ s.ty.vmax ∧ s.ty.blk = 0
        ∧ s.check s.aspace Need.load (s.g 4) 4 = .ok (l :: ls) ∧ l.space = .pcie := by
  refine ⟨⟨let s := strip 1 1
    s.setAcc 0 { Acc.reset with own := 1, owned := true }, ⟨⟨rfl, rfl, rfl⟩, rfl⟩, ?_, rfl, rfl, rfl⟩,
    ⟨let s := strip 1 1
     { s with strand := { s.strand with saved0 := true } }, ⟨⟨rfl, rfl, rfl⟩, rfl⟩, ?_, rfl⟩,
    ⟨⟨⟨rfl, rfl, rfl⟩, rfl⟩, rfl, by decide⟩,
    ⟨⟨⟨rfl, rfl, rfl⟩, rfl⟩, by decide, by decide, rfl, rfl, rfl, ⟨_, rfl⟩, _, rfl⟩,
    hosted, _, _, ⟨⟨rfl, rfl, rfl⟩, rfl⟩, by decide, by decide, rfl, rfl, rfl⟩ <;>
  · rintro (h | ⟨h, g⟩)
    · exact absurd h (by decide)
    · first | exact absurd h (by decide) | exact absurd g (by decide)

theorem witness_Tiles :
    let s := strip 1 2
    let L := fun i => page (4 * i) 4
    let addr := fun i => s.g 4 + BitVec.ofNat 64 (i / 2) * BitVec.ofNat 64 8 + BitVec.ofNat 64 (i % 2 * 4)
    s.VectorReady [4, 0] ∧ 0 < s.n ∧ s.strand.tshp.toNat % 512 = 1 ∧ s.MayUse 1 ∧ s.ty.isAf (s.accNow 1).af = true ∧ 1 ≤ (s.accNow 1).er
      ∧ 2 ≤ (s.accNow 1).ec ∧ (s.accNow 1).work.poison = false ∧ s.Canonical ∧ 2 ≤ s.ty.vmax ∧ s.strand.irt.length < 16
      ∧ (∀ i < 2, ∀ j < 4, (addr i + BitVec.ofNat 64 j).toNat / 128 ∈ [0])
      ∧ ∀ i < 2, ∀ need, need = Need.load ∨ need = Need.store → s.Clear need.w (addr i) 4 ∧ s.check s.aspace need (addr i) 4 = .ok (L i)
          ∧ inPool (addr i) = inPool (s.g 4) ∧ ∀ l ∈ L i, l.space ≠ .cxl ∧ l.space ≠ .pcie := by
  refine ⟨⟨⟨rfl, rfl, rfl⟩, rfl⟩, by decide, rfl, .inr ⟨rfl, rfl⟩, rfl, by decide, by decide, rfl, strand_canonical, by decide, by decide, by decide,
    fun i h need hn => ?_⟩
  rcases below_two h with rfl | rfl <;> rcases hn with rfl | rfl <;> exact ⟨rfl, rfl, rfl, by decide⟩

/-- An empty core half; one that two new keys fill up to its 4,096 entries. -/
theorem witness_GazetteerInserts :
    let s := strip 0x0B 2
    s.Groups 0 [] [4, 2, 3] ∧ s.ty.gazOk = true ∧ s.strand.gpois = false ∧ s.strand.govc = 0 ∧ s.strand.gents = []
      ∧ ∀ acc, s.TableClear true acc :=
  ⟨⟨⟨rfl, rfl, rfl, .inl rfl⟩, by decide, by decide, rfl⟩, rfl, rfl, rfl, rfl,
   fun _ => ⟨fun h => absurd h (by decide), fun _ _ h => absurd h (by decide)⟩⟩

/-- A full core half with a table at `base` for `cap` entries. -/
def fullHalf (base : Word) (cap : Word) : State :=
  let s := strip 0x0B 1
  { s with strand := { s.strand with gents := List.replicate 4096 (1, 7), govb := base, govl := cap } }

theorem witness_GazetteerLookupsAndOverflow :
    (let s := strip 0x0B 2
     s.LentReady 0 [5] ∧ 0 < s.n ∧ s.n ≤ s.ty.vmax ∧ s.ty.gazOk = true ∧ s.strand.gpois = false
       ∧ s.strand.gsum.length = s.strand.govc.toNat ∧ s.strand.gsum = [] ∧ (s.grp 6).sameOr (s.grp 2) = true ∧ s.TableClear false false)
    ∧ (let s := fullHalf 0xFFF0 1
       s.LentReady 0 [5] ∧ s.ty.gazOk = true ∧ allSameOr [s.grp 4, s.grp 2, s.grp 3] = true ∧ s.strand.gpois = false ∧ s.act 0 0 = true
          ∧ s.strand.gents.length = 4096 ∧ s.strand.gsum.length = s.strand.govc.toNat
          ∧ (∀ x ∈ s.strand.gents ++ s.strand.gsum, x.1 ≠ BitVec.ofNat 64 (s.strand.elem 2 64 0)) ∧ s.n = 1 ∧ s.Canonical
          ∧ ∀ acc, s.TableClear true acc)
    ∧ (let s := fullHalf 0xFFF0 1
       s.strand.govc.toNat < s.strand.govl.toNat ∧ s.check s.aspace Need.store 0xFFF0 16 = .ok (page 0xFFF0 16))
    ∧ (let s := fullHalf 0xFFF0 0
       s.strand.govl.toNat ≤ s.strand.govc.toNat)
    ∧ (let s := fullHalf 0x10000 1
       s.strand.govc.toNat < s.strand.govl.toNat ∧ ∃ st, s.check s.aspace Need.store 0x10000 16 = .error st)
    ∧ ∃ s : State, s.LentReady 0 [5] ∧ s.ty.gazOk = true ∧ allSameOr [s.grp 4, s.grp 2, s.grp 3] = true ∧ s.strand.gpois = true := by
  refine ⟨⟨⟨rfl, rfl, rfl, .inl rfl⟩, by decide, by decide, rfl, rfl, rfl, rfl, rfl, fun h => absurd h (by decide), fun h => nomatch h⟩,
    ⟨⟨rfl, rfl, rfl, .inl rfl⟩, rfl, rfl, rfl, rfl, List.length_replicate, rfl, fun x h => ?_, rfl, strand_canonical,
      fun acc => ⟨fun h => absurd h (by decide), fun _ _ _ => rfl⟩⟩,
    ⟨by decide, rfl⟩, by decide, ⟨by decide, _, rfl⟩, let s := strip 0x0B 2
    { s with strand := { s.strand with gpois := true } }, ⟨rfl, rfl, rfl, .inl rfl⟩, rfl, rfl, rfl⟩
  rcases List.mem_append.1 h with h | h
  · rw [(List.mem_replicate.1 h).2]; decide
  · exact absurd h List.not_mem_nil

/-- A strand whose first page is mapped; of a member berth, with one f64 element at 0x100 and a descriptor at 0x40 of a group of one. -/
def tender (n : Nat) : State :=
  let s := withReg (withBytes (strip 0 n) [(0x40, 8, 0x100), (0x48, 8, 0x200), (0x50, 8, 1), (0x58, 8, 0x100000001), (0x68, 8, 0x280), (0x70, 8, 1)]) 4 0x100
  { s with strand := { s.strand with tmid := 0x8000 } }

theorem witness_TenderInstructions :
    (∀ n < 2, (tender n).TenderReady [9, 4, 5, 6, 7] ∧ (tender n).n = n)
    ∧ (let s := tender 1
       s.strand.irt.length ≤ 14 ∧ s.conflict false 0 8 = none ∧ s.conflict true 0x100 0x108 = none
         ∧ s.Answers (copySides s.strand.tcsp).2 Need.read4 0 8 ∧ s.Answers (copySides s.strand.tcsp).1 Need.store 0x100 8
         ∧ s.strand.tmid.toNat / 2 ^ 15 % 2 = 1 ∧ (s.berthAt s.berthNo).moor.length < 4096 ∧ (s.berthAt s.berthNo).drift = []
         ∧ s.performed 0 0 = true ∧ s.SoundTo (fun _ => page 0x100 8) 1 1 ∧ s.Clear false 0x100 8 ∧ s.check s.aspace Need.read4 0x100 8 = .ok (page 0x100 8)
         ∧ s.check s.aspace Need.store 0x100 8 = .ok (page 0x100 8))
    ∧ (∃ ws, let s := withReg (tender 1) 4 0x40
       (s.g 4).toNat % 64 = 0 ∧ s.Clear false (s.g 4) 64 ∧ s.words s.aspace 8 (s.g 4) = .ok ws
         ∧ descBad (fun j => (ws.getD j 0).toNat) s.ty.fmt = false ∧ (ws.getD 2 0).toNat = 1 ∧ (s.fabric.groupAt 1).closed = false
         ∧ s.check s.aspace Need.read4 (BitVec.ofNat 64 (ws.getD 0 0).toNat) 8 = .ok (page 0x100 8))
    ∧ (let s := withReg (strip 0 1) 4 0x10000
       s.TenderReady [9, 4, 5, 6, 7] ∧ s.strand.tmid.toNat / 2 ^ 15 % 2 = 0 ∧ s.strand.irt = []
         ∧ (∃ st, s.sideAt (copySides s.strand.tcsp).2 Need.read4 (s.g 4) 8 = .stop st)
         ∧ (∃ st, s.sideAt (copySides s.strand.tcsp).1 Need.store (s.g 4) 8 = .stop st)
         ∧ s.Clear false (s.g 4) 64 ∧ (s.g 4).toNat % 64 = 0 ∧ ∃ st, s.words s.aspace 8 (s.g 4) = .error st)
    ∧ (let u := tender 1
       let s := withReg { u with strand := { u.strand with tcsp := 0x500000004 } } 4 0x10000
       s.sideAt (copySides s.strand.tcsp).2 Need.read4 (s.g 6) 8 = .silent ∧ (∃ st, s.check s.aspace Need.read4 (s.g 4) 8 = .error st)
         ∧ (∃ st, s.check s.aspace Need.store (s.g 4) 8 = .error st) ∧ s.Clear false (s.g 4) 8 ∧ s.Clear true (s.g 4) 8) := by
  refine ⟨fun n h => ?_, ⟨by decide, rfl, rfl, .inl ⟨_, rfl⟩, .inl ⟨_, rfl⟩, by decide, by decide, rfl, rfl, ⟨fun i h _ l hl => ?_, .inl rfl⟩,
    rfl, rfl, rfl⟩, ⟨_, by decide, rfl, rfl, rfl, rfl, rfl, rfl⟩, ⟨⟨⟨⟨rfl, rfl, rfl⟩, rfl⟩, by decide, by decide⟩, by decide, rfl, ⟨_, rfl⟩, ⟨_, rfl⟩, rfl, by decide, _, rfl⟩,
    rfl, ⟨_, rfl⟩, ⟨_, rfl⟩, rfl, rfl⟩
  · rcases below_two h with rfl | rfl <;> exact ⟨⟨⟨⟨rfl, rfl, rfl⟩, rfl⟩, by decide, by decide⟩, rfl⟩
  · obtain rfl : i = 0 := Nat.lt_one_iff.1 h
    revert l; decide

/-- The second of two f64 elements stops, in a send, a receive and a contribution; a collective whose COUNT is 1 for a strip of two,
and one of 1 for a block of 32. -/
theorem witness_TenderShortfalls :
    (∀ need, need = Need.read4 ∨ need = Need.store → let s := withReg (tender 2) 4 0xFFF8
      s.TenderReady [9, 4, 5, 6, 7] ∧ 1 < s.n ∧ s.whole 1 = 1 ∧ s.strand.tmid.toNat / 2 ^ 15 % 2 = 1
        ∧ (s.berthAt s.berthNo).moor.length < 4096 ∧ (s.berthAt s.berthNo).drift = []
        ∧ ∃ st, s.StopsAt need false 0 8 (fun i => .ok (s.g 4 + BitVec.ofNat 64 (i * 8))) 1 0x10000 st
            ∧ s.check s.aspace need (s.g 4) 8 = .ok (page 0xFFF8 8) ∧ s.SoundTo (fun _ => page 0xFFF8 8) 1 1)
    ∧ (∀ from_ count : Nat, (from_ = 0xFFF8 ∧ count = 2) ∨ (from_ = 0x100 ∧ count = 1) → ∃ ws,
        let s := withReg (withBytes (tender 2) [(0x40, 8, from_), (0x48, 8, 0x200), (0x50, 8, count), (0x58, 8, 0x100000001), (0x68, 8, 0x280), (0x70, 8, 1)]) 4 0x40
        (s.g 4).toNat % 64 = 0 ∧ s.Clear false (s.g 4) 64 ∧ s.words s.aspace 8 (s.g 4) = .ok ws
          ∧ descBad (fun j => (ws.getD j 0).toNat) s.ty.fmt = false ∧ (ws.getD 2 0).toNat = count ∧ (ws.getD 0 0).toNat = from_
          ∧ (s.fabric.groupAt 1).closed = false)
    ∧ (let u := tender 32
       let s := { u with strand := { u.strand with type := 0x605 } }
       s.TenderReady [9, 4, 5, 6, 7] ∧ s.n = 32 ∧ s.whole 1 = 0 ∧ s.check s.aspace Need.read4 0x100 1 = .ok (page 0x100 1)) := by
  refine ⟨fun need h => ?_, fun from_ count h => ?_, ⟨⟨⟨rfl, rfl, rfl⟩, rfl⟩, by decide, by decide⟩, rfl, rfl, rfl⟩
  · rcases h with rfl | rfl <;>
      refine ⟨⟨⟨⟨rfl, rfl, rfl⟩, rfl⟩, by decide, by decide⟩, by decide, rfl, by decide, by decide, rfl, _,
        ⟨by decide, rfl, rfl, fun i hi _ => ?_, fun i hi _ ea ha => ?_⟩, rfl, fun i hi _ l hl => ?_, .inl rfl⟩ <;> first
        | (cases ha; rcases below_two hi with rfl | rfl <;> rfl)
        | (obtain rfl : i = 0 := Nat.lt_one_iff.1 hi; first | rfl | (revert l; decide))
  · rcases h with ⟨rfl, rfl⟩ | ⟨rfl, rfl⟩ <;> exact ⟨_, by decide, rfl, rfl, rfl, rfl, rfl, rfl⟩

/-- A launch record at 0x40 of one strand for queue 0, with its code object at 0x400; `queues` says which queues the berth
has, `pending` how many launches the queue holds. -/
def launcher (queues pending : Nat) : State :=
  let s := withReg (withBytes (strand 0x25) [(0x40, 8, 0x400), (0x48, 8, 0x10000), (0x50, 8, 0x0000040000200001),
    (0x400, 8, 0x00004F4E494D4144), (0x408, 8, 1), (0x418, 8, 0x80), (0x420, 8, 1), (0x460, 8, 0x100)]) 4 0x40
  let l := launchOf 1 0 0x10000 [] [] [] (0, 0)
  { s with berths := vset s.berths 0 { s.berthAt 0 with queues := queues }
           pilot := { s.pilot with launches := List.replicate pending l } }

/-- Every status of R328: a misaligned record; a failed read; a record that is bad; a queue that is not the berth's; one
that is full; one with room. -/
theorem witness_Launches :
    (∃ r k, let s := launcher 1 0
      s.Ready [3, 4] ∧ s.NoCopies ∧ (s.g 4).toNat % 64 = 0 ∧ s.words s.aspace 8 (s.g 4) = .ok r ∧ recordBad r = false
        ∧ s.sideWords s.aspace r = .ok ([], []) ∧ s.kernel s.aspace (r.getD 0 0) 0 1 = .ok (some k) ∧ s.unreachable s.aspace r [] = false
        ∧ (s.berthAt 0).queues / 2 ^ 0 % 2 = 1 ∧ vget (s.berthAt 0).keys 0 .empty = .active)
    ∧ (withReg (launcher 1 0) 4 0x48).Ready [3, 4] ∧ ((withReg (launcher 1 0) 4 0x48).g 4).toNat % 64 ≠ 0
    ∧ (∃ st, let s := withReg (launcher 1 0) 4 0x10000
        s.words s.aspace 8 (s.g 4) = .error st)
    ∧ (∃ st r, let s := withBytes (launcher 1 0) [(0x48, 8, 0x4000010000), (0x60, 8, 0x10000)]
        s.words s.aspace 8 (s.g 4) = .ok r ∧ s.sideWords s.aspace r = .error st)
    ∧ (∃ st r, let s := withBytes (launcher 1 0) [(0x40, 8, 0x10000)]
        s.words s.aspace 8 (s.g 4) = .ok r ∧ recordBad r = false ∧ s.sideWords s.aspace r = .ok ([], [])
          ∧ s.kernel s.aspace (r.getD 0 0) 0 1 = .error st)
    ∧ (∃ r, let s := withBytes (launcher 1 0) [(0x400, 8, 0)]
        s.words s.aspace 8 (s.g 4) = .ok r ∧ s.sideWords s.aspace r = .ok ([], []) ∧ s.kernel s.aspace (r.getD 0 0) 0 1 = .ok none)
    ∧ (∃ r, let s := withReg (launcher 1 0) 4 0x80
        s.words s.aspace 8 (s.g 4) = .ok r ∧ s.sideWords s.aspace r = .ok ([], []) ∧ recordBad r = true)
    ∧ (launcher 0 0).Ready [3, 4] ∧ ((launcher 0 0).berthAt 0).queues = 0
    ∧ ((launcher 1 16).pilot.launches.filter fun l => l.qid = 0).length = 16 :=
  ⟨⟨_, _, ⟨rfl, rfl⟩, .inr rfl, by decide, rfl, rfl, rfl, rfl, rfl, rfl, rfl⟩, ⟨rfl, rfl⟩, by decide, ⟨_, rfl⟩, ⟨_, _, rfl, rfl⟩,
   ⟨_, _, rfl, rfl, rfl, rfl⟩, ⟨_, rfl, rfl, rfl⟩, ⟨_, rfl, rfl, rfl⟩,
   ⟨rfl, rfl⟩, rfl, rfl⟩

/-- The same memory with every agent out of focus. -/
def quiet : State :=
  let s := strand 0x25
  { State.reset with ms := s.ms, berths := s.berths, mgmt := s.mgmt }

theorem quiet_unfocused : quiet.Unfocused := ⟨rfl, rfl, rfl, rfl, rfl⟩

theorem quiet_canonical : quiet.Canonical := ⟨rfl, rfl, rfl, rfl, (fun _ h => nomatch h), fun _ h => nomatch h⟩

/-- A context out of focus. -/
def context (tag : BitVec 16) (status : Status) : Ctx :=
  { hart := Hart.reset, strand := { Strand.reset with status := status, tag := tag, croot := 0x10000 } }

/-- A launch of one flotilla of one strand on queue 0 of berth 0. -/
def launched (state : LState) : Launch :=
  { launchOf 1 0 0x10000 [0x100, 0x10000, 0x0000040000200001, 0, 0, 0, 0, 0] [] [] (0, 0) with state := state }

/-- A strand of a flotilla of two whose beacon stands at 1, with `g4` and `g6` set; its launch is on queue 0. -/
def crew (x : Word) : State :=
  let s := withReg (withReg (strand 0x25) 4 x) 6 0x100
  { s with flot := { s.flot with size := 2, bm := 1 }, strand := { s.strand with launch := 1 }
           pilot := { s.pilot with launches := [launched .draining] } }

/-- The beacon's four cases at their bounds; a counter that is 0 and one that is not; one spawned element, two and none; a yield to a
launch that fits, and to none. -/
theorem witness_FlotillaControl :
    (∀ x : Word, x = 0 ∨ x = 1 ∨ x = 64 ∨ x = 65 → (crew x).VectorReady [3, 4, 6] ∧ (crew x).NoCopies ∧ ((crew x).g 4).toNat = x.toNat ∧ (crew x).flot.bm = 1
      ∧ 1 < (crew x).flot.size)
    ∧ ((strand 0x25).VectorReady [3, 4, 6] ∧ (strand 0x25).NoCopies ∧ (strand 0x25).flot.size ≤ 1)
    ∧ (let s := crew 0x100
       (s.g 4).toNat % 8 = 0 ∧ s.Clear false (s.g 4) 8 ∧ s.check s.aspace Need.load (s.g 4) 8 = .ok (page 0x100 8)
         ∧ ofBytes (s.bytes (page 0x100 8)) = 0 ∧ s.Clear true (s.g 4) 8 ∧ s.check s.aspace Need.rmw (s.g 4) 8 = .ok (page 0x100 8)
         ∧ s.Canonical ∧ ofBytes ((withBytes s [(0x100, 8, 1)]).bytes (page 0x100 8)) = 1)
    ∧ (∀ k, k = 1 ∨ k = 2 → ∃ s : State, s.VectorReady [5, 4, 6] ∧ s.NoCopies ∧ s.ty.fmt = 11 ∧ 0 < s.n ∧ s.n ≤ s.ty.vmax ∧ (s.g 6).toNat % 8 = 0 ∧ s.Clear true (s.g 6) 8
        ∧ s.check s.aspace Need.rmw (s.g 6) 8 = .ok (page 0x100 8) ∧ s.pilot.launchAt s.strand.launch = some (launched .draining)
        ∧ s.Canonical ∧ (s.pilot.muster.filter fun t => t.die = s.core.id / 384).length + s.n ≤ 4096
        ∧ ((List.range s.n).filter (s.act 0)).length = k ∧ (List.range s.n).filter (s.act 1) = [])
    ∧ (∀ state fits, (state = LState.draining ∧ fits = false) ∨ (state = .ready ∧ fits = true) → ∃ s : State,
        let u := s.unfocus
        s.VectorReady [] ∧ ((u.cands 0 0).any fun c => u.flotEff s.flot ≤ c.eff
          && (u.fit ((u.pop.crew s.strand.flot).map (·.strand.tag)) ((u.berthAt 0).clustersOn 0) c).isSome) = fits) := by
  refine ⟨fun x h => ?_, ⟨⟨⟨rfl, rfl, rfl⟩, rfl⟩, .inr rfl, by decide⟩, ⟨by decide, rfl, rfl, rfl, rfl, rfl, strand_canonical, rfl⟩, fun k h => ?_, fun state fits h => ?_⟩
  · rcases h with rfl | rfl | rfl | rfl <;> exact ⟨⟨⟨rfl, rfl, rfl⟩, rfl⟩, .inr rfl, rfl, rfl, by decide⟩
  · rcases h with rfl | rfl
    · exact ⟨let s := crew 0
        { s with strand := { s.strand with type := 0x0B, mgs := 1 } }, ⟨⟨rfl, rfl, rfl⟩, rfl⟩, .inr rfl, rfl, by decide, by decide, rfl, rfl, rfl, rfl,
        strand_canonical, by decide, rfl, rfl⟩
    · exact ⟨let s := crew 0
        { s with strand := { s.strand with type := 0x0B, mgs := 2 } }, ⟨⟨rfl, rfl, rfl⟩, rfl⟩, .inr rfl, rfl, by decide, by decide, rfl, rfl, rfl, rfl,
        strand_canonical, by decide, rfl, rfl⟩
  · rcases h with ⟨rfl, rfl⟩ | ⟨rfl, rfl⟩
    · exact ⟨let s := crew 0
        { s with berths := vset s.berths 0 { s.berthAt 0 with clusters := 1, queues := 1 } }, ⟨⟨rfl, rfl, rfl⟩, rfl⟩, rfl⟩
    · exact ⟨let s := crew 0
        { s with berths := vset s.berths 0 { s.berthAt 0 with clusters := 1, queues := 1 }
                 pilot := { s.pilot with launches := [launched .ready] } }, ⟨⟨rfl, rfl, rfl⟩, rfl⟩, rfl⟩

/-- A barrier that all have reached or left; each wait, at the bounds of the beacon; a pending cut and none, which no candidate
asks for; an mwait under one; a tile at the pc under one. -/
theorem witness_FlotillaEvents :
    (∃ s : State, s.priv = false ∧ s.strand.status = .running ∧ s.hart.wait = .bar 3 ∧ 1 < s.flot.size
      ∧ (∀ c ∈ s.pop.ctxs, c.strand.flot = s.flot.id → c.strand.status = .running ∧ ∃ r, c.hart.wait = .bar r)
      ∧ (∀ i < s.flot.size, i ∈ s.flot.arrived ∨ i ∈ s.flot.gone) ∧ s.strand.flot = s.flot.id)
    ∧ (∃ s : State, s.priv = false ∧ s.strand.status = .running ∧ s.hart.wait = .join 4 ∧ (s.g 4).toNat % 8 = 0 ∧ s.Clear false (s.g 4) 8
        ∧ s.check s.aspace Need.load (s.g 4) 8 = .ok (page 0x100 8) ∧ ofBytes (s.bytes (page 0x100 8)) = 0)
    ∧ (∀ x : Word, x = 0 ∨ x = 1 ∨ x = 64 ∨ x = 65 → ∀ w, w = Wait.waiti 4 ∨ w = .post 4 → ∃ s : State, s.priv = false ∧ s.strand.status = .running
        ∧ s.hart.wait = w ∧ (s.g 4).toNat = x.toNat ∧ s.flot.bm = 1)
    ∧ (∀ cut, ∃ s : State, s.priv = false ∧ s.strand.status = .running ∧ s.hart.wait = .running ∧ s.strand.cutReq = cut
        ∧ s.strand.flot = s.flot.id ∧ s.mayPreempt = cut.isSome ∧ ∀ r t, s.hart.wait ≠ .mwait r t)
    ∧ (∃ s : State, s.priv = false ∧ s.strand.status = .running ∧ s.mayPreempt = true ∧ s.hart.wait = .mwait 3 none)
    ∧ (∃ s : State, s.priv = false ∧ s.strand.status = .running ∧ s.strand.cutReq ≠ none ∧ s.hart.wait = .running ∧ isTile s.fetchStep = true) := by
  refine ⟨?_, ?_, fun x h w hw => ?_, fun cut => ?_, ?_, ?_⟩
  · exact ⟨let s := crew 0
      { s with hart := { s.hart with wait := .bar 3 }, flot := { s.flot with arrived := [0], gone := [1] } }, rfl, rfl, rfl, by decide,
      (fun _ h => nomatch h), (by decide), rfl⟩
  · exact ⟨let s := crew 0x100
      { s with hart := { s.hart with wait := .join 4 } }, rfl, rfl, rfl, by decide, rfl, rfl, rfl⟩
  · exact ⟨{ crew x with hart := { (crew x).hart with wait := w } }, rfl, rfl, rfl, by rcases h with rfl | rfl | rfl | rfl <;> rfl, rfl⟩
  · refine ⟨{ crew 0 with strand := { (crew 0).strand with cutReq := cut } }, rfl, rfl, rfl, rfl, rfl, ?_, fun _ _ h => nomatch h⟩
    cases cut <;> rfl
  · exact ⟨{ crew 0 with strand := { (crew 0).strand with cutReq := some 64 }, hart := { (crew 0).hart with wait := .mwait 3 none } }, rfl, rfl, rfl, rfl⟩
  · exact ⟨{ strand 0x969970CF with strand := { (strand 0x969970CF).strand with cutReq := some 0 } }, rfl, rfl, Option.some_ne_none _, rfl, by decide +kernel⟩

/-- A launch that drains, with a completion signal. -/
def drained (csig : Word) : Launch := { launched .draining with csig := csig }

/-- A ready launch that fits on cluster 0. -/
def placing : State :=
  { quiet with pilot := { quiet.pilot with launches := [launched .ready] }
               berths := vset quiet.berths 0 { quiet.berthAt 0 with clusters := 1, queues := 1 } }

set_option maxRecDepth 20000 in
/-- A waiting launch; one that drains with and without a signal; a launch and a task that are placed; a halted context; a
task in a ring. -/
theorem witness_PilotEvents :
    (quiet.Unfocused ∧ quiet.Canonical)
    ∧ (∃ s : State, s.Unfocused ∧ s.Canonical ∧ (s.pilot.launches.filter fun l => l.qid = 0).find? (fun l => l.state = .waiting) = some (launched .waiting)
        ∧ ∀ x ∈ s.pilot.launches, x.id = 1 → x = launched .waiting)
    ∧ (∀ csig : Word, csig = 0 ∨ csig = 0x103 → ∃ s : State, ∃ l : Launch, s.Unfocused ∧ s.Canonical
        ∧ (s.pilot.launches.filter fun l => l.qid = 0) = [l] ∧ l.state = .draining ∧ l.live = 0 ∧ l.csig = csig
        ∧ s.pilot.held.contains (l.die, l.qid % 64) = false ∧ s.check l.aspace Need.store 0x100 8 = .ok (page 0x100 8))
    ∧ (∃ (s : State) (cand : Cand) (pls : List Place), s.Unfocused ∧ s.Canonical ∧
        s.refillAll = s ∧
        (let el := (s.cands 0 0).filterMap fun c => (s.fit [] (turned ((s.berthAt 0).clustersOn 0) 0) c).map fun pls => (c, pls)
         let p := topEff (el.map (·.1))
         p < 8 ∧ pick65 (vget (s.berthAt 0).rp p 0) (el.filter fun x => x.1.eff = p) = some (cand, pls)) ∧ (s.placeCand cand pls).isSome = true
        ∧ cand.kind = .fresh)
    ∧ (∃ s : State, s.Unfocused ∧ s.Canonical ∧ s.pop.ctxAt s.inp.tag = some (context 0 .halted) ∧ (context 0 .halted).strand.irt = [])
    ∧ (∃ (s : State) (l : Launch) (head e arg ctr : Word) (r : RingTask), s.Unfocused ∧ s.Canonical
        ∧ s.pilot.ringq.find? (fun x => x.die = s.inp.die.toNat) = some r ∧ s.pilot.ringq.find? (fun x => x.launch = r.launch) = some r
        ∧ s.pilot.launchAt r.launch = some l
        ∧ l.ring.toNat / 64 * 64 = 0x1000 ∧ s.load8 l.aspace 0x1000 = .ok head ∧ s.load8 l.aspace 0x1040 = .ok e
        ∧ s.load8 l.aspace 0x1048 = .ok arg ∧ s.load8 l.aspace 0x1050 = .ok ctr ∧ s.check l.aspace Need.store 0x1000 8 = .ok (page 0x1000 8)
        ∧ (s.pilot.muster.filter fun t => t.die = 0).length < 4096) := by
  have u : quiet.Unfocused := quiet_unfocused
  have c : quiet.Canonical := quiet_canonical
  refine ⟨⟨u, c⟩, ⟨{ quiet with pilot := { quiet.pilot with launches := [launched .waiting] } }, u, c, rfl, by decide⟩, fun csig h => ?_, ?_,
    ⟨{ quiet with pop := { quiet.pop with ctxs := [context 0 .halted] } }, u, c, rfl, rfl⟩, ?_⟩
  · rcases h with rfl | rfl
    · exact ⟨{ quiet with pilot := { quiet.pilot with launches := [drained 0] } }, drained 0, u, c, rfl, rfl, rfl, rfl, rfl, rfl⟩
    · exact ⟨{ quiet with pilot := { quiet.pilot with launches := [drained 0x103] } }, drained 0x103, u, c, rfl, rfl, rfl, rfl, rfl, rfl⟩
  · exact ⟨placing, { num := 0, eff := 0, launch := launched .ready, kind := .fresh }, [(0, false)], u, c, rfl, ⟨by decide, rfl⟩,
      by decide +kernel, rfl⟩
  · exact ⟨{ quiet with pilot := { quiet.pilot with launches := [{ launched .draining with ring := 0x1004 }]
                                                    ringq := [{ launch := 1, die := 0, seq := 0 }] } }, _, _, _, _, _, _,
      u, c, rfl, rfl, rfl, rfl, rfl, rfl, rfl, rfl, rfl, by decide⟩

/-- A Bridge core that may attach context 0 of a status, with a trap queued or not. -/
def serving (status : Status) (att : Bool) (queue : List (BitVec 16)) (sel : BitVec 10) : State :=
  let s := bridge 0x25
  { s with bcore := { s.bcore with att := att, bsel := sel }, pop := { s.pop with ctxs := [context 0 status] }
           berths := vset s.berths 0 { s.berthAt 0 with trapq := vset (s.berthAt 0).trapq 0 queue } }

theorem serving_ready (status : Status) (att : Bool) (queue : List (BitVec 16)) (sel : BitVec 10) :
    (serving status att queue sel).priv = true ∧ (serving status att queue sel).Ready [1, 2] ∧ (serving status att queue sel).Canonical :=
  ⟨rfl, ⟨rfl, rfl⟩, rfl, rfl, rfl, rfl, (fun _ h => nomatch h), fun _ h => nomatch h⟩

/-- An empty and a filled trap queue; an attached context that traps, the first and the last scalar register selected, an
index that is not mapped; one in its save area; none attached; key slots 0, 1 and 64. -/
theorem witness_BridgeInstructions :
    (∀ queue, queue = [] ∨ queue = [0x0001] → ∃ s : State, s.priv = true ∧ s.Ready [1, 2] ∧ s.inp.flag = false
      ∧ s.bcore.queueDies = [0] ∧ vget (s.berthAt 0).trapq 0 [] = queue ∧ s.bcore.att = false)
    ∧ (∀ sel, sel = 0x200 ∨ sel = 0x23F ∨ sel = 0x245 ∨ sel = 0x247 ∨ sel = 0x100 → ∃ s : State, s.priv = true ∧ s.Ready [1, 2]
        ∧ s.bcore.att = true ∧ s.bcore.bsel = sel ∧ s.pop.ctxAt s.bcore.bctx = some (context 0 .trapped)
        ∧ (context 0 .trapped).strand.late = [])
    ∧ (∃ (s : State) (c : Ctx), s.priv = true ∧ s.Ready [1, 2] ∧ s.bcore.att = true ∧ s.bcore.bsel = 0x79 ∧ s.pop.ctxAt s.bcore.bctx = some c
        ∧ c.strand.status = .trapped ∧ c.strand.late = [(0x79, 5)] ∧ c.strand.irt = [])
    ∧ (∀ status, status = .saved ∨ status = .parked → ∀ sel, sel = 0x46 ∨ sel = 0x201 ∨ sel = 0x23F ∨ sel = 0x240 ∨ sel = 0x245 → ∃ s : State,
        s.priv = true ∧ s.Ready [1, 2] ∧ s.Canonical ∧ s.bcore.att = true ∧ s.bcore.bsel = sel
          ∧ s.pop.ctxAt s.bcore.bctx = some (context 0 status))
    ∧ (∀ x : Word, x = 0 ∨ x = 1 ∨ x = 64 → (withReg (bridge 0x25) 2 x).Ready [1, 2] ∧ ((withReg (bridge 0x25) 2 x).g 2).toNat = x.toNat)
    ∧ vget ((bridge 0x25).berthAt 0).keys 0 .empty = .active ∧ vget ((bridge 0x25).berthAt 0).keys 1 .empty ≠ .active := by
  refine ⟨fun queue h => ?_, fun sel h => ?_, ?_, fun status _ sel _ => ?_, fun x h => ?_, rfl, by decide⟩
  · rcases h with rfl | rfl
    · exact ⟨serving .trapped false [] 0, rfl, ⟨rfl, rfl⟩, rfl, rfl, rfl, rfl⟩
    · exact ⟨serving .trapped false [1] 0, rfl, ⟨rfl, rfl⟩, rfl, rfl, rfl, rfl⟩
  · exact ⟨serving .trapped true [] sel, rfl, ⟨rfl, rfl⟩, rfl, rfl, rfl, rfl⟩
  · exact ⟨let s := serving .trapped true [] 0x79
      let c := context 0 .trapped
      { s with pop := { s.pop with ctxs := [{ c with strand := { c.strand with late := [(0x79, 5)] } }] } }, _, rfl, ⟨rfl, rfl⟩, rfl, rfl, rfl, rfl, rfl, rfl⟩
  · exact ⟨serving status true [] sel, rfl, ⟨rfl, rfl⟩, (serving_ready status true [] sel).2.2, rfl, rfl, rfl⟩
  · rcases h with rfl | rfl | rfl <;> exact ⟨⟨rfl, rfl⟩, rfl⟩

/-- No context attached; a running and a trapped one; a launch; an accumulator that a context owns; one that it has saved. -/
theorem witness_BridgeCommands :
    (∀ x : Word, x = 0 ∨ x = 1 ∨ x = 7 ∨ x = 8 → ∃ s : State, s.priv = true ∧ s.Ready [4] ∧ s.Canonical ∧ (s.g 4).toNat = x.toNat ∧ s.bcore.att = false)
    ∧ (∀ status, ∃ s : State, s.priv = true ∧ s.Ready [4] ∧ s.Canonical ∧ s.bcore.att = true ∧ s.pop.ctxAt s.bcore.bctx = some (context 0 status)
        ∧ (context 0 status).strand.irt = [] ∧ (context 0 status).strand.savedAcc 1 = false)
    ∧ (∃ (s : State) (c : Ctx) (l : Launch), s.priv = true ∧ s.Ready [4] ∧ s.Canonical ∧ s.bcore.att = true ∧ s.pop.ctxAt s.bcore.bctx = some c
        ∧ s.pilot.launchAt c.strand.launch = some l ∧ (∀ x ∈ s.pop.ctxs, x.strand.irt = []) ∧ (s.berthAt l.berth).ready = false ∧ (s.berthAt l.berth).evheld.length < 4096)
    ∧ (∃ (s : State) (c : Ctx), s.priv = true ∧ s.Canonical ∧ s.bcore.att = true ∧ s.pop.ctxAt s.bcore.bctx = some c
        ∧ ((s.pop.coreAt c.strand.core).acc 0).owned = true ∧ s.pop.ctxAt ((s.pop.coreAt c.strand.core).acc 0).own = some c
        ∧ ((s.pop.coreAt c.strand.core).acc 0).er ≤ 64 ∧ ((s.pop.coreAt c.strand.core).acc 0).ec * esz ((s.pop.coreAt c.strand.core).acc 0).af ≤ 512)
    ∧ (∃ (s : State) (c : Ctx), s.priv = true ∧ s.Canonical ∧ s.bcore.att = true ∧ s.pop.ctxAt s.bcore.bctx = some c
        ∧ c.strand.savedAcc 0 = true ∧ c.strand.status = .trapped) := by
  refine ⟨fun x h => ?_, fun status => ?_, ?_, ?_, ?_⟩
  · rcases h with rfl | rfl | rfl | rfl
    · exact ⟨withReg (serving .trapped false [] 0) 4 0, rfl, ⟨rfl, rfl⟩, (serving_ready .trapped false [] 0).2.2, rfl, rfl⟩
    · exact ⟨withReg (serving .trapped false [] 0) 4 1, rfl, ⟨rfl, rfl⟩, (serving_ready .trapped true [] 0).2.2, rfl, rfl⟩
    · exact ⟨withReg (serving .trapped false [] 0) 4 7, rfl, ⟨rfl, rfl⟩, (serving_ready .trapped true [] 0).2.2, rfl, rfl⟩
    · exact ⟨withReg (serving .trapped false [] 0) 4 8, rfl, ⟨rfl, rfl⟩, (serving_ready .trapped true [] 0).2.2, rfl, rfl⟩
  · exact ⟨serving status true [] 0, rfl, ⟨rfl, rfl⟩, (serving_ready .trapped true [] 0).2.2, rfl, rfl, rfl, rfl⟩
  · exact ⟨let s := serving .trapped true [] 0
      { s with pilot := { s.pilot with launches := [{ launched .draining with id := 0 }] } }, context 0 .trapped, { launched .draining with id := 0 },
      rfl, ⟨rfl, rfl⟩, (serving_ready .trapped true [] 0).2.2, rfl, rfl, rfl, fun x h => by rw [List.mem_singleton.1 h]; rfl, rfl, by decide⟩
  · exact ⟨let s := serving .trapped true [] 0
      { s with pop := { s.pop with cores := [{ Core.reset 0 with acc0 := { Acc.reset with owned := true } }] } }, context 0 .trapped, rfl,
      ⟨rfl, rfl, rfl, rfl, (fun c h => by rw [List.mem_singleton.1 h]; rfl), fun _ h => nomatch h⟩, rfl, rfl, rfl, rfl, by decide, by decide⟩
  · exact ⟨let s := serving .trapped true [] 0
      let c := context 0 .trapped
      { s with pop := { s.pop with ctxs := [{ c with strand := { c.strand with saved0 := true } }] } }, _, rfl,
      (serving_ready .trapped true [] 0).2.2, rfl, rfl, rfl, rfl⟩

/-- A running context of launch 1. -/
def worker : Ctx := { context 0 .running with strand := { (context 0 .running).strand with launch := 1 } }

/-- A machine out of focus with one running context and one of its jobs, whose token goes to g9. -/
def working (kind : JobKind) (entered : Bool) (done : Option Word) : State :=
  { quiet with
    pop := { quiet.pop with ctxs := [worker] }
    berths := vset quiet.berths 0 { quiet.berthAt 0 with used := true, tmid := 0x8000, tenders := 1 }
    fabric := { quiet.fabric with
      jobs := [{ id := 1, owner := 0, reg := 9, kind := kind, entered := entered, last := 0, parent := none, done := done, left := none }] }
    inp := { Input.none with job := 1, num := 1 } }

theorem working_fair (k : JobKind) (e : Bool) (d : Option Word) : (working k e d).Unfocused ∧ (working k e d).Canonical :=
  ⟨⟨rfl, rfl, rfl, rfl, rfl⟩, rfl, rfl, rfl, rfl, (fun _ h => nomatch h), fun _ h => nomatch h⟩

/-- The job of such a machine. -/
def job (kind : JobKind) (entered : Bool) (done : Option Word) : Job :=
  { id := 1, owner := 0, reg := 9, kind := kind, entered := entered, last := 0, parent := none, done := done, left := none }

/-- A contribution of one i64 element of a group of one member; `isr` for a reduction in the switch. -/
def contribution (isr : Bool) : Coll :=
  { gid := 1, rank := 0, nmem := 1, op := 0, fmt := 0x0B, sz := 8, total := 1, o := 0, n := 1, mg := 1, into := 0x200, stat := 0x280
    poison := false, done := [], fail := none, isr := isr, img := 0, code := some 0x100, base := 0x100, desc := 0, type := 0x0B, fcmd := 0, data := List.replicate 8 1 }

/-- A send of one element to member `peer`. -/
def sending (peer : BitVec 10) : JobKind :=
  .send 1 false { ctx := 0, tag := 0, peer := peer, data := List.replicate 8 7, job := none }

/-- A token that is ready; copies of two elements, and one that stops at its second on either side. -/
theorem witness_TenderEvents :
    (∀ kind entered done, (working kind entered done).Unfocused ∧ (working kind entered done).Canonical
      ∧ (working kind entered done).fabric.jobAt 1 = some (job kind entered done)
      ∧ (working kind entered done).pop.ctxAt 0 = some worker ∧ worker.strand.status = .running)
    ∧ (∀ from_ into : Nat, let f := (working (.copy 2 8 (BitVec.ofNat 64 into) 8 (BitVec.ofNat 64 from_) 8 0) false none).focus 0
       let sp := aspaceOf 0 0 0x10000
       let u := f.store none ((page into 8).zip (f.bytes (page from_ 8)))
       (from_ = 0x100 ∧ into = 0x200 → ∀ i < 2, f.check sp Need.load (0x100 + BitVec.ofNat 64 i * 8) 8 = .ok (page (0x100 + 8 * i) 8)
           ∧ f.check sp Need.store (0x200 + BitVec.ofNat 64 i * 8) 8 = .ok (page (0x200 + 8 * i) 8))
         ∧ (from_ = 0xFFF8 ∧ into = 0x200 → (∃ st, u.check sp Need.load 0x10000 8 = .error st) ∧ u.check sp Need.store 0x208 8 = .ok (page 0x208 8))
         ∧ (from_ = 0x100 ∧ into = 0xFFF8 → (∃ st, u.check sp Need.store 0x10000 8 = .error st) ∧ u.check sp Need.load 0x108 8 = .ok (page 0x108 8))) := by
  refine ⟨fun k e d => ⟨(working_fair k e d).1, (working_fair k e d).2, rfl, rfl, rfl⟩, fun from_ into => ⟨fun h i hi => ?_, fun h => ?_, fun h => ?_⟩⟩
  · obtain ⟨rfl, rfl⟩ := h
    rcases below_two hi with rfl | rfl <;> exact ⟨rfl, rfl⟩
  · obtain ⟨rfl, rfl⟩ := h
    exact ⟨⟨_, rfl⟩, rfl⟩
  · obtain ⟨rfl, rfl⟩ := h
    exact ⟨⟨_, rfl⟩, rfl⟩

/-- A member that no port reaches, one outside, and the strand's own berth: with a receive that matches, an empty drift queue,
a full one, and a refused message. -/
theorem witness_TenderEventsMessages :
    (working (sending 5) false none).reaching 0 5 = false
    ∧ (let s := working (sending 5) false none
       let u := { s with berths := vset s.berths 0 { s.berthAt 0 with ports := 1 } }
       u.Unfocused ∧ u.reaching 0 5 = true ∧ u.memberBerth 5 = none ∧ bitAt (u.berthAt 0).ports 0 = true ∧ 0 ∉ u.fabric.failed
         ∧ (u.berthAt 0).ready = false ∧ (u.berthAt 0).evheld.length < 4096)
    ∧ (∃ m, let s := working (sending 0) false none
       let j := job (sending 0) false none
       sending 0 = .send 1 false m ∧ s.inOrder j m = true ∧ s.reaching 0 0 = true ∧ s.memberBerth 0 = some 0 ∧ m.data.length ≤ 16384
         ∧ (s.berthAt 0).heldBack (s.sentMsg j m) false = false ∧ (s.berthAt 0).moor = [] ∧ (s.berthAt 0).drift = []
         ∧ 0 < (s.berthAt 0).driftCap ∧ envMatch 0 0xFFFFFFFF 0x3FF (s.sentMsg j m) = true)
    ∧ (∃ r, let s := working (sending 0) false none
       let u := { s with fabric := { s.fabric with jobs := s.fabric.jobs ++ [r] } }
       u.Unfocused ∧ u.fabric.jobAt 2 = some r ∧ r.reg ≠ 0 ∧ r.kind = .recv 0x200 1 8 ∧ u.pop.ctxAt r.owner = some worker
         ∧ (u.focus r.owner).check (aspaceOf 0 0 0x10000) Need.store 0x200 8 = .ok (page 0x200 8))
    ∧ (∃ B : Berth, ∀ i < B.driftCap, i ∈ B.drift)
    ∧ (∃ m, ({ Berth.reset with refused := [m] } : Berth).refused[0]? = some m ∧ m.job = some 1 ∧ m.data.length ≤ 16384)
    ∧ (working (sending 0) false (some 5)).fabric.jobAt 1 = some (job (sending 0) false (some 5))
    ∧ ∃ j : Job, let s := working (sending 5) false none
       let u := { s with fabric := { s.fabric with jobs := [j] } }
       u.Unfocused ∧ u.fabric.jobAt u.inp.job = some j ∧ j.parent = none ∧ j.left ≠ none ∧ j.kind = sending 5 ∧ j.done = none
         ∧ u.reaching 0 5 = false := by
  refine ⟨rfl, ⟨⟨rfl, rfl, rfl, rfl, rfl⟩, rfl, rfl, rfl, by decide, rfl, by decide⟩, ⟨_, rfl, rfl, rfl, rfl, by decide, rfl, rfl, rfl, by decide, rfl⟩,
    ⟨{ id := 2, owner := 0, reg := 8, kind := .recv 0x200 1 8, entered := false, last := 0, parent := none, done := none, left := none },
      ⟨rfl, rfl, rfl, rfl, rfl⟩, rfl, by decide, rfl, rfl, rfl⟩, ?_, ?_, rfl,
    { job (sending 5) false none with left := some worker }, ⟨rfl, rfl, rfl, rfl, rfl⟩, rfl, rfl, (fun h => nomatch h), rfl, rfl, rfl⟩
  · exact ⟨{ Berth.reset with driftCap := 1, drift := [0] }, fun i h => List.mem_singleton.2 (Nat.lt_one_iff.1 h)⟩
  · exact ⟨{ ctx := 0, tag := 0, peer := 0, data := [], job := some 1 }, rfl, rfl, by decide⟩

/-- A collective of one member in the switch, whose group has its format. -/
def reducing : State :=
  let s := working (.coll (contribution true)) false none
  { s with fabric := s.fabric.putGroup { gid := 1, closed := false, first := some (0x0B, 0), members := [0], areas := [] } }

theorem witness_TenderEventsCollectives :
    reducing.Unfocused ∧ reducing.fabric.colls 1 = [(job (.coll (contribution true)) false none, contribution true)]
    ∧ (reducing.fabric.groupAt 1).first = some (0x0B, 0)
    ∧ elemFrom [(job (.coll (contribution true)) false none, contribution true)] [] 8 0 0 0 = some 0x0101010101010101
    ∧ (reducing.focus 0).check (aspaceOf 0 0 0x10000) Need.store 0x200 8 = .ok (page 0x200 8)
    ∧ (reducing.focus 0).check (aspaceOf 0 0 0x10000) Need.store 0x280 128 = .ok (page 0x280 128)
    ∧ reducing.inp.flag2 = false ∧ reducing.inp.addr = 0 ∧ reducing.inp.others = [] ∧ 8 ∣ 256 ∧ (contribution true).done = []
    ∧ ((working (.coll (contribution true)) false none).fabric.groupAt 1).first ≠ some (0x0B, 0)
    -- a chunk of two elements, the second of which may not land
    ∧ (let c := { contribution true with total := 2, n := 2, mg := 2, data := List.replicate 16 1 }
       (∀ e < 2, elemFrom [(job (.coll c) false none, c)] [] 8 0 0 e = some 0x0101010101010101)
         ∧ (∀ q ∈ c.chunks, q = 0 ∨ q ∈ c.done)
         ∧ ∃ st, ((reducing.focus 0).store none ((page 0xFFF8 8).zip (toBytes 8 0x0101010101010101))).check (aspaceOf 0 0 0x10000) Need.store 0x10000 8
             = .error st) := by
  refine ⟨⟨rfl, rfl, rfl, rfl, rfl⟩, rfl, rfl, rfl, rfl, rfl, rfl, rfl, rfl, by decide, rfl, by decide, fun e h => ?_, by decide, _, rfl⟩
  rcases below_two h with rfl | rfl <;> rfl

/-- A finished operation of firmware. -/
def finished : Job := { job (.recv 0x200 8 1) false (some 1) with id := 2, reg := 0, parent := some 1 }

/-- The contribution of a launch with code object `code`, or of none. -/
def command (code : Nat) : Coll := { contribution false with code := if code = 0 then none else some (BitVec.ofNat 64 code) }

/-- A command of firmware, of a launch with code object `code`, served by tender 0 where `on`, with a finished operation of its
own where `ended`. -/
def commanded (code : Nat) (on ended : Bool) : State :=
  let s := withBytes (working (.coll (command code)) on none) [(0x128, 8, 0x40), (0x130, 8, 1), (0x140, 8, 0x80), (0x148, 8, 4),
    (0x40, 8, 0x200), (0x48, 8, 8)]
  { s with pilot := { s.pilot with launches := if code = 0 then [] else [{ launched .draining with code := BitVec.ofNat 64 code }] }
           pop := { s.pop with tenders := if on then [{ TCore.reset 0 with cmd := some 1 }] else [] }
           fabric := { s.fabric with jobs := s.fabric.jobs ++ if ended then [finished] else [] }
           inp := { s.inp with addr := 0x40 } }

/-- An image that the object holds, one that it does not, one that cannot be read; an operation that firmware begins, and one
that it has waited for. -/
theorem witness_TenderEventsFirmware :
    ((commanded 0x100 false false).freeTenders (job (.coll (contribution false)) false none)).contains 0 = true
    ∧ (∃ x, ((commanded 0x100 false false).focus 0).tenderImage (command 0x100).code 0 = .ok (some x))
    ∧ ((commanded 0 false false).focus 0).tenderImage (command 0).code 0 = .ok none
    ∧ (∃ st, ((commanded 0x10000 false false).focus 0).tenderImage (command 0x10000).code 0 = .error st)
    ∧ (∀ ended, ((commanded 0x100 true ended).pop.server 1).isSome = true
        ∧ (commanded 0x100 true ended).fabric.jobAt 1 = some (job (.coll (contribution false)) true none)
        ∧ ((commanded 0x100 true ended).fabric.jobs.filter fun h => h.parent = some 1 && h.done.isSome).isEmpty = !ended)
    ∧ (let f := (commanded 0x100 true false).focus 0
       f.words (aspaceOf 0 0 0x10000) 4 0x40 = .ok [0x200, 8, 0, 0] ∧ envSendOk 0 = true
         ∧ (f.berthAt f.berthNo).moor.length < 4096 ∧ f.drifting f.berthNo 0 = none
         ∧ f.accessStop Need.read4 false (byteRun 8 0x200) = none ∧ f.accessStop Need.store false (byteRun 8 0x200) = none) := by
  refine ⟨rfl, ⟨_, rfl⟩, rfl, ⟨_, rfl⟩, fun ended => ?_, rfl, rfl, by decide, rfl, rfl, rfl⟩
  cases ended <;> exact ⟨rfl, rfl, rfl⟩

/-- A berth whose lead core runs and whose rings are in its page: the tail is 1, and entry 0 is a call with its arguments. -/
def called (op : Nat) (args : List Nat) : State :=
  let s := withBytes quiet ([(0, 8, 1), (0x100, 8, op)] ++ (args.mapIdx fun k a => (0x108 + 8 * k, 8, a)))
  { s with berths := vset s.berths 0 { s.berthAt 0 with
             used := true, started := true, ready := true, queues := 1, bases := (4, 4, 4), cqhead := 0, spaces := [(0, 0x10000)] }
           pop := { s.pop with bcores := [{ hart := Hart.reset, bcore := { BCore.reset 0 with lead := true } }] } }

theorem withDram_wf (m : List Host.Cell) (ws : List (Nat × Nat × Nat)) (h : Memory.wf m = true) : Memory.wf (withDram m ws) = true := by
  induction ws generalizing m with
  | nil => exact h
  | cons w ws ih => exact ih _ (wf_memWrite _ _ h)

theorem called_canonical (op : Nat) (args : List Nat) : (called op args).Canonical := by
  have h : Memory.wf (called op args).ms.dram = true := by
    dsimp only [called, withBytes]
    exact withDram_wf _ _ quiet_canonical.1
  exact ⟨h, rfl, rfl, rfl, (fun _ h => nomatch h), fun _ h => nomatch h⟩

/-- A fact of the berth's next call. -/
def callIs (s : State) (p : List Byte → Bool) : Bool := (s.nextCall 0).any p

/-- A LAUNCH of a record, with its code object at 0x400. -/
def calling (r : List Nat) : State :=
  let s := called 4 (List.replicate 7 0 ++ r)
  withBytes s [(0x400, 8, 0x00004F4E494D4144), (0x408, 8, 1), (0x418, 8, 0x80), (0x420, 8, 1), (0x460, 8, 0x100)]

/-- Every op from 0 to the first one that no rule gives, with arguments at the bounds of its clauses. -/
theorem witness_HostCalls :
    (∀ op < 11, callIs (called op []) fun e => (entryWord e 0).toNat % 256 = op && (entryWord e 0).toNat / 2 ^ 8 % 2 ^ 24 = 0)
    ∧ (∀ op, ∀ args, (called op args).Unfocused ∧ (called op args).inp.flag2 = false)
    ∧ callIs (called 1 [255]) (fun e => entryWord e 8 = 255) ∧ callIs (called 1 [256]) (fun e => entryWord e 8 = 256)
    ∧ ((called 1 []).berthAt 0).allocPage.isSome = true ∧ ((called 2 []).berthAt 0).space 0 = some (0, 0x10000)
    ∧ ((called 2 []).berthAt 0).space 1 = none
    ∧ callIs (called 2 [0, 0x20000, 0x10000, 0x0C, 0xFFFFFFFFFFFFFFFF]) (fun e => entryWord e 0x28 = 0xFFFFFFFFFFFFFFFF)
    ∧ (called 2 []).entryOf { berth := 0, asid := 0, vxt := 0, root := 0x10000 } 0x20000 = .slot 0x50010
    ∧ (called 2 []).phys8 0x50010 = 0 ∧ (called 2 []).backing 0 0 = some 0x60000
    ∧ (∀ x ∈ locRange .pcie (2 ^ 64) 16, (called 2 []).takes x = true) ∧ ((called 2 []).aperture 0 Need.store 128 8).isSome = true
    ∧ ((called 4 []).pop.bcoreAt 0).bcore.intr = false
    ∧ (let s := calling [0x400, 0x10000, 0x0000040000200001, 0, 0, 0, 0, 0]
        let r : List Word := [0x400, 0x10000, 0x0000040000200001, 0, 0, 0, 0, 0]
        recordBad r = false ∧ s.sideWords (aspaceOf 0 0 0x10000) r = .ok ([], []) ∧ (s.kernel (aspaceOf 0 0 0x10000) (r.getD 0 0) 0 1).toOption.join.isSome = true
          ∧ s.unreachable (aspaceOf 0 0 0x10000) r [] = false ∧ (s.nextCall 0).map (fun e => (List.range 8).map fun j => entryWord e (64 + 8 * j)) = some r)
    ∧ (∃ st, (called 4 []).sideWords (aspaceOf 0 0 0x10000) [0x400, 0x4000010000, 0, 0, 0x10000] = .error st)
    ∧ (∃ st, (called 4 []).kernel (aspaceOf 0 0 0x10000) 0x10000 0 1 = .error st)
    ∧ callIs (called 5 [63, 3]) (fun e => entryWord e 8 = 63 && entryWord e 16 = 3) ∧ ((called 5 []).berthAt 0).queues / 2 ^ 0 % 2 = 1
    ∧ vget ((called 6 []).berthAt 0).keys 0 .empty = .active ∧ vget ((called 6 []).berthAt 0).keys 63 .empty ≠ .active
    ∧ callIs (called 7 [1]) (fun e => entryWord e 8 = 1) ∧ (called 8 []).pop.ctxAt 0 = none
    ∧ (({ called 8 [] with pop := { (called 8 []).pop with ctxs := [{ context 0 .trapped with
        strand := { (context 0 .trapped).strand with held := 2 } }] } } : State).pop.ctxAt 0).isSome = true
    ∧ (({ called 8 [] with pop := { (called 8 []).pop with ctxs := [{ context 0 .saved with
        strand := { (context 0 .saved).strand with held := 1 } }] } } : State).pop.ctxAt 0).map (fun c => (c.strand.status, c.strand.held)) = some (.saved, 1)
    ∧ callIs (called 9 [0xFFFFFFFFFFFF0000, 0x10000]) (fun e => (entryWord e 8).toNat + (entryWord e 16).toNat = 2 ^ 64)
    ∧ ((called 9 []).berthAt 0).wins.length < 16 := by
  refine ⟨by decide +kernel, fun _ _ => ⟨⟨rfl, rfl, rfl, rfl, rfl⟩, rfl⟩, by decide +kernel, by decide +kernel, by decide +kernel, rfl, rfl,
    by decide +kernel, rfl, rfl, rfl, by decide +kernel, by decide +kernel, rfl, ⟨rfl, rfl, by decide +kernel, by decide +kernel, by decide +kernel⟩, ⟨_, rfl⟩, ⟨_, rfl⟩,
    by decide +kernel, rfl, rfl, by decide, by decide +kernel, rfl, rfl, rfl, by decide +kernel, by decide⟩

/-- A request to a berth's page through the aperture, and one to an offset that does not translate. -/
def requested (addr n : Nat) (data : List Byte) (flag : Bool) : State :=
  { called 0 [] with inp := { Input.none with addr := addr, num := n, data := data, flag := flag } }

/-- A write and a read of the last bytes of a line, of a poisoned one too; a piece behind an earlier one of its requester; granules
in use and not; completions of each status. -/
theorem witness_LinkTraffic :
    (let s := requested 0x7C 4 [1, 2, 3, 4] false
     s.Unfocused ∧ s.Canonical ∧ s.inp.addr % 128 + s.inp.data.length ≤ 128 ∧ (s.iod.waiting 0).length < 512
       ∧ s.aperture 0 Need.store 0x7C 4 = some (page 0x7C 4, 0) ∧ s.aperture 0 Need.read4 0x7C 4 = some (page 0x7C 4, 0)
       ∧ (s.iod.pieces.any fun q => q.req = 0) = false ∧ (∀ k ∈ page 0x7C 4, s.poisoned k = false)
       ∧ ({ s with ms := { s.ms with poison := [0x6007] } } : State).poisoned { space := .dram, addr := 0x6007C } = true)
    ∧ (requested 0x20000 4 [] false).aperture 0 Need.store 0x20000 4 = none
    ∧ (∃ p q : Piece, p.berth < 16 ∧ p.ro = false ∧ p.req = q.req ∧ q.seq < p.seq ∧ vget (quiet.berthAt p.berth).keys p.slot .empty = .active
        ∧ vget (quiet.berthAt q.berth).keys q.slot .empty ≠ .active)
    ∧ (∀ flag : Bool, ∃ s : State, s.Unfocused ∧ s.inp.flag = true
        ∧ (s.iod.hdm.find? fun h => decide (h.1 = s.inp.addr / 64 * 64 / 2 ^ 30)
            && decide (vget (s.berthAt h.2.1).keys h.2.2 .empty = .active)) = if flag then some (0, 0, 0) else none)
    ∧ (let s := requested 0x20000 0 [] false
       s.mgmt.melen = 0 ∧ ({ s.berthAt 0 with ready := false } : Berth).evheld.length < 4096)
    ∧ ∀ n < 3, (requested 0x7C n [1] false).inp.num = n := by
  refine ⟨⟨⟨rfl, rfl, rfl, rfl, rfl⟩, called_canonical _ _, by decide, by decide, rfl, rfl, rfl, by decide, rfl⟩, rfl, ?_, fun flag => ?_,
    ⟨rfl, by decide⟩, fun _ _ => rfl⟩
  · exact ⟨{ req := 0, seq := 1, ro := false, addr := 0, berth := 0, slot := 0, data := [] },
      { req := 0, seq := 0, ro := false, addr := 0, berth := 0, slot := 1, data := [] }, by decide, rfl, rfl, by decide, rfl, by decide⟩
  · cases flag
    · exact ⟨requested 0x3FFFFFC0 0 [] true, ⟨rfl, rfl, rfl, rfl, rfl⟩, rfl, rfl⟩
    · exact ⟨{ requested 0x3FFFFFC0 0 [] true with iod := { (requested 0 0 [] true).iod with hdm := [(0, 0, 0)] } }, ⟨rfl, rfl, rfl, rfl, rfl⟩, rfl, rfl⟩

/-- Link registers with the rings on and off; a range at its bounds; a heartbeat before and at the third miss; a call that
failover interrupts; a berth in use and not, after a fatal error and before; a window that is not reached yet. -/
theorem witness_LinkControl :
    (∀ (en : Word) lg, lg = 3 ∨ lg = 4 ∨ lg = 12 ∨ lg = 13 → ∃ (s : State) (q : BPark), s.Unfocused ∧ s.Canonical ∧ s.inp.flag = false
      ∧ s.mgmt.stage = 5 ∧ s.mgmt.fatal = false ∧ (s.iod.pieces.any fun p => p.req = s.inp.req) = false
      ∧ (s.berthAt 0).enable = en ∧ (s.berthAt 0).evheld = [] ∧ (s.berthAt 0).started = true ∧ (s.berthAt 0).crbase.toNat % 16 = lg
      ∧ q ∈ s.pop.bcores ∧ q.bcore.id = (s.berthAt 0).lead ∧ q.bcore.berth = 0 ∧ q.bcore.stopped = false)
    ∧ (∀ missed flag, ∃ s : State, s.Unfocused ∧ s.Canonical ∧ (s.berthAt 0).started = true ∧ (s.berthAt 0).stby = some 17
        ∧ (s.berthAt 0).missed = missed ∧ s.inp.flag = flag ∧ (s.berthAt 0).ready = false ∧ (s.berthAt 0).evheld.length < 4096)
    ∧ (let s := called 0 []
       callIs s (fun e => (entryWord e 0).toNat % 2 ^ 32 = 0) ∧ s.mgmt.melen = 0
         ∧ ({ s.berthAt 0 with evcount := 16 } : Berth).evhead.toNat + 2 ^ ((s.berthAt 0).bases.2.2.toNat % 16) ≤ 16)
    ∧ ((quiet.berthAt 0).used = false ∧ ((called 0 []).berthAt 0).used = true ∧ quiet.iod.msix = [])
    ∧ (∀ fatal, ({ called 0 [] with mgmt := { (called 0 []).mgmt with fatal := fatal } } : State).mgmt.fatal = fatal) ∧ (called 0 []).pilot.ringq = []
    ∧ ∃ s : State, s.Unfocused ∧ s.Canonical ∧ s.inp.flag2 = true ∧ s.mgmt.stage.toNat < 2 ∧ s.mgmt.fail = 0 := by
  refine ⟨fun en lg h => ?_, fun missed flag => ?_, ⟨by decide +kernel, rfl, by decide⟩, ⟨rfl, rfl, rfl⟩, fun _ => rfl, rfl,
    { quiet with mgmt := Mgmt.reset, inp := { Input.none with flag2 := true } }, quiet_unfocused, quiet_canonical, rfl, by decide, rfl⟩
  · refine ⟨{ called 0 [] with berths := vset quiet.berths 0 { quiet.berthAt 0 with
        started := true, enable := en, crbase := BitVec.ofNat 64 lg } }, { hart := Hart.reset, bcore := { BCore.reset 0 with lead := true } },
      ⟨rfl, rfl, rfl, rfl, rfl⟩, called_canonical 0 [], rfl, rfl, rfl, rfl, rfl, rfl, rfl, ?_, List.mem_singleton.2 rfl, rfl, rfl, rfl⟩
    rcases h with rfl | rfl | rfl | rfl <;> rfl
  · exact ⟨{ quiet with berths := vset quiet.berths 0 { quiet.berthAt 0 with started := true, stby := some 17, missed := missed }
                        inp := { Input.none with flag := flag } },
      quiet_unfocused, quiet_canonical, rfl, rfl, rfl, rfl, rfl, Nat.zero_lt_succ _⟩

/-- A management window with a command running at any stage; its registers at their bounds; a berth that is used and one that is not;
an address of the berth's channel groups and one beyond. -/
theorem witness_MgmtCommands :
    (∀ code stage, ∃ s : State, s.Unfocused ∧ s.Canonical ∧ s.mgmt.busy = true ∧ s.mgmt.cmd = code ∧ s.mgmt.stage = stage ∧ s.mgmt.fm.length = 32)
    ∧ (∃ s : State, s.Unfocused ∧ s.Canonical ∧ s.inp.flag = true ∧ s.mgmt.busy = false ∧ 2 ≤ s.mgmt.stage.toNat ∧ s.mgmt.melen = 0
        ∧ s.mgmt.held = [] ∧ s.inp.value.toNat % 2 ^ 16 = 3000)
    ∧ ((called 0 []).berthAt 0).used = true ∧ ((called 0 []).berthAt 15).used = false
    ∧ ((quiet.berthAt 0).ownsDram [] (5 * 2 ^ 30) = true ∧ (quiet.berthAt 0).ownsDram [] (6 * 2 ^ 30) = false) := by
  refine ⟨fun code stage => ?_, ?_, rfl, rfl, by decide, by decide⟩
  · exact ⟨{ quiet with mgmt := { quiet.mgmt with busy := true, cmd := code, stage := stage } }, quiet_unfocused, quiet_canonical, rfl, rfl, rfl, rfl⟩
  · exact ⟨{ quiet with inp := { Input.none with flag := true, value := 3000 } }, quiet_unfocused, quiet_canonical, rfl, rfl, by decide, rfl, rfl, rfl⟩

/-- Every stage before, at and after each image; a context that runs and one that does not; a Bridge core; an address in
the last channel group and the first beyond; a temperature at its limit and below. -/
theorem witness_PackageEvents :
    (∀ stage images flag, ∃ s : State, s.Unfocused ∧ s.Canonical ∧ s.mgmt.melen = 0 ∧ s.mgmt.held.length < 1024
      ∧ (∀ b < 16, (s.berthAt b).ready = false) ∧ s.ms.addrMap = [] ∧ s.mgmt.started = true ∧ s.mgmt.fail = 0 ∧ s.mgmt.fatal = false ∧ s.mgmt.stage = stage
      ∧ s.mgmt.images = images ∧ s.inp.flag = flag)
    ∧ (∀ status, ∃ s : State, s.Unfocused ∧ s.Canonical ∧ s.mgmt.melen = 0 ∧ s.inp.flag = true ∧ s.inp.num = 4
        ∧ s.pop.ctxAt s.inp.tag = some (context 0 status))
    ∧ (∃ s : State, s.Unfocused ∧ s.Canonical ∧ s.mgmt.melen = 0 ∧ s.inp.flag = true ∧ s.inp.num = 9 ∧ s.inp.job < 64
        ∧ s.pop.bcores.find? (fun q => q.bcore.id = s.inp.job) = some { hart := Hart.reset, bcore := BCore.reset 0 })
    ∧ ((384 * 2 ^ 30 - 1) / (6 * 2 ^ 30) < 64 ∧ ¬ (384 * 2 ^ 30 / (6 * 2 ^ 30) < 64)) := by
  have ready : ∀ b < 16, (quiet.berthAt b).ready = false := by decide
  refine ⟨fun stage images flag => ?_, fun status => ?_, ?_, by decide⟩
  · exact ⟨{ quiet with mgmt := { quiet.mgmt with stage := stage, images := images }, inp := { Input.none with flag := flag } },
      quiet_unfocused, quiet_canonical, rfl, Nat.zero_lt_succ _, ready, rfl, rfl, rfl, rfl, rfl, rfl, rfl⟩
  · exact ⟨{ quiet with pop := { quiet.pop with ctxs := [context 0 status] }, inp := { Input.none with flag := true, num := 4 } },
      quiet_unfocused, quiet_canonical, rfl, rfl, rfl, rfl⟩
  · exact ⟨{ quiet with pop := { quiet.pop with bcores := [{ hart := Hart.reset, bcore := BCore.reset 0 }] }
                        inp := { Input.none with flag := true, num := 9 } },
      quiet_unfocused, quiet_canonical, rfl, rfl, rfl, by decide, rfl⟩

/-! Witnesses of further clauses. -/

/-- A state whose strand has a copy of two elements in flight, to whose bytes its interlock entry belongs. -/
def copying (s : State) : State :=
  { s with strand := { s.strand with irt := [{ owner := 1, write := true, lo := 0x200, hi := 0x20F, known := true, bar := false }] }
           fabric := { s.fabric with jobs := [job (.copy 2 8 0x200 8 0x100 8 0) false none] } }

/-- A release, a fence, a cache operation over the copy's bytes and a vector atomic, each behind a copy. -/
theorem witness_Stalls :
    (let s := copying (withReg (withReg (strand 0x25) 2 0x200) 3 8)
     s.Canonical ∧ s.Ready [4, 2, 5] ∧ s.Ready [2, 3] ∧ s.priv = false ∧ (s.g 2).toNat % 8 = 0 ∧ s.g 3 ≠ 0
       ∧ ∃ q, s.strand.irt = [q] ∧ q.stops false (s.g 2).toNat (min ((s.g 2).toNat + (s.g 3).toNat - 1) (2 ^ 64 - 1)) = true
         ∧ s.fabric.jobAt q.owner = some (job (.copy 2 8 0x200 8 0x100 8 0) false none))
    ∧ (let s := copying (strip 0x0F 1)
       s.Canonical ∧ s.LentReady 0 [4] ∧ 0 < s.n ∧ s.n ≤ s.ty.vmax ∧ 8 ≤ s.ty.w ∧ s.ty.fmt = 15 ∧ s.strand.irt ≠ []
         ∧ (s.grp 4).disjoint { start := 6, size := 1 } = true ∧ ({ start := 4 + 1, size := 1 } : Grp).disjoint (s.grp 4) = true
         ∧ ({ start := 4 + 1, size := 1 } : Grp).disjoint { start := 6, size := 1 } = true) :=
  ⟨⟨strand_canonical, ⟨rfl, rfl⟩, ⟨rfl, rfl⟩, rfl, by decide, by decide, _, rfl, by decide, rfl⟩,
   strand_canonical, ⟨rfl, rfl, rfl, .inl rfl⟩, by decide, by decide, by decide, rfl, (fun h => nomatch h), rfl, rfl, rfl⟩

/-- Between two numbers of f16, and half its smallest number. -/
theorem witness_RoundingNearest : ∀ x : Nat × Int, x = (4097, -12) ∨ x = (1, -25) →
    (-1074 : Int) ≤ x.2 ∧ ∃ c v s k g, c < 2 ^ (ffOf 2).width ∧ decodeNum (ffOf 2) c = .fin s k g ∧ v = k * 2 ^ (g - (-1074)).toNat
      ∧ x.1 * 2 ^ (x.2 - (-1074)).toNat ≤ v := by
  rintro x (rfl | rfl) <;> exact ⟨by decide, 0x4400, 1024 * 2 ^ 1066, false, 1024, -8, by decide, rfl, by decide +kernel, by decide +kernel⟩

/-- Sums of f32, and of e5m2 in blocks of 32, without a NaN. -/
theorem witness_ReductionsTree : ∀ type : BitVec 12, type = 1 ∨ type = 0x604 →
    let s := strip type 2
    ¬ (s.ty.isInt = true ∧ s.ty.blk = 0) ∧ (∃ top, s.ty.vmax = 2 ^ top)
      ∧ (∀ i < s.n, (s.strand.value s.ty.fmt (s.strand.elem 8 s.ty.w i)).isNan = false ∧ (s.ty.blk ≠ 0 → s.strand.elem 5 8 (i / s.ty.blk) ≠ 255))
      ∧ ∀ x ∈ s.sumScales 4, x.disjoint (s.grp 8) = true ∧ x.disjoint { start := 2, size := 1 } = true := by
  rintro type (rfl | rfl) <;> refine ⟨by decide, ?_, fun i h => ?_, by decide⟩
  · exact ⟨9, rfl⟩
  · rcases below_two h with rfl | rfl <;> exact ⟨rfl, by decide⟩
  · exact ⟨11, rfl⟩
  · rcases below_two h with rfl | rfl <;> exact ⟨rfl, by decide⟩

/-- The strip of `stops` with a signalling NaN in the place of infinity; `ach` gives the segments. -/
def signals (e : Nat) (ach : BitVec 3) (n : Nat) : State :=
  let s := strip 1 n
  let st := { s.strand with vfcs := 0x1F0000, ach := ach }
  { s with strand := { st with v := vset st.v 2 (vset (vset (st.vreg 2) (4 * e + 2) 0xA0) (4 * e + 3) 0x7F) } }

/-- A signalling NaN in the leading element and in the second: in a fold, a conversion, a score, a weight and a value; no segment
in one element, and an element beyond one segment. -/
theorem witness_FurtherStops :
    (∀ e < 2, let s := signals e 0 4
      let X := fun (v : BitVec 5) i => decodeNum ffF32 (s.strand.elem v.toNat 32 i)
      let en := fcsEn s.strand.vfcs
      s.Groups 0 [] [] ∧ s.ty.isFloat = true ∧ s.ty.fmt = 1 ∧ e < s.n ∧ s.n % 2 ^ s.strand.ach.toNat = 0 ∧ s.ty.vmax / 2 ^ s.strand.ach.toNat ≤ 512
        ∧ (∀ j ≤ e, ((fpMinMax ffF32 true (decodeNum ffF32 0) (X 2 j)).fl &&& en = 0 ↔ j ≠ e)
            ∧ ((roundNum ffBf16 .rne (X 2 j)).fl &&& en = 0 ↔ j ≠ e) ∧ ((s.score 2 3 j).fl &&& en = 0 ↔ j ≠ e)
            ∧ ((fpFma ffF32 .rne false true (X 4 1) (X 2 j) (X 4 0)).fl &&& en = 0 ↔ j ≠ e)
            ∧ ((macc .rne (decodeNum ffF32 0) (X 4 j) (X 2 j)).fl &&& en = 0 ↔ j ≠ e)))
    ∧ (∀ n, n = 1 ∨ n = 3 → (signals 7 1 n).Groups 0 [] [] ∧ (signals 7 1 n).n % 2 ^ (signals 7 1 n).strand.ach.toNat ≠ 0
        ∧ (signals 7 1 n).ty.vmax / 2 ^ (signals 7 1 n).strand.ach.toNat ≤ 512 ∧ ∀ j < n / 2, ((signals 7 1 n).score 2 3 j).fl = 0)
    ∧ (let s := strip 1 4
       s.Groups 0 [] [] ∧ s.ty.w ≠ 0 ∧ fmtWidth 3 ≠ 0 ∧ (s.grp 2).disjoint { start := 8, size := ceilDiv (s.ty.g * 16) s.ty.w } = true) := by
  refine ⟨fun e h => ?_, fun n h => ?_, ⟨⟨rfl, rfl, rfl, .inl rfl⟩, by decide, by decide, rfl⟩, by decide, by decide, rfl⟩
  · rcases below_two h with rfl | rfl <;>
      exact ⟨⟨⟨rfl, rfl, rfl, .inl rfl⟩, by decide, by decide, rfl⟩, rfl, rfl, by decide, rfl, by decide, by decide +kernel⟩
  · rcases h with rfl | rfl <;>
      exact ⟨⟨⟨rfl, rfl, rfl, .inl rfl⟩, by decide, by decide, rfl⟩, by decide, by decide, by decide +kernel⟩

/-- A whole line of the page for a swatch. -/
theorem witness_Swatches :
    (let s := strip 1 32
     s.LentReady 0 [4, 0] ∧ s.hart.pfxs = 0 ∧ (s.g 4).toNat % 4 = 0 ∧ s.n = 32 ∧ s.ty.w = 32) := ⟨⟨rfl, rfl, rfl, .inl rfl⟩, rfl, by decide, rfl, rfl⟩

/-- A message of two elements in the drift queue, and a closed group. -/
theorem witness_TenderInstructionsDrift :
    (let u := tender 1
     let s := { u with berths := vset u.berths 0 { u.berthAt 0 with drift := [0], driftCap := 1, driftAt := 0x61000 } }
     let t := withBytes s [(0x1008, 8, 16)]
     (t.driftMsg 0 0).data.length = 16 ∧ envMatch 0 0xFFFFFFFF 0x3FF (t.driftMsg 0 0) = true ∧ t.strand.status = .running ∧ t.strand.core = t.core.id
       ∧ t.check t.aspace Need.store 0x100 8 = .ok (page 0x100 8))
    ∧ (let u := tender 1
       ({ u with fabric := u.fabric.putGroup { gid := 1, closed := true, first := none, members := [], areas := [] } } : State).fabric.groupAt 1).closed = true :=
  ⟨⟨by decide +kernel, by decide +kernel, rfl, rfl, rfl⟩, rfl⟩

/-- A context saved by SYNC, attached; its save area holds a delivered token. -/
theorem witness_BridgeReturn : ∃ (s : State) (c : Ctx), s.priv = true ∧ s.Ready [1, 2] ∧ s.bcore.att = true ∧ s.pop.ctxAt s.bcore.bctx = some c
    ∧ c.strand.status = .saved ∧ c.strand.late = [] ∧ (s.phys8 (c.strand.csav.toNat / 4096 * 4096 + 0xA20)).toNat / 2 ^ 8 % 2 ^ 8 = 2 :=
  ⟨let s := withBytes (serving .saved true [] 0) [(0xA20, 8, 0x205)]
   let c := context 0 .saved
   { s with pop := { s.pop with ctxs := [{ c with strand := { c.strand with csav := 0x60000 } }] } }, _, rfl, ⟨rfl, rfl⟩, rfl, rfl, rfl, rfl, by decide +kernel⟩

/-- A receive too short for its message; one whose second element may not land; a refused message that no port carries any more; a
group whose only member has no contribution outstanding; a tender that holds staged bytes of its block. -/
theorem witness_TenderEventsFurther :
    (∀ x : Nat × Nat × Nat, x = (0x200, 1, 4) ∨ x = (0xFFFC, 2, 4) →
      let r : Job := { id := 2, owner := 0, reg := 8, kind := .recv (BitVec.ofNat 64 x.1) x.2.1 x.2.2, entered := false, last := 0, parent := none, done := none, left := none }
      let s := working (sending 0) false none
      let u := { s with fabric := { s.fabric with jobs := s.fabric.jobs ++ [r] } }
      u.Unfocused ∧ u.Canonical ∧ u.fabric.jobAt 2 = some r ∧ u.pop.ctxAt r.owner = some worker
        ∧ (u.focus 0).check (aspaceOf 0 0 0x10000) Need.store (BitVec.ofNat 64 x.1) 4 = .ok (page x.1 4))
    ∧ (∃ st, (((working (sending 0) false none).focus 0).store none ((page 0xFFFC 4).zip (List.replicate 4 7))).check (aspaceOf 0 0 0x10000) Need.store
        (0xFFFC + BitVec.ofNat 64 (1 * 4)) 4 = .error st)
    ∧ (∃ m k, let s := working (sending 5) false none
       let u := { s with berths := vset s.berths 1 { s.berthAt 1 with refused := [m] } }
       u.Unfocused ∧ (u.berthAt 1).refused[0]? = some m ∧ m.job = some 1 ∧ sending 5 = .send 1 false k ∧ u.reaching 0 k.peer.toNat = false)
    ∧ (∃ a, let s := { quiet with fabric := quiet.fabric.putGroup { gid := 1, closed := false, first := some (0x0B, 0), members := [0], areas := [a] } }
       let v := s.viewCtx a.ctx
       s.Unfocused ∧ s.Canonical ∧ s.fabric.colls 1 = [] ∧ (s.fabric.groupAt 1).areas = [a]
         ∧ v.check v.aspace Need.store a.addr 128 = .ok (page 0x280 128))
    ∧ ({ TCore.reset 0 with staged := stagedAt 0x40 (List.replicate 8 1) } : TCore).stagedWords 0x40 [0x200, 8, 0, 0] = [0x0101010101010101, 8, 0, 0] := by
  refine ⟨fun x h => ?_, ⟨_, rfl⟩, ⟨{ ctx := 0, tag := 0, peer := 0, data := [], job := some 1 }, _, ⟨rfl, rfl, rfl, rfl, rfl⟩, rfl, rfl, rfl, rfl⟩,
    ⟨{ berth := 0, addr := 0x280, ctx := worker.remains }, ⟨rfl, rfl, rfl, rfl, rfl⟩, quiet_canonical, rfl, rfl, rfl⟩, by decide⟩
  rcases h with rfl | rfl <;> exact ⟨(working_fair (sending 0) false none).1, (working_fair (sending 0) false none).2, rfl, rfl, rfl⟩

/-- Stage 5 before a fatal error and after one, with and without a resource of another berth. -/
theorem witness_MgmtFurther :
    (∀ fatal, ({ quiet with mgmt := { quiet.mgmt with stage := 5, fatal := fatal } } : State).mgmt.fatal = fatal)
    ∧ (let s := { quiet with berths := vset quiet.berths 1 { quiet.berthAt 0 with used := true, bcores := 2 ^ 17 } }
       (s.berthAt 1).used = true ∧ (s.berthAt 1).bcores / 2 ^ 17 % 2 = 1 ∧ (s.berthAt 1).bcores / 2 ^ 16 % 2 = 0
         ∧ (s.berthAt 1).ownsDram s.ms.addrMap (5 * 2 ^ 30) = true ∧ (s.berthAt 1).ownsDram s.ms.addrMap (6 * 2 ^ 30) = false) :=
  ⟨fun _ => rfl, rfl, by decide, by decide, by decide, by decide⟩
/-! Single steps; the expected values are worked by hand from the rules that each comment names. -/

/-- A fact of the next state. -/
def after (i : Instr) (s : State) (p : State → Bool) : Bool :=
  match exec i s with
  | .next t => p t
  | _ => false

/-- Registers 1, 2 and 3 of a strand. -/
def regs (x y z : Word) : State := withReg (withReg (withReg (strand 0x25) 1 x) 2 y) 3 z

/-- The instruction leaves a value in g3. -/
def gives (i : Instr) (x y z r : Word) : Bool := after i (regs x y z) fun t => t.g 3 = r && t.hart.pc = 4

/-- R113: wrapping, signed and unsigned high products, shifts modulo 64. -/
theorem test_integer : gives (.add 3 1 2) (-1) 1 9 0 && gives (.sub 3 1 2) 0 1 9 (-1) && gives (.mulh 3 1 2) (-1) (-1) 9 0
    && gives (.mulhn 3 1 2) (-1) (-1) 9 (-2) && gives (.sra 3 1 2) (-8) 65 9 (-4) && gives (.shl 3 1 2) 1 64 9 1
    && gives (.slt 3 1 2) (-1) 0 9 1 && gives (.sltn 3 1 2) (-1) 0 9 0 && gives (.clz 3 1) 0 0 9 64 && gives (.ctz 3 1) 8 0 9 3
    && gives (.sel 3 1 2) 5 6 0 6 && gives (.sel 3 1 2) 5 6 7 5 := by decide +kernel

/-- R114: division by zero and the most negative number by -1. -/
theorem test_divide : gives (.div 3 1 2) 7 0 9 (-1) && gives (.rem 3 1 2) 7 0 9 7
    && gives (.div 3 1 2) 0x8000000000000000 (-1) 9 0x8000000000000000 && gives (.rem 3 1 2) 0x8000000000000000 (-1) 9 0
    && gives (.div 3 1 2) (-7) 2 9 (-3) && gives (.rem 3 1 2) (-7) 2 9 (-1) := by decide +kernel

/-- R107: g0 is not written. R115: immediates are sign-extended, and ldhi shifts by 13. -/
theorem test_immediates : gives (.addi 3 1 0x1FF8) 8 0 9 0 && gives (.slti 3 1 0x1FFF) (-2) 0 9 1 && gives (.ldhi 3 1) 0 0 9 0x2000
    && gives (.ldhi 3 0x7FFFF) 0 0 9 0xFFFFFFFFFFFFE000 && after (.addi 0 1 5) (regs 1 0 0) (fun t => t.g 0 = 0) := by decide +kernel

/-- R116: an i8 load extends its sign and an n8 load does not; a store writes the low bytes alone. -/
theorem test_scalar_memory :
    after (.ldsI 0 3 1 0) (withBytes (regs 0x100 0 0) [(0x100, 1, 0x80)]) (fun t => t.g 3 = 0xFFFFFFFFFFFFFF80)
    && after (.ldsN 0 3 1 0) (withBytes (regs 0x100 0 0) [(0x100, 1, 0x80)]) (fun t => t.g 3 = 0x80)
    && after (.sts 1 2 1 0x3FF) (regs 0x102 0x11223344 0) (fun t => t.bytes (page 0x100 4) = [0x44, 0x33, 0, 0]) := by decide +kernel

/-- R118: the old word, sign-extended at 32 bits; a compare that fails writes nothing. -/
theorem test_atomics :
    after (.amoAdd 1 0 0 3 1) (withBytes (regs 0x100 0 1) [(0x100, 4, 0xFFFFFFFF)])
      (fun t => t.g 3 = -1 && t.bytes (page 0x100 5) = [0, 0, 0, 0, 0])
    && after (.amoCas 0 0 0 2 1) (withBytes (regs 0x100 6 9) [(0x100, 8, 5)]) (fun t => t.g 2 = 5 && t.bytes (page 0x100 1) = [5])
    && after (.amoCas 0 0 0 2 1) (withBytes (regs 0x100 5 9) [(0x100, 8, 5)]) (fun t => t.g 2 = 5 && t.bytes (page 0x100 1) = [9]) := by
  decide +kernel

/-- R120: a branch counts parcels from itself; jr reads its target before it writes the link. -/
theorem test_branches : after (.bz 1 1 0xFFFE) (regs 1 0 0) (fun t => t.hart.pc = -4) && after (.bz 0 1 0xFFFE) (regs 1 0 0) (fun t => t.hart.pc = 4)
    && after (.jal 0x100) (regs 0 0 0) (fun t => t.hart.pc = 0x200 && t.g 63 = 4)
    && after (.jr 1 1 0x10) (regs 0x1000 0 0) (fun t => t.hart.pc = 0x1010 && t.g 1 = 4) := by decide +kernel

/-- R123, R124: 1 + 1, 1 / 0 with its flag, the quiet NaN of 0 × ∞. -/
theorem test_scalar_floats : gives (.fadd 0 0 3 1 2) 0x3FF0000000000000 0x3FF0000000000000 9 0x4000000000000000
    && gives (.fdiv 0 0 3 1 2) 0x3FF0000000000000 0 9 0x7FF0000000000000 && gives (.fmul 1 0 3 1 2) 0 0x7F800000 9 0x7FC00000
    && gives (.fcvtToInt 0 0 1 3 1) 0xC004000000000000 0 9 (-2) && gives (.fcmpLt 0 3 1 2) 0x8000000000000000 0 9 0 := by decide +kernel

/-- R20, R21: i32 in groups of two registers: at most 1,024 elements. -/
theorem test_setvl : after (.setvl 0 0 0 1 0x0A 3 1) (regs 2000 0 0) (fun t => t.g 3 = 1024 && t.strand.mgs = 1024)
    && after (.setvl 0 0 0 1 0x0A 3 1) (regs 1000 0 0) (fun t => t.g 3 = 1000) := by decide +kernel

/-- A strip of four i32 elements: v1 holds 0, 1, 2, 3 and v2 holds 3, 2, 1, 0. -/
def quads : State :=
  let s := strip 0x0A 4
  let st := s.strand
  let put := fun (r : VReg) (l : List Byte) => (l.mapIdx fun i x => (i, x)).foldl (fun r x => vset r (4 * x.1) x.2) r
  { s with strand := { st with v := vset (vset st.v 1 (put (st.vreg 1) [0, 1, 2, 3])) 2 (put (st.vreg 2) [3, 2, 1, 0]) } }

/-- The first four elements of v3. -/
def quad (t : State) : List Nat := (List.range 4).map fun i => t.strand.elem 3 32 i

/-- R162, R208 to R210, R206: elementwise, permuted and scanned. -/
theorem test_vectors : after (.vsub 0 3 1 2) quads (fun t => quad t = [0xFFFFFFFD, 0xFFFFFFFF, 1, 3] && t.strand.mg = 4)
    && after (.vfma 0 3 1 2) quads (fun t => quad t = [0, 2, 2, 0]) && after (.vperm 0 3 1 2) quads (fun t => quad t = [3, 2, 1, 0])
    && after (.vzip 0 3 1 2) quads (fun t => quad t = [0, 3, 1, 2]) && after (.vslup 0 3 1 4) (withReg quads 4 2) (fun t => quad t = [0, 0, 0, 1])
    && after (.vscanAdd 0 3 1 5) quads (fun t => quad t = [0, 1, 3, 6] && t.strand.elem 5 32 0 = 6)
    && after (.vrsum 0 5 1 6) quads (fun t => t.strand.elem 5 64 0 = 6) && after (.vcmpLt 0 1 1 2) quads (fun t =>
        (List.range 4).map (t.strand.mbit 1) = [true, true, false, false]) := by decide +kernel

/-- R295: the table's gang of sixteen strands with GC = 4. -/
theorem test_mgang : ∀ x ∈ [(0, 0x0000000000000000), (6, 0x0000004000000100), (15, 0x000000C000000180)],
    after (.mgang 0 3 1) (let s := withReg (strip 1 64) 1 4
      { s with strand := { s.strand with sid := BitVec.ofNat 64 x.1 } }) (fun t => t.g 3 = BitVec.ofNat 64 x.2) = true := by decide +kernel

/-- R310: two keys, one of them twice. -/
theorem test_gins : after (.gins 0 3 1) (let s := strip 0x0B 3
      { s with strand := { s.strand with v := vset s.strand.v 1 (vset (vset (vset (s.strand.vreg 1) 0 5) 8 6) 16 5) } })
    (fun t => (List.range 3).map (fun i => t.strand.elem 3 64 i) = [0, 1, 0] && t.strand.gents = [(5, 0), (6, 0)]) := by decide +kernel

/-- R112, R136: svc 3 halts the strand with cause 7 and goes on behind it; a trap at TVEC saves the pc. -/
theorem test_traps : after .svcRelease (regs 0 0 0) (fun t => t.strand.status = .trapped && t.strand.ccause = 7 && t.strand.ctval = 3
      && t.strand.cpc = 4 && vget (t.berthAt 0).trapq 0 [] = [0])
    && after .halt (let s := regs 0 0 0
        { s with strand := { s.strand with tvec := 0x800 } }) (fun t => t.hart.pc = 0x800 && t.strand.tcause = 0x601 && t.strand.tpc = 0
          && t.strand.inh && t.strand.tval = 0x3A5) := by decide +kernel

/-- R328: status 0, and 2 for a misaligned record. -/
theorem test_launch : after (.launch 3 4) (launcher 1 0) (fun t => t.g 3 = 0 && t.pilot.launches.length = 1)
    && after (.launch 3 4) (withReg (launcher 1 0) 4 0x48) (fun t => t.g 3 = 2) := by decide +kernel

/-- R427, R428: dies that end their training give stage 3 when all four have; a die that fails gives FAIL 3. -/
theorem test_start : after .dramTrainingDone { State.reset with mgmt := { Mgmt.reset with started := true, stage := 2, drdy := 14 } }
      (fun t => t.mgmt.stage = 3 && t.mgmt.drdy = 15)
    && after .dramTrainingDone { State.reset with
          mgmt := { Mgmt.reset with started := true, stage := 2, drdy := 14 }, inp := { Input.none with flag := true } }
        (fun t => t.mgmt.stage = 2 && t.mgmt.fail = 3) := by decide +kernel

/-- R353: a tender runs the instruction at its pc, here addi a0, a0, 1 of RV64I. -/
theorem test_tender : (match step (let s := commanded 0x100 true false
      let k := { TCore.reset 0 with cmd := some 1, sram := [(0, 0x13), (1, 0x05), (2, 0x15)] }
      { s with turns := [.tender 0], pop := { s.pop with tenders := [k] }, mgmt := { s.mgmt with stage := 5 } }) with
    | .next t => (t.pop.tenderAt 0).get 10 = 1 && (t.pop.tenderAt 0).pc = 4
    | _ => false) = true := by decide +kernel

/-- A step fetches and runs the word at the pc (R55). -/
theorem test_step : (match step (withReg (strand 0xFFC08205) 4 20) with
    | .next t => t.g 4 = 12 && t.hart.pc = 4 && t.hart.lastd = 4
    | _ => false) = true := by decide +kernel

end Sys2Proof.Tests
end

section
/-!
PROOFS. The register-register integer instructions (R113, R114): what the extremes, comparisons and counting functions
return, and that each instruction writes that value and retires.
-/
namespace Sys2Proof.Machine

/-! Extremes. The model decides by `<` and the obligation by `≤`: they differ where the operands are equal, and there both
give the one word. -/

theorem minS_eq (a b : Word) : minS a b = if a.toInt ≤ b.toInt then a else b := by
  rcases Int.lt_trichotomy a.toInt b.toInt with h | h | h
  · rw [minS, if_pos h, if_pos (Int.le_of_lt h)]
  · rw [minS, BitVec.eq_of_toInt_eq h, ite_self, ite_self]
  · rw [minS, if_neg (Int.lt_asymm h), if_neg (Int.not_le.2 h)]

theorem maxS_eq (a b : Word) : maxS a b = if a.toInt ≤ b.toInt then b else a := by
  rcases Int.lt_trichotomy a.toInt b.toInt with h | h | h
  · rw [maxS, if_pos h, if_pos (Int.le_of_lt h)]
  · rw [maxS, BitVec.eq_of_toInt_eq h, ite_self, ite_self]
  · rw [maxS, if_neg (Int.lt_asymm h), if_neg (Int.not_le.2 h)]

theorem minN_eq (a b : Word) : minN a b = if a.toNat ≤ b.toNat then a else b := by
  rcases Nat.lt_trichotomy a.toNat b.toNat with h | h | h
  · rw [minN, if_pos h, if_pos (Nat.le_of_lt h)]
  · rw [minN, BitVec.eq_of_toNat_eq h, ite_self, ite_self]
  · rw [minN, if_neg (Nat.lt_asymm h), if_neg (Nat.not_le.2 h)]

theorem maxN_eq (a b : Word) : maxN a b = if a.toNat ≤ b.toNat then b else a := by
  rcases Nat.lt_trichotomy a.toNat b.toNat with h | h | h
  · rw [maxN, if_pos h, if_pos (Nat.le_of_lt h)]
  · rw [maxN, BitVec.eq_of_toNat_eq h, ite_self, ite_self]
  · rw [maxN, if_neg (Nat.lt_asymm h), if_neg (Nat.not_le.2 h)]

/-! Comparisons. -/

theorem sltS_eq (a b : Word) : sltS a b = if a.toInt < b.toInt then 1 else 0 := by
  simp only [sltS, flagWord, decide_eq_true_eq]

theorem sltN_eq (a b : Word) : sltN a b = if a.toNat < b.toNat then 1 else 0 := by
  simp only [sltN, flagWord, decide_eq_true_eq]

/-! Leading zeros: `bitLen` is the length of a number in binary. -/

theorem lt_two_pow_bitLen (m : Nat) : m < 2 ^ bitLen m := by
  unfold bitLen
  split
  · omega
  · exact Nat.lt_log2_self

theorem two_pow_pred_bitLen_le {m : Nat} (h : 0 < bitLen m) : 2 ^ (bitLen m - 1) ≤ m := by
  have hm : m ≠ 0 := fun e => by simp [bitLen, e] at h
  simpa [bitLen, hm] using Nat.log2_self_le hm

theorem bitLen_le_of_lt {m k : Nat} (h : m < 2 ^ k) : bitLen m ≤ k := by
  unfold bitLen
  split
  · exact k.zero_le
  · next hm => exact (Nat.log2_lt hm).2 h

/-! Trailing zeros. -/

theorem bitAt_eq_testBit (x i : Nat) : bitAt x i = x.testBit i := by
  rw [bitAt, Nat.testBit_eq_decide_div_mod_eq]

theorem ctzFrom_le (x n i : Nat) : ctzFrom x n i ≤ i + n := by
  induction n generalizing i with
  | zero => exact i.le_refl
  | succ n ih =>
    unfold ctzFrom
    split
    · omega
    · have := ih (i + 1)
      omega

/-- The bits below the count are all 0: each bit passed over extends the run of zeros below it. -/
theorem mod_two_pow_ctzFrom {x i : Nat} (n : Nat) (h : x % 2 ^ i = 0) : x % 2 ^ ctzFrom x n i = 0 := by
  induction n generalizing i with
  | zero => exact h
  | succ n ih =>
    unfold ctzFrom
    split
    · exact h
    · next hb =>
      have hbit : x / 2 ^ i % 2 = 0 := by simpa [bitAt] using hb
      exact ih (by rw [Nat.mod_pow_succ, h, hbit, Nat.mul_zero])

/-- The count stops early at a 1 bit only. -/
theorem testBit_ctzFrom {x n i : Nat} (h : ctzFrom x n i < i + n) : x.testBit (ctzFrom x n i) = true := by
  induction n generalizing i with
  | zero => exact absurd h (Nat.lt_irrefl i)
  | succ n ih =>
    unfold ctzFrom at h ⊢
    split
    · next hb => rwa [bitAt_eq_testBit] at hb
    · next hb =>
      rw [if_neg hb] at h
      exact ih (by omega)

/-! Ones. -/

theorem buildFrom_eq_map {α : Type} (f : Nat → α) (n i : Nat) : buildFrom f n i = (List.range' i n).map f := by
  induction n generalizing i with
  | zero => rfl
  | succ n ih => rw [buildFrom, ih, List.range'_succ, List.map_cons]

theorem sum_map_boolToNat (p : Nat → Bool) (l : List Nat) : (l.map fun i => if p i then 1 else 0).sum = l.countP p := by
  induction l with
  | nil => rfl
  | cons i l ih => rw [List.map_cons, List.sum_cons, ih, List.countP_cons, Nat.add_comm]

theorem popcW_eq (a : Word) : popcW a = BitVec.ofNat 64 ((List.range 64).countP fun i => a.getLsbD i) := by
  rw [popcW, buildFrom_eq_map, ← List.sum_eq_foldl_nat, sum_map_boolToNat, List.range_eq_range']
  congr 1
  exact List.countP_congr fun i _ => by rw [bitAt_eq_testBit, BitVec.testBit_toNat]

/-! The instructions. -/

/-- An instruction whose meaning is a scalar result, ready to issue, writes that result and retires. -/
theorem exec_wrote_of_alu {s : State} {i : Instr} {d : BitVec 6} {regs : List (BitVec 6)} {x r : Word}
    (h : s.Ready (d :: regs)) (he : exec i s = s.alu i d regs x) (hx : x = r) :
    ∃ t, exec i s = .next t ∧ Wrote s t d r 4 := by
  rw [he, hx]
  exact State.alu_wrote h i r

/-- clz, by what it counts: the operand is below 2^(64 − n), and no lower power of two bounds it. -/
theorem exec_clz {s : State} {d a : BitVec 6} (h : s.Ready [d, a]) :
    ∃ n, (n ≤ 64 ∧ ∃ t, exec (.clz d a) s = .next t ∧ Wrote s t d (BitVec.ofNat 64 n) 4)
      ∧ (s.g a).toNat < 2 ^ (64 - n) ∧ (n < 64 → 2 ^ (63 - n) ≤ (s.g a).toNat) := by
  have hlen : bitLen (s.g a).toNat ≤ 64 := bitLen_le_of_lt (s.g a).isLt
  refine ⟨64 - bitLen (s.g a).toNat, ⟨Nat.sub_le .., exec_wrote_of_alu h rfl rfl⟩, ?_, fun hn => ?_⟩
  · rw [Nat.sub_sub_self hlen]
    exact lt_two_pow_bitLen _
  · rw [show 63 - (64 - bitLen (s.g a).toNat) = bitLen (s.g a).toNat - 1 by omega]
    exact two_pow_pred_bitLen_le (by omega)

/-- ctz, by what it counts: 2^n divides the operand, and bit n is 1 unless all bits are 0. -/
theorem exec_ctz {s : State} {d a : BitVec 6} (h : s.Ready [d, a]) :
    ∃ n, (n ≤ 64 ∧ ∃ t, exec (.ctz d a) s = .next t ∧ Wrote s t d (BitVec.ofNat 64 n) 4)
      ∧ (s.g a).toNat % 2 ^ n = 0 ∧ (n < 64 → (s.g a).getLsbD n = true) := by
  refine ⟨ctzFrom (s.g a).toNat 64 0, ⟨?_, exec_wrote_of_alu h rfl rfl⟩, mod_two_pow_ctzFrom 64 (Nat.mod_one _), fun hn => ?_⟩
  · simpa using ctzFrom_le (s.g a).toNat 64 0
  · rw [← BitVec.testBit_toNat]
    exact testBit_ctzFrom (by simpa using hn)

/-- popc counts the 1 bits. -/
theorem exec_popc {s : State} {d a : BitVec 6} (h : s.Ready [d, a]) :
    ((List.range 64).countP fun i => (s.g a).getLsbD i) ≤ 64
      ∧ ∃ t, exec (.popc d a) s = .next t
        ∧ Wrote s t d (BitVec.ofNat 64 ((List.range 64).countP fun i => (s.g a).getLsbD i)) 4 :=
  ⟨Nat.le_trans List.countP_le_length (Nat.le_of_eq List.length_range), exec_wrote_of_alu h rfl (popcW_eq _)⟩

/-- Settles O8: each register-register form is a scalar result of the model, and the lemmas above give its value. -/
theorem integerResults : Obligations.IntegerResults := by
  unfold Obligations.IntegerResults
  refine ⟨fun s d a b h => ?_, fun s d a h => ⟨exec_clz h, exec_ctz h, exec_popc h⟩⟩
  have writes {i : Instr} {r : Word} (he : exec i s = s.alu i d [a, b] r) := exec_wrote_of_alu h he rfl
  exact ⟨
    -- add, sub, and, or, xor
    writes rfl, writes rfl, writes rfl, writes rfl, writes rfl,
    -- shl, shr, sra
    writes rfl, writes rfl, writes rfl,
    -- mul, mulh, mulhn
    writes rfl, writes rfl, writes rfl,
    -- div, divn, rem, remn
    writes rfl, writes rfl, writes rfl, writes rfl,
    -- min, max, minn, maxn
    exec_wrote_of_alu h rfl (minS_eq _ _), exec_wrote_of_alu h rfl (maxS_eq _ _),
    exec_wrote_of_alu h rfl (minN_eq _ _), exec_wrote_of_alu h rfl (maxN_eq _ _),
    -- slt, sltn
    exec_wrote_of_alu h rfl (sltS_eq _ _), exec_wrote_of_alu h rfl (sltN_eq _ _),
    -- sel
    exec_wrote_of_alu h rfl (ite_not ..)⟩

end Sys2Proof.Machine
end

section
/-!
PROOFS. Select, move, broadcast, index and draw (R184 to R187, R194): what each leaves in its destination group, and the
swatches that a move and a broadcast leave on its members (R299).
-/
namespace Sys2Proof.Machine

/-! Issue under a mask that may be lent. -/

/-- What may issue with a list of registers may issue with a part of it. -/
theorem State.LentReady.mono {s : State} {m : BitVec 3} {rs rs' : List (BitVec 6)} (h : s.LentReady m rs)
    (hs : ∀ r ∈ rs', r ∈ rs) : s.LentReady m rs' := by
  obtain ⟨hp, ht, hc, hl⟩ := h
  exact ⟨hp, State.pendingOn_mono ht hs, hc, hl⟩

theorem field_eq_zero (m : BitVec 3) : m.toNat = 0 ↔ m = 0 := by
  rw [BitVec.toNat_eq]
  rfl

/-- The fields of the word that lends mask `k` or its complement (R64). -/
theorem lentWord_fields : ∀ k < 8, ∀ neg < 2, BitVec.ofNat 32 (0x27 + 2 ^ 9 * neg + 2 ^ 10 * k) ≠ 0
    ∧ (BitVec.ofNat 32 (0x27 + 2 ^ 9 * neg + 2 ^ 10 * k)).toNat / 2 ^ 10 % 8 = k
    ∧ (BitVec.ofNat 32 (0x27 + 2 ^ 9 * neg + 2 ^ 10 * k)).getLsbD 9 = decide (neg = 1) := by decide

/-- A vector instruction whose own checks pass does what its effect does under the loan: that makes active what the mask field
or the lent mask selects, and leaves the instruction unmasked just where the field is 0 and nothing is lent. -/
theorem State.vector_next {s : State} {i : Instr} {m : BitVec 3} {f : VForm} {body : Loan → Option Nat → Out} {Q : State → Prop}
    (h : s.LentReady m f.regs) (hl : f.loanable = true) (hf : f.field = m.toNat)
    (hbody : ∀ loan, s.strand.active m.toNat loan = s.act m → (unmasked m.toNat loan = true ↔ m = 0 ∧ s.hart.pfxs = 0) →
      ∃ t, body loan none = .next t ∧ Q t) :
    ∃ t, s.vector i true f body = .next t ∧ Q t := by
  obtain ⟨hp, ht, hc, h0 | ⟨rfl, k, neg, hk, hn, hw⟩⟩ := h
  · rw [State.vector_run ⟨⟨hp, h0, ht⟩, hc⟩ body]
    refine hbody .none (funext fun e => ?_) (by simp [unmasked, h0, field_eq_zero])
    by_cases hm : m = 0 <;> simp [Strand.active, State.act, field_eq_zero, hm, h0]
  · obtain ⟨hne, hpred, hneg⟩ := lentWord_fields k hk neg hn
    have hloan := loanOf_lent k hk neg hn
    rw [← hw] at hne hpred hneg hloan
    have hrun : s.vector i true f body = body (.mask k (neg = 1) none) none := by
      simp [State.vector, vectorPairing, copyGroupOk, State.await_none ht, hp, hloan, hl, hf]
    rw [hrun]
    refine hbody _ (funext fun e => ?_) (by simpa [unmasked] using hne)
    simp only [Strand.active, State.act, hne, hpred, hneg]
    simp

/-! No exceptions. -/

theorem noTrap_zero (s : State) (act : Nat → Bool) : s.NoTrap act fun _ => 0 := fun _ _ _ => BitVec.zero_and

theorem activeFlags_zero (act : Nat → Bool) (n : Nat) : activeFlags act (fun _ => 0) n = 0 := by
  have none_up_to : ∀ k i, flagsUpTo (fun e => if act e then (0 : Flags) else 0) k i = 0 := by
    intro k
    induction k with
    | zero => exact fun _ => rfl
    | succ k ih => exact fun i => by rw [flagsUpTo, ih (i + 1), ite_self, BitVec.or_self]
  exact none_up_to n 0

theorem State.orFlags_zero (s : State) : s.orFlags 0 = s := by simp [State.orFlags, State.setStrand, fcsOr]

/-! Swatches of a group's members. -/

/-- A pass over the first `n` members of a group that gives each a swatch of code `c` leaves that code on every one of them,
and every other register its own. -/
theorem swatches_of_members {α : Type} {f : α → Nat → α} {sw : α → Vector Swatch 32} {d : Nat} {c : BitVec 10} {len : Nat → Nat}
    (hf : ∀ x j, sw (f x j) = vset (sw x) ((d + j) % 32) { code := c, len := len j }) (x : α) (n : Nat) :
    let sw' := sw ((buildFrom id n 0).foldl f x)
    (∀ j < n, (vget sw' ((d + j) % 32) Swatch.creation).code = c)
      ∧ ∀ r, (∀ j < n, (d + j) % 32 ≠ r) → vget sw' r Swatch.creation = vget (sw x) r Swatch.creation := by
  induction n with
  | zero => exact ⟨fun j hj => absurd hj (Nat.not_lt_zero j), fun _ _ => rfl⟩
  | succ n ih =>
    obtain ⟨members, others⟩ := ih
    simp only [buildFrom_id_snoc, List.foldl_append, List.foldl_cons, List.foldl_nil, Nat.zero_add, hf]
    refine ⟨fun j hj => ?_, fun r hr => ?_⟩
    · by_cases e : (d + j) % 32 = (d + n) % 32
      · rw [e, vget_vset_same _ _ _ (Nat.mod_lt _ (by decide))]
      · rw [vget_vset_other _ _ _ e]
        have hne : j ≠ n := fun h => e (by rw [h])
        exact members j (by omega)
    · rw [vget_vset_other _ _ _ (hr n n.lt_succ_self).symm]
      exact others r fun j hj => hr j (by omega)

/-- A destination group written has general swatches (R299). -/
theorem State.swOf_writeGroup (s : State) (use : Nat) (x : Dest) {j : Nat} (hj : j < x.size) :
    (s.writeGroup use x).swOf (x.d + j) = 0 := by
  unfold State.swOf State.writeGroup
  simp only [State.setStrand_strand]
  rw [(swatches_of_members (sw := Strand.sw) (c := 0) (len := fun _ => 0) (fun _ _ => rfl) s.strand x.size).1 j hj]
  rfl

/-- The swatches after one is set on each member of a group. -/
theorem State.groupSw_swatches (s : State) (g : Grp) (c : BitVec 10) (w n : Nat) :
    let t := s.groupSw g c w n
    (∀ j < g.size, (vget t.strand.sw ((g.start + j) % 32) Swatch.creation).code = c)
      ∧ ∀ r, (∀ j < g.size, (g.start + j) % 32 ≠ r) → vget t.strand.sw r Swatch.creation = vget s.strand.sw r Swatch.creation :=
  swatches_of_members (f := fun (t : State) j => t.setSw (g.start + j) c (coverOf w n j)) (sw := fun t : State => t.strand.sw)
    (d := g.start) (c := c) (len := coverOf w n) (fun _ _ => rfl) s g.size

theorem State.swOf_groupSw (s : State) (g : Grp) (c : BitVec 10) (w n : Nat) {j : Nat} (hj : j < g.size) :
    (s.groupSw g c w n).swOf (g.start + j) = c.toNat := by
  unfold State.swOf
  rw [(s.groupSw_swatches g c w n).1 j hj]

/-- A swatch set on each member of a group changes swatches only. -/
theorem State.groupSw_eq (s : State) (g : Grp) (c : BitVec 10) (w n : Nat) :
    s.groupSw g c w n = s.setStrand { s.strand with sw := (s.groupSw g c w n).strand.sw } := by
  have fold : ∀ (js : List Nat) (u : State), u = s.setStrand { s.strand with sw := u.strand.sw } →
      let t := js.foldl (fun t j => t.setSw (g.start + j) c (coverOf w n j)) u
      t = s.setStrand { s.strand with sw := t.strand.sw } := by
    intro js
    induction js with
    | nil => exact fun _ hu => hu
    | cons j js ih => exact fun u hu => ih _ (by rw [hu]; rfl)
  exact fold _ s rfl

/-- Swatches set on a group that an instruction writes are part of what it writes. -/
theorem State.groupSw_keeps {s u : State} {g : Grp} {w n : Nat} {act : Nat → Bool} {res : Nat → Nat} (c : BitVec 10)
    (hu : u = s.withVec u) (he : Elements s u g w n act res) (ht : Tides s u g w n) (ho : OtherRegs s u g) :
    let t := u.groupSw g c w n
    t = s.withVec t ∧ Elements s t g w n act res ∧ Tides s t g w n ∧ OtherRegs s t g := by
  intro t
  have ht' : t = u.setStrand { u.strand with sw := t.strand.sw } := u.groupSw_eq g c w n
  obtain ⟨-, others⟩ := u.groupSw_swatches g c w n
  have hv : t.strand.v = u.strand.v := by rw [ht']; rfl
  have htide : t.strand.tide = u.strand.tide := by rw [ht']; rfl
  refine ⟨by rw [ht', hu]; rfl, he.congr hv, ht.congr htide, fun r hr hn => ?_⟩
  obtain ⟨image, tide, swatch⟩ := ho r hr hn
  have hsw : vget t.strand.sw r Swatch.creation = vget u.strand.sw r Swatch.creation := others r fun j hj e => hn ⟨j, hj, e⟩
  exact ⟨by rw [← image]; simp only [Strand.vreg, hv], by rw [htide, tide], by rw [hsw, swatch]⟩

/-- The counts and the retirement keep the swatches that an instruction committed. -/
theorem State.swOf_counted {s u : State} (hc : s.strand.cutReq = none) (hu : u = s.withVec u) (fl : Flags) (r : Nat) :
    (((u.orFlags fl).madeGood s.n 0 0).retire 4).swOf r = u.swOf r := by
  obtain ⟨-, -, -, hsw, -⟩ := counted_retire hc hu fl
  simp only [State.swOf, hsw]

/-- A whole instruction that commits a destination group without exceptions: what it wrote, and the swatches that it committed. -/
theorem State.finish_wrote {s u : State} {g : Grp} {w : Nat} {act : Nat → Bool} {res : Nat → Nat} {cuts : Cuts} {commit : Nat → State}
    (hc : s.strand.cutReq = none) (hcommit : commit s.n = u)
    (hu : u = s.withVec u ∧ Elements s u g w s.n act res ∧ Tides s u g w s.n ∧ OtherRegs s u g) :
    ∃ t, s.finish s.n cuts none commit = .next t ∧ VecWrote s t g w act res 0 ∧ ∀ r, t.swOf r = u.swOf r := by
  obtain ⟨hvec, helems, htides, hothers⟩ := hu
  have huncut : (commit s.n).strand.cutReq = none := by
    rw [hcommit, hvec]
    exact hc
  rw [State.finish_run hc cuts commit huncut, hcommit, ← u.orFlags_zero]
  refine ⟨_, rfl, vecWrote_retire hc hvec helems htides hothers 0, fun r => ?_⟩
  rw [State.swOf_counted hc hvec, State.orFlags_zero]

/-- An elementwise instruction without exceptions leaves the general swatch on every member of its destination. -/
theorem State.elements_swOf {s t : State} {g : Grp} {w : Nat} {act : Nat → Bool} {res : Nat → Nat} (hn : 0 < s.n)
    (hc : s.strand.cutReq = none) (hw : Width w) (hs : g.size ≤ 32)
    (h : s.elements g w act none (fun e => .pure (res e)) = .next t) {j : Nat} (hj : j < g.size) : t.swOf (g.start + j) = 0 := by
  obtain ⟨hvec, -⟩ := writeGroup_whole s 10 g act res hw hs
  unfold State.elements at h
  simp only [Nat.ne_of_gt hn, if_false, FRes.pure, State.arithStop_none (noTrap_zero s act), State.writeDest] at h
  rw [State.finish_run hc _ _ (by rw [hvec]; exact hc)] at h
  cases h
  rw [State.swOf_counted hc hvec]
  exact s.swOf_writeGroup 10 (s.dest g w s.n s.n act res) hj

/-! The swatch of a broadcast code. -/

/-- A constant swatch at position 0: its kind in the low bits, its finite bit above them (R297). -/
theorem mkSwatch_toNat (fin : Bool) {kind : Nat} (h : kind ≤ 4) :
    (mkSwatch fin 0 kind).toNat = kind + if fin = true then 512 else 0 := by
  unfold mkSwatch
  rw [BitVec.toNat_ofNat]
  cases fin
  · simp only [Bool.false_eq_true, if_false]
    omega
  · simp only [if_true]
    omega

/-- The model's swatch of a broadcast is the one that R186 and R297 give the code. -/
theorem brdSwatch_toNat {w : Nat} (hw : Width w) (c : Nat) : (brdSwatch w c).toNat = constantSwatch w c := by
  unfold brdSwatch constantSwatch
  by_cases hc : c = 0
  · simp [hc, swatchZero]
  · rcases hw with rfl | rfl | rfl | rfl | rfl
    · simp [hc, swWidth]
    · simp [hc, swWidth]
    · by_cases h : c / 2 ^ 10 % 2 ^ 5 = 31 <;> by_cases h' : c / 2 ^ 7 % 2 ^ 8 = 255 <;>
        simp_all [swWidth, swatchKind, mkSwatch_toNat, finCode, bitsAt]
    · by_cases h : c / 2 ^ 23 % 2 ^ 8 = 255 <;> simp_all [swWidth, swatchKind, mkSwatch_toNat, finCode, bitsAt]
    · by_cases h : c / 2 ^ 52 % 2 ^ 11 = 2047 <;> simp_all [swWidth, swatchKind, mkSwatch_toNat, finCode, bitsAt]

/-! The instructions. -/

section
variable {s : State} {m : BitVec 3} {d a b : BitVec 5} {p q : BitVec 6}

theorem State.grp_size_le (s : State) (d : BitVec 5) : (s.grp d).size ≤ 32 := Nat.le_trans s.ty_g_le (by decide)

/-- vsel writes every element below n: of va where active, of vb elsewhere (R184). -/
theorem exec_vsel (h : s.Groups m [] [d, a, b]) (hw : Width s.ty.w) :
    ∃ t, exec (.vsel m d a b) s = .next t ∧ VecWrote s t (s.grp d) s.ty.w (fun _ => true)
      (fun e => if s.act m e then s.strand.elem a.toNat s.ty.w e else s.strand.elem b.toNat s.ty.w e) 0 := by
  obtain ⟨hr, hn, hmax, hg⟩ := h
  have hgroups : allSameOr [s.grp d, s.grp a, s.grp b] = true := hg
  have ⟨_, _, hc, _⟩ := hr
  show ∃ t, execVsel m d a b s = .next t ∧ _
  unfold execVsel
  dsimp only
  rw [hgroups]
  refine State.vector_next hr rfl rfl fun loan hact _ => ?_
  rw [hact]
  obtain ⟨t, hnext, hwrote⟩ := State.elements_run hn hc hw (s.grp_size_le d) (noTrap_zero s fun _ => true)
    (op := fun e => .pure (if s.act m e then s.el a e else s.el b e))
  refine ⟨t, hnext, ?_⟩
  rw [← activeFlags_zero (fun _ => true) s.n]
  exact hwrote.congr fun e he => by simp only [FRes.pure, State.el_eq hw hmax _ he]

/-- vmov copies the active elements of va (R185). -/
theorem exec_vmov (h : s.Groups m [] [d, a]) (hw : Width s.ty.w) :
    s.Vectors (.vmov m d a) m d fun e => { code := s.strand.elem a.toNat s.ty.w e, fl := 0 } := by
  have ⟨hr, _, hmax, hg⟩ := h
  have hexec : exec (.vmov m d a) s = s.elementwise (.vmov m d a) true m d [a] [] fun e => .pure (s.el a e) := rfl
  exact State.vectors_elementwise hexec h hw hr rfl hg fun e he => ⟨by rw [FRes.pure, State.el_eq hw hmax a he], rfl⟩

/-- vmov leaves the general swatch on every member (R299). -/
theorem exec_vmov_swOf (h : s.Groups m [] [d, a]) (hw : Width s.ty.w) {t : State} (ht : exec (.vmov m d a) s = .next t) {j : Nat}
    (hj : j < s.ty.g) : t.swOf (d.toNat + j) = 0 := by
  obtain ⟨hr, hn, -, hg⟩ := h
  have ⟨_, _, hc, _⟩ := hr
  have hexec : exec (.vmov m d a) s = s.elements (s.grp d) s.ty.w (s.act m) none fun e => .pure (s.el a e) :=
    State.elementwise_run _ hr rfl hg
  exact State.elements_swOf hn hc hw (s.grp_size_le d) (hexec.symm.trans ht) hj

/-- vbrd gives the active elements the low bits of ga; unmasked, it gives every member the swatch of that code, and masked
the general one (R186). -/
theorem exec_vbrd (hr : s.LentReady m [p]) (hn : 0 < s.n) (hw : Width s.ty.w) :
    ∃ t, exec (.vbrd m d p) s = .next t ∧ VecWrote s t (s.grp d) s.ty.w (s.act m) (fun _ => (s.g p).toNat) 0
      ∧ ∀ j < s.ty.g, t.swOf (d.toNat + j)
          = if m = 0 ∧ s.hart.pfxs = 0 then constantSwatch s.ty.w ((s.g p).toNat % 2 ^ s.ty.w) else 0 := by
  have ⟨_, _, hc, _⟩ := hr
  show ∃ t, execVbrd m d p s = .next t ∧ _
  unfold execVbrd
  dsimp only
  refine State.vector_next hr rfl rfl fun loan hact hmask => ?_
  rw [if_neg (Nat.ne_of_gt hn), hact]
  generalize hcode : (s.g p).toNat % 2 ^ s.ty.w = code
  have hres : ∀ e < s.n, code % 2 ^ s.ty.w = (s.g p).toNat % 2 ^ s.ty.w := fun _ _ => by rw [← hcode, Nat.mod_mod]
  have hwhole := writeGroup_whole s 10 (s.grp d) (s.act m) (fun _ => code) hw (s.grp_size_le d)
  by_cases hm : m = 0 ∧ s.hart.pfxs = 0
  · obtain ⟨hvec, helems, htides, hothers⟩ := hwhole
    refine (State.finish_wrote hc ?_ (State.groupSw_keeps (brdSwatch s.ty.w code) hvec helems htides hothers)).imp
      fun t ⟨hnext, hwrote, hsw⟩ => ⟨hnext, hwrote.congr hres, fun j hj => ?_⟩
    · simp [State.writeDest, hmask.mpr hm]
    · rw [hsw, if_pos hm, ← brdSwatch_toNat hw]
      exact State.swOf_groupSw _ (s.grp d) _ _ _ hj
  · refine (State.finish_wrote hc ?_ hwhole).imp
      fun t ⟨hnext, hwrote, hsw⟩ => ⟨hnext, hwrote.congr hres, fun j hj => ?_⟩
    · simp [State.writeDest, mt hmask.mp hm]
    · rw [hsw, if_neg hm]
      exact s.swOf_writeGroup 10 (s.dest (s.grp d) s.ty.w s.n s.n (s.act m) fun _ => code) hj

/-- vidx counts from ga in steps of gb (R187). -/
theorem exec_vidx (h : s.Groups m [p, q] [d]) (hw : Width s.ty.w) (hint : s.ty.isInt8 = true) :
    s.Vectors (.vidx m d p q) m d fun e => { code := (s.g p).toNat + e * (s.g q).toNat, fl := 0 } := by
  have ⟨hr, _, _, hg⟩ := h
  have hexec : exec (.vidx m d p q) s = s.elementwise (.vidx m d p q) s.ty.isInt8 m d [] [p, q] fun e =>
      .pure (((s.g p).toNat + e * (s.g q).toNat) % 2 ^ s.ty.w) := rfl
  exact State.vectors_elementwise hexec h hw hr hint hg fun e _ => ⟨Nat.mod_mod _ _, rfl⟩

/-- vdraw gives the top bits of the words of its generator (R194). -/
theorem exec_vdraw (h : s.Groups m [p, q] [d]) (hw : Width s.ty.w) (hlo : 12 ≤ s.ty.fmt) (hhi : s.ty.fmt ≤ 15) :
    s.Vectors (.vdraw m d p q) m d fun e => { code := (drawWord (s.g p) (s.g q) e >>> (64 - s.ty.w)).toNat, fl := 0 } := by
  have ⟨hr, _, _, hg⟩ := h
  have hexec : exec (.vdraw m d p q) s = s.elementwise (.vdraw m d p q) (0x0C ≤ s.ty.fmt && s.ty.fmt ≤ 0x0F) m d [] [p, q] fun e =>
      .pure (drawWord (s.g p) (s.g q) e >>> (64 - s.ty.w)).toNat := rfl
  exact State.vectors_elementwise hexec h hw hr (by simp [hlo, hhi]) hg fun e _ => ⟨rfl, rfl⟩

end

/-- Settles O25: each instruction asks for some of the registers and groups that the statement readies. -/
theorem vectorMoves : Obligations.VectorMoves := by
  unfold Obligations.VectorMoves
  intro s m d a b p q h hw0
  have hw : Width s.ty.w := fmtWidth_width hw0
  obtain ⟨hr, hn, hmax, hg⟩ := h
  have hda : allSameOr [s.grp d, s.grp a] = true := allSameOr_sub hg
  have reads {rs : List (BitVec 6)} (hs : ∀ r ∈ rs, r ∈ [p, q]) : s.LentReady m rs := hr.mono hs
  have hvsel : s.Groups m [] [d, a, b] := ⟨reads (by simp), hn, hmax, hg⟩
  have hvmov : s.Groups m [] [d, a] := ⟨reads (by simp), hn, hmax, hda⟩
  have hscalar : s.Groups m [p, q] [d] := ⟨hr, hn, hmax, rfl⟩
  exact ⟨exec_vsel hvsel hw, exec_vmov hvmov hw, exec_vbrd (reads (by simp)) hn hw,
    fun _ ht _ hj => exec_vmov_swOf hvmov hw ht hj, exec_vidx hscalar hw, exec_vdraw hscalar hw⟩

end Sys2Proof.Machine
end
